-- ==== Sys2Proof/Word.lean ====
section
/-! DEFINITION. The word types of the bus fabric and their plainest arithmetic. -/

namespace Sys2Proof

/-- One byte of payload. -/
abbrev Byte := BitVec 8

/-- A byte address, `ADDR_WIDTH = 32` bits (R8, R50). -/
abbrev Addr := BitVec 32

/-- Protection attributes, `PROT_WIDTH = 4` opaque bits (R8, R58). -/
abbrev Prot := BitVec 4

/-- A 32-bit word: the value part of a data-phase or response word (R78, R79). -/
abbrev Word := BitVec 32

/-- Payload data: the bytes `d[0], …`, byte `i` belonging at address `A + i` (R11). -/
abbrev Data := List Byte

end Sys2Proof
end

