-- ==== Sys2Proof/Syntax.lean ====
section
/-! DEFINITION. The value types carried on the wires (R70 to R75) and the one syntax of the
operation table: a constructor of `Instr` for every row of spec/opcode_table.json. -/

namespace Sys2Proof

/-- Direction of a transfer (R70). -/
inductive Dir where
  | read
  | write
deriving DecidableEq, Repr

/-- Size of a transfer (R54, R70); the fourth code of the field is reserved (R81). -/
inductive Size where
  | byte
  | halfword
  | word
deriving DecidableEq, Repr

/-- Burst kind (R70); an incrementing burst is encoded and refused (R80). -/
inductive Burst where
  | single
  | increment
deriving DecidableEq, Repr

/-- What an address phase says of its transfer (R70). -/
structure TransferMeta where
  dir : Dir
  addr : Addr
  size : Size
  burst : Burst
  prot : Prot
deriving DecidableEq, Repr

/-- The four response codes (R75). -/
inductive Code where
  | success
  | pending
  | error1
  | error2
deriving DecidableEq, Repr

/-- The optional 32-bit value of a data-phase word (R78) or of a response word (R79): the presence
bit and the value bits. The value is 0 when `present` is false. -/
structure DataWord where
  present : Bool
  value : Word
deriving DecidableEq, Repr

/-- One row of spec/opcode_table.json each (R83, R84, R85). `p` is the number of the unit the word
is for: a master port, a slave, an output stage or a flop cell; bit `x` of `contenders` is set when
master `x` contends. The first seven are bus commands
(an address-phase word with the data-phase word that travels beside it, R73), the next six are
response words, the rest are interface operations. -/
inductive Instr where
  | idle (p : Nat) (ready : Bool) (dp : DataWord)
  | readB (p : Nat) (ready : Bool) (burst : Burst) (prot : Prot) (addr : Addr) (dp : DataWord)
  | readH (p : Nat) (ready : Bool) (burst : Burst) (prot : Prot) (addr : Addr) (dp : DataWord)
  | readW (p : Nat) (ready : Bool) (burst : Burst) (prot : Prot) (addr : Addr) (dp : DataWord)
  | writeB (p : Nat) (ready : Bool) (burst : Burst) (prot : Prot) (addr : Addr) (dp : DataWord)
  | writeH (p : Nat) (ready : Bool) (burst : Burst) (prot : Prot) (addr : Addr) (dp : DataWord)
  | writeW (p : Nat) (ready : Bool) (burst : Burst) (prot : Prot) (addr : Addr) (dp : DataWord)
  | success (p : Nat) (grant : Bool) (data : DataWord)
  | pending (p : Nat) (grant : Bool) (data : DataWord)
  | error1 (p : Nat) (grant : Bool) (data : DataWord)
  | error2 (p : Nat) (grant : Bool) (data : DataWord)
  | grant (p : Nat) (code : Code) (data : DataWord)
  | deny (p : Nat) (code : Code) (data : DataWord)
  | tryRequest (p : Nat) (t : TransferMeta)
  | tryForceCancel (p : Nat)
  | provideData (p : Nat) (size : Size) (value : Word)
  | transferDone (p : Nat) (t : TransferMeta) (value : Word)
  | transfersAborted (p : Nat) (t : TransferMeta) (next : Option TransferMeta)
  | read (p : Nat) (t : TransferMeta)
  | preWrite (p : Nat) (t : TransferMeta)
  | write (p : Nat) (t : TransferMeta) (value : Word) (isFinal : Bool)
  | setNext (p : Nat) (value : Word)
  | deref (p : Nat)
  | commit
  | decode (p : Nat) (addr : Addr)
  | arbitrateFixed (p : Nat) (contenders : Nat)
  | arbitrateRr (p : Nat) (contenders : Nat)
  | split (t : TransferMeta)
  | bbTranslate (p : Nat) (addr : Addr)
deriving DecidableEq, Repr

end Sys2Proof
end

