-- ==== Sys2Proof/Config.lean ====
section
/-! DEFINITION. The static parameters of a fabric instance (R8, R9), the instance that stands behind
`State.reset`, and the values the spec leaves free. -/

namespace Sys2Proof

/-- When an owner may withdraw an address phase (R8, R157). -/
inductive CancelMode where
  | forbidden
  | ambaStrict
  | cortexM
deriving DecidableEq, Repr

/-- Arbitration policy of an output stage (R8, R205). -/
inductive Arbiter where
  | fixedPriority
  | roundRobin
deriving DecidableEq, Repr

/-- One entry of a table that says where a byte mapping differs from the identity. -/
structure ReinterpretRow where
  xfer : TransferMeta
  src : Data
  dst : Data
deriving DecidableEq, Repr

/-- `REINTERPRET` (R8, R246): the two byte mappings of the truncate policy, as finite tables over
the identity. DESIGN CHOICE (log 10): the domain is finite, so every pair of functions is one. -/
structure Reinterpret where
  write : List ReinterpretRow
  read : List ReinterpretRow
deriving DecidableEq, Repr

/-- `ALIGN_POLICY` (R8, R233, R246). -/
inductive AlignPolicy where
  | split
  | truncateReinterpret (map : Reinterpret)
deriving DecidableEq, Repr

/-- One triple of `BB_REGIONS` (R261). The bounds are naturals because `aliasHi` may be `2^32`. -/
structure BandRegion where
  aliasLo : Nat
  aliasHi : Nat
  targetBase : Addr
deriving DecidableEq, Repr

/-- What a decoder's output port is connected to (R9): a Slave Driver, or input `x` of an Output
Stage. -/
inductive Target where
  | slave (s : Nat)
  | stage (o : Nat) (x : Nat)
deriving DecidableEq, Repr

/-- One slave tag of a decoder: its range `lo <= a < hi` (R181), what it is wired to (R9) and
`HAS_GRANTING_WIRE` (R74). The tag is the port's place in the list. -/
structure PortCfg where
  lo : Nat
  hi : Nat
  target : Target
  grantWire : Bool
deriving DecidableEq, Repr

/-- One transfer the stateless mock answers, and its answer (R187). -/
structure MockRow where
  xfer : TransferMeta
  data : Option Data
deriving DecidableEq, Repr

/-- The parameters of one master and its chain (R8, R9): `MasterDriver`, then an optional Aligner,
an optional Bitband Translator, then a Decoder. `mock` is `MOCK(d)` as a finite table, first match
(DESIGN CHOICE, log 10). The last three are `HAS_GRANTING_WIRE` of the chain's own ports (R8, R74): the
Master Driver's, and the ports downstream of the Aligner and of the Translator where the chain has
them. -/
structure MasterCfg where
  cancelMode : CancelMode
  cancelAddrOnError : Bool
  aligner : Option AlignPolicy
  bitband : Option (List BandRegion)
  ports : List PortCfg
  mock : List MockRow
  grantWire : Bool
  alignWire : Bool
  bandWire : Bool
deriving DecidableEq, Repr

/-- The parameters of one Output Stage (R8, R200): its arbiter, `N_MASTERS` and its slave. -/
structure StageCfg where
  arbiter : Arbiter
  inputs : Nat
  slave : Nat
deriving DecidableEq, Repr

/-- The parameters of one Slave Driver: `COMB_WRITE` (R8, R130). -/
structure SlaveCfg where
  combWrite : Bool
deriving DecidableEq, Repr

/-- A whole instance: `Config` and `Topology` (R8, R9). -/
structure Config where
  masters : List MasterCfg
  stages : List StageCfg
  slaves : List SlaveCfg
deriving DecidableEq, Repr

/-- The default `BB_REGIONS` that the spec offers (R261). -/
def Config.bandRegions : List BandRegion :=
  [⟨0x22000000, 0x24000000, 0x20000000⟩, ⟨0x42000000, 0x44000000, 0x40000000⟩]

/-- The instance behind `State.reset`. DESIGN CHOICE (log 8): the spec gives no instance but V1's
ranges; this one has each kind of component once at least. Master 0 has V1's slaves `X` and `Y`, an
Aligner and a Bitband Translator; both masters share slave 2 by round robin and slave 3 by fixed
priority. Parameters with a default in R8 have it. -/
def Config.default : Config where
  masters := [
    { cancelMode := .cortexM
      cancelAddrOnError := false
      aligner := some .split
      bitband := some Config.bandRegions
      ports := [⟨0x10, 0x20, .slave 0, false⟩, ⟨0x20, 0x30, .slave 1, false⟩,
        ⟨0x1000, 0x2000, .stage 0 0, true⟩, ⟨0x20000000, 0x20001000, .stage 1 0, true⟩]
      mock := []
      grantWire := true
      alignWire := true
      bandWire := true },
    { cancelMode := .cortexM
      cancelAddrOnError := false
      aligner := none
      bitband := none
      ports := [⟨0x1000, 0x2000, .stage 0 1, true⟩, ⟨0x20000000, 0x20001000, .stage 1 1, true⟩]
      mock := []
      grantWire := true
      alignWire := true
      bandWire := true }]
  stages := [⟨.roundRobin, 2, 2⟩, ⟨.fixedPriority, 2, 3⟩]
  slaves := [⟨false⟩, ⟨false⟩, ⟨false⟩, ⟨true⟩]

/-- Whether an external handler of stream `stream` answers `Pending` to its `n`-th call. Free: the
handler is the model's oracle (R18, R123; log 9). -/
opaque Config.freePending (stream n : Nat) : Bool

/-- The bytes an external handler of stream `stream` gives in its `n`-th answer. Free (R18, R123;
log 9). -/
opaque Config.freeWord (stream n : Nat) : Word

end Sys2Proof
end

