-- ==== Sys2Proof/WellFormed.lean ====
section
/-! DEFINITION. Which terms of `Instr` have an encoding. The typed fields already exclude the
reserved size code (R81); what is left is that an absent payload has the value 0 (R78, R79), that the
value operand of an interface operation fits the size it is given with, as R78 has it for payloads, and
that a finished write has no result (R162). -/

namespace Sys2Proof

/-- `bytes(size)` (R70). -/
def Size.bytes : Size → Nat
  | .byte => 1
  | .halfword => 2
  | .word => 4

/-- The value has no bit at or above `8 * bytes(size)`. -/
def Size.fits (z : Size) (v : Word) : Bool :=
  v.toNat < 2 ^ (8 * z.bytes)

/-- When the word says that nothing is present the rest of it is 0 (R78, R79). -/
def DataWord.wf (d : DataWord) : Bool :=
  d.present || d.value == 0

/-- Whether the word may travel beside the transfer `x` in data phase: bytes at and above
`bytes(x.size)` are 0 (R78). With nothing in data phase there is no size to hold it to (log 6). -/
def DataWord.fits (d : DataWord) (x : Option TransferMeta) : Bool :=
  !d.present || x.all fun t => t.size.fits d.value

/-- The checks an instruction must pass to have an encoding. -/
def Instr.wf : Instr → Bool
  | .idle _ _ dp => dp.wf
  | .readB _ _ _ _ _ dp => dp.wf
  | .readH _ _ _ _ _ dp => dp.wf
  | .readW _ _ _ _ _ dp => dp.wf
  | .writeB _ _ _ _ _ dp => dp.wf
  | .writeH _ _ _ _ _ dp => dp.wf
  | .writeW _ _ _ _ _ dp => dp.wf
  | .success _ _ d => d.wf
  | .pending _ _ d => d.wf
  | .error1 _ _ d => d.wf
  | .error2 _ _ d => d.wf
  | .grant _ _ d => d.wf
  | .deny _ _ d => d.wf
  | .tryRequest _ _ => true
  | .tryForceCancel _ => true
  | .provideData _ z v => z.fits v
  | .transferDone _ t v => if t.dir = .read then t.size.fits v else v = 0
  | .transfersAborted _ _ _ => true
  | .read _ _ => true
  | .preWrite _ _ => true
  | .write _ t v _ => t.size.fits v
  | .setNext _ _ => true
  | .deref _ => true
  | .commit => true
  | .decode _ _ => true
  | .arbitrateFixed _ _ => true
  | .arbitrateRr _ _ => true
  | .split _ => true
  | .bbTranslate _ _ => true

end Sys2Proof
end

