-- ==== Sys2Proof/Decode.lean ====
section
/-! DEFINITION. From words to instructions and back. The layouts of address-phase, data-phase and
response words are R77, R78, R79; the tags of the interface operations are R85. How words are
packed into bytes, and the operand fields behind a tag, are the model's (DESIGN CHOICE, log 2, 3). -/

namespace Sys2Proof

/-- Which kind of word a packet carries. A response word names a code row and a grant row of the
table at once (R79); `response` reads it as its code, `grantWire` as its grant (log 2). -/
inductive Format where
  | addressPhase
  | response
  | grantWire
  | call
deriving DecidableEq, Repr

/-- A word on its way into the machine: its kind, the unit it is for, and its bytes, the lowest
first. -/
structure Packet where
  fmt : Format
  unit : Nat
  bytes : List Byte
deriving DecidableEq, Repr

/-- Why a packet spells no instruction. Which of several reasons is named is a DESIGN CHOICE (log 26). -/
inductive Reject where
  /-- Not a number of bytes its kind has (R82, log 3). -/
  | wrongLength
  /-- The fourth code of a size field (R81). -/
  | reservedSize
  /-- A bit outside every field, a value wider than its size, or a value beside a cleared presence bit
  (R78, R79). -/
  | reservedBits
  /-- A tag that names no operation (R85). -/
  | unknownTag
deriving DecidableEq, Repr

/-- The number a little-endian byte list spells. -/
def natOfBytes : List Byte → Nat
  | [] => 0
  | b :: bs => b.toNat + 256 * natOfBytes bs

/-- The `k` lowest bytes of a number, the lowest first. -/
def bytesOfNat : Nat → Nat → List Byte
  | 0, _ => []
  | k + 1, n => BitVec.ofNat 8 n :: bytesOfNat k (n / 256)

/-- The `n` bits of `w` from bit `lo` up, `w[lo+n-1:lo]` (R10). -/
def field (w lo n : Nat) : Nat :=
  w / 2 ^ lo % 2 ^ n

/-- One bit of a word, `w[i]` (R10). -/
def flag (w i : Nat) : Bool :=
  field w i 1 == 1

/-- How many bytes a packet of each kind has: address-phase and data-phase word in 6 and 5 bytes,
a response word in 5, an interface operation in 16 at least. -/
def Format.length : Format → Nat
  | .addressPhase => 11
  | .response => 5
  | .grantWire => 5
  | .call => 16

/-- The least number of bytes a number needs, for a number not above `fuel`. -/
def byteCount : Nat → Nat → Nat
  | 0, _ => 0
  | fuel + 1, n => if n = 0 then 0 else byteCount fuel (n / 256) + 1

/-- How many bytes the packet around a word has. Only an interface operation with a set of contenders,
which R206 and R207 do not bound, can be longer than its kind's length (log 3). -/
def Format.lengthFor (f : Format) (w : Nat) : Nat :=
  match f with
  | .addressPhase => f.length
  | .response => f.length
  | .grantWire => f.length
  | .call => max f.length (byteCount w w)

/-- Whether bytes have a length their kind of packet has: a longer interface operation has no leading
zero byte. -/
def Format.admits (f : Format) (l : List Byte) : Bool :=
  l.length == f.length || (f == .call && decide (f.length < l.length) && l.getLast? != some 0)

/-- The size field (R77). -/
def sizeOfCode : Nat → Except Reject Size
  | 0 => .ok .byte
  | 1 => .ok .halfword
  | 2 => .ok .word
  | _ => .error .reservedSize

/-- The response code field (R79). -/
def codeOfBits : Nat → Code
  | 0 => .success
  | 1 => .pending
  | 2 => .error1
  | _ => .error2

/-- The direction field (R77). -/
def dirOfBit (b : Bool) : Dir :=
  if b then .write else .read

/-- The burst field (R77, R80). -/
def burstOfBit (b : Bool) : Burst :=
  if b then .increment else .single

/-- A data-phase word (R78). -/
def dataWordOfBits (w : Nat) : DataWord :=
  ⟨flag w 0, BitVec.ofNat 32 (field w 1 32)⟩

/-- Bits 41 to 2 of an address-phase word, which spell the transfer (R77). -/
def metaOfBits (w : Nat) : Except Reject TransferMeta :=
  (sizeOfCode (field w 1 2)).map fun z =>
    { dir := dirOfBit (flag w 0), addr := BitVec.ofNat 32 (field w 8 32), size := z,
      burst := burstOfBit (flag w 3), prot := BitVec.ofNat 4 (field w 4 4) }

/-- The bus command that presents a transfer (R83). -/
def busCommand (p : Nat) (ready : Bool) (t : TransferMeta) (dp : DataWord) : Instr :=
  match t.dir, t.size with
  | .read, .byte => .readB p ready t.burst t.prot t.addr dp
  | .read, .halfword => .readH p ready t.burst t.prot t.addr dp
  | .read, .word => .readW p ready t.burst t.prot t.addr dp
  | .write, .byte => .writeB p ready t.burst t.prot t.addr dp
  | .write, .halfword => .writeH p ready t.burst t.prot t.addr dp
  | .write, .word => .writeW p ready t.burst t.prot t.addr dp

/-- Accept an instruction only if its values fit (R78, R79). -/
def ifWf (i : Instr) : Except Reject Instr :=
  if i.wf then .ok i else .error .reservedBits

/-- An address-phase word in bits 47 to 0 with a data-phase word in bits 80 to 48. An idle word's
bits 41 to 2 are not read (R77). -/
def decodeAddressPhase (p w : Nat) : Except Reject Instr :=
  if field w 42 6 ≠ 0 ∨ field w 81 7 ≠ 0 then .error .reservedBits
  else if flag w 0 then
    (metaOfBits (field w 2 40)).bind fun t =>
      ifWf (busCommand p (flag w 1) t (dataWordOfBits (field w 48 33)))
  else ifWf (.idle p (flag w 1) (dataWordOfBits (field w 48 33)))

/-- A response word read as its code (R79, R84). -/
def decodeResponse (p w : Nat) : Except Reject Instr :=
  if field w 36 4 ≠ 0 then .error .reservedBits
  else match codeOfBits (field w 0 2) with
    | .success => ifWf (.success p (flag w 2) (dataWordOfBits (field w 3 33)))
    | .pending => ifWf (.pending p (flag w 2) (dataWordOfBits (field w 3 33)))
    | .error1 => ifWf (.error1 p (flag w 2) (dataWordOfBits (field w 3 33)))
    | .error2 => ifWf (.error2 p (flag w 2) (dataWordOfBits (field w 3 33)))

/-- A response word read as its grant (R79, R84). -/
def decodeGrantWire (p w : Nat) : Except Reject Instr :=
  if field w 36 4 ≠ 0 then .error .reservedBits
  else if flag w 2 then ifWf (.grant p (codeOfBits (field w 0 2)) (dataWordOfBits (field w 3 33)))
  else ifWf (.deny p (codeOfBits (field w 0 2)) (dataWordOfBits (field w 3 33)))

/-- An operand that is one transfer, and nothing above it. -/
def metaOperand (r : Nat) (f : TransferMeta → Instr) : Except Reject Instr :=
  if r < 2 ^ 40 then (metaOfBits r).map f else .error .reservedBits

/-- An operand that is one 32-bit value, and nothing above it. -/
def wordOperand (r : Nat) (f : BitVec 32 → Instr) : Except Reject Instr :=
  if r < 2 ^ 32 then .ok (f (BitVec.ofNat 32 r)) else .error .reservedBits

/-- No operand. -/
def noOperand (r : Nat) (i : Instr) : Except Reject Instr :=
  if r = 0 then .ok i else .error .reservedBits

/-- `provide_data`: size in bits 7 to 0, value in bits 39 to 8 of the operand. -/
def decodeProvideData (p r : Nat) : Except Reject Instr :=
  if r < 2 ^ 40 then
    (sizeOfCode (field r 0 8)).bind fun z => ifWf (.provideData p z (BitVec.ofNat 32 (field r 8 32)))
  else .error .reservedBits

/-- `transfer_done`: transfer in bits 39 to 0, value in bits 71 to 40. -/
def decodeTransferDone (p r : Nat) : Except Reject Instr :=
  if r < 2 ^ 72 then
    (metaOfBits (field r 0 40)).bind fun t => ifWf (.transferDone p t (BitVec.ofNat 32 (field r 40 32)))
  else .error .reservedBits

/-- `transfers_aborted`: first transfer in bits 39 to 0, presence of a second in bit 40, the second
in bits 80 to 41. -/
def decodeTransfersAborted (p r : Nat) : Except Reject Instr :=
  if r < 2 ^ 81 then
    (metaOfBits (field r 0 40)).bind fun t =>
      if flag r 40 then (metaOfBits (field r 41 40)).map fun u => .transfersAborted p t (some u)
      else if field r 41 40 = 0 then .ok (.transfersAborted p t none)
      else .error .reservedBits
  else .error .reservedBits

/-- `write`: transfer in bits 39 to 0, `is_final` in bit 40, value in bits 72 to 41. -/
def decodeWrite (p r : Nat) : Except Reject Instr :=
  if r < 2 ^ 73 then
    (metaOfBits (field r 0 40)).bind fun t =>
      ifWf (.write p t (BitVec.ofNat 32 (field r 41 32)) (flag r 40))
  else .error .reservedBits

/-- An interface operation: the tag of R85 in bits 7 to 0, the operands above it. -/
def decodeCall (p w : Nat) : Except Reject Instr :=
  let r := w / 256
  match w % 256 with
  | 0x00 => metaOperand r (.tryRequest p)
  | 0x01 => noOperand r (.tryForceCancel p)
  | 0x02 => decodeProvideData p r
  | 0x03 => decodeTransferDone p r
  | 0x04 => decodeTransfersAborted p r
  | 0x08 => metaOperand r (.read p)
  | 0x09 => metaOperand r (.preWrite p)
  | 0x0A => decodeWrite p r
  | 0x10 => wordOperand r (.setNext p)
  | 0x11 => noOperand r (.deref p)
  | 0x12 => noOperand r .commit
  | 0x18 => wordOperand r (.decode p)
  | 0x19 => .ok (.arbitrateFixed p r)
  | 0x1A => .ok (.arbitrateRr p r)
  | 0x1B => metaOperand r .split
  | 0x1C => wordOperand r (.bbTranslate p)
  | _ => .error .unknownTag

/-- The decoder: total on any packet. -/
def decode (k : Packet) : Except Reject Instr :=
  if k.fmt.admits k.bytes = false then .error .wrongLength
  else match k.fmt with
    | .addressPhase => decodeAddressPhase k.unit (natOfBytes k.bytes)
    | .response => decodeResponse k.unit (natOfBytes k.bytes)
    | .grantWire => decodeGrantWire k.unit (natOfBytes k.bytes)
    | .call => decodeCall k.unit (natOfBytes k.bytes)

/-! The encoder, from the same tables. -/

/-- The size field (R77). -/
def Size.bits : Size → Nat
  | .byte => 0
  | .halfword => 1
  | .word => 2

/-- The response code field (R79). -/
def Code.bits : Code → Nat
  | .success => 0
  | .pending => 1
  | .error1 => 2
  | .error2 => 3

/-- The direction field (R77). -/
def Dir.bits : Dir → Nat
  | .read => 0
  | .write => 1

/-- The burst field (R77). -/
def Burst.bits : Burst → Nat
  | .single => 0
  | .increment => 1

/-- A data-phase word `DPW`, or bits 35 to 3 of a response word (R78, R79). -/
def DataWord.bits (d : DataWord) : Nat :=
  d.present.toNat + 2 * d.value.toNat

/-- Bits 41 to 2 of an address-phase word (R77). -/
def TransferMeta.bits (t : TransferMeta) : Nat :=
  t.dir.bits + 2 * t.size.bits + 8 * t.burst.bits + 16 * t.prot.toNat + 256 * t.addr.toNat

/-- The address-phase word `APW` of a presented transfer (R77). -/
def apwOf (ready : Bool) (t : TransferMeta) : Nat :=
  1 + 2 * ready.toNat + 4 * t.bits

/-- The response word `RSW` (R79). -/
def rswOf (c : Code) (grant : Bool) (d : DataWord) : Nat :=
  c.bits + 4 * grant.toNat + 8 * d.bits

/-- A packet of one kind around a word. -/
def packetOf (fmt : Format) (p w : Nat) : Packet :=
  ⟨fmt, p, bytesOfNat (fmt.lengthFor w) w⟩

/-- The packet of a bus command: `APW` in the low 48 bits, `DPW` above. -/
def encodeBus (p : Nat) (ready : Bool) (t : TransferMeta) (dp : DataWord) : Packet :=
  packetOf .addressPhase p (apwOf ready t + 2 ^ 48 * dp.bits)

/-- The packet of an interface operation: tag, then operands. -/
def encodeCall (p tag r : Nat) : Packet :=
  packetOf .call p (tag + 256 * r)

/-- The words of an instruction. -/
def encode : Instr → Packet
  | .idle p r dp => packetOf .addressPhase p (2 * r.toNat + 2 ^ 48 * dp.bits)
  | .readB p r b q a dp => encodeBus p r ⟨.read, a, .byte, b, q⟩ dp
  | .readH p r b q a dp => encodeBus p r ⟨.read, a, .halfword, b, q⟩ dp
  | .readW p r b q a dp => encodeBus p r ⟨.read, a, .word, b, q⟩ dp
  | .writeB p r b q a dp => encodeBus p r ⟨.write, a, .byte, b, q⟩ dp
  | .writeH p r b q a dp => encodeBus p r ⟨.write, a, .halfword, b, q⟩ dp
  | .writeW p r b q a dp => encodeBus p r ⟨.write, a, .word, b, q⟩ dp
  | .success p g d => packetOf .response p (rswOf .success g d)
  | .pending p g d => packetOf .response p (rswOf .pending g d)
  | .error1 p g d => packetOf .response p (rswOf .error1 g d)
  | .error2 p g d => packetOf .response p (rswOf .error2 g d)
  | .grant p c d => packetOf .grantWire p (rswOf c true d)
  | .deny p c d => packetOf .grantWire p (rswOf c false d)
  | .tryRequest p t => encodeCall p 0x00 t.bits
  | .tryForceCancel p => encodeCall p 0x01 0
  | .provideData p z v => encodeCall p 0x02 (z.bits + 2 ^ 8 * v.toNat)
  | .transferDone p t v => encodeCall p 0x03 (t.bits + 2 ^ 40 * v.toNat)
  | .transfersAborted p t none => encodeCall p 0x04 t.bits
  | .transfersAborted p t (some u) => encodeCall p 0x04 (t.bits + 2 ^ 40 * (1 + 2 * u.bits))
  | .read p t => encodeCall p 0x08 t.bits
  | .preWrite p t => encodeCall p 0x09 t.bits
  | .write p t v f => encodeCall p 0x0A (t.bits + 2 ^ 40 * (f.toNat + 2 * v.toNat))
  | .setNext p v => encodeCall p 0x10 v.toNat
  | .deref p => encodeCall p 0x11 0
  | .commit => encodeCall 0 0x12 0
  | .decode p a => encodeCall p 0x18 a.toNat
  | .arbitrateFixed p c => encodeCall p 0x19 c
  | .arbitrateRr p c => encodeCall p 0x1A c
  | .split t => encodeCall 0 0x1B t.bits
  | .bbTranslate p a => encodeCall p 0x1C a.toNat

/-! Words as spec/opcode_table.json numbers them. -/

/-- The packet of a table word for unit 0, operands above the table's bits all 0. A row of 42 bits
is an address-phase word, of 36 a response word, of 8 an interface operation. A response word is
in two rows; it is read as its code when its data-present bit equals its grant bit, else as its
grant, which gives both kinds of row words of their own (DESIGN CHOICE, log 2). -/
def packetOfTable (nbits w : Nat) : Packet :=
  if nbits ≤ 8 then packetOf .call 0 (w % 2 ^ nbits)
  else if nbits ≤ 40 then
    packetOf (if flag w 3 == flag w 2 then .response else .grantWire) 0 (w % 2 ^ nbits)
  else packetOf .addressPhase 0 (w % 2 ^ nbits)

/-- The instruction the decoder reads from a table word. -/
def decodeTableWord (nbits w : Nat) : Option Instr :=
  (decode (packetOfTable nbits w)).toOption

end Sys2Proof
end

