-- ==== Sys2Proof/Machine/State.lean ====
section
/-! DEFINITION. The state of the fabric as plain data: every flop of R24 to R31, the static
parameters beside the component they belong to (R8, R9, R33), the collaborators a run needs
(handlers, R121), and the model's own fields (the inbox and what the last step showed). -/

namespace Sys2Proof.Machine

open Sys2Proof

/-- The reasons a step stops with a fault: the violations of R302 and the unpredictable inputs of
R304. Each ends the run (R303). All are the spec's own, so stopping there is safe. -/
inductive Fault where
  /-- Raised by `set_next` on a `Plain` cell that already has a `next` (R102). Safe. -/
  | flopWrittenTwice
  /-- Raised by `deref` of a cell with no committed value (R103). Safe. -/
  | flopReadUnset
  /-- Raised by `deref` of a committed value already read (R103). Safe. -/
  | flopReadTwice
  /-- Raised by `commit` over a committed value never read (R104). Safe. -/
  | flopUnreadOverwritten
  /-- Raised by an owner's call while `md.phase` is not `TickExtra` (R152). Safe. -/
  | callOutsideTick
  /-- Raised by a response to a Master Driver not in `SentMessages` (R152). Safe. -/
  | responseWithoutMessage
  /-- Raised by a commit of a Master Driver not in `GotMessages` (R152). Safe. -/
  | cycleWithoutResponse
  /-- Raised by `provide_data` with no write in data phase, twice, or of wrong length (R156). Safe. -/
  | unexpectedData
  /-- Raised by a write in data phase with no payload (R158, R130, R186, R235, R264). Safe. -/
  | missingWriteData
  /-- Raised by a master that receives something other than `Error2` after `Error1` (R159). Safe. -/
  | error1NotFollowedByError2
  /-- Raised by a master that receives `Error2` not after `Error1` (R159). Safe. -/
  | error2WithoutError1
  /-- Raised by a not-`Success` response while nothing is in data phase (R159, R237, R265). Safe. -/
  | responseWithoutTransfer
  /-- Raised by read data absent or not `bytes(size)` long on `Success` (R123, R162, R237, R265).
  Safe. -/
  | badReadWidth
  /-- Raised by `ap.ready` at a slave whose last code was `Pending` or `Error1` (R125). Safe. -/
  | readyDuringHold
  /-- Raised by a payload during a read's data phase (R128). Safe. -/
  | payloadOnRead
  /-- Raised by a payload while the slave has nothing in data phase (R127). Safe. -/
  | payloadWithoutWrite
  /-- Raised under `STRICT_HOLD` by a different address phase during a hold (R183). Safe. -/
  | addressChangedDuringHold
  /-- Raised by a mock's answer of the wrong shape (R187). Safe. -/
  | badMock
  /-- Raised by a presented alias access whose address is not that of an alias word (R263). Safe. -/
  | unalignedBitband
  /-- Raised by a transfer with `burst = Increment` wherever it arrives (R80, R54). Safe. -/
  | burstNotModelled
deriving DecidableEq, Repr

/-- Why `R333` refuses a configuration. -/
inductive ConfigFault where
  /-- Two ranges of one decoder overlap, or one has `lo >= hi` (R181). -/
  | ranges
  /-- A bitband region breaks R261. -/
  | bandRegions
  /-- An output stage has no input, or its slave or a decoder's target does not exist (R9). -/
  | wiring
  /-- A slave or a stage input is driven by no port or by more than one (R9, R333). -/
  | unconnected
  /-- A port of an output stage is declared without granting wire (R333). -/
  | grantWire
  /-- A `REINTERPRET` table changes a length (R246). -/
  | reinterpret
deriving DecidableEq, Repr

/-- The reasons the machine gives no meaning. -/
inductive Refusal where
  /-- Raised by `exec` for an instruction with no meaning yet. Safe. -/
  | notModelled (mnemonic : String)
  /-- Raised by an operation at a master port the topology does not have. Safe. -/
  | noSuchMaster (p : Nat)
  /-- Raised by a handler call at a slave the topology does not have. Safe. -/
  | noSuchSlave (p : Nat)
  /-- Raised by an arbitration at an output stage the topology does not have. Safe. -/
  | noSuchStage (p : Nat)
  /-- Raised by a flop operation on a cell the state does not have. Safe. -/
  | noSuchCell (p : Nat)
  /-- Raised by `step` on a packet that spells no instruction (R81), and by `exec` on a word whose value
  has bytes above the size of the transfer in data phase, which R78 has as 0 (log 6). Safe. -/
  | invalidWord (why : Reject)
  /-- Raised before cycle 0 on a configuration that breaks R333. Safe. -/
  | badConfig (why : ConfigFault)
deriving DecidableEq, Repr

/-- Why a held address phase was held (R24, R32). -/
inductive Hold where
  | fresh
  | stalled
  | denied
deriving DecidableEq, Repr

/-- Position of a Master Driver inside the cycle (R152). -/
inductive Phase where
  | tickExtra
  | runDriver
  | sentMessages
  | gotMessages
deriving DecidableEq, Repr

/-- A Master Driver's flops (R24). -/
structure MasterDriver where
  addrSlot : Option (TransferMeta × Hold)
  dataSlot : Option TransferMeta
  wdata : Option Data
  cancelled : Option TransferMeta
  lastCode : Code
  lastGrant : Bool
  phase : Phase
deriving DecidableEq, Repr

/-- A Slave Driver's flops, and the default slave's (R25). -/
structure SlaveDriver where
  addrSlot : Option TransferMeta
  dataSlot : Option TransferMeta
  lastCode : Code
deriving DecidableEq, Repr

/-- A slave tag of a decoder: a port of its configuration, or `Default` (R26). -/
inductive Tag where
  | dflt
  | port (k : Nat)
deriving DecidableEq, Repr

/-- A Decoder's flops (R26) and the default slave behind its port `Default` (R186). -/
structure Decoder where
  addrRoute : Option Tag
  addrMeta : Option TransferMeta
  dataRoute : Tag
  lastCode : Code
  ds : SlaveDriver
deriving DecidableEq, Repr

/-- The unaligned transfer an Aligner is carrying out (R29). -/
structure Split where
  xfer : TransferMeta
  next : Nat
  cur : Option Nat
  acc : Data
deriving DecidableEq, Repr

/-- An Aligner's flops (R29). -/
structure Aligner where
  split : Option Split
  dnCode : Code
  dnGrant : Bool
deriving DecidableEq, Repr

/-- What the write states of a Bitband Translator carry (R30, R268). -/
structure BandWrite where
  addr : Addr
  bit : Fin 32
  prot : Prot
deriving DecidableEq, Repr

/-- The states of a Bitband Translator (R30). -/
inductive BandState where
  | normal
  | bitbandRead (bit : Fin 32) (size : Size)
  | bitbandWriteReading (r : BandWrite)
  | bitbandWriteRequestWriting (r : BandWrite) (word : Data)
  | bitbandWriteWritingFirstCycle (r : BandWrite) (word : Data)
  | bitbandWriteWriting (r : BandWrite) (word : Data)
deriving DecidableEq, Repr

/-- A Bitband Translator's flops (R30). -/
structure Translator where
  state : BandState
  dnCode : Code
  dnGrant : Bool
deriving DecidableEq, Repr

/-- One master's chain (R9): its parameters and its components. Where the chain has no Aligner or no
Translator the record stands unused at its reset value. -/
structure Chain where
  cfg : MasterCfg
  md : MasterDriver
  al : Aligner
  bb : Translator
  dec : Decoder
deriving DecidableEq, Repr

/-- An Output Stage: its parameters, its flops (R27) and its arbiter's (R28). Under `FixedPriority`
the arbiter has no flop; `rrHead` stands there unused by any cycle, at 0 from reset on (DESIGN CHOICE,
log 23). -/
structure Stage where
  cfg : StageCfg
  addrRoute : Option Nat
  dataRoute : Option Nat
  lastCode : Code
  rrHead : Nat
deriving DecidableEq, Repr

/-- One answer of a handler: `Success`, with the data of a read, or `Pending` (R121). -/
inductive Answer where
  | success (data : Data)
  | pending
deriving DecidableEq, Repr

/-- A byte store as (address, byte) pairs. Canonical: addresses rise strictly, no byte is `00`,
which is what an unlisted address reads as (95_test_vectors.md section 2). -/
abbrev Memory := List Host.Cell

/-- The peripheral behind a Slave Driver (R121): the reference handler `RAM` (95_test_vectors.md
section 2), or an external one whose answers are given: queued ones first, then free ones of its
stream (R18, log 9). -/
inductive Handler where
  | ram (mem : Memory) (waits : List Nat) (rem : Option Nat)
  | external (queue : List Answer) (stream taken : Nat)
deriving DecidableEq, Repr

/-- A slave: its parameters, its Slave Driver and its handler. -/
structure Slave where
  cfg : SlaveCfg
  sd : SlaveDriver
  handler : Handler
deriving DecidableEq, Repr

/-- The static kind of a flop cell (R101). -/
inductive FlopKind where
  | plain
  | combinational
deriving DecidableEq, Repr

/-- A flop cell of 32 bits (R31, R101). -/
structure Flop where
  kind : FlopKind
  cur : Option Word
  curRead : Bool
  next : Option Word
deriving DecidableEq, Repr

/-- What goes downstream on a port in one cycle (R71 to R73): the presented transfer (`none` when the
address phase is idle), its `ready` flag, and the payload of the data phase. -/
structure M2S where
  req : Option TransferMeta
  ready : Bool
  payload : Option Data
deriving DecidableEq, Repr

/-- What comes upstream on a port in one cycle (R74). -/
structure S2M where
  code : Code
  data : Option Data
  grant : Bool
deriving DecidableEq, Repr

/-- What the last cycle carried on a master port, and the port its response came from, the
destination tag of R190. -/
structure PortWires where
  down : M2S
  up : S2M
  tag : Tag
deriving DecidableEq, Repr

/-- The calls between the fabric and its collaborators (R121, R151). -/
inductive Event where
  | transferDone (p : Nat) (t : TransferMeta) (result : Option Data)
  | transfersAborted (p : Nat) (l : List TransferMeta)
  | handlerRead (s : Nat) (t : TransferMeta) (a : Answer)
  | handlerPreWrite (s : Nat) (t : TransferMeta) (a : Answer)
  | handlerWrite (s : Nat) (t : TransferMeta) (d : Data) (isFinal : Bool) (a : Answer)
deriving DecidableEq, Repr

/-- What an interface operation returned (R85). -/
inductive Ret where
  | unit
  | bool (b : Bool)
  | value (v : Word)
  | tag (t : Option Tag)
  | master (x : Option Nat)
  | chunks (l : List (Nat × Nat))
  | bit (w : Option (Addr × Fin 32))
  | answer (a : Answer)
deriving DecidableEq, Repr

/-- The machine. The first three fields are the fabric with its handlers, `cells` the free-standing
flops; the last four are the model's own (log 1, 13). -/
structure State where
  chains : List Chain
  stages : List Stage
  slaves : List Slave
  cells : List Flop
  inbox : List Packet
  ret : Ret
  out : List Event
  wires : List PortWires
deriving DecidableEq, Repr

/-- A Master Driver after reset (R24). -/
def MasterDriver.reset : MasterDriver := ⟨none, none, none, none, .success, true, .tickExtra⟩

/-- A Slave Driver or default slave after reset (R25). -/
def SlaveDriver.reset : SlaveDriver := ⟨none, none, .success⟩

/-- A Decoder after reset (R26). -/
def Decoder.reset : Decoder := ⟨none, none, .dflt, .success, .reset⟩

/-- An Aligner after reset (R29). -/
def Aligner.reset : Aligner := ⟨none, .success, true⟩

/-- A Bitband Translator after reset (R30). -/
def Translator.reset : Translator := ⟨.normal, .success, true⟩

/-- A chain after reset (R39). -/
def Chain.reset (c : MasterCfg) : Chain := ⟨c, .reset, .reset, .reset, .reset⟩

/-- An Output Stage after reset (R27, R28). -/
def Stage.reset (c : StageCfg) : Stage := ⟨c, none, none, .success, 0⟩

/-- A slave after reset, with the handler `RAM` of empty store that never waits (log 9). -/
def Slave.reset (c : SlaveCfg) : Slave := ⟨c, .reset, .ram [] [] none⟩

/-- A flop cell after reset (R31). -/
def Flop.reset (k : FlopKind) : Flop := ⟨k, none, false, none⟩

/-- A fabric of a given configuration after reset (R39, R330). -/
def State.ofConfig (c : Config) : State where
  chains := c.masters.map Chain.reset
  stages := c.stages.map Stage.reset
  slaves := c.slaves.map Slave.reset
  cells := [.reset .plain, .reset .combinational]
  inbox := []
  ret := .unit
  out := []
  wires := []

/-- The machine right after reset (R39, R330), of the configuration `Config.default` (log 8). -/
def State.reset : State := .ofConfig .default

/-- The static configuration a state runs under (R33). -/
def State.config (s : State) : Config :=
  ⟨s.chains.map Chain.cfg, s.stages.map Stage.cfg, s.slaves.map Slave.cfg⟩

end Sys2Proof.Machine
end

