-- ==== Sys2Proof/Machine/Operands.lean ====
section
/-! DEFINITION. The operands computed from an address-phase word (R86) and the rest of the fabric's
arithmetic (R87): alignment, the chunk list, decoding, bit-band translation, bits of data words. -/

namespace Sys2Proof.Machine

open Sys2Proof

/-- `val(d)`: the number a byte sequence is, little-endian (R11). -/
def dataVal (d : Data) : Nat :=
  natOfBytes d

/-- `bytes_k(v)`, the inverse of `val` (R11). -/
def dataOf (k v : Nat) : Data :=
  bytesOfNat k v

/-- The payload of a data-phase or response word for a transfer of size `z`: the word carries no
length, the transfer's size does (R78, R79). -/
def wordData (z : Size) (v : Word) : Data :=
  dataOf z.bytes v.toNat

/-- `bytes(t.size)`. -/
def xferBytes (t : TransferMeta) : Nat :=
  t.size.bytes

/-- Whether `d` has exactly `bytes(t.size)` bytes. -/
def dataFits (t : TransferMeta) (d : Data) : Bool :=
  d.length == xferBytes t

/-- A transfer *needs* the aligner when it is not aligned to its size (R231, R55). -/
def needsAligner (t : TransferMeta) : Bool :=
  t.addr.toNat % xferBytes t != 0

/-- The largest of 4, 2, 1 that fits in `left` bytes and is aligned at address `a` (R232). -/
def chunkAt (a left : Nat) : Nat :=
  if 4 ≤ left ∧ a % 4 = 0 then 4 else if 2 ≤ left ∧ a % 2 = 0 then 2 else 1

/-- The chunks from offset `o` on, `left` bytes remaining, at most `fuel` of them (R232). -/
def chunksFrom : Nat → Nat → Nat → Nat → List (Nat × Nat)
  | 0, _, _, _ => []
  | fuel + 1, a, o, left =>
    if left = 0 then []
    else (o, chunkAt (a + o) left) :: chunksFrom fuel a (o + chunkAt (a + o) left) (left - chunkAt (a + o) left)

/-- `split(t)`: the list of (offset, length) of R232. Each chunk has a byte at least, so
`bytes(t.size)` steps are enough. -/
def splitChunks (t : TransferMeta) : List (Nat × Nat) :=
  chunksFrom (xferBytes t) t.addr.toNat 0 (xferBytes t)

/-- `size_of(c)` (R233). -/
def sizeOf (c : Nat) : Size :=
  if c = 4 then .word else if c = 2 then .halfword else .byte

/-- The sub-transfer of one chunk (R233): addresses wrap modulo `2^32`. -/
def subXfer (t : TransferMeta) (c : Nat × Nat) : TransferMeta :=
  { dir := t.dir, addr := t.addr + BitVec.ofNat 32 c.1, size := sizeOf c.2, burst := .single,
    prot := t.prot }

/-- The address aligned down (R246). -/
def alignDown (t : TransferMeta) : TransferMeta :=
  { t with addr := t.addr - BitVec.ofNat 32 (t.addr.toNat % xferBytes t) }

/-- The chunks of an unaligned transfer: `split(t)` under `Split` (R233), one chunk of all its bytes
under `TruncateReinterpret` (R246). -/
def policyChunks (pol : AlignPolicy) (t : TransferMeta) : List (Nat × Nat) :=
  match pol with
  | .split => splitChunks t
  | .truncateReinterpret _ => [(0, xferBytes t)]

/-- `m`, the number of sub-transfers (R233, R246). -/
def subCount (pol : AlignPolicy) (t : TransferMeta) : Nat :=
  (policyChunks pol t).length

/-- Chunk `i` of an unaligned transfer, as (offset, length). -/
def chunkOf (pol : AlignPolicy) (t : TransferMeta) (i : Nat) : Nat × Nat :=
  (policyChunks pol t)[i]?.getD (0, 0)

/-- `sub(t, i)` (R233, R246). -/
def subAt (pol : AlignPolicy) (t : TransferMeta) (i : Nat) : TransferMeta :=
  match pol with
  | .split => subXfer t (chunkOf pol t i)
  | .truncateReinterpret _ => alignDown t

/-- `slice(p, i)`: the bytes of chunk `c` (R234). -/
def sliceData (d : Data) (c : Nat × Nat) : Data :=
  (d.drop c.1).take c.2

/-- `put(acc, i, x)`: `acc` with the bytes of chunk `c` replaced (R234). -/
def putData (acc : Data) (c : Nat × Nat) (x : Data) : Data :=
  acc.take c.1 ++ x ++ acc.drop (c.1 + c.2)

/-- A mapping given as a table over the identity (R246, log 10). -/
def reinterpretData (rows : List ReinterpretRow) (t : TransferMeta) (d : Data) : Data :=
  match rows.find? fun r => r.xfer == t && r.src == d with
  | some r => r.dst
  | none => d

/-- `wire_w(s, p)` (R235, R246). -/
def wireWrite (pol : AlignPolicy) (t : TransferMeta) (p : Data) : Data :=
  match pol with
  | .split => p
  | .truncateReinterpret m => reinterpretData m.write t p

/-- `result(s, acc)` (R234, R246). -/
def splitResult (pol : AlignPolicy) (t : TransferMeta) (acc : Data) : Data :=
  match pol with
  | .split => acc
  | .truncateReinterpret m => reinterpretData m.read t acc

/-- `decode(a)`: the first port whose range holds the address (R181). R333 makes ranges disjoint, so
it is the only one. -/
def decodeAddr (ports : List PortCfg) (a : Addr) : Option Tag :=
  (ports.findIdx? fun r => r.lo ≤ a.toNat && a.toNat < r.hi).map .port

/-- `bb_translate(a)` (R262). -/
def bandTranslate (regions : List BandRegion) (a : Addr) : Option (Addr × Fin 32) :=
  match regions.find? fun r => r.aliasLo ≤ a.toNat && a.toNat < r.aliasHi with
  | none => none
  | some r =>
    let off := a.toNat - r.aliasLo
    some (r.targetBase + BitVec.ofNat 32 (4 * (off / 128)), Fin.ofNat 32 (off / 4))

/-- `extract(x, bit)`, the bit as a number (R266). -/
def extractBit (x : Data) (bit : Fin 32) : Nat :=
  dataVal x / 2 ^ bit.val % 2

/-- `insert(x, bit, p)`, the local mask-and-or step (R270). -/
def insertBit (x : Data) (bit : Fin 32) (p : Data) : Data :=
  dataOf 4 (((BitVec.ofNat 32 (dataVal x) &&& ~~~(BitVec.ofNat 32 (2 ^ bit.val))) |||
    BitVec.ofNat 32 (dataVal p % 2 * 2 ^ bit.val)).toNat)

/-- `arbitrate(C)` under `FixedPriority`: the least contender (R206). -/
def arbitrateFixed (n : Nat) (c : List Nat) : Option Nat :=
  (List.range n).find? fun x => c.contains x

/-- `arbitrate(C)` under `RoundRobin`: the first contender from the head on, modulo `n` (R207). -/
def arbitrateRr (n head : Nat) (c : List Nat) : Option Nat :=
  ((List.range n).map fun k => (head + k) % n).find? fun x => c.contains x

/-- `arbitrate(C)` of an output stage by its policy (R205). -/
def arbitrate (a : Arbiter) (n head : Nat) (c : List Nat) : Option Nat :=
  match a with
  | .fixedPriority => arbitrateFixed n c
  | .roundRobin => arbitrateRr n head c

/-- The masters below `n` that a mask names, the operand `C` of an arbitration (log 3). -/
def maskMembers (n m : Nat) : List Nat :=
  (List.range n).filter fun x => m.testBit x

end Sys2Proof.Machine
end

