-- ==== Sys2Proof/Machine/Flags.lean ====
section
/-! DEFINITION. What acts as condition codes in the fabric (R32): the response code and its class
`Ready` (R76), the `ready` flag formed from it (R90), acceptance of an address phase, and the hold
status (R160). -/

namespace Sys2Proof.Machine

open Sys2Proof

/-- `Ready(c)`: the codes that end a data phase (R76). -/
def readyCode : Code → Bool
  | .success => true
  | .pending => false
  | .error1 => false
  | .error2 => true

/-- The `ready` flag of an address phase, from what its sender received in the cycle before (R90). -/
def readyFlag (lastCode : Code) (lastGrant : Bool) : Bool :=
  readyCode lastCode && lastGrant

/-- Whether an address phase that is presented is accepted (R160, R238, R277). -/
def acceptedBy (presented : Bool) (code : Code) (grant : Bool) : Bool :=
  presented && readyCode code && grant

/-- The mark of an address phase that is held (R160): not granted is `denied`, whatever the code. -/
def holdMark (grant : Bool) : Hold :=
  if grant then .stalled else .denied

/-- The grant wire of a contender at an output stage (R210): an idle port is granted; a presenting
one when it was forwarded and the slave is ready. -/
def grantWireOf (presents forwarded : Bool) (code : Code) : Bool :=
  if presents then forwarded && readyCode code else true

/-- A response as it arrives on a port with or without a granting wire: without one the grant is
constantly true (R74, R160). -/
def onPort (wire : Bool) (r : S2M) : S2M :=
  { r with grant := r.grant || !wire }

end Sys2Proof.Machine
end

