-- ==== Sys2Proof/Machine/Ops.lean ====
section
/-! DEFINITION. The named operations over stores, handlers, flop cells and Master Drivers that the
meanings share. -/

namespace Sys2Proof.Machine

open Sys2Proof

/-- Apply a fallible function to every element, in order, stopping at the first fault. -/
def mapE {α β : Type} (f : α → Except Fault β) : List α → Except Fault (List β)
  | [] => .ok []
  | a :: l =>
    match f a with
    | .error e => .error e
    | .ok b =>
      match mapE f l with
      | .error e => .error e
      | .ok bs => .ok (b :: bs)

/-- Stop with `e` unless `c` holds: `raise Violation(e)` of the rules (R14). -/
def require (c : Bool) (e : Fault) : Except Fault Unit :=
  if c then .ok () else .error e

/-- `raise Violation(BurstNotModelled)` at any component that sees an incrementing burst (R80). -/
def refuseBurst (req : Option TransferMeta) : Except Fault Unit :=
  match req with
  | none => .ok ()
  | some t => require (t.burst == .single) .burstNotModelled

/-! ### The store behind the reference handler -/

/-- What an unlisted address reads as (95_test_vectors.md section 2). -/
def unlistedByte : Byte := 0

/-- Read one byte. -/
def readByte (m : Memory) (a : Nat) : Byte :=
  match m with
  | [] => unlistedByte
  | (b, v) :: rest => if a = b then v else readByte rest a

/-- Write one byte, keeping the canonical form: writing what an unlisted address reads as removes
the entry. -/
def writeByte (m : Memory) (a : Nat) (v : Byte) : Memory :=
  match m with
  | [] => if v = unlistedByte then [] else [(a, v)]
  | (b, w) :: rest =>
    if a < b then if v = unlistedByte then (b, w) :: rest else (a, v) :: (b, w) :: rest
    else if a = b then if v = unlistedByte then rest else (a, v) :: rest
    else (b, w) :: writeByte rest a v

/-- The canonical form: addresses rise strictly from `lo` on and no listed byte is what an unlisted
address reads as. -/
def memoryWfFrom (lo : Nat) : Memory → Bool
  | [] => true
  | (a, v) :: rest => decide (lo ≤ a) && v != unlistedByte && memoryWfFrom (a + 1) rest

/-- A store is in canonical form. -/
def Memory.wf (m : Memory) : Bool :=
  memoryWfFrom 0 m

/-- The address of byte `i` of an access at `a`, modulo `2^32` (R10). -/
def byteAddr (a : Addr) (i : Nat) : Nat :=
  (a + BitVec.ofNat 32 i).toNat

/-- `MemRead(a, k)` (R13). -/
def memRead (m : Memory) (a : Addr) (k : Nat) : Data :=
  (List.range k).map fun i => readByte m (byteAddr a i)

/-- `MemWrite(a, k, d)` (R13): byte `i` of the data goes to address `a + i`. -/
def memWrite (m : Memory) (a : Addr) : Data → Memory
  | [] => m
  | b :: d => memWrite (writeByte m a.toNat b) (a + 1) d

/-! ### Handlers -/

/-- `pend()` of the reference handler (95_test_vectors.md section 2): the answer, and the counter's
and the wait list's next values. -/
def ramPend (waits : List Nat) (rem : Option Nat) : Bool × List Nat × Option Nat :=
  match rem with
  | some (r + 1) => (true, waits, some r)
  | some 0 => (false, waits, none)
  | none =>
    match waits with
    | [] => (false, [], none)
    | 0 :: ws => (false, ws, none)
    | (r + 1) :: ws => (true, ws, some r)

/-- The next answer of an external handler, and the handler after it: a queued one, else a free one
of `k` bytes (log 9). -/
def nextAnswer (queue : List Answer) (stream taken k : Nat) : Answer × Handler :=
  match queue with
  | a :: q => (a, .external q stream taken)
  | [] =>
    (if Config.freePending stream taken then .pending
      else .success (dataOf k (Config.freeWord stream taken).toNat),
      .external [] stream (taken + 1))

/-- The operation `read` (R121, R128): the handler's answer and the handler after it. -/
def handlerRead (h : Handler) (t : TransferMeta) : Answer × Handler :=
  match h with
  | .ram mem waits rem =>
    match ramPend waits rem with
    | (true, ws, r) => (.pending, .ram mem ws r)
    | (false, ws, r) => (.success (memRead mem t.addr (xferBytes t)), .ram mem ws r)
  | .external queue stream taken => nextAnswer queue stream taken (xferBytes t)

/-- The operation `pre_write` (R121, R129). Data in a queued answer means nothing. -/
def handlerPreWrite (h : Handler) (_ : TransferMeta) : Answer × Handler :=
  match h with
  | .ram mem waits rem =>
    match ramPend waits rem with
    | (true, ws, r) => (.pending, .ram mem ws r)
    | (false, ws, r) => (.success [], .ram mem ws r)
  | .external queue stream taken => nextAnswer queue stream taken 0

/-- The operation `write` (R121, R130): the reference handler stores on the final call only. -/
def handlerWrite (h : Handler) (t : TransferMeta) (d : Data) (isFinal : Bool) : Answer × Handler :=
  match h with
  | .ram mem waits rem =>
    (.success [], .ram (if isFinal then memWrite mem t.addr (d.take (xferBytes t)) else mem) waits rem)
  | .external queue stream taken => nextAnswer queue stream taken 0

/-- A `read` that answers `Success(data)` must give exactly `bytes(size)` bytes (R123). -/
def checkedRead (h : Handler) (t : TransferMeta) : Except Fault (Answer × Handler) :=
  match handlerRead h t with
  | (.pending, h') => .ok (.pending, h')
  | (.success d, h') => if dataFits t d then .ok (.success d, h') else .error .badReadWidth

/-! ### The flop cell -/

/-- `set_next(v)` (R102, R105). -/
def flopSetNext (c : Flop) (v : Word) : Except Fault Flop :=
  if c.kind = .plain ∧ c.next ≠ none then .error .flopWrittenTwice
  else .ok { c with next := some v }

/-- `deref()` (R103): the committed value, which is then read. -/
def flopDeref (c : Flop) : Except Fault (Word × Flop) :=
  match c.cur with
  | none => .error .flopReadUnset
  | some v => if c.curRead then .error .flopReadTwice else .ok (v, { c with curRead := true })

/-- `commit()` (R104). -/
def flopCommit (c : Flop) : Except Fault Flop :=
  if c.cur ≠ none ∧ c.curRead = false then .error .flopUnreadOverwritten
  else .ok { c with cur := c.next, curRead := false, next := none }

/-! ### The owner's calls on a Master Driver -/

/-- `try_request(t)` (R155, R152): the driver after it and the result. That a call outside `TickExtra` is
reported before an incrementing burst (R80) is a DESIGN CHOICE (log 26). -/
def mdTryRequest (md : MasterDriver) (t : TransferMeta) : Except Fault (Bool × MasterDriver) :=
  if md.phase ≠ .tickExtra then .error .callOutsideTick
  else if t.burst = .increment then .error .burstNotModelled
  else match md.addrSlot with
    | some _ => .ok (false, md)
    | none => .ok (true, { md with addrSlot := some (t, .fresh) })

/-- Whether the mode lets the owner withdraw an address phase with hold status `h` (R157). -/
def cancelAllowed (mode : CancelMode) (h : Hold) (lastCode : Code) : Bool :=
  match mode with
  | .forbidden => false
  | .cortexM => true
  | .ambaStrict => h == .fresh || lastCode == .error1

/-- `try_force_cancel()` (R157, R152). -/
def mdTryForceCancel (mode : CancelMode) (md : MasterDriver) : Except Fault (Bool × MasterDriver) :=
  if md.phase ≠ .tickExtra then .error .callOutsideTick
  else match md.addrSlot with
    | none => .ok (false, md)
    | some (_, h) =>
      if cancelAllowed mode h md.lastCode then .ok (true, { md with addrSlot := none })
      else .ok (false, md)

/-- `provide_data(d)` (R156, R152). That a call outside `TickExtra` is reported before the wrong data is a
DESIGN CHOICE (log 26). -/
def mdProvideData (md : MasterDriver) (d : Data) : Except Fault MasterDriver :=
  if md.phase ≠ .tickExtra then .error .callOutsideTick
  else match md.dataSlot, md.wdata with
    | some t, none =>
      if t.dir = .write ∧ dataFits t d then .ok { md with wdata := some d }
      else .error .unexpectedData
    | _, _ => .error .unexpectedData

/-! ### Taking a bus error, and going on after it -/

/-- The entry of a bus error at a master (R165, R313): the owner is told of the failed transfer, and
of the withdrawn one if there is one; the data slot and its write data are emptied. Nothing else is
saved, masked or redirected. There is no return (R314): the driver is then as after a `Success`. -/
def takeBusError (p : Nat) (md : MasterDriver) (t : TransferMeta) : MasterDriver × List Event :=
  ({ md with dataSlot := none, wdata := none, cancelled := none },
    [.transfersAborted p (t :: md.cancelled.toList)])

end Sys2Proof.Machine
end

