-- ==== Sys2Proof/Machine/AlignerStage.lean ====
section
/-! DEFINITION. The Aligner's cycle (R230 to R247). Where the chain has no Aligner the wires pass
unchanged and the record stays as it is. -/

namespace Sys2Proof.Machine

open Sys2Proof

/-- `own`: the aligner has sub-transfers of its own to present (R235). -/
def alOwn (pol : AlignPolicy) (al : Aligner) : Bool :=
  match al.split with
  | some s => s.next < subCount pol s.xfer
  | none => false

/-- `front`: the first sub-transfer stands in for an unaligned transfer (R235). -/
def alFront (pol : AlignPolicy) (req : Option TransferMeta) : Option TransferMeta :=
  req.map fun t => if needsAligner t then subAt pol t 0 else t

/-- The address phase presented downstream (R235). -/
def alReq (pol : AlignPolicy) (al : Aligner) (up : M2S) : Option TransferMeta :=
  match al.split with
  | some s => if alOwn pol al then some (subAt pol s.xfer s.next) else alFront pol up.req
  | none => alFront pol up.req

/-- The data phase sent downstream (R235). -/
def alPayload (pol : AlignPolicy) (al : Aligner) (up : M2S) : Except Fault (Option Data) :=
  match al.split with
  | none => .ok up.payload
  | some s =>
    match s.cur, s.xfer.dir with
    | some i, .write =>
      match up.payload with
      | some p => .ok (some (sliceData (wireWrite pol s.xfer p) (chunkOf pol s.xfer i)))
      | none => .error .missingWriteData
    | _, _ => .ok none

/-- Downstream pass (R235). -/
def alDown (pol : AlignPolicy) (al : Aligner) (up : M2S) : Except Fault M2S :=
  match refuseBurst up.req with
  | .error e => .error e
  | .ok _ =>
    match alPayload pol al up with
    | .error e => .error e
    | .ok p => .ok ⟨alReq pol al up, readyFlag al.dnCode al.dnGrant, p⟩

/-- The accumulator after sub-transfer `i` succeeded with `data` (R234, R237). -/
def alAccumulate (pol : AlignPolicy) (s : Split) (i : Nat) (data : Option Data) : Except Fault Data :=
  match s.xfer.dir, data with
  | .write, _ => .ok s.acc
  | .read, some x =>
    if x.length = (chunkOf pol s.xfer i).2 then .ok (putData s.acc (chunkOf pol s.xfer i) x)
    else .error .badReadWidth
  | .read, none => .error .badReadWidth

/-- What the aligner answers upstream, and the accumulator after the cycle. -/
structure AlignAnswer where
  code : Code
  data : Option Data
  acc : Data
deriving DecidableEq, Repr

/-- The answer upstream when sub-transfer `i` succeeded (R237): the composite with the last one,
else a wait-state. -/
def alChunkDone (pol : AlignPolicy) (s : Split) (i : Nat) (acc : Data) : AlignAnswer :=
  if i + 1 = subCount pol s.xfer then
    ⟨.success, if s.xfer.dir = .read then some (splitResult pol s.xfer acc) else none, acc⟩
  else ⟨.pending, none, acc⟩

/-- The answer upstream (R237). -/
def alAnswer (pol : AlignPolicy) (al : Aligner) (dn : S2M) : Except Fault AlignAnswer :=
  match al.split with
  | none => .ok ⟨dn.code, dn.data, []⟩
  | some s =>
    match s.cur with
    | none => if dn.code = .success then .ok ⟨.pending, none, s.acc⟩ else .error .responseWithoutTransfer
    | some i =>
      match dn.code with
      | .pending => .ok ⟨.pending, none, s.acc⟩
      | .error1 => .ok ⟨.error1, none, s.acc⟩
      | .error2 => .ok ⟨.error2, none, s.acc⟩
      | .success =>
        match alAccumulate pol s i dn.data with
        | .error e => .error e
        | .ok acc => .ok (alChunkDone pol s i acc)

/-- `fresh`: the record of an unaligned transfer whose address phase was accepted (R238). -/
def alFresh (pol : AlignPolicy) (al : Aligner) (up : M2S) (codeUp : Code) (grant : Bool) : Option Split :=
  match up.req with
  | none => none
  | some t =>
    if acceptedBy (!alOwn pol al) codeUp grant && needsAligner t then
      some ⟨t, 1, some 0, List.replicate (xferBytes t) 0⟩
    else none

/-- A split that goes on: its cursors and accumulator in the next cycle (R238). -/
def alContinue (pol : AlignPolicy) (al : Aligner) (s : Split) (dn : S2M) (acc : Data) : Split :=
  let taken := acceptedBy (alOwn pol al) dn.code dn.grant
  { xfer := s.xfer
    acc := acc
    cur := if taken then some s.next else if readyCode dn.code then none else s.cur
    next := if dn.code = .error1 then subCount pol s.xfer else if taken then s.next + 1 else s.next }

/-- The split record in the next cycle (R238). -/
def alNext (pol : AlignPolicy) (al : Aligner) (up : M2S) (dn : S2M) (a : AlignAnswer) : Option Split :=
  match al.split with
  | none => alFresh pol al up a.code dn.grant
  | some s =>
    if readyCode a.code then alFresh pol al up a.code dn.grant
    else some (alContinue pol al s dn a.acc)

/-- Upstream pass and next state (R237, R238): the response upstream and the aligner after it. -/
def alUp (pol : AlignPolicy) (al : Aligner) (up : M2S) (dn : S2M) : Except Fault (S2M × Aligner) :=
  match alAnswer pol al dn with
  | .error e => .error e
  | .ok a =>
    .ok (⟨a.code, a.data, if alOwn pol al then true else dn.grant⟩,
      { split := alNext pol al up dn a, dnCode := dn.code, dnGrant := dn.grant })

/-- The downstream pass of a chain's optional Aligner (R9). -/
def alignerDown (pol : Option AlignPolicy) (al : Aligner) (up : M2S) : Except Fault M2S :=
  match pol with
  | none => .ok up
  | some p => alDown p al up

/-- The upstream pass of a chain's optional Aligner (R9), whose downstream port has a granting wire or
not (R74). -/
def alignerUp (pol : Option AlignPolicy) (wire : Bool) (al : Aligner) (up : M2S) (dn : S2M) :
    Except Fault (S2M × Aligner) :=
  match pol with
  | none => .ok (dn, al)
  | some p => alUp p al up (onPort wire dn)

end Sys2Proof.Machine
end

