-- ==== Sys2Proof/Machine/BitbandStage.lean ====
section
/-! DEFINITION. The Bitband Translator's cycle (R260 to R280). Where the chain has no Translator the
wires pass unchanged and the record stays as it is. -/

namespace Sys2Proof.Machine

open Sys2Proof

/-- `fwd`: the upstream address phase is forwarded (R264). -/
def bbFwd (bb : Translator) : Bool :=
  match bb.state with
  | .normal => true
  | .bitbandRead _ _ => true
  | .bitbandWriteReading _ => bb.dnCode == .error1
  | .bitbandWriteRequestWriting _ _ => false
  | .bitbandWriteWritingFirstCycle _ _ => true
  | .bitbandWriteWriting _ _ => true

/-- `xl(ap)`: the translation of a presented address phase (R263). -/
def bbTranslateReq (regions : List BandRegion) (req : Option TransferMeta) :
    Except Fault (Option TransferMeta) :=
  match req with
  | none => .ok none
  | some t =>
    match bandTranslate regions t.addr with
    | none => .ok (some t)
    | some (w, _) =>
      if t.addr.toNat % 4 ≠ 0 then .error .unalignedBitband
      else .ok (some ⟨.read, w, .word, .single, t.prot⟩)

/-- The address phase presented downstream (R264, R271). -/
def bbReq (regions : List BandRegion) (bb : Translator) (up : M2S) : Except Fault (Option TransferMeta) :=
  match bb.state with
  | .bitbandWriteRequestWriting r _ => .ok (some ⟨.write, r.addr, .word, .single, r.prot⟩)
  | _ => if bbFwd bb then bbTranslateReq regions up.req else .ok none

/-- The modified word that goes downstream in the write's data phase (R264, R272). -/
def bbWriteBack (r : BandWrite) (word : Data) (up : M2S) : Except Fault (Option Data) :=
  match up.payload with
  | some p => .ok (some (insertBit word r.bit p))
  | none => .error .missingWriteData

/-- The data phase sent downstream (R264). -/
def bbPayload (bb : Translator) (up : M2S) : Except Fault (Option Data) :=
  match bb.state with
  | .normal => .ok up.payload
  | .bitbandRead _ _ => .ok none
  | .bitbandWriteReading _ => .ok none
  | .bitbandWriteRequestWriting _ _ => .ok none
  | .bitbandWriteWritingFirstCycle r w => bbWriteBack r w up
  | .bitbandWriteWriting r w => bbWriteBack r w up

/-- Downstream pass (R264). -/
def bbDown (regions : List BandRegion) (bb : Translator) (up : M2S) : Except Fault M2S :=
  match refuseBurst up.req with
  | .error e => .error e
  | .ok _ =>
    match bbReq regions bb up with
    | .error e => .error e
    | .ok req =>
      match bbPayload bb up with
      | .error e => .error e
      | .ok p => .ok ⟨req, readyFlag bb.dnCode bb.dnGrant, p⟩

/-- The word of a read's `Success`: 4 bytes, or a violation (R265). -/
def bbWord (dn : S2M) : Except Fault Data :=
  match dn.data with
  | some x => if x.length = 4 then .ok x else .error .badReadWidth
  | none => .error .badReadWidth

/-- What the translator answers upstream: code, data, and the word read if there is one. -/
structure BandAnswer where
  code : Code
  data : Option Data
  word : Data
deriving DecidableEq, Repr

/-- The answer upstream (R265). -/
def bbAnswer (bb : Translator) (dn : S2M) : Except Fault BandAnswer :=
  match bb.state with
  | .normal => .ok ⟨dn.code, dn.data, []⟩
  | .bitbandRead bit size =>
    if dn.code = .success then
      (bbWord dn).map fun x => ⟨.success, some (dataOf size.bytes (extractBit x bit)), x⟩
    else .ok ⟨dn.code, none, []⟩
  | .bitbandWriteReading _ =>
    if dn.code = .success then (bbWord dn).map fun x => ⟨.pending, none, x⟩
    else .ok ⟨dn.code, none, []⟩
  | .bitbandWriteRequestWriting _ _ =>
    if dn.code = .success then .ok ⟨.pending, none, []⟩ else .error .responseWithoutTransfer
  | .bitbandWriteWritingFirstCycle _ _ => .ok ⟨dn.code, none, []⟩
  | .bitbandWriteWriting _ _ => .ok ⟨dn.code, none, []⟩

/-- `entry`: where the translator goes when nothing of its own is left to do (R277). -/
def bbEntry (regions : List BandRegion) (bb : Translator) (up : M2S) (codeUp : Code) (grant : Bool) :
    BandState :=
  match up.req with
  | none => .normal
  | some t =>
    if acceptedBy (bbFwd bb) codeUp grant then
      match bandTranslate regions t.addr with
      | none => .normal
      | some (w, bit) =>
        match t.dir with
        | .read => .bitbandRead bit t.size
        | .write => .bitbandWriteReading ⟨w, bit, t.prot⟩
    else .normal

/-- The state in the next cycle (R277). -/
def bbNext (regions : List BandRegion) (bb : Translator) (up : M2S) (dn : S2M) (a : BandAnswer) :
    BandState :=
  let entry := bbEntry regions bb up a.code dn.grant
  match bb.state with
  | .normal => entry
  | .bitbandRead bit size => if readyCode dn.code then entry else .bitbandRead bit size
  | .bitbandWriteReading r =>
    match dn.code with
    | .success => .bitbandWriteRequestWriting r a.word
    | .error2 => entry
    | .pending => .bitbandWriteReading r
    | .error1 => .bitbandWriteReading r
  | .bitbandWriteRequestWriting r w =>
    if dn.grant then .bitbandWriteWritingFirstCycle r w else .bitbandWriteRequestWriting r w
  | .bitbandWriteWritingFirstCycle r w => if readyCode dn.code then entry else .bitbandWriteWriting r w
  | .bitbandWriteWriting r w => if readyCode dn.code then entry else .bitbandWriteWriting r w

/-- Upstream pass and next state (R265, R277). -/
def bbUp (regions : List BandRegion) (bb : Translator) (up : M2S) (dn : S2M) :
    Except Fault (S2M × Translator) :=
  match bbAnswer bb dn with
  | .error e => .error e
  | .ok a =>
    .ok (⟨a.code, a.data, if bbFwd bb then dn.grant else true⟩,
      { state := bbNext regions bb up dn a, dnCode := dn.code, dnGrant := dn.grant })

/-- The downstream pass of a chain's optional Translator (R9). -/
def bitbandDown (regions : Option (List BandRegion)) (bb : Translator) (up : M2S) : Except Fault M2S :=
  match regions with
  | none => .ok up
  | some r => bbDown r bb up

/-- The upstream pass of a chain's optional Translator (R9), whose downstream port has a granting wire
or not (R74). -/
def bitbandUp (regions : Option (List BandRegion)) (wire : Bool) (bb : Translator) (up : M2S) (dn : S2M) :
    Except Fault (S2M × Translator) :=
  match regions with
  | none => .ok (dn, bb)
  | some r => bbUp r bb up (onPort wire dn)

end Sys2Proof.Machine
end

