-- ==== Sys2Proof/Machine/SlaveDriver.lean ====
section
/-! DEFINITION. The Slave Driver's cycle (R120 to R135) and the default slave's (R186, R187). -/

namespace Sys2Proof.Machine

open Sys2Proof

/-- Promotion: the transfer in data phase in this cycle (R125). -/
def slavePromote (sd : SlaveDriver) (ready : Bool) : Except Fault (Option TransferMeta) :=
  if ready then
    if sd.lastCode = .pending ∨ sd.lastCode = .error1 then .error .readyDuringHold
    else .ok sd.addrSlot
  else .ok sd.dataSlot

/-- Sampling and next state (R132, R133): the address wires are not looked at in a wait-state. -/
def slaveNext (sd : SlaveDriver) (req ds : Option TransferMeta) (code : Code) : SlaveDriver :=
  { addrSlot := if code = .pending then sd.addrSlot else req
    dataSlot := if readyCode code then none else ds
    lastCode := code }

/-- What a slave answers in a cycle: code, data, the handler after its calls, and the calls. -/
structure SlaveAnswer where
  code : Code
  data : Option Data
  handler : Handler
  calls : List Event
deriving DecidableEq, Repr

/-- A read in data phase (R128). -/
def slaveRead (s : Nat) (h : Handler) (t : TransferMeta) (payload : Option Data) :
    Except Fault SlaveAnswer :=
  if payload ≠ none then .error .payloadOnRead
  else match checkedRead h t with
    | .error e => .error e
    | .ok (.success d, h') => .ok ⟨.success, some d, h', [.handlerRead s t (.success d)]⟩
    | .ok (.pending, h') => .ok ⟨.pending, none, h', [.handlerRead s t .pending]⟩

/-- The wait-state cycle of a write (R130): under `COMB_WRITE` the data is delivered, not finally,
and the answer is not used. -/
def slaveWriteWait (comb : Bool) (s : Nat) (h : Handler) (t : TransferMeta) (d : Data) : SlaveAnswer :=
  if comb then
    match handlerWrite h t d false with
    | (a, h') => ⟨.pending, none, h', [.handlerPreWrite s t .pending, .handlerWrite s t d false a]⟩
  else ⟨.pending, none, h, [.handlerPreWrite s t .pending]⟩

/-- The final delivery of a write (R130): the handler's answer is the cycle's code. -/
def slaveWriteFinal (s : Nat) (h : Handler) (t : TransferMeta) (d : Data) (pre : Answer) : SlaveAnswer :=
  match handlerWrite h t d true with
  | (.pending, h') =>
    ⟨.pending, none, h', [.handlerPreWrite s t pre, .handlerWrite s t d true .pending]⟩
  | (.success x, h') =>
    ⟨.success, none, h', [.handlerPreWrite s t pre, .handlerWrite s t d true (.success x)]⟩

/-- A write in data phase (R129, R130). -/
def slaveWrite (comb : Bool) (s : Nat) (h : Handler) (t : TransferMeta) (payload : Option Data) :
    Except Fault SlaveAnswer :=
  match payload with
  | none => .error .missingWriteData
  | some d =>
    match handlerPreWrite h t with
    | (.pending, h') => .ok (slaveWriteWait comb s h' t d)
    | (.success x, h') => .ok (slaveWriteFinal s h' t d (.success x))

/-- The response of a slave with `ds` in data phase (R126 to R131). -/
def slaveRespond (s : Nat) (u : Slave) (ds : Option TransferMeta) (payload : Option Data) :
    Except Fault SlaveAnswer :=
  if u.sd.lastCode = .error1 then .ok ⟨.error2, none, u.handler, []⟩
  else match ds with
    | none =>
      if payload ≠ none then .error .payloadWithoutWrite
      else .ok ⟨.success, none, u.handler, []⟩
    | some t =>
      match t.dir with
      | .read => slaveRead s u.handler t payload
      | .write => slaveWrite u.cfg.combWrite s u.handler t payload

/-- What a slave shows of one cycle: its response, itself after it, and its handler calls. -/
structure SlaveOut where
  resp : S2M
  slave : Slave
  calls : List Event
deriving DecidableEq, Repr

/-- One cycle of slave `s` (R124). A Slave Driver never denies (R120). -/
def slaveCycle (s : Nat) (u : Slave) (w : M2S) : Except Fault SlaveOut :=
  match slavePromote u.sd w.ready with
  | .error e => .error e
  | .ok ds =>
    match slaveRespond s u ds w.payload with
    | .error e => .error e
    | .ok a =>
      match refuseBurst w.req with
      | .error e => .error e
      | .ok _ =>
        .ok { resp := ⟨a.code, a.data, true⟩
              slave := { u with sd := slaveNext u.sd w.req ds a.code, handler := a.handler }
              calls := a.calls }

/-- `MOCK(t)` (R187). -/
def mockFor (rows : List MockRow) (t : TransferMeta) : Option MockRow :=
  rows.find? fun r => r.xfer == t

/-- Whether a mock's answer has the right shape: `bytes(t.size)` bytes for a read, none for a write
(R187). -/
def mockFits (t : TransferMeta) (d : Option Data) : Bool :=
  match t.dir, d with
  | .read, some x => dataFits t x
  | .write, none => true
  | _, _ => false

/-- The default slave's answer to a transfer in data phase (R186, R187): a bus error, or the mock's
literal response. A write's payload is taken and dropped; a payload beside a read is not checked
(DEDUCED, log 21). That a missing payload (R186) is reported before
a mock's answer of the wrong shape (R187) is a DESIGN CHOICE (log 26). -/
def defaultAnswer (rows : List MockRow) (t : TransferMeta) (payload : Option Data) :
    Except Fault (Code × Option Data) :=
  if t.dir = .write ∧ payload = none then .error .missingWriteData
  else match mockFor rows t with
    | none => .ok (.error1, none)
    | some r => if mockFits t r.data then .ok (.success, r.data) else .error .badMock

/-- The default slave's response with `ds` in data phase (R127, R131, R186). -/
def defaultRespond (rows : List MockRow) (sd : SlaveDriver) (ds : Option TransferMeta)
    (payload : Option Data) : Except Fault (Code × Option Data) :=
  if sd.lastCode = .error1 then .ok (.error2, none)
  else match ds with
    | none => if payload ≠ none then .error .payloadWithoutWrite else .ok (.success, none)
    | some t => defaultAnswer rows t payload

/-- One cycle of a decoder's default slave (R186). -/
def defaultCycle (rows : List MockRow) (sd : SlaveDriver) (w : M2S) : Except Fault (S2M × SlaveDriver) :=
  match slavePromote sd w.ready with
  | .error e => .error e
  | .ok ds =>
    match defaultRespond rows sd ds w.payload with
    | .error e => .error e
    | .ok (code, data) =>
      match refuseBurst w.req with
      | .error e => .error e
      | .ok _ => .ok (⟨code, data, true⟩, slaveNext sd w.req ds code)

end Sys2Proof.Machine
end

