-- ==== Sys2Proof/Machine/DecoderStage.lean ====
section
/-! DEFINITION. The Decoder's cycle (R180 to R191). -/

namespace Sys2Proof.Machine

open Sys2Proof

/-- `AR` and `DR` of a cycle (R182, R183). -/
structure Route where
  ar : Option Tag
  dr : Tag
deriving DecidableEq, Repr

/-- The data route of the cycle (R182). -/
def decDataRoute (dec : Decoder) (ready : Bool) : Tag :=
  match ready, dec.addrRoute with
  | true, some t => t
  | _, _ => dec.dataRoute

/-- A fresh address phase is decoded; no range is the port `Default` (R181, R183). -/
def decodeTag (ports : List PortCfg) (a : Addr) : Tag :=
  (decodeAddr ports a).getD .dflt

/-- The address route of the cycle (R183): an address phase held unchanged is not decoded again. -/
def decAddrRoute (ports : List PortCfg) (dec : Decoder) (up : M2S) : Option Tag :=
  match up.req with
  | none => none
  | some t =>
    if up.ready = false ∧ dec.addrMeta = some t then dec.addrRoute
    else some (decodeTag ports t.addr)

/-- `STRICT_HOLD` (R183). -/
def strictHold (mode : CancelMode) : Bool :=
  mode != .cortexM

/-- Whether a held address phase was withdrawn or replaced (R183). -/
def addressChanged (dec : Decoder) (up : M2S) : Bool :=
  !up.ready && dec.lastCode != .error1 && dec.addrMeta.isSome && up.req != dec.addrMeta

/-- The routes of the cycle and the checks on the address phase (R182, R183). -/
def decDown (c : MasterCfg) (dec : Decoder) (up : M2S) : Except Fault Route :=
  match refuseBurst up.req with
  | .error e => .error e
  | .ok _ =>
    if strictHold c.cancelMode && addressChanged dec up then .error .addressChangedDuringHold
    else .ok ⟨decAddrRoute c.ports dec up, decDataRoute dec up.ready⟩

/-- Fan-out: what one downstream port carries (R184). -/
def decFan (r : Route) (up : M2S) (tag : Tag) : M2S :=
  { req := if r.ar = some tag then up.req else none
    ready := up.ready
    payload := if r.dr = tag then up.payload else none }

/-- The response upstream (R185), from the responses of the ports. -/
def decReply (r : Route) (port : Tag → S2M) : S2M :=
  { code := (port r.dr).code
    data := (port r.dr).data
    grant := match r.ar with
      | some tag => (port tag).grant
      | none => true }

/-- The Decoder's flops after the cycle (R185). -/
def decNext (dec : Decoder) (r : Route) (up : M2S) (code : Code) (ds : SlaveDriver) : Decoder :=
  { dec with addrRoute := r.ar, addrMeta := up.req, dataRoute := r.dr, lastCode := code, ds := ds }

end Sys2Proof.Machine
end

