-- ==== Sys2Proof/Machine/MasterPort.lean ====
section
/-! DEFINITION. The Master Driver's part of a cycle: dispatch (R158), the response (R159 to R165)
and the commit of its phase (R152). -/

namespace Sys2Proof.Machine

open Sys2Proof

/-- The words a bus command instruction puts on a master port: the presented transfer, its `ready`
flag and the data-phase word beside it (R73, log 4). -/
structure Drive where
  req : Option TransferMeta
  ready : Bool
  dp : DataWord
deriving DecidableEq, Repr

/-- The words a response instruction puts on a master port (R79, log 5). -/
structure Reply where
  code : Code
  grant : Bool
  data : DataWord
deriving DecidableEq, Repr

/-- The payload of a data-phase or response word at a port whose data phase is `ds`: as many bytes
as that transfer has, 4 when there is none (R78, R79, log 6). -/
def portData (ds : Option TransferMeta) (d : DataWord) : Option Data :=
  if d.present then
    some (match ds with
      | some t => wordData t.size d.value
      | none => wordData .word d.value)
  else none

/-- The payload the driver presents: the write data while a write is in data phase (R158). -/
def mdPayload (md : MasterDriver) : Except Fault (Option Data) :=
  match md.dataSlot with
  | none => .ok none
  | some t =>
    match t.dir, md.wdata with
    | .read, _ => .ok none
    | .write, some d => .ok (some d)
    | .write, none => .error .missingWriteData

/-- The phase after dispatch (R152): from `TickExtra` by way of `RunDriver` to `SentMessages`. A driver
that has its response already stays where it is (log 15). -/
def phaseSent : Phase → Phase
  | .tickExtra => .sentMessages
  | .runDriver => .sentMessages
  | .sentMessages => .sentMessages
  | .gotMessages => .gotMessages

/-- Dispatch (R158): the driver emits its address phase and its data phase. -/
def mdDispatch (md : MasterDriver) : Except Fault (MasterDriver × M2S) :=
  match mdPayload md with
  | .error e => .error e
  | .ok p =>
    .ok ({ md with phase := phaseSent md.phase },
      ⟨md.addrSlot.map Prod.fst, readyFlag md.lastCode md.lastGrant, p⟩)

/-- The address slot of a driver that presents `req`: the one it has if that is it, else a fresh one
(log 4). -/
def adoptAddr (slot : Option (TransferMeta × Hold)) (req : Option TransferMeta) :
    Option (TransferMeta × Hold) :=
  match req with
  | none => none
  | some t => if slot.map Prod.fst = some t then slot else some (t, .fresh)

/-- The write data of a driver whose port carries a payload word: that payload, if a write is in
data phase (log 4). -/
def adoptData (md : MasterDriver) (dp : DataWord) : Option Data :=
  match md.dataSlot, dp.present with
  | some t, true => if t.dir = .write then some (wordData t.size dp.value) else md.wdata
  | _, _ => md.wdata

/-- Dispatch of a driver whose port carries a given bus command (log 4): the driver takes the
presented transfer and payload as its own, and the port carries the given `ready` flag and, if the
data-phase word is present, its payload. That an incrementing burst (R80) is reported before a missing
payload (R158) is a DESIGN CHOICE (log 26). -/
def mdDrive (md : MasterDriver) (d : Drive) : Except Fault (MasterDriver × M2S) :=
  match refuseBurst d.req with
  | .error e => .error e
  | .ok _ =>
    match mdDispatch { md with addrSlot := adoptAddr md.addrSlot d.req, wdata := adoptData md d.dp } with
    | .error e => .error e
    | .ok (md', w) =>
      .ok (md', { w with ready := d.ready
                         payload := if d.dp.present then portData md.dataSlot d.dp else w.payload })

/-- The checks on an arriving response (R152, R159). -/
def mdCheck (md : MasterDriver) (code : Code) : Except Fault Unit :=
  if md.phase ≠ .sentMessages then .error .responseWithoutMessage
  else if md.lastCode = .error1 ∧ code ≠ .error2 then .error .error1NotFollowedByError2
  else if code = .error2 ∧ md.lastCode ≠ .error1 then .error .error2WithoutError1
  else if md.dataSlot = none ∧ code ≠ .success then .error .responseWithoutTransfer
  else .ok ()

/-- A transfer is done (R162): the callback with the read data, and the data slot emptied. -/
def mdDone (p : Nat) (md : MasterDriver) (t : TransferMeta) (data : Option Data) :
    Except Fault (MasterDriver × List Event) :=
  let md' := { md with dataSlot := none, wdata := none }
  match t.dir, data with
  | .write, _ => .ok (md', [.transferDone p t none])
  | .read, some d =>
    if dataFits t d then .ok (md', [.transferDone p t (some d)]) else .error .badReadWidth
  | .read, none => .error .badReadWidth

/-- The rule of the response code for the data slot (R162 to R165). -/
def mdCode (p : Nat) (md : MasterDriver) (code : Code) (data : Option Data) :
    Except Fault (MasterDriver × List Event) :=
  match md.dataSlot with
  | none => .ok (md, [])
  | some t =>
    match code with
    | .success => mdDone p md t data
    | .pending => .ok (md, [])
    | .error1 => .ok (md, [])
    | .error2 => .ok (takeBusError p md t)

/-- The address-slot rule (R160), with the withdrawal of R164. -/
def mdAdvance (cancelOnError : Bool) (md : MasterDriver) (code : Code) (grant : Bool) : MasterDriver :=
  match md.addrSlot with
  | none => md
  | some (t, _) =>
    if acceptedBy true code grant then { md with addrSlot := none, dataSlot := some t }
    else if cancelOnError && code == .error1 then { md with addrSlot := none, cancelled := some t }
    else { md with addrSlot := some (t, holdMark grant) }

/-- Step 4 at a Master Driver (R159 to R165). -/
def mdReceive (cancelOnError : Bool) (p : Nat) (md : MasterDriver) (r : S2M) :
    Except Fault (MasterDriver × List Event) :=
  match mdCheck md r.code with
  | .error e => .error e
  | .ok _ =>
    match mdCode p md r.code r.data with
    | .error e => .error e
    | .ok (md', ev) =>
      .ok ({ mdAdvance cancelOnError md' r.code r.grant with
              lastCode := r.code, lastGrant := r.grant, phase := .gotMessages }, ev)

/-- The commit of a Master Driver (R152). -/
def mdCommit (md : MasterDriver) : Except Fault MasterDriver :=
  if md.phase = .gotMessages then .ok { md with phase := .tickExtra } else .error .cycleWithoutResponse

end Sys2Proof.Machine
end

