-- ==== Sys2Proof/Machine/OutputStage.lean ====
section
/-! DEFINITION. The Output Stage's cycle and its arbiter (R200 to R217). -/

namespace Sys2Proof.Machine

open Sys2Proof

/-- An idle port: what an input that no decoder drives carries (R333 refuses such a topology). -/
def idleWires : M2S := ⟨none, true, none⟩

/-- What master-side port `x` carries. -/
def stageInput (inputs : List M2S) (x : Nat) : M2S :=
  inputs[x]?.getD idleWires

/-- The data route of the cycle (R203). -/
def stageDataRoute (st : Stage) (inputs : List M2S) : Option Nat :=
  match st.addrRoute with
  | some x => if (stageInput inputs x).ready then some x else st.dataRoute
  | none => st.dataRoute

/-- The contenders (R204). -/
def contenders (n : Nat) (inputs : List M2S) : List Nat :=
  (List.range n).filter fun x => (stageInput inputs x).req.isSome

/-- The arbiter's winner, if it contends (R205). -/
def stageWinner (st : Stage) (inputs : List M2S) : Option Nat :=
  let c := contenders st.cfg.inputs inputs
  (arbitrate st.cfg.arbiter st.cfg.inputs st.rrHead c).filter fun x => c.contains x

/-- The pipelining rule (R208): after a wait-state another master than the data route's is denied. -/
def pipelineRule (st : Stage) (dr w0 : Option Nat) : Option Nat :=
  match w0 with
  | some x => if st.lastCode = .pending ∧ dr ≠ some x then none else some x
  | none => none

/-- `R`: whether the address phase the slave sampled last is committed (R209). -/
def stageReady (st : Stage) (inputs : List M2S) : Bool :=
  match st.addrRoute with
  | some x => (stageInput inputs x).ready
  | none => readyCode st.lastCode

/-- What an output stage decides in a cycle: the forwarded master, the data route, and the
slave-side wires. -/
structure StageRoute where
  w : Option Nat
  dr : Option Nat
  down : M2S
deriving DecidableEq, Repr

/-- Downstream pass without the burst check (R203 to R209). -/
def stageRoute (st : Stage) (inputs : List M2S) : StageRoute :=
  let dr := stageDataRoute st inputs
  let w := pipelineRule st dr (stageWinner st inputs)
  { w := w
    dr := dr
    down :=
      { req := w.bind fun x => (stageInput inputs x).req
        ready := stageReady st inputs
        payload := dr.bind fun d => (stageInput inputs d).payload } }

/-- Downstream pass (R202 to R209). -/
def stageDown (st : Stage) (inputs : List M2S) : Except Fault StageRoute :=
  match mapE (fun i => refuseBurst i.req) inputs with
  | .error e => .error e
  | .ok _ => .ok (stageRoute st inputs)

/-- The response of master-side port `x` (R210, R211). -/
def stageReply (r : StageRoute) (inputs : List M2S) (resp : S2M) (x : Nat) : S2M :=
  let grant := grantWireOf (stageInput inputs x).req.isSome (r.w == some x) resp.code
  if r.dr = some x then ⟨resp.code, resp.data, grant⟩ else ⟨.success, none, grant⟩

/-- `granted` (R212). -/
def stageGranted (r : StageRoute) (code : Code) : Bool :=
  r.w.isSome && readyCode code

/-- The Output Stage's flops after the cycle (R212). -/
def stageNext (st : Stage) (r : StageRoute) (code : Code) : Stage :=
  { st with
    addrRoute := if stageGranted r code then r.w else none
    dataRoute := r.dr
    lastCode := code
    rrHead := if st.cfg.arbiter = .roundRobin ∧ stageGranted r code = true
      then (st.rrHead + 1) % st.cfg.inputs else st.rrHead }

end Sys2Proof.Machine
end

