-- ==== Sys2Proof/Machine/Cycle.lean ====
section
/-! DEFINITION. One clock cycle of the whole fabric (R110 to R115): the downstream pass, the slaves,
the upstream pass, the commit. The passes run in the order of R110 and R311, all components of one
kind before the next kind (log 12). -/

namespace Sys2Proof.Machine

open Sys2Proof

/-- The response of a port with nothing in data phase (R113, R127). -/
def idleReply : S2M := ⟨.success, none, true⟩

/-- A chain within a cycle: the chain, its wires downstream of the driver, of the aligner and of the
translator, the decoder's routes, the default slave's response and next flops, the response on its
way up, the response the master received, and its callbacks. -/
structure Lane where
  chain : Chain
  up : M2S
  mid : M2S
  low : M2S
  route : Route
  dsReply : S2M
  ds : SlaveDriver
  resp : S2M
  calls : List Event
deriving DecidableEq, Repr

/-- Step 2 at a Master Driver: what it emits, or what an instruction puts on its port (R158, log 4). -/
def mdEmit (drive : Option (Nat × Drive)) (p : Nat) (md : MasterDriver) :
    Except Fault (MasterDriver × M2S) :=
  match drive with
  | some (q, d) => if q = p then mdDrive md d else mdDispatch md
  | none => mdDispatch md

/-- The start of a chain's cycle: the Master Driver's dispatch (R110 step 2). -/
def laneStart (drive : Option (Nat × Drive)) (p : Nat) (c : Chain) : Except Fault Lane :=
  (mdEmit drive p c.md).map fun (md, w) =>
    { chain := { c with md := md }, up := w, mid := w, low := w, route := ⟨none, .dflt⟩,
      dsReply := idleReply, ds := c.dec.ds, resp := idleReply, calls := [] }

/-- The Aligner's downstream pass (R235). -/
def laneAlign (l : Lane) : Except Fault Lane :=
  (alignerDown l.chain.cfg.aligner l.chain.al l.up).map fun w => { l with mid := w, low := w }

/-- The Translator's downstream pass (R264). -/
def laneBand (l : Lane) : Except Fault Lane :=
  (bitbandDown l.chain.cfg.bitband l.chain.bb l.mid).map fun w => { l with low := w }

/-- The Decoder's downstream pass (R182, R183). -/
def laneRoute (l : Lane) : Except Fault Lane :=
  (decDown l.chain.cfg l.chain.dec l.low).map fun r => { l with route := r }

/-- What a chain's decoder sends to a target it is wired to (R184). -/
def laneSource (tgt : Target) (l : Lane) : Option M2S :=
  (l.chain.cfg.ports.findIdx? fun r => r.target == tgt).map fun k =>
    decFan l.route l.low (.port k)

/-- What a target receives from the decoder port wired to it (R9). -/
def sourceOf (lanes : List Lane) (tgt : Target) : M2S :=
  (lanes.findSome? (laneSource tgt)).getD idleWires

/-- An Output Stage within a cycle: itself, what its inputs carry, and what it decided. -/
structure StageLane where
  stage : Stage
  inputs : List M2S
  route : StageRoute
deriving DecidableEq, Repr

/-- The Output Stage's downstream pass (R202 to R209). -/
def stageStart (lanes : List Lane) (o : Nat) (st : Stage) : Except Fault StageLane :=
  let inputs := (List.range st.cfg.inputs).map fun x => sourceOf lanes (.stage o x)
  (stageDown st inputs).map fun r => ⟨st, inputs, r⟩

/-- What a slave receives: from its output stage if it has one, else from a decoder port (R9). -/
def slaveWires (lanes : List Lane) (stages : List StageLane) (s : Nat) : M2S :=
  match stages.find? fun st => st.stage.cfg.slave == s with
  | some st => st.route.down
  | none => sourceOf lanes (.slave s)

/-- A decoder's default slave in step 3 (R186). -/
def laneDefault (l : Lane) : Except Fault Lane :=
  (defaultCycle l.chain.cfg.mock l.chain.dec.ds (decFan l.route l.low .dflt)).map fun (r, ds) =>
    { l with dsReply := r, ds := ds }

/-- A slave's response. -/
def slaveReply (outs : List SlaveOut) (s : Nat) : S2M :=
  (outs[s]?.map SlaveOut.resp).getD idleReply

/-- The response a target gives to the decoder port wired to it (R210, R211). -/
def targetReply (stages : List StageLane) (outs : List SlaveOut) (tgt : Target) : S2M :=
  match tgt with
  | .slave s => slaveReply outs s
  | .stage o x =>
    match stages[o]? with
    | some st => stageReply st.route st.inputs (slaveReply outs st.stage.cfg.slave) x
    | none => idleReply

/-- The response at one of a decoder's ports. On a port without a granting wire the grant is
constantly true (R74). -/
def portReply (stages : List StageLane) (outs : List SlaveOut) (l : Lane) (tag : Tag) : S2M :=
  match tag with
  | .dflt => l.dsReply
  | .port k =>
    match l.chain.cfg.ports[k]? with
    | some r => onPort r.grantWire (targetReply stages outs r.target)
    | none => idleReply

/-- The Decoder's upstream pass and next state (R185). -/
def laneDecUp (stages : List StageLane) (outs : List SlaveOut) (l : Lane) : Lane :=
  let r := decReply l.route (portReply stages outs l)
  { l with resp := r, chain := { l.chain with dec := decNext l.chain.dec l.route l.low r.code l.ds } }

/-- The Translator's upstream pass and next state (R265, R277). -/
def laneBandUp (l : Lane) : Except Fault Lane :=
  (bitbandUp l.chain.cfg.bitband l.chain.cfg.bandWire l.chain.bb l.mid l.resp).map fun (r, bb) =>
    { l with resp := r, chain := { l.chain with bb := bb } }

/-- The Aligner's upstream pass and next state (R237, R238). -/
def laneAlignUp (l : Lane) : Except Fault Lane :=
  (alignerUp l.chain.cfg.aligner l.chain.cfg.alignWire l.chain.al l.up l.resp).map fun (r, al) =>
    { l with resp := r, chain := { l.chain with al := al } }

/-- What arrives at a Master Driver: the response that came up, or what an instruction puts on its
port (log 5). -/
def replyAt (reply : Option (Nat × Reply)) (p : Nat) (md : MasterDriver) (resp : S2M) : S2M :=
  match reply with
  | some (q, r) => if q = p then ⟨r.code, portData md.dataSlot r.data, r.grant⟩ else resp
  | none => resp

/-- Step 4 at a Master Driver (R159 to R165), whose port has a granting wire or not (R160). -/
def laneReceive (reply : Option (Nat × Reply)) (p : Nat) (l : Lane) : Except Fault Lane :=
  let r := onPort l.chain.cfg.grantWire (replyAt reply p l.chain.md l.resp)
  (mdReceive l.chain.cfg.cancelAddrOnError p l.chain.md r).map fun (md, ev) =>
    { l with resp := r, chain := { l.chain with md := md }, calls := ev }

/-- The commit of a chain's Master Driver (R110 step 6, R152). -/
def laneCommit (l : Lane) : Except Fault Lane :=
  (mdCommit l.chain.md).map fun md => { l with chain := { l.chain with md := md } }

/-- Step 2 along all chains (R110). -/
def chainsDown (drive : Option (Nat × Drive)) (chains : List Chain) : Except Fault (List Lane) := do
  let l1 ← mapE (fun x => laneStart drive x.2 x.1) chains.zipIdx
  let l2 ← mapE laneAlign l1
  let l3 ← mapE laneBand l2
  mapE laneRoute l3

/-- Step 4 along all chains (R110). -/
def chainsUp (reply : Option (Nat × Reply)) (stages : List StageLane) (outs : List SlaveOut)
    (lanes : List Lane) : Except Fault (List Lane) := do
  let l1 ← mapE laneBandUp (lanes.map (laneDecUp stages outs))
  let l2 ← mapE laneAlignUp l1
  mapE (fun x => laneReceive reply x.2 x.1) l2.zipIdx

/-- The next flops of an output stage, its slave's response being known (R212). -/
def stageFinish (outs : List SlaveOut) (st : StageLane) : Stage :=
  stageNext st.stage st.route (slaveReply outs st.stage.cfg.slave).code

/-- What a master port showed in the cycle. -/
def laneWires (l : Lane) : PortWires :=
  ⟨l.up, l.resp, l.route.dr⟩

/-- One whole clock cycle (R110): steps 2 to 6, with a bus command or a response of an instruction
put on a master port if one is given. The owners' calls of step 1 have been made before. Where one
step of R110 names two kinds (slaves and default slaves, drivers and cells at the commit), which is
checked first is a DESIGN CHOICE (log 26). -/
def cycle (drive : Option (Nat × Drive)) (reply : Option (Nat × Reply)) (s : State) :
    Except Fault State := do
  let down ← chainsDown drive s.chains
  let stages ← mapE (fun x => stageStart down x.2 x.1) s.stages.zipIdx
  let outs ← mapE (fun x => slaveCycle x.2 x.1 (slaveWires down stages x.2)) s.slaves.zipIdx
  let dflt ← mapE laneDefault down
  let up ← chainsUp reply stages outs dflt
  let lanes ← mapE laneCommit up
  let cells ← mapE flopCommit s.cells
  .ok { s with
    chains := lanes.map Lane.chain
    stages := stages.map (stageFinish outs)
    slaves := outs.map SlaveOut.slave
    cells := cells
    ret := .unit
    out := outs.flatMap SlaveOut.calls ++ lanes.flatMap Lane.calls
    wires := lanes.map laneWires }

/-- The outcome of a computation that can only fault (R303): no flop commits in the faulting cycle. -/
def ofExcept (r : Except Fault State) : Host.Outcome State Fault Refusal :=
  match r with
  | .ok s => .next s
  | .error e => .fault e

/-- A word with a payload or data on master port `p`: if its value fits the transfer in data phase
there the cycle is run, else it is no word of this port (R78, log 6) and is refused whatever the cycle
would have been (DESIGN CHOICE, log 26). -/
def withWord (p : Nat) (d : DataWord) (r : Except Fault State) (s : State) :
    Host.Outcome State Fault Refusal :=
  match s.chains[p]? with
  | none => .refused (.noSuchMaster p)
  | some c => if d.fits c.md.dataSlot then ofExcept r else .refused (.invalidWord .reservedBits)

/-- A bus command on master port `p` for one cycle (log 4). -/
def present (p : Nat) (d : Drive) (s : State) : Host.Outcome State Fault Refusal :=
  withWord p d.dp (cycle (some (p, d)) none s) s

/-- A response word at Master Driver `p` for one cycle (log 5). -/
def respond (p : Nat) (r : Reply) (s : State) : Host.Outcome State Fault Refusal :=
  withWord p r.data (cycle none (some (p, r)) s) s

/-- The clock's commit with no steps before it (R110 step 6): every Master Driver and every cell. That a
driver's `CycleWithoutResponse` is reported before a cell's `FlopUnreadOverwritten` is a DESIGN CHOICE
(log 26). -/
def commitEdge (s : State) : Except Fault State := do
  let chains ← mapE (fun c => (mdCommit c.md).map fun md => ({ c with md := md } : Chain)) s.chains
  let cells ← mapE flopCommit s.cells
  .ok { s with chains := chains, cells := cells, ret := .unit, out := [] }

/-- A clock tick (log 17): from a cycle boundary the whole cycle; inside a cycle only the commit, which
R152 checks. -/
def clock (s : State) : Except Fault State :=
  if s.chains.all fun c => c.md.phase == .tickExtra then cycle none none s else commitEdge s

end Sys2Proof.Machine
end

