-- ==== Sys2Proof/Machine/BusCommands.lean ====
section
/-! DEFINITION. The meanings of the seven bus commands (R83): the command stands on a master port for
one clock cycle of the whole fabric, and every component on its way does with it what its rules say
(log 4). A read takes effect in its data phase at a slave (R128), a write too (R130). -/

namespace Sys2Proof.Machine

open Sys2Proof

/-- `IDLE` (R153): no transfer is presented. -/
def execIdle (p : Nat) (ready : Bool) (dp : DataWord) (s : State) : Host.Outcome State Fault Refusal :=
  present p ⟨none, ready, dp⟩ s

/-- `READ.B` (R83, R128). -/
def execReadB (p : Nat) (ready : Bool) (burst : Burst) (prot : Prot) (addr : Addr) (dp : DataWord)
    (s : State) : Host.Outcome State Fault Refusal :=
  present p ⟨some ⟨.read, addr, .byte, burst, prot⟩, ready, dp⟩ s

/-- `READ.H` (R83, R128). -/
def execReadH (p : Nat) (ready : Bool) (burst : Burst) (prot : Prot) (addr : Addr) (dp : DataWord)
    (s : State) : Host.Outcome State Fault Refusal :=
  present p ⟨some ⟨.read, addr, .halfword, burst, prot⟩, ready, dp⟩ s

/-- `READ.W` (R83, R128). -/
def execReadW (p : Nat) (ready : Bool) (burst : Burst) (prot : Prot) (addr : Addr) (dp : DataWord)
    (s : State) : Host.Outcome State Fault Refusal :=
  present p ⟨some ⟨.read, addr, .word, burst, prot⟩, ready, dp⟩ s

/-- `WRITE.B` (R83, R130). -/
def execWriteB (p : Nat) (ready : Bool) (burst : Burst) (prot : Prot) (addr : Addr) (dp : DataWord)
    (s : State) : Host.Outcome State Fault Refusal :=
  present p ⟨some ⟨.write, addr, .byte, burst, prot⟩, ready, dp⟩ s

/-- `WRITE.H` (R83, R130). -/
def execWriteH (p : Nat) (ready : Bool) (burst : Burst) (prot : Prot) (addr : Addr) (dp : DataWord)
    (s : State) : Host.Outcome State Fault Refusal :=
  present p ⟨some ⟨.write, addr, .halfword, burst, prot⟩, ready, dp⟩ s

/-- `WRITE.W` (R83, R130). -/
def execWriteW (p : Nat) (ready : Bool) (burst : Burst) (prot : Prot) (addr : Addr) (dp : DataWord)
    (s : State) : Host.Outcome State Fault Refusal :=
  present p ⟨some ⟨.write, addr, .word, burst, prot⟩, ready, dp⟩ s

end Sys2Proof.Machine
end

