-- ==== Sys2Proof/Machine/FlopOps.lean ====
section
/-! DEFINITION. The meanings of the operations on a flop cell (R102 to R104). -/

namespace Sys2Proof.Machine

open Sys2Proof

/-- An operation on cell `p`. -/
def onCell (p : Nat) (f : Flop → Except Fault (Ret × Flop)) (s : State) :
    Host.Outcome State Fault Refusal :=
  match s.cells[p]? with
  | none => .refused (.noSuchCell p)
  | some c =>
    match f c with
    | .error e => .fault e
    | .ok (r, c') => .next { s with cells := s.cells.set p c', ret := r, out := [] }

/-- `set_next(v)` (R102). -/
def execSetNext (p : Nat) (value : Word) (s : State) : Host.Outcome State Fault Refusal :=
  onCell p (fun c => (flopSetNext c value).map fun c' => (.unit, c')) s

/-- `deref()` (R103). -/
def execDeref (p : Nat) (s : State) : Host.Outcome State Fault Refusal :=
  onCell p (fun c => (flopDeref c).map fun (v, c') => (.value v, c')) s

/-- `commit()` (R104): the clock commits every flop, and R110 puts the rest of the cycle before it
(log 17). -/
def execCommit (s : State) : Host.Outcome State Fault Refusal :=
  ofExcept (clock s)

end Sys2Proof.Machine
end

