-- ==== Sys2Proof/Machine/HandlerOps.lean ====
section
/-! DEFINITION. The meanings of the calls from a Slave Driver to its handler (R121): the handler of
slave `p` makes the call's answer, which is left in `ret` (log 16). A transfer with an incrementing
burst reaches no handler (R80, R54). -/

namespace Sys2Proof.Machine

open Sys2Proof

/-- A call on the handler of slave `p`, for the transfer `t`. That an incrementing burst is reported
before a violation of the handler's answer (R123) is a DESIGN CHOICE (log 26). -/
def onHandler (p : Nat) (t : TransferMeta) (f : Handler → Except Fault (Answer × Handler)) (e : Answer → Event) (s : State) :
    Host.Outcome State Fault Refusal :=
  match s.slaves[p]? with
  | none => .refused (.noSuchSlave p)
  | some u =>
    match refuseBurst (some t), f u.handler with
    | .error x, _ => .fault x
    | .ok _, .error x => .fault x
    | .ok _, .ok (a, h) =>
      .next { s with slaves := s.slaves.set p { u with handler := h }, ret := .answer a, out := [e a] }

/-- `read(meta)` (R128, R123). -/
def execRead (p : Nat) (t : TransferMeta) (s : State) : Host.Outcome State Fault Refusal :=
  onHandler p t (fun h => checkedRead h t) (.handlerRead p t) s

/-- `pre_write(meta)` (R129). -/
def execPreWrite (p : Nat) (t : TransferMeta) (s : State) : Host.Outcome State Fault Refusal :=
  onHandler p t (fun h => .ok (handlerPreWrite h t)) (.handlerPreWrite p t) s

/-- `write(meta, data, is_final)` (R130). -/
def execWrite (p : Nat) (t : TransferMeta) (value : Word) (isFinal : Bool) (s : State) :
    Host.Outcome State Fault Refusal :=
  onHandler p t (fun h => .ok (handlerWrite h t (wordData t.size value) isFinal))
    (.handlerWrite p t (wordData t.size value) isFinal) s

end Sys2Proof.Machine
end

