-- ==== Sys2Proof/Machine/OwnerOps.lean ====
section
/-! DEFINITION. The meanings of the calls between an owner and its Master Driver (R151): the owner's
three calls act in the current cycle, before its dispatch (R154); the two callbacks tell the owner
something and change no flop (log 16). -/

namespace Sys2Proof.Machine

open Sys2Proof

/-- An owner's call on Master Driver `p`: its result in `ret`, no callback made. -/
def onMaster (p : Nat) (f : Chain → Except Fault (Ret × MasterDriver)) (s : State) :
    Host.Outcome State Fault Refusal :=
  match s.chains[p]? with
  | none => .refused (.noSuchMaster p)
  | some c =>
    match f c with
    | .error e => .fault e
    | .ok (r, md) => .next { s with chains := s.chains.set p { c with md := md }, ret := r, out := [] }

/-- A callback to the owner of Master Driver `p` about the transfers `l`. No driver ever has one with an
incrementing burst (R80, R54; log 16). -/
def notify (p : Nat) (l : List TransferMeta) (e : Event) (s : State) : Host.Outcome State Fault Refusal :=
  if p < s.chains.length then
    match mapE (fun t => refuseBurst (some t)) l with
    | .error x => .fault x
    | .ok _ => .next { s with ret := .unit, out := [e] }
  else .refused (.noSuchMaster p)

/-- `try_request(t)` (R155). -/
def execTryRequest (p : Nat) (t : TransferMeta) (s : State) : Host.Outcome State Fault Refusal :=
  onMaster p (fun c => (mdTryRequest c.md t).map fun (b, md) => (.bool b, md)) s

/-- `try_force_cancel()` (R157). -/
def execTryForceCancel (p : Nat) (s : State) : Host.Outcome State Fault Refusal :=
  onMaster p (fun c => (mdTryForceCancel c.cfg.cancelMode c.md).map fun (b, md) => (.bool b, md)) s

/-- `provide_data(d)` (R156). -/
def execProvideData (p : Nat) (size : Size) (value : Word) (s : State) :
    Host.Outcome State Fault Refusal :=
  onMaster p (fun c => (mdProvideData c.md (wordData size value)).map fun md => (.unit, md)) s

/-- `transfer_done(t, result)` (R162): the result of a read is its data, of a write nothing. -/
def execTransferDone (p : Nat) (t : TransferMeta) (value : Word) (s : State) :
    Host.Outcome State Fault Refusal :=
  notify p [t] (.transferDone p t (if t.dir = .read then some (wordData t.size value) else none)) s

/-- `transfers_aborted(list)` (R165): the failed transfer and the withdrawn one, if any. -/
def execTransfersAborted (p : Nat) (t : TransferMeta) (next : Option TransferMeta) (s : State) :
    Host.Outcome State Fault Refusal :=
  notify p (t :: next.toList) (.transfersAborted p (t :: next.toList)) s

end Sys2Proof.Machine
end

