-- ==== Sys2Proof/Machine/PureOps.lean ====
section
/-! DEFINITION. The meanings of the pure functions inside the Decoder, the Output Stage, the Aligner
and the Translator (R86): their value is left in `ret`, no flop changes. -/

namespace Sys2Proof.Machine

open Sys2Proof

/-- A pure function's value. -/
def returned (r : Ret) (s : State) : State :=
  { s with ret := r, out := [] }

/-- `decode(address)` of master `p`'s decoder (R181). -/
def execDecode (p : Nat) (addr : Addr) (s : State) : Host.Outcome State Fault Refusal :=
  match s.chains[p]? with
  | none => .refused (.noSuchMaster p)
  | some c => .next (returned (.tag (decodeAddr c.cfg.ports addr)) s)

/-- `arbitrate` under `FixedPriority` at output stage `p` (R206). DESIGN CHOICE (log 23): the row names
the policy, whatever `ARBITER` the stage has; the spec is silent on the row of the other policy. -/
def execArbitrateFixed (p : Nat) (contenders : Nat) (s : State) :
    Host.Outcome State Fault Refusal :=
  match s.stages[p]? with
  | none => .refused (.noSuchStage p)
  | some st =>
    .next (returned (.master (arbitrateFixed st.cfg.inputs (maskMembers st.cfg.inputs contenders))) s)

/-- `arbitrate` under `RoundRobin` at output stage `p`, from its `rr_head` (R207). DESIGN CHOICE
(log 23): the row names the policy, whatever `ARBITER` the stage has; at a `FixedPriority` stage, which
by R28 has no `rr_head`, it starts from the unused `rrHead`, 0 from reset on. -/
def execArbitrateRr (p : Nat) (contenders : Nat) (s : State) :
    Host.Outcome State Fault Refusal :=
  match s.stages[p]? with
  | none => .refused (.noSuchStage p)
  | some st =>
    .next (returned (.master (arbitrateRr st.cfg.inputs st.rrHead (maskMembers st.cfg.inputs contenders))) s)

/-- `split(meta)` (R232). -/
def execSplit (t : TransferMeta) (s : State) : Host.Outcome State Fault Refusal :=
  .next (returned (.chunks (splitChunks t)) s)

/-- `bb_translate(address)` of master `p`'s translator; a chain without one has no alias range
(R262, R278). -/
def execBbTranslate (p : Nat) (addr : Addr) (s : State) : Host.Outcome State Fault Refusal :=
  match s.chains[p]? with
  | none => .refused (.noSuchMaster p)
  | some c => .next (returned (.bit (bandTranslate (c.cfg.bitband.getD []) addr)) s)

end Sys2Proof.Machine
end

