-- ==== Sys2Proof/Machine/Responses.lean ====
section
/-! DEFINITION. The meanings of the response words (R84): the word is what Master Driver `p` receives
in one clock cycle (log 5). A word carries a code and a grant; both act, whichever row names it. -/

namespace Sys2Proof.Machine

open Sys2Proof

/-- `Success` (R162, R160). -/
def execSuccess (p : Nat) (grant : Bool) (data : DataWord) (s : State) :
    Host.Outcome State Fault Refusal :=
  respond p ⟨.success, grant, data⟩ s

/-- `Pending` (R163, R160). -/
def execPending (p : Nat) (grant : Bool) (data : DataWord) (s : State) :
    Host.Outcome State Fault Refusal :=
  respond p ⟨.pending, grant, data⟩ s

/-- `Error1` (R164, R160). -/
def execError1 (p : Nat) (grant : Bool) (data : DataWord) (s : State) :
    Host.Outcome State Fault Refusal :=
  respond p ⟨.error1, grant, data⟩ s

/-- `Error2` (R165, R160): the bus error is taken. -/
def execError2 (p : Nat) (grant : Bool) (data : DataWord) (s : State) :
    Host.Outcome State Fault Refusal :=
  respond p ⟨.error2, grant, data⟩ s

/-- `GRANT` (R84, R160): the presented address phase is taken if the code is ready. -/
def execGrant (p : Nat) (code : Code) (data : DataWord) (s : State) :
    Host.Outcome State Fault Refusal :=
  respond p ⟨code, true, data⟩ s

/-- `DENY` (R84, R160): the presented address phase is held, marked `Denied`. -/
def execDeny (p : Nat) (code : Code) (data : DataWord) (s : State) :
    Host.Outcome State Fault Refusal :=
  respond p ⟨code, false, data⟩ s

end Sys2Proof.Machine
end

