-- ==== Sys2Proof/Machine/Dispatch.lean ====
section
/-! DEFINITION. One arm per row of spec/opcode_table.json. -/

namespace Sys2Proof.Machine

open Sys2Proof

def exec (i : Instr) (s : State) : Host.Outcome State Fault Refusal :=
  match i with
  | .idle p ready dp => Sys2Proof.Machine.execIdle p ready dp s
  | .readB p ready burst prot addr dp => Sys2Proof.Machine.execReadB p ready burst prot addr dp s
  | .readH p ready burst prot addr dp => Sys2Proof.Machine.execReadH p ready burst prot addr dp s
  | .readW p ready burst prot addr dp => Sys2Proof.Machine.execReadW p ready burst prot addr dp s
  | .writeB p ready burst prot addr dp => Sys2Proof.Machine.execWriteB p ready burst prot addr dp s
  | .writeH p ready burst prot addr dp => Sys2Proof.Machine.execWriteH p ready burst prot addr dp s
  | .writeW p ready burst prot addr dp => Sys2Proof.Machine.execWriteW p ready burst prot addr dp s
  | .success p grant data => Sys2Proof.Machine.execSuccess p grant data s
  | .pending p grant data => Sys2Proof.Machine.execPending p grant data s
  | .error1 p grant data => Sys2Proof.Machine.execError1 p grant data s
  | .error2 p grant data => Sys2Proof.Machine.execError2 p grant data s
  | .grant p code data => Sys2Proof.Machine.execGrant p code data s
  | .deny p code data => Sys2Proof.Machine.execDeny p code data s
  | .tryRequest p t => Sys2Proof.Machine.execTryRequest p t s
  | .tryForceCancel p => Sys2Proof.Machine.execTryForceCancel p s
  | .provideData p size value => Sys2Proof.Machine.execProvideData p size value s
  | .transferDone p t value => Sys2Proof.Machine.execTransferDone p t value s
  | .transfersAborted p t next => Sys2Proof.Machine.execTransfersAborted p t next s
  | .read p t => Sys2Proof.Machine.execRead p t s
  | .preWrite p t => Sys2Proof.Machine.execPreWrite p t s
  | .write p t value isFinal => Sys2Proof.Machine.execWrite p t value isFinal s
  | .setNext p value => Sys2Proof.Machine.execSetNext p value s
  | .deref p => Sys2Proof.Machine.execDeref p s
  | .commit => Sys2Proof.Machine.execCommit s
  | .decode p addr => Sys2Proof.Machine.execDecode p addr s
  | .arbitrateFixed p contenders => Sys2Proof.Machine.execArbitrateFixed p contenders s
  | .arbitrateRr p contenders => Sys2Proof.Machine.execArbitrateRr p contenders s
  | .split t => Sys2Proof.Machine.execSplit t s
  | .bbTranslate p addr => Sys2Proof.Machine.execBbTranslate p addr s

end Sys2Proof.Machine
end

