-- ==== Sys2Proof/Machine/Fetch.lean ====
section
/-! DEFINITION. How a word reaches the machine (log 1): packets wait in the inbox, the first one is
the next instruction. -/

namespace Sys2Proof.Machine

open Sys2Proof

/-- One packet: the instruction it spells is run, or its word is refused as invalid (R81). -/
def runPacket (k : Packet) (s : State) : Host.Outcome State Fault Refusal :=
  match decode k with
  | .error why => .refused (.invalidWord why)
  | .ok i => exec i s

/-- With a packet waiting it is taken and run; with none a clock cycle passes in which no owner calls
anything (R110, R322). -/
def runNext (s : State) : Host.Outcome State Fault Refusal :=
  match s.inbox with
  | [] => ofExcept (clock s)
  | k :: rest => runPacket k { s with inbox := rest }

end Sys2Proof.Machine
end

