-- ==== Sys2Proof/Machine/Step.lean ====
section
/-! DEFINITION. One step of the machine, and where it fetches. -/

namespace Sys2Proof.Machine

open Sys2Proof

/-- One step: the next word waiting at the machine's ports, or a clock cycle (log 1). -/
def step (s : State) : Host.Outcome State Fault Refusal :=
  runNext s

/-- The state with a table word put first in the inbox, where `step` fetches. -/
def State.withFetchWord (s : State) (nbits w : Nat) : State :=
  { s with inbox := packetOfTable nbits w :: s.inbox }

end Sys2Proof.Machine
end

