-- ==== Sys2Proof/Machine/Inputs.lean ====
section
/-! DEFINITION. One step of the fabric as R18 and R110 have it: a whole clock cycle whose only inputs
are the calls each owner makes on its Master Driver and the answers each handler gives. The rows of the
operation table are finer: an owner's call is a row, and `commit` is the rest of its cycle (log 25). -/

namespace Sys2Proof.Machine

open Sys2Proof

/-- A call of an owner on its Master Driver (R151). -/
inductive OwnerCall where
  | tryRequest (t : TransferMeta)
  | tryForceCancel
  | provideData (d : Data)
deriving DecidableEq, Repr

/-- The inputs of one cycle (R18): per master its owner's calls in their order, per slave the answers
its handler gives, where the handler is an external one. What is not listed is no call, and no answer
beyond those the handler has queued. -/
structure CycleInput where
  calls : List (List OwnerCall)
  answers : List (List Answer)
deriving DecidableEq, Repr

/-- One call (R155 to R157): what it returns and the driver after it. -/
def mdCall (mode : CancelMode) (md : MasterDriver) (k : OwnerCall) : Except Fault (Ret × MasterDriver) :=
  match k with
  | .tryRequest t => (mdTryRequest md t).map fun (b, md') => (.bool b, md')
  | .tryForceCancel => (mdTryForceCancel mode md).map fun (b, md') => (.bool b, md')
  | .provideData d => (mdProvideData md d).map fun md' => (.unit, md')

/-- The calls of one owner in one cycle, in their order: what they return and the driver after them. -/
def mdCalls (mode : CancelMode) (md : MasterDriver) : List OwnerCall → Except Fault (List Ret × MasterDriver)
  | [] => .ok ([], md)
  | k :: l =>
    match mdCall mode md k with
    | .error e => .error e
    | .ok (r, md') => (mdCalls mode md' l).map fun (rs, md'') => (r :: rs, md'')

/-- Answers for an external handler stand behind those it has queued; the reference handler makes its
own. -/
def Handler.offer (h : Handler) (l : List Answer) : Handler :=
  match h with
  | .ram mem waits rem => .ram mem waits rem
  | .external queue stream taken => .external (queue ++ l) stream taken

/-- The slaves with the answers of this cycle. -/
def offerAnswers (slaves : List Slave) (answers : List (List Answer)) : List Slave :=
  slaves.zipIdx.map fun x => { x.1 with handler := x.1.handler.offer (answers[x.2]?.getD []) }

/-- What one chain's owner does in step 1 (R110). -/
def chainCalls (calls : List (List OwnerCall)) (p : Nat) (c : Chain) : Except Fault (List Ret × Chain) :=
  (mdCalls c.cfg.cancelMode c.md (calls[p]?.getD [])).map fun (rs, md) => (rs, { c with md := md })

/-- One step of the fabric (R18, R110): the owners' calls, then the rest of the cycle. Its result are what
the calls returned, master by master, and the next state. -/
def fabricStep (i : CycleInput) (s : State) : Except Fault (List (List Ret) × State) := do
  let turns ← mapE (fun x => chainCalls i.calls x.2 x.1) s.chains.zipIdx
  let t ← cycle none none
    { s with chains := turns.map Prod.snd, slaves := offerAnswers s.slaves i.answers }
  .ok (turns.map Prod.fst, t)

end Sys2Proof.Machine
end

