-- ==== Sys2Proof/Machine/Setup.lean ====
section
/-! DEFINITION. The check of a configuration before cycle 0 (R333) and the state it starts in. -/

namespace Sys2Proof.Machine

open Sys2Proof

/-- No two intervals `[lo, hi)` of a list share a point. -/
def disjointRanges : List (Nat × Nat) → Bool
  | [] => true
  | r :: rest => (rest.all fun q => r.2 ≤ q.1 || q.2 ≤ r.1 || r.2 ≤ r.1 || q.2 ≤ q.1) && disjointRanges rest

/-- The ranges of one decoder (R181, R333). -/
def rangesOk (ports : List PortCfg) : Bool :=
  (ports.all fun r => r.lo < r.hi) && disjointRanges (ports.map fun r => (r.lo, r.hi))

/-- The regions of one translator (R261). -/
def bandRegionsOk (l : List BandRegion) : Bool :=
  (l.all fun r => r.aliasLo % 128 == 0 && ((r.aliasHi : Int) - r.aliasLo) % 128 == 0 &&
    r.targetBase.toNat % 4 == 0) &&
    disjointRanges (l.map fun r => (r.aliasLo, r.aliasHi))

/-- All targets that decoder ports are wired to. -/
def Config.targets (c : Config) : List Target :=
  (c.masters.flatMap MasterCfg.ports).map PortCfg.target

/-- Whether a target exists (R9). -/
def targetExists (c : Config) (t : Target) : Bool :=
  match t with
  | .slave s => s < c.slaves.length
  | .stage o x =>
    match c.stages[o]? with
    | some st => x < st.inputs
    | none => false

/-- Stages have inputs and a slave, and ports lead somewhere (R9, R200, R333). -/
def wiringOk (c : Config) : Bool :=
  ((Config.targets c).all (targetExists c)) &&
    c.stages.all fun st => 1 ≤ st.inputs && st.slave < c.slaves.length

/-- Every input of a stage is driven by exactly one port (R333), and a slave, which has one port
(R120), by at most one. -/
def connectionsOk (c : Config) : Bool :=
  (c.stages.zipIdx.all fun st =>
    (List.range st.1.inputs).all fun x => (Config.targets c).count (.stage st.2 x) == 1) &&
  (List.range c.slaves.length).all fun s =>
    (Config.targets c).count (.slave s) + (c.stages.map StageCfg.slave).count s ≤ 1

/-- A master-side port of an output stage has a granting wire (R200, R333). -/
def grantWiresOk (c : Config) : Bool :=
  (c.masters.flatMap MasterCfg.ports).all fun r =>
    match r.target with
    | .slave _ => true
    | .stage _ _ => r.grantWire

/-- A mapping keeps the length (R246). -/
def reinterpretOk (c : MasterCfg) : Bool :=
  match c.aligner with
  | some (.truncateReinterpret m) => (m.write ++ m.read).all fun r => r.src.length == r.dst.length
  | _ => true

/-- The check of R333: what is wrong with a configuration, if anything. A decoder's one default slave
and the order of a chain's stages hold by construction. Which of several faults is named is a DESIGN
CHOICE (log 26). -/
def checkConfig (c : Config) : Option ConfigFault :=
  if !c.masters.all (fun m => rangesOk m.ports) then some .ranges
  else if !c.masters.all (fun m => bandRegionsOk (m.bitband.getD [])) then some .bandRegions
  else if !wiringOk c then some .wiring
  else if !connectionsOk c then some .unconnected
  else if !grantWiresOk c then some .grantWire
  else if !c.masters.all reinterpretOk then some .reinterpret
  else none

/-- The start of a run (R332, R333): a bad configuration is refused and no state is built. -/
def start (c : Config) : Host.Outcome State Fault Refusal :=
  match checkConfig c with
  | some why => .refused (.badConfig why)
  | none => .next (State.ofConfig c)

end Sys2Proof.Machine
end

