-- ==== Sys2Proof/Machine/Stimulus.lean ====
section
/-! DEFINITION. The stimulus syntax of R91, the fabric's "assembly": what an owner does in each
cycle, as calls on its Master Driver, followed by the cycle. -/

namespace Sys2Proof.Machine

open Sys2Proof

/-- One item of a stimulus (R91), with its optional fields. -/
inductive Item where
  | read (addr : Addr) (size : Option Size) (prot : Option Prot)
  | write (addr : Addr) (size : Size) (data : Option Word) (prot : Option Prot)
  | idle
  | cancel
deriving DecidableEq, Repr

/-- An owner that follows a stimulus: the items to come and the data of writes it has requested and
not yet provided. -/
structure Owner where
  todo : List Item
  gifts : List Data
deriving DecidableEq, Repr

/-- Whether a transfer is a write. -/
def isWrite (t : Option TransferMeta) : Bool :=
  match t with
  | some t => t.dir == .write
  | none => false

/-- How many requested writes still wait for their data. -/
def giftsDue (md : MasterDriver) : Nat :=
  (if isWrite md.dataSlot && md.wdata == none then 1 else 0) +
    (if isWrite (md.addrSlot.map Prod.fst) then 1 else 0)

/-- The data of a write is handed over in the first cycle the write is in data phase (R91). -/
def ownerGive (gifts : List Data) (md : MasterDriver) : Except Fault (List Data × MasterDriver) :=
  match isWrite md.dataSlot && md.wdata == none, gifts.take (giftsDue md) with
  | true, d :: rest => (mdProvideData md d).map fun md' => (rest, md')
  | _, l => .ok (l, md)

/-- The transfer a `read` item asks for: a word if no size is given, protection bits 0 if none are
(R91). -/
def itemRead (a : Addr) (z : Option Size) (q : Option Prot) : TransferMeta :=
  ⟨.read, a, z.getD .word, .single, q.getD 0⟩

/-- The transfer a `write` item asks for (R91). -/
def itemWrite (a : Addr) (z : Size) (q : Option Prot) : TransferMeta :=
  ⟨.write, a, z, .single, q.getD 0⟩

/-- The data of a `write` item, 0 if none is given (R91). DESIGN CHOICE (log 24): of a number with more
bytes than the size has, the low ones; the spec is silent there. -/
def itemData (z : Size) (d : Option Word) : Data :=
  wordData z (d.getD 0)

/-- A request, retried in every cycle until it is taken (R91). -/
def ownerRequest (o : Owner) (rest : List Item) (md : MasterDriver) (t : TransferMeta)
    (gift : List Data) : Except Fault (Owner × MasterDriver) :=
  (mdTryRequest md t).map fun (taken, md') =>
    (if taken then ⟨rest, o.gifts ++ gift⟩ else o, md')

/-- What an owner does in the `TickExtra` phase of one cycle (R91). -/
def ownerTurn (mode : CancelMode) (o : Owner) (md : MasterDriver) :
    Except Fault (Owner × MasterDriver) := do
  let (gifts, md) ← ownerGive o.gifts md
  let o : Owner := { o with gifts := gifts }
  match o.todo with
  | [] => .ok (o, md)
  | .idle :: rest => .ok ({ o with todo := rest }, md)
  | .cancel :: rest =>
    (mdTryForceCancel mode md).map fun (_, md') =>
      ({ todo := rest, gifts := o.gifts.take (giftsDue md') }, md')
  | .read a z q :: rest => ownerRequest o rest md (itemRead a z q) []
  | .write a z d q :: rest =>
    ownerRequest o rest md (itemWrite a z q) [itemData z d]

/-- One cycle in which every master's owner follows its stimulus: step 1 of R110, then the rest. -/
def stimulusCycle (owners : List Owner) (s : State) : Except Fault (List Owner × State) := do
  let turns ← mapE (fun x => do
    let o : Owner := owners[x.2]?.getD ⟨[], []⟩
    let (o', md) ← ownerTurn x.1.cfg.cancelMode o x.1.md
    .ok (o', { x.1 with md := md })) s.chains.zipIdx
  let s' ← cycle none none { s with chains := turns.map Prod.snd }
  .ok (turns.map Prod.fst, s')

end Sys2Proof.Machine
end

