-- ==== Sys2Proof/Safety.lean ====
section
/-! DEFINITION. The terms in which claims speak of a good state: well-formed stores, legal cursors,
a cycle boundary, and a quiet fabric. -/

namespace Sys2Proof.Machine

open Sys2Proof

/-- The store of a handler is in canonical form. -/
def Handler.wf (h : Handler) : Bool :=
  match h with
  | .ram mem _ _ => Memory.wf mem
  | .external _ _ _ => true

/-- The round-robin head is a master of the stage (R28), when the stage has any (R333). -/
def Stage.wf (st : Stage) : Bool :=
  st.rrHead < st.cfg.inputs || st.rrHead == 0

/-- A Master Driver at a cycle boundary (R24, R152): it is in `TickExtra`; the write data belongs to the
write in its data slot (R156); after a code that is not ready a transfer is in the data slot (R159). -/
def MasterDriver.wf (md : MasterDriver) : Bool :=
  md.phase == .tickExtra &&
    (match md.wdata, md.dataSlot with
      | none, _ => true
      | some d, some t => t.dir == .write && dataFits t d
      | some _, none => false) &&
    (readyCode md.lastCode || md.dataSlot.isSome)

/-- A slave at a cycle boundary: its store is canonical, it never answers an error (R121), and a
transfer stays in the data slot through `Pending` only (R133). -/
def Slave.wf (u : Slave) : Bool :=
  u.handler.wf && ((u.sd.lastCode == .success && u.sd.dataSlot == none) ||
    (u.sd.lastCode == .pending && u.sd.dataSlot.isSome))

/-- A default slave at a cycle boundary: it never waits (R186), and a transfer stays in the data slot
through `Error1` only (R133). -/
def SlaveDriver.dfltWf (sd : SlaveDriver) : Bool :=
  sd.lastCode != .pending && (sd.dataSlot.isSome == (sd.lastCode == .error1))

/-- The cursors of a split are in range and the composite has the transfer's length (R29). -/
def Aligner.wf (pol : Option AlignPolicy) (al : Aligner) : Bool :=
  match pol, al.split with
  | some pol, some s =>
    s.next ≤ subCount pol s.xfer && s.acc.length == xferBytes s.xfer &&
      (match s.cur with
        | some i => i < s.next
        | none => true)
  | _, _ => true

/-- The word that a bitband write carries has 4 bytes (R30). -/
def Translator.wf (bb : Translator) : Bool :=
  match bb.state with
  | .bitbandWriteRequestWriting _ w => w.length == 4
  | .bitbandWriteWritingFirstCycle _ w => w.length == 4
  | .bitbandWriteWriting _ w => w.length == 4
  | _ => true

/-- A chain at a cycle boundary. -/
def Chain.wf (c : Chain) : Bool :=
  c.md.wf && c.al.wf c.cfg.aligner && c.bb.wf && c.dec.ds.dfltWf

/-- The invariant every step keeps. -/
def State.Inv (s : State) : Prop :=
  (∀ c ∈ s.chains, c.wf) ∧ (∀ st ∈ s.stages, st.wf) ∧ ∀ u ∈ s.slaves, u.wf

/-- Nothing is in flight at a Slave Driver or default slave. -/
def SlaveDriver.quiet (sd : SlaveDriver) : Bool :=
  sd.addrSlot == none && sd.dataSlot == none && sd.lastCode == .success

/-- Nothing is in flight at a Master Driver, at a cycle boundary. -/
def MasterDriver.quiet (md : MasterDriver) : Bool :=
  md.addrSlot == none && md.dataSlot == none && md.lastCode == .success && md.lastGrant &&
    md.phase == .tickExtra

/-- Nothing is in flight in a chain below its Master Driver. -/
def Chain.quietBelow (c : Chain) : Bool :=
  c.al == Aligner.reset && c.bb == Translator.reset && c.dec.addrRoute == none &&
    c.dec.addrMeta == none && c.dec.lastCode == .success && c.dec.ds.quiet

/-- Nothing is in flight in a chain. -/
def Chain.quiet (c : Chain) : Bool :=
  c.md.quiet && c.quietBelow

/-- Nothing is in flight at an Output Stage. -/
def Stage.quiet (st : Stage) : Bool :=
  st.addrRoute == none && st.lastCode == .success

/-- No cell holds a committed value that nothing has read (R104). -/
def Flop.committable (c : Flop) : Bool :=
  c.cur == none || c.curRead

/-- Everything but the Master Drivers is quiet and every cell may commit. -/
def State.QuietBelow (s : State) : Prop :=
  (∀ c ∈ s.chains, c.quietBelow) ∧ (∀ st ∈ s.stages, st.quiet) ∧ (∀ u ∈ s.slaves, u.sd.quiet) ∧
    ∀ c ∈ s.cells, c.committable

/-- Nothing is in flight anywhere (R39 in words: R330), and every cell may commit. Configuration,
handlers, stores, data routes and round-robin heads are arbitrary. -/
def State.Quiet (s : State) : Prop :=
  s.QuietBelow ∧ ∀ c ∈ s.chains, c.md.quiet

/-- A cell after its commit (R104). -/
def Flop.committed (c : Flop) : Flop :=
  { c with cur := c.next, curRead := false, next := none }

/-- One byte of a slave's store, for a slave with the reference handler. -/
def State.slaveByte (s : State) (p a : Nat) : Byte :=
  match s.slaves[p]? with
  | some ⟨_, _, .ram mem _ _⟩ => readByte mem a
  | _ => unlistedByte

/-- The transfer a chain presents downstream of its Aligner for a requested one (R235). -/
def Chain.presented (c : Chain) (t : TransferMeta) : TransferMeta :=
  match c.cfg.aligner with
  | some pol => if needsAligner t then subAt pol t 0 else t
  | none => t

/-- The chain's Translator does not reject a presented transfer: it is outside every alias range, or
at the address of an alias word (R263). -/
def Chain.aliasOk (c : Chain) (t : TransferMeta) : Bool :=
  (bandTranslate (c.cfg.bitband.getD []) (c.presented t).addr).isNone ||
    (c.presented t).addr.toNat % 4 == 0

/-- The slave that an address reaches in a chain (R9, R181). -/
def State.slaveAt (s : State) (c : Chain) (a : Addr) : Option Nat :=
  match decodeAddr c.cfg.ports a with
  | some (.port k) =>
    match (c.cfg.ports[k]?).map PortCfg.target with
    | some (.slave u) => some u
    | some (.stage o _) => (s.stages[o]?).map fun st => st.cfg.slave
    | none => none
  | _ => none

/-- The words a bus command instruction puts on a master port, and which port (R83). -/
def commandOf : Instr → Option (Nat × Drive)
  | .idle p r dp => some (p, ⟨none, r, dp⟩)
  | .readB p r b q a dp => some (p, ⟨some ⟨.read, a, .byte, b, q⟩, r, dp⟩)
  | .readH p r b q a dp => some (p, ⟨some ⟨.read, a, .halfword, b, q⟩, r, dp⟩)
  | .readW p r b q a dp => some (p, ⟨some ⟨.read, a, .word, b, q⟩, r, dp⟩)
  | .writeB p r b q a dp => some (p, ⟨some ⟨.write, a, .byte, b, q⟩, r, dp⟩)
  | .writeH p r b q a dp => some (p, ⟨some ⟨.write, a, .halfword, b, q⟩, r, dp⟩)
  | .writeW p r b q a dp => some (p, ⟨some ⟨.write, a, .word, b, q⟩, r, dp⟩)
  | _ => none

/-- The words a response instruction puts on a Master Driver's port, and which port (R84). -/
def responseOf : Instr → Option (Nat × Reply)
  | .success p g d => some (p, ⟨.success, g, d⟩)
  | .pending p g d => some (p, ⟨.pending, g, d⟩)
  | .error1 p g d => some (p, ⟨.error1, g, d⟩)
  | .error2 p g d => some (p, ⟨.error2, g, d⟩)
  | .grant p c d => some (p, ⟨c, true, d⟩)
  | .deny p c d => some (p, ⟨c, false, d⟩)
  | _ => none

/-- The Master Driver an owner's call is made on (R151). -/
def ownerCallAt : Instr → Option Nat
  | .tryRequest p _ => some p
  | .tryForceCancel p => some p
  | .provideData p _ _ => some p
  | _ => none

/-- The slave whose handler a call is made on (R121). -/
def handlerCallAt : Instr → Option Nat
  | .read p _ => some p
  | .preWrite p _ => some p
  | .write p _ _ _ => some p
  | _ => none

/-- The flop cell an operation on one cell is for (R102, R103). -/
def cellOpAt : Instr → Option Nat
  | .setNext p _ => some p
  | .deref p => some p
  | _ => none

/-- The instructions whose step is a clock cycle. -/
def takesCycle (i : Instr) : Bool :=
  (commandOf i).isSome || (responseOf i).isSome || i == .commit

/-- What slave `u` receives in the cycle that instruction `i` takes from `s` (R184, R209). -/
def State.slaveInput (i : Instr) (s : State) (u : Nat) : Except Fault M2S := do
  let down ← chainsDown (commandOf i) s.chains
  let stages ← mapE (fun x => stageStart down x.2 x.1) s.stages.zipIdx
  .ok (slaveWires down stages u)

/-- Every Master Driver is at a cycle boundary. -/
def State.atBoundary (s : State) : Prop :=
  ∀ c ∈ s.chains, c.md.phase = .tickExtra

/-- A Master Driver after the cycle in which `code` and `grant` arrive, where the rule of the code has
left `ds`, `wd` and `cn` in its data slot, write data and withdrawn transfer (R160, R161). -/
def MasterDriver.answered (md : MasterDriver) (ds : Option TransferMeta) (wd : Option Data)
    (cn : Option TransferMeta) (code : Code) (grant : Bool) : MasterDriver :=
  match md.addrSlot with
  | none => ⟨none, ds, wd, cn, code, grant, .tickExtra⟩
  | some (a, _) =>
    if (code = .success ∨ code = .error2) ∧ grant = true then
      ⟨none, some a, wd, cn, code, grant, .tickExtra⟩
    else ⟨some (a, if grant then .stalled else .denied), ds, wd, cn, code, grant, .tickExtra⟩

/-- The wires of an idle fabric's master ports, `ready` being the flag a command puts on port `p`
(R113). -/
def State.idleWires (s : State) (p : Nat) (ready : Bool) : List PortWires :=
  s.chains.zipIdx.map fun x =>
    ⟨⟨none, if x.2 = p then ready else true, none⟩, ⟨.success, none, true⟩, x.1.dec.dataRoute⟩

/-- The chunks `l` of a transfer at address `a` from offset `o` to `n` are those of the greedy rule:
each is the largest of 4, 2, 1 that fits and is aligned (R232). -/
def Greedy (a n : Nat) : Nat → List (Nat × Nat) → Prop
  | o, [] => o = n
  | o, c :: l =>
    c.1 = o ∧ o + c.2 ≤ n ∧ (a + o) % c.2 = 0 ∧ (c.2 = 1 ∨ c.2 = 2 ∨ c.2 = 4) ∧
      (∀ k ∈ [1, 2, 4], o + k ≤ n → (a + o) % k = 0 → k ≤ c.2) ∧ Greedy a n (o + c.2) l

/-- A fabric of one master wired straight to one slave with the reference handler that never waits
(R9, R190): `lo <= a < hi` reaches the slave, any other address the default slave. Nothing is in
flight and no cell holds a value. -/
def State.Direct (s : State) (lo hi : Nat) (mem : Memory) : Prop :=
  ∃ c u g, s.chains = [c] ∧ s.stages = [] ∧ s.slaves = [u] ∧ c.quiet = true ∧ u.sd.quiet = true ∧
    c.md.cancelled = none ∧ c.cfg.aligner = none ∧ c.cfg.bitband = none ∧ c.cfg.mock = [] ∧
    c.cfg.ports = [⟨lo, hi, .slave 0, g⟩] ∧ u.handler = .ram mem [] none ∧
    ∀ x ∈ s.cells, x.cur = none ∧ x.next = none

/-- `x` is the sub-transfer of `t` for the chunk `c`, an offset and a length (R233). -/
def IsChunkOf (t : TransferMeta) (c : Nat × Nat) (x : TransferMeta) : Prop :=
  x.dir = t.dir ∧ x.addr = t.addr + BitVec.ofNat 32 c.1 ∧ x.size.bytes = c.2 ∧ x.burst = .single ∧
    x.prot = t.prot

/-- `low` stands downstream of an Aligner under `Split` for the upstream address phase `req` (R235): an
aligned transfer for itself, an unaligned one's first sub-transfer for the whole. -/
def StandsFor (req low : Option TransferMeta) : Prop :=
  match req with
  | none => low = none
  | some t =>
    if t.addr.toNat % t.size.bytes = 0 then low = some t
    else ∃ c x, (splitChunks t)[0]? = some c ∧ IsChunkOf t c x ∧ low = some x

/-- What stands downstream of an Aligner under `TruncateReinterpret` for the upstream address phase `req`
(R235, R246): the same access at the address aligned down to its size. -/
def truncReq (req : Option TransferMeta) : Option TransferMeta :=
  req.map fun t => { t with addr := BitVec.ofNat 32 (t.addr.toNat / t.size.bytes * t.size.bytes) }

/-- The split that begins when the address phase `req` is granted in a cycle of a ready code (R238). -/
def splitBegun (req : Option TransferMeta) (granted : Bool) : Option Split :=
  match req with
  | none => none
  | some t =>
    if granted = true ∧ t.addr.toNat % t.size.bytes ≠ 0 then
      some ⟨t, 1, some 0, List.replicate t.size.bytes 0⟩
    else none

/-- No rule of the Translator rejects the address phase (R80, R263). -/
def BandOk (rs : List BandRegion) (req : Option TransferMeta) : Prop :=
  ∀ t, req = some t → t.burst = .single ∧ (bandTranslate rs t.addr ≠ none → t.addr.toNat % 4 = 0)

/-- The translation of an address phase that no rule rejects (R263). -/
def bandReq (rs : List BandRegion) (req : Option TransferMeta) : Option TransferMeta :=
  match req with
  | none => none
  | some t =>
    match bandTranslate rs t.addr with
    | none => some t
    | some (w, _) => some ⟨.read, w, .word, .single, t.prot⟩

/-- Where the Translator goes when the address phase `req` it forwards is granted, or not, in a cycle of a
ready code (R277). -/
def bandBegun (rs : List BandRegion) (req : Option TransferMeta) (granted : Bool) : BandState :=
  match req with
  | none => .normal
  | some t =>
    match bandTranslate rs t.addr with
    | none => .normal
    | some (w, b) =>
      if granted = false then .normal
      else if t.dir = .read then .bitbandRead b t.size
      else .bitbandWriteReading ⟨w, b, t.prot⟩

/-- A handler call of the last step touched one of the four bytes of word `w` at slave `u`. -/
def Event.touches (u : Nat) (w : Addr) (e : Event) : Bool :=
  let hits (p : Nat) (t : TransferMeta) : Bool :=
    p == u && (List.range (xferBytes t)).any fun i => byteAddr t.addr i / 4 == w.toNat / 4
  match e with
  | .handlerRead p t _ => hits p t
  | .handlerPreWrite p t _ => hits p t
  | .handlerWrite p t _ _ _ => hits p t
  | .transferDone _ _ _ => false
  | .transfersAborted _ _ => false

/-- `BB_ATOMIC` (R274) for one step from `s` to `t`: while a translator asks for its write, which is
between the data phases of its read and its write, no handler call touches its word at its slave.
It is an obligation on the configuration and the stimulus, not a behaviour (log 18). -/
def bandAtomicStep (s t : State) : Bool :=
  s.chains.all fun c =>
    match c.bb.state with
    | .bitbandWriteRequestWriting r _ =>
      match s.slaveAt c r.addr with
      | some u => t.out.all fun e => !e.touches u r.addr
      | none => true
    | _ => true

end Sys2Proof.Machine
end

