-- ==== Sys2Proof/Certificates/Slice0/Obligations.lean ====
section
/-! DEFINITION. The statements for the provers. Each docstring says which rules of spec/ it rests on;
a log number says that a clause rests on the model's own convention. -/

section Slice0Statements

open Sys2Proof Sys2Proof.Machine

/-! ### Encoding -/

/-- Decoding the words of a well-formed instruction gives it back, every operand included (R77, R78,
R79, R85; packet layout and operand fields are the model's, log 2 and 3). -/
def Obligations.DecodeEncodeAgree : Prop :=
  ∀ i : Instr, i.wf = true → decode (encode i) = .ok i

/-- What the decoder accepts is well-formed, and an instruction has one word: the decoder drops no bit,
but bits 41 to 2 of an idle address-phase word, which R77 forbids to read (R78, R79, R85; packet layout
and operand fields are the model's, log 2 and 3). -/
def Obligations.WordsSpellOneInstruction : Prop :=
  ∀ (k : Packet) (i : Instr), decode k = .ok i →
    i.wf = true ∧ (encode i).fmt = k.fmt ∧
      ((k.fmt = .addressPhase → flag (natOfBytes k.bytes) 0 = true) → (encode i).bytes = k.bytes) ∧
      (k.fmt = .addressPhase → flag (natOfBytes k.bytes) 0 = false →
        (encode i).bytes.length = k.bytes.length ∧
          ∀ j, j < 2 ∨ 42 ≤ j →
            flag (natOfBytes (encode i).bytes) j = flag (natOfBytes k.bytes) j)

/-- The words of the vectors E1 to E20 and the tags of R85 with operands 0 decode to what the spec says
they are. That a response word is read as its code in a packet of kind `response` and as its grant in
one of kind `grantWire`, and as which of them a table word is, is the model's (log 2). -/
def Obligations.SpecWordsDecode : Prop :=
  (decodeTableWord 42 0x00000000002 = some (.idle 0 true ⟨false, 0⟩) ∧
    decodeTableWord 42 0x00000000000 = some (.idle 0 false ⟨false, 0⟩) ∧
    decodeTableWord 42 0x00000000003 = some (.readB 0 true .single 0 0 ⟨false, 0⟩) ∧
    decodeTableWord 42 0x00000004017 = some (.writeW 0 true .single 0 0x10 ⟨false, 0⟩) ∧
    decodeTableWord 42 0x00000008013 = some (.readW 0 true .single 0 0x20 ⟨false, 0⟩) ∧
    decodeTableWord 42 0x08000000ACB = some (.readH 0 true .single 0xB 0x20000002 ⟨false, 0⟩) ∧
    decodeTableWord 42 0x3FFFFFFF3D7 = some (.writeW 0 true .single 0xF 0xFFFFFFFC ⟨false, 0⟩) ∧
    decodeTableWord 42 0x3FFFFFFF3D5 = some (.writeW 0 false .single 0xF 0xFFFFFFFC ⟨false, 0⟩) ∧
    decodeTableWord 42 0x0000040100F = some (.writeH 0 true .single 0 0x1004 ⟨false, 0⟩) ∧
    decodeTableWord 42 0x0000000001B = none ∧
    decodeTableWord 42 0x00000000023 = some (.readB 0 true .increment 0 0 ⟨false, 0⟩)) ∧
  (dataWordOfBits 0x02468ACF1 = ⟨true, 0x12345678⟩ ∧ dataWordOfBits 0x0000000B5 = ⟨true, 0x5A⟩ ∧
    dataWordOfBits 0x000000000 = ⟨false, 0⟩) ∧
  (decode (packetOf .response 0 0x000000004) = .ok (.success 0 true ⟨false, 0⟩) ∧
    decode (packetOf .response 0 0x000000000) = .ok (.success 0 false ⟨false, 0⟩) ∧
    decode (packetOf .grantWire 0 0x000000000) = .ok (.deny 0 .success ⟨false, 0⟩) ∧
    decode (packetOf .response 0 0x000000005) = .ok (.pending 0 true ⟨false, 0⟩) ∧
    decodeTableWord 36 0x000000005 = some (.grant 0 .pending ⟨false, 0⟩) ∧
    decode (packetOf .response 0 0x000000006) = .ok (.error1 0 true ⟨false, 0⟩) ∧
    decode (packetOf .response 0 0x000000007) = .ok (.error2 0 true ⟨false, 0⟩) ∧
    decode (packetOf .response 0 0x44332211C) = .ok (.success 0 true ⟨true, 0x44332211⟩)) ∧
  (decodeTableWord 8 0x00 = some (.tryRequest 0 ⟨.read, 0, .byte, .single, 0⟩) ∧
    decodeTableWord 8 0x01 = some (.tryForceCancel 0) ∧
    decodeTableWord 8 0x02 = some (.provideData 0 .byte 0) ∧
    decodeTableWord 8 0x03 = some (.transferDone 0 ⟨.read, 0, .byte, .single, 0⟩ 0) ∧
    decodeTableWord 8 0x04 = some (.transfersAborted 0 ⟨.read, 0, .byte, .single, 0⟩ none) ∧
    decodeTableWord 8 0x08 = some (.read 0 ⟨.read, 0, .byte, .single, 0⟩) ∧
    decodeTableWord 8 0x09 = some (.preWrite 0 ⟨.read, 0, .byte, .single, 0⟩) ∧
    decodeTableWord 8 0x0A = some (.write 0 ⟨.read, 0, .byte, .single, 0⟩ 0 false) ∧
    decodeTableWord 8 0x10 = some (.setNext 0 0) ∧ decodeTableWord 8 0x11 = some (.deref 0) ∧
    decodeTableWord 8 0x12 = some .commit ∧ decodeTableWord 8 0x18 = some (.decode 0 0) ∧
    decodeTableWord 8 0x19 = some (.arbitrateFixed 0 0) ∧
    decodeTableWord 8 0x1A = some (.arbitrateRr 0 0) ∧
    decodeTableWord 8 0x1B = some (.split ⟨.read, 0, .byte, .single, 0⟩) ∧
    decodeTableWord 8 0x1C = some (.bbTranslate 0 0) ∧ decodeTableWord 8 0x1F = none)

/-! ### The step -/

/-- When the packet at the head of the inbox decodes to `i`, the step is `exec i` on the state without
that packet; a table word placed by `withFetchWord` is such a packet (log 1). -/
def Obligations.StepRunsDecodedInstruction : Prop :=
  (∀ (s : State) (k : Packet) (rest : List Packet) (i : Instr), s.inbox = k :: rest →
    decode k = .ok i → step s = exec i { s with inbox := rest }) ∧
  ∀ (s : State) (nbits w : Nat) (i : Instr), decodeTableWord nbits w = some i →
    step (s.withFetchWord nbits w) = exec i s

/-- A packet that spells no instruction is refused by name; an address-phase word with the fourth size
code is one (R81), and so is, at its port, a word whose value has bytes above the size of the transfer
in data phase, which R78 has as 0 (log 6). With no packet waiting the step is the clock's tick, one
cycle in which no owner calls anything (R110, R322; log 1). -/
def Obligations.StepOtherwise : Prop :=
  (∀ (s : State) (k : Packet) (rest : List Packet) (why : Reject), s.inbox = k :: rest →
    decode k = .error why → step s = .refused (.invalidWord why)) ∧
  (∀ k : Packet, k.fmt = .addressPhase → k.bytes.length = 11 →
    flag (natOfBytes k.bytes) 0 = true → field (natOfBytes k.bytes) 3 2 = 3 →
      ∃ why, decode k = .error why) ∧
  (∀ (s : State) (p : Nat) (i : Instr) (c : Chain) (x : TransferMeta) (d : Drive) (r : Reply),
    s.chains[p]? = some c → c.md.dataSlot = some x →
    (commandOf i = some (p, d) ∧ d.dp.present = true ∧ 2 ^ (8 * x.size.bytes) ≤ d.dp.value.toNat ∨
      responseOf i = some (p, r) ∧ r.data.present = true ∧
        2 ^ (8 * x.size.bytes) ≤ r.data.value.toNat) →
      exec i s = .refused (.invalidWord .reservedBits)) ∧
  ∀ s : State, s.inbox = [] → step s = exec .commit s

/-- A unit number that the topology (R9) does not have is refused by name; `split` and `commit` are for
no unit (log 19). -/
def Obligations.UnitsOutsideTheTopologyAreRefused : Prop :=
  ∀ (s : State) (p : Nat),
    (s.chains.length ≤ p → ∀ (t : TransferMeta) (u : Option TransferMeta) (z : Size) (v : Word)
      (a : Addr) (d : Drive) (r : Reply) (i : Instr),
      (commandOf i = some (p, d) ∨ responseOf i = some (p, r) ∨ i = .tryRequest p t ∨
        i = .tryForceCancel p ∨ i = .provideData p z v ∨ i = .transferDone p t v ∨
        i = .transfersAborted p t u ∨ i = .decode p a ∨ i = .bbTranslate p a) →
        exec i s = .refused (.noSuchMaster p)) ∧
    (s.slaves.length ≤ p → ∀ (t : TransferMeta) (v : Word) (f : Bool),
      exec (.read p t) s = .refused (.noSuchSlave p) ∧
      exec (.preWrite p t) s = .refused (.noSuchSlave p) ∧
      exec (.write p t v f) s = .refused (.noSuchSlave p)) ∧
    (s.stages.length ≤ p → ∀ m : Nat,
      exec (.arbitrateFixed p m) s = .refused (.noSuchStage p) ∧
      exec (.arbitrateRr p m) s = .refused (.noSuchStage p)) ∧
    (s.cells.length ≤ p → ∀ v : Word,
      exec (.setNext p v) s = .refused (.noSuchCell p) ∧
      exec (.deref p) s = .refused (.noSuchCell p))

/-! ### Pure functions of the components -/

/-- R181: `decode` gives the tag of the range that holds the address, half open, and nothing if no
range holds it; the ranges are disjoint (R333). Nothing changes but the value left in `ret`. -/
def Obligations.DecodeFindsTheRange : Prop :=
  ∀ (s : State) (p : Nat) (a : Addr) (c : Chain), s.chains[p]? = some c →
    rangesOk c.cfg.ports = true →
      (∀ (k : Nat) (r : PortCfg), c.cfg.ports[k]? = some r → r.lo ≤ a.toNat → a.toNat < r.hi →
        exec (.decode p a) s = .next { s with ret := .tag (some (.port k)), out := [] }) ∧
      ((∀ r ∈ c.cfg.ports, ¬ (r.lo ≤ a.toNat ∧ a.toNat < r.hi)) →
        exec (.decode p a) s = .next { s with ret := .tag none, out := [] })

/-- R232, R242: `split` gives the greedy list of aligned chunks, which cover the transfer's bytes from
the first to the last without gap or overlap; of an unaligned transfer there are two or three. -/
def Obligations.SplitTilesTheTransfer : Prop :=
  ∀ (s : State) (t : TransferMeta), ∃ l : List (Nat × Nat),
    exec (.split t) s = .next { s with ret := .chunks l, out := [] } ∧
      Greedy t.addr.toNat t.size.bytes 0 l ∧
      (t.addr.toNat % t.size.bytes ≠ 0 → l.length = 2 ∨ l.length = 3)

/-- R262: `bb_translate` gives the target word and the bit of an address in an alias range, and nothing
for any other address. The regions satisfy R261. -/
def Obligations.BbTranslateFindsTheBit : Prop :=
  ∀ (s : State) (p : Nat) (a : Addr) (c : Chain), s.chains[p]? = some c →
    bandRegionsOk (c.cfg.bitband.getD []) = true →
      (∀ r ∈ c.cfg.bitband.getD [], r.aliasLo ≤ a.toNat → a.toNat < r.aliasHi →
        ∃ (w : Addr) (b : Fin 32),
          exec (.bbTranslate p a) s = .next { s with ret := .bit (some (w, b)), out := [] } ∧
          w.toNat = (r.targetBase.toNat + 4 * ((a.toNat - r.aliasLo) / 128)) % 2 ^ 32 ∧
          b.val = (a.toNat - r.aliasLo) / 4 % 32) ∧
      ((∀ r ∈ c.cfg.bitband.getD [], ¬ (r.aliasLo ≤ a.toNat ∧ a.toNat < r.aliasHi)) →
        exec (.bbTranslate p a) s = .next { s with ret := .bit none, out := [] })

/-- R206: under `FixedPriority` the least contender wins. Contenders are the stage's inputs that the
mask names (log 3); the row is the policy's whatever the stage's own policy is (log 23). -/
def Obligations.FixedPriorityPicksTheLeast : Prop :=
  ∀ (s : State) (p m : Nat) (st : Stage), s.stages[p]? = some st →
    (∀ x, x < st.cfg.inputs → m.testBit x = true → (∀ y < x, m.testBit y = false) →
      exec (.arbitrateFixed p m) s = .next { s with ret := .master (some x), out := [] }) ∧
    ((∀ x < st.cfg.inputs, m.testBit x = false) →
      exec (.arbitrateFixed p m) s = .next { s with ret := .master none, out := [] })

/-- R207: under `RoundRobin` the first contender from `rr_head` on, modulo `N`, wins. Contenders are the
stage's inputs that the mask names (log 3); the row is the policy's whatever the stage's own policy is
(log 23). -/
def Obligations.RoundRobinPicksFromTheHead : Prop :=
  ∀ (s : State) (p m : Nat) (st : Stage), s.stages[p]? = some st →
    (∀ k, k < st.cfg.inputs → m.testBit ((st.rrHead + k) % st.cfg.inputs) = true →
      (∀ j < k, m.testBit ((st.rrHead + j) % st.cfg.inputs) = false) →
      exec (.arbitrateRr p m) s =
        .next { s with ret := .master (some ((st.rrHead + k) % st.cfg.inputs)), out := [] }) ∧
    ((∀ x < st.cfg.inputs, m.testBit x = false) →
      exec (.arbitrateRr p m) s = .next { s with ret := .master none, out := [] })

/-- R215: when all `n` masters contend in every cycle, `n` consecutive grants, each advancing the head
by one, go to `n` different masters. -/
def Obligations.RoundRobinServesEveryMaster : Prop :=
  ∀ n head x : Nat, x < n →
    ∃ k < n, arbitrateRr n ((head + k) % n) (List.range n) = some x ∧
      ∀ j < n, arbitrateRr n ((head + j) % n) (List.range n) = some x → j = k

/-! ### The flop cell -/

/-- R102, R105: `set_next` writes `next` and leaves `cur`; on a `Plain` cell that has a `next` it is
`FlopWrittenTwice`. -/
def Obligations.SetNextWritesNext : Prop :=
  ∀ (s : State) (p : Nat) (v : Word) (c : Flop), s.cells[p]? = some c →
    ((c.kind = .combinational ∨ c.next = none) →
      exec (.setNext p v) s =
        .next { s with cells := s.cells.set p { c with next := some v }, ret := .unit, out := [] }) ∧
    (c.kind = .plain → c.next ≠ none → exec (.setNext p v) s = .fault .flopWrittenTwice)

/-- R103: `deref` returns the committed value once; an unset cell or a second read is a violation. -/
def Obligations.DerefReadsOnce : Prop :=
  ∀ (s : State) (p : Nat) (c : Flop), s.cells[p]? = some c →
    (c.cur = none → exec (.deref p) s = .fault .flopReadUnset) ∧
    (∀ v, c.cur = some v → c.curRead = true → exec (.deref p) s = .fault .flopReadTwice) ∧
    ∀ v, c.cur = some v → c.curRead = false →
      exec (.deref p) s =
        .next { s with cells := s.cells.set p { c with curRead := true }, ret := .value v, out := [] }

/-- R104: the commit of one cell moves `next` to `cur`, unread, and clears `next`; an unread committed
value is `FlopUnreadOverwritten`, also when nothing replaces it. -/
def Obligations.FlopCommitMovesNext : Prop :=
  ∀ c : Flop,
    (c.cur ≠ none → c.curRead = false → flopCommit c = .error .flopUnreadOverwritten) ∧
    ((c.cur = none ∨ c.curRead = true) →
      flopCommit c = .ok ⟨c.kind, c.next, false, none⟩)

/-- `commit` on a quiet fabric is one idle cycle (R110, R113): every cell commits, every master port
carries `IDLE` and receives `Success`, and no other component changes. A cell with an unread committed
value makes the cycle a violation (R104, R303). -/
def Obligations.CommitOnQuietFabric : Prop :=
  (∀ s : State, s.Quiet →
    exec .commit s =
      .next { s with cells := s.cells.map Flop.committed, ret := .unit, out := [],
                     wires := s.idleWires 0 true }) ∧
  ∀ (s : State) (c : Flop), { s with cells := [] }.Quiet → c ∈ s.cells → c.cur ≠ none →
    c.curRead = false → exec .commit s = .fault .flopUnreadOverwritten

/-! ### The owner's calls and callbacks -/

/-- R155, R152, R80: `try_request` fills an empty address slot, marked `Fresh`, and otherwise returns
false; nothing else changes. An incrementing burst and a call outside `TickExtra` are violations; that the
phase is checked before the burst is the model's choice (log 26). -/
def Obligations.TryRequestFillsTheAddressSlot : Prop :=
  ∀ (s : State) (p : Nat) (t : TransferMeta) (c : Chain), s.chains[p]? = some c →
    (c.md.phase ≠ .tickExtra → exec (.tryRequest p t) s = .fault .callOutsideTick) ∧
    (c.md.phase = .tickExtra → t.burst = .increment →
      exec (.tryRequest p t) s = .fault .burstNotModelled) ∧
    (c.md.phase = .tickExtra → t.burst = .single →
      (c.md.addrSlot = none →
        exec (.tryRequest p t) s =
          .next { s with
            chains := s.chains.set p { c with md := { c.md with addrSlot := some (t, .fresh) } }
            ret := .bool true, out := [] }) ∧
      (c.md.addrSlot ≠ none →
        exec (.tryRequest p t) s = .next { s with ret := .bool false, out := [] }))

/-- R157: `try_force_cancel` empties the address slot if the mode allows it, and otherwise returns false
and changes nothing. -/
def Obligations.TryForceCancelObeysTheMode : Prop :=
  ∀ (s : State) (p : Nat) (c : Chain), s.chains[p]? = some c →
    (c.md.phase ≠ .tickExtra → exec (.tryForceCancel p) s = .fault .callOutsideTick) ∧
    (c.md.phase = .tickExtra → c.md.addrSlot = none →
      exec (.tryForceCancel p) s = .next { s with ret := .bool false, out := [] }) ∧
    ∀ t h, c.md.phase = .tickExtra → c.md.addrSlot = some (t, h) →
      ((c.cfg.cancelMode = .cortexM ∨
          c.cfg.cancelMode = .ambaStrict ∧ (h = .fresh ∨ c.md.lastCode = .error1)) →
        exec (.tryForceCancel p) s =
          .next { s with
            chains := s.chains.set p { c with md := { c.md with addrSlot := none } }
            ret := .bool true, out := [] }) ∧
      ((c.cfg.cancelMode = .forbidden ∨
          c.cfg.cancelMode = .ambaStrict ∧ h ≠ .fresh ∧ c.md.lastCode ≠ .error1) →
        exec (.tryForceCancel p) s = .next { s with ret := .bool false, out := [] })

/-- R156, R152: `provide_data` is taken once, for a write in the data slot, with the write's length;
anything else is `UnexpectedData`. The operand carries as many bytes as its size (R78, log 3). That a call
outside `TickExtra` is reported whatever the data is the model's choice (log 26). -/
def Obligations.ProvideDataIsTakenOnce : Prop :=
  ∀ (s : State) (p : Nat) (z : Size) (v : Word) (c : Chain), s.chains[p]? = some c →
    (c.md.phase ≠ .tickExtra → exec (.provideData p z v) s = .fault .callOutsideTick) ∧
    (∀ t, c.md.phase = .tickExtra → c.md.dataSlot = some t → t.dir = .write → t.size = z →
      c.md.wdata = none →
        exec (.provideData p z v) s =
          .next { s with
            chains := s.chains.set p { c with md := { c.md with wdata := some (wordData z v) } }
            ret := .unit, out := [] }) ∧
    (c.md.phase = .tickExtra →
      (c.md.dataSlot = none ∨ c.md.wdata ≠ none ∨
        ∃ t, c.md.dataSlot = some t ∧ (t.dir = .read ∨ t.size ≠ z)) →
      exec (.provideData p z v) s = .fault .unexpectedData)

/-- R162, R165, R151: the two callbacks tell the owner, in the order and with the data the rules give,
and change no flop. A transfer with an incrementing burst is refused (R54, R80; log 16). -/
def Obligations.CallbacksTellTheOwner : Prop :=
  ∀ (s : State) (p : Nat) (t : TransferMeta) (v : Word) (u : Option TransferMeta),
    p < s.chains.length →
      (t.burst = .single →
        (t.dir = .read → exec (.transferDone p t v) s =
          .next { s with ret := .unit, out := [.transferDone p t (some (wordData t.size v))] }) ∧
        (t.dir = .write → exec (.transferDone p t v) s =
          .next { s with ret := .unit, out := [.transferDone p t none] }) ∧
        ((∀ x, u = some x → x.burst = .single) → exec (.transfersAborted p t u) s =
          .next { s with ret := .unit, out := [.transfersAborted p (t :: u.toList)] })) ∧
      (t.burst = .increment → exec (.transferDone p t v) s = .fault .burstNotModelled) ∧
      ((t.burst = .increment ∨ ∃ x, u = some x ∧ x.burst = .increment) →
        exec (.transfersAborted p t u) s = .fault .burstNotModelled)

/-! ### The handler's operations -/

/-- `read` of the reference handler (R128, 95_test_vectors.md section 2): it waits as its counter says,
then gives the bytes at the address, byte `i` being the one at `addr + i`; its store never changes. The
transfer is single; `HandlerReadExternal` says what happens to the other burst. -/
def Obligations.HandlerReadGivesTheBytes : Prop :=
  ∀ (s : State) (p : Nat) (t : TransferMeta) (u : Slave) (m : Memory) (ws : List Nat)
    (rem : Option Nat), s.slaves[p]? = some u → u.handler = .ram m ws rem → t.burst = .single →
      (∀ n, (rem = some (n + 1) ∨ rem = none ∧ ws.head? = some (n + 1)) →
        exec (.read p t) s =
          .next { s with
            slaves := s.slaves.set p
              { u with handler := .ram m (if rem = none then ws.tail else ws) (some n) }
            ret := .answer .pending, out := [.handlerRead p t .pending] }) ∧
      ((rem = some 0 ∨ rem = none ∧ (ws = [] ∨ ws.head? = some 0)) →
        ∃ d : Data, d.length = t.size.bytes ∧
          (∀ i (h : i < d.length), d[i] = readByte m ((t.addr.toNat + i) % 2 ^ 32)) ∧
          exec (.read p t) s =
            .next { s with
              slaves := s.slaves.set p
                { u with handler := .ram m (if rem = none then ws.tail else ws) none }
              ret := .answer (.success d), out := [.handlerRead p t (.success d)] })

/-- `read` of an external handler (R121, R123, R18): a queued answer is given as it is, data of the
wrong length is `BadReadWidth`; with none queued the answer is free but for its length (log 9). No
handler is called for a transfer with an incrementing burst (R80, R54). -/
def Obligations.HandlerReadExternal : Prop :=
  ∀ (s : State) (p : Nat) (t : TransferMeta) (u : Slave), s.slaves[p]? = some u →
    (t.burst = .increment → exec (.read p t) s = .fault .burstNotModelled) ∧
    (t.burst = .single → ∀ (q : List Answer) (k n : Nat),
      (u.handler = .external (.pending :: q) k n →
        exec (.read p t) s =
          .next { s with
            slaves := s.slaves.set p { u with handler := .external q k n }
            ret := .answer .pending, out := [.handlerRead p t .pending] }) ∧
      (∀ d : Data, u.handler = .external (.success d :: q) k n →
        (d.length = t.size.bytes →
          exec (.read p t) s =
            .next { s with
              slaves := s.slaves.set p { u with handler := .external q k n }
              ret := .answer (.success d), out := [.handlerRead p t (.success d)] }) ∧
        (d.length ≠ t.size.bytes → exec (.read p t) s = .fault .badReadWidth)) ∧
      (u.handler = .external [] k n →
        ∃ a : Answer, (a = .pending ∨ ∃ d, a = .success d ∧ d.length = t.size.bytes) ∧
          exec (.read p t) s =
            .next { s with
              slaves := s.slaves.set p { u with handler := .external [] k (n + 1) }
              ret := .answer a, out := [.handlerRead p t a] }))

/-- `pre_write` (R129, R121): it answers `Success` or `Pending` and changes no store; an external
handler gives its queued answer, or with none queued a free one (log 9). No handler is called for a
transfer with an incrementing burst (R80, R54). -/
def Obligations.HandlerPreWriteAnswers : Prop :=
  ∀ (s : State) (p : Nat) (t : TransferMeta) (u : Slave), s.slaves[p]? = some u →
    (t.burst = .increment → exec (.preWrite p t) s = .fault .burstNotModelled) ∧
    (t.burst = .single → ∀ m ws rem, u.handler = .ram m ws rem →
      ∃ a h, exec (.preWrite p t) s =
          .next { s with slaves := s.slaves.set p { u with handler := h }
                         ret := .answer a, out := [.handlerPreWrite p t a] } ∧
        ((∃ n, rem = some (n + 1) ∧ a = .pending ∧ h = .ram m ws (some n)) ∨
          (rem = some 0 ∧ a = .success [] ∧ h = .ram m ws none) ∨
          (rem = none ∧ (ws = [] ∨ ws.head? = some 0) ∧ a = .success [] ∧ h = .ram m ws.tail none) ∨
          ∃ n, rem = none ∧ ws.head? = some (n + 1) ∧ a = .pending ∧ h = .ram m ws.tail (some n))) ∧
    (t.burst = .single → ∀ x q k n, u.handler = .external (x :: q) k n →
      exec (.preWrite p t) s =
        .next { s with slaves := s.slaves.set p { u with handler := .external q k n }
                       ret := .answer x, out := [.handlerPreWrite p t x] }) ∧
    (t.burst = .single → ∀ k n, u.handler = .external [] k n →
      ∃ x : Answer, exec (.preWrite p t) s =
        .next { s with slaves := s.slaves.set p { u with handler := .external [] k (n + 1) }
                       ret := .answer x, out := [.handlerPreWrite p t x] })

/-- `write` of the reference handler (R130, 95_test_vectors.md section 2): a final call stores byte `i`
of the data at `addr + i` and leaves every other byte; a call that is not final stores nothing. An
external handler gives its queued answer, or with none queued a free one (log 9). No handler is called
for a transfer with an incrementing burst (R80, R54). -/
def Obligations.HandlerWriteStoresTheBytes : Prop :=
  ∀ (s : State) (p : Nat) (t : TransferMeta) (v : Word) (f : Bool) (u : Slave), s.slaves[p]? = some u →
    (t.burst = .increment → exec (.write p t v f) s = .fault .burstNotModelled) ∧
    (t.burst = .single → ∀ (m : Memory) (ws : List Nat) (rem : Option Nat), u.handler = .ram m ws rem →
      Memory.wf m = true →
        ∃ m' : Memory, Memory.wf m' = true ∧
          exec (.write p t v f) s =
            .next { s with
              slaves := s.slaves.set p { u with handler := .ram m' ws rem }
              ret := .answer (.success [])
              out := [.handlerWrite p t (wordData t.size v) f (.success [])] } ∧
          (f = false → m' = m) ∧
          (f = true →
            (∀ i < t.size.bytes, readByte m' ((t.addr.toNat + i) % 2 ^ 32) =
              BitVec.ofNat 8 (v.toNat / 256 ^ i)) ∧
            ∀ a, (∀ i < t.size.bytes, a ≠ (t.addr.toNat + i) % 2 ^ 32) →
              readByte m' a = readByte m a)) ∧
    (t.burst = .single → ∀ x q k n, u.handler = .external (x :: q) k n →
      exec (.write p t v f) s =
        .next { s with slaves := s.slaves.set p { u with handler := .external q k n }
                       ret := .answer x, out := [.handlerWrite p t (wordData t.size v) f x] }) ∧
    (t.burst = .single → ∀ k n, u.handler = .external [] k n →
      ∃ x : Answer, exec (.write p t v f) s =
        .next { s with slaves := s.slaves.set p { u with handler := .external [] k (n + 1) }
                       ret := .answer x, out := [.handlerWrite p t (wordData t.size v) f x] })

/-! ### The Slave Driver and the default slave -/

/-- R125: the transfer in data phase is the sampled one when `ready` holds, and `ready` after a
not-ready code is `ReadyDuringHold`. -/
def Obligations.SlavePromotesOnReady : Prop :=
  ∀ sd : SlaveDriver,
    slavePromote sd false = .ok sd.dataSlot ∧
    (sd.lastCode = .pending ∨ sd.lastCode = .error1 → slavePromote sd true = .error .readyDuringHold) ∧
    (sd.lastCode = .success ∨ sd.lastCode = .error2 → slavePromote sd true = .ok sd.addrSlot)

/-- R127, R132, R133: with nothing in data phase a slave answers `Success`, calls no handler and samples
the address wires; a payload is then `PayloadWithoutWrite`. -/
def Obligations.SlaveIdleCycle : Prop :=
  ∀ (i : Nat) (u : Slave) (w : M2S), u.sd.lastCode ≠ .error1 → slavePromote u.sd w.ready = .ok none →
    (∀ d, w.payload = some d → slaveCycle i u w = .error .payloadWithoutWrite) ∧
    (w.payload = none → (∀ t, w.req = some t → t.burst = .single) →
      slaveCycle i u w =
        .ok ⟨⟨.success, none, true⟩, { u with sd := ⟨w.req, none, .success⟩ }, []⟩)

/-- R128, R132, R133: a read in data phase is one `read` call; `Success` ends it with the handler's
data, `Pending` keeps it and the address wires are not looked at; a payload is `PayloadOnRead`. -/
def Obligations.SlaveReadCycle : Prop :=
  ∀ (i : Nat) (u : Slave) (w : M2S) (t : TransferMeta), u.sd.lastCode ≠ .error1 →
    slavePromote u.sd w.ready = .ok (some t) → t.dir = .read →
      (w.payload ≠ none → slaveCycle i u w = .error .payloadOnRead) ∧
      (w.payload = none → (∀ x, w.req = some x → x.burst = .single) →
        (∀ d h, handlerRead u.handler t = (.success d, h) → d.length = t.size.bytes →
          slaveCycle i u w =
            .ok ⟨⟨.success, some d, true⟩, { u with sd := ⟨w.req, none, .success⟩, handler := h },
              [.handlerRead i t (.success d)]⟩) ∧
        (∀ d h, handlerRead u.handler t = (.success d, h) → d.length ≠ t.size.bytes →
          slaveCycle i u w = .error .badReadWidth) ∧
        ∀ h, handlerRead u.handler t = (.pending, h) →
          slaveCycle i u w =
            .ok ⟨⟨.pending, none, true⟩,
              { u with sd := ⟨u.sd.addrSlot, some t, .pending⟩, handler := h },
              [.handlerRead i t .pending]⟩)

/-- R129, R130: a write in data phase calls `pre_write`; after `Success` the data is delivered finally
and the answer is the cycle's code; in a wait-state it is delivered, not finally, under `COMB_WRITE`
only; without a payload it is `MissingWriteData`. -/
def Obligations.SlaveWriteCycle : Prop :=
  ∀ (i : Nat) (u : Slave) (w : M2S) (t : TransferMeta), u.sd.lastCode ≠ .error1 →
    slavePromote u.sd w.ready = .ok (some t) → t.dir = .write →
      (w.payload = none → slaveCycle i u w = .error .missingWriteData) ∧
      ∀ d, w.payload = some d → (∀ x, w.req = some x → x.burst = .single) →
        (∀ x h1 y h2, handlerPreWrite u.handler t = (.success x, h1) →
          handlerWrite h1 t d true = (.success y, h2) →
          slaveCycle i u w =
            .ok ⟨⟨.success, none, true⟩, { u with sd := ⟨w.req, none, .success⟩, handler := h2 },
              [.handlerPreWrite i t (.success x), .handlerWrite i t d true (.success y)]⟩) ∧
        (∀ x h1 h2, handlerPreWrite u.handler t = (.success x, h1) →
          handlerWrite h1 t d true = (.pending, h2) →
          slaveCycle i u w =
            .ok ⟨⟨.pending, none, true⟩,
              { u with sd := ⟨u.sd.addrSlot, some t, .pending⟩, handler := h2 },
              [.handlerPreWrite i t (.success x), .handlerWrite i t d true .pending]⟩) ∧
        (∀ h1, handlerPreWrite u.handler t = (.pending, h1) → u.cfg.combWrite = false →
          slaveCycle i u w =
            .ok ⟨⟨.pending, none, true⟩,
              { u with sd := ⟨u.sd.addrSlot, some t, .pending⟩, handler := h1 },
              [.handlerPreWrite i t .pending]⟩) ∧
        ∀ h1 y h2, handlerPreWrite u.handler t = (.pending, h1) → u.cfg.combWrite = true →
          handlerWrite h1 t d false = (y, h2) →
          slaveCycle i u w =
            .ok ⟨⟨.pending, none, true⟩,
              { u with sd := ⟨u.sd.addrSlot, some t, .pending⟩, handler := h2 },
              [.handlerPreWrite i t .pending, .handlerWrite i t d false y]⟩

/-- R186, R131, R187, R127: a default slave without a mock for the transfer in data phase answers
`Error1`, and in the next cycle `Error2`, whatever address phase and payload that cycle carries; a mock's
answer is given in its place. A write without payload is `MissingWriteData`, with a mock too: that it comes
before `BadMock` is the model's choice (log 26). A payload beside a read is not checked here (log 21,
DEDUCED). With nothing in data phase the answer is `Success`. -/
def Obligations.DefaultSlaveErrorPair : Prop :=
  ∀ (rows : List MockRow) (sd : SlaveDriver) (w : M2S), sd.lastCode ≠ .error1 →
    (slavePromote sd w.ready = .ok none →
      (w.payload ≠ none → defaultCycle rows sd w = .error .payloadWithoutWrite) ∧
      (w.payload = none → (∀ x, w.req = some x → x.burst = .single) →
        defaultCycle rows sd w = .ok (⟨.success, none, true⟩, ⟨w.req, none, .success⟩))) ∧
    ∀ t, slavePromote sd w.ready = .ok (some t) →
      (t.dir = .write → w.payload = none → defaultCycle rows sd w = .error .missingWriteData) ∧
      ((t.dir = .write → w.payload ≠ none) → (∀ x, w.req = some x → x.burst = .single) →
        (mockFor rows t = none →
          ∃ sd', defaultCycle rows sd w = .ok (⟨.error1, none, true⟩, sd') ∧
            ∀ w' : M2S, w'.ready = false → (∀ x, w'.req = some x → x.burst = .single) →
              defaultCycle rows sd' w' =
                .ok (⟨.error2, none, true⟩, ⟨w'.req, none, .error2⟩)) ∧
        ∀ r, mockFor rows t = some r →
          (t.dir = .read → ∀ d, r.data = some d → d.length = t.size.bytes →
            defaultCycle rows sd w = .ok (⟨.success, some d, true⟩, ⟨w.req, none, .success⟩)) ∧
          (t.dir = .write → r.data = none →
            defaultCycle rows sd w = .ok (⟨.success, none, true⟩, ⟨w.req, none, .success⟩)) ∧
          (t.dir = .read → (∀ d, r.data = some d → d.length ≠ t.size.bytes) →
            defaultCycle rows sd w = .error .badMock) ∧
          (t.dir = .write → r.data ≠ none → defaultCycle rows sd w = .error .badMock))

/-! ### The Decoder -/

/-- R182, R183: an address phase held unchanged keeps its route, any other presented one is decoded
afresh; the data route follows the last address route when `ready` holds. Under `STRICT_HOLD` a changed
address phase during a hold is `AddressChangedDuringHold`. -/
def Obligations.DecoderRoutesAnAddressPhase : Prop :=
  ∀ (c : MasterCfg) (dec : Decoder) (w : M2S), (∀ x, w.req = some x → x.burst = .single) →
    (c.cancelMode ≠ .cortexM → w.ready = false → dec.lastCode ≠ .error1 → dec.addrMeta ≠ none →
      w.req ≠ dec.addrMeta → decDown c dec w = .error .addressChangedDuringHold) ∧
    ((c.cancelMode = .cortexM ∨ w.ready = true ∨ dec.lastCode = .error1 ∨ dec.addrMeta = none ∨
        w.req = dec.addrMeta) →
      ∃ r, decDown c dec w = .ok r ∧
        (w.req = none → r.ar = none) ∧
        (∀ t, w.req = some t → w.ready = false → dec.addrMeta = some t → r.ar = dec.addrRoute) ∧
        (∀ t, w.req = some t → (w.ready = true ∨ dec.addrMeta ≠ some t) →
          r.ar = some ((decodeAddr c.ports t.addr).getD .dflt)) ∧
        (∀ g, w.ready = true → dec.addrRoute = some g → r.dr = g) ∧
        ((w.ready = false ∨ dec.addrRoute = none) → r.dr = dec.dataRoute))

/-- R184, R185: the address phase goes to the address route only and the data phase to the data route
only, every port gets the `ready` flag; code and data come from the data route, the grant from the
address route. -/
def Obligations.DecoderSteersTheWires : Prop :=
  ∀ (r : Route) (w : M2S) (g : Tag) (port : Tag → S2M),
    (r.ar = some g → (decFan r w g).req = w.req) ∧ (r.ar ≠ some g → (decFan r w g).req = none) ∧
    (r.dr = g → (decFan r w g).payload = w.payload) ∧ (r.dr ≠ g → (decFan r w g).payload = none) ∧
    (decFan r w g).ready = w.ready ∧
    (decReply r port).code = (port r.dr).code ∧ (decReply r port).data = (port r.dr).data ∧
    (∀ a, r.ar = some a → (decReply r port).grant = (port a).grant) ∧
    (r.ar = none → (decReply r port).grant = true)

/-! ### The Output Stage -/

/-- R203 to R209: the stage forwards the arbiter's winner, the least contender under `FixedPriority` and
the first from `rr_head` on under `RoundRobin`, except after a wait-state, when it forwards that winner
if it owns the data route and else nobody (R208). -/
def Obligations.StageForwardsTheWinner : Prop :=
  ∀ (st : Stage) (inputs : List M2S), (∀ i ∈ inputs, ∀ t, i.req = some t → t.burst = .single) →
    inputs.length = st.cfg.inputs →
      ∃ r, stageDown st inputs = .ok r ∧
        (st.cfg.arbiter = .fixedPriority → ∀ (x : Nat) (w : M2S) (t : TransferMeta),
          inputs[x]? = some w → w.req = some t → (∀ y v, y < x → inputs[y]? = some v → v.req = none) →
            r.w = (if st.lastCode = .pending ∧ r.dr ≠ some x then none else some x) ∧
              r.down.req = if st.lastCode = .pending ∧ r.dr ≠ some x then none else some t) ∧
        (st.cfg.arbiter = .roundRobin → ∀ (k x : Nat) (w : M2S) (t : TransferMeta),
          x = (st.rrHead + k) % st.cfg.inputs → inputs[x]? = some w → w.req = some t →
          (∀ j v, j < k → inputs[(st.rrHead + j) % st.cfg.inputs]? = some v → v.req = none) →
            r.w = (if st.lastCode = .pending ∧ r.dr ≠ some x then none else some x) ∧
              r.down.req = if st.lastCode = .pending ∧ r.dr ≠ some x then none else some t) ∧
        ((∀ i ∈ inputs, i.req = none) → r.w = none ∧ r.down.req = none) ∧
        (∀ x, r.w = some x → ∃ w, inputs[x]? = some w ∧ w.req ≠ none ∧ r.down.req = w.req) ∧
        (∀ x w, st.addrRoute = some x → inputs[x]? = some w →
          r.down.ready = w.ready ∧ r.dr = if w.ready then some x else st.dataRoute) ∧
        (st.addrRoute = none → r.dr = st.dataRoute ∧
          (r.down.ready = true ↔ st.lastCode = .success ∨ st.lastCode = .error2)) ∧
        (∀ x w, r.dr = some x → inputs[x]? = some w → r.down.payload = w.payload) ∧
        (r.dr = none → r.down.payload = none)

/-- R210, R211: a port that presents nothing is granted; a presenting one is granted exactly when it was
forwarded and the slave's code is ready; code and data go to the owner of the data route, the idle
response to every other port. -/
def Obligations.StageAnswersItsPorts : Prop :=
  ∀ (r : StageRoute) (inputs : List M2S) (resp : S2M) (x : Nat) (w : M2S), inputs[x]? = some w →
    (w.req = none → (stageReply r inputs resp x).grant = true) ∧
    (w.req ≠ none → ((stageReply r inputs resp x).grant = true ↔
      r.w = some x ∧ (resp.code = .success ∨ resp.code = .error2))) ∧
    (r.dr = some x →
      (stageReply r inputs resp x).code = resp.code ∧ (stageReply r inputs resp x).data = resp.data) ∧
    (r.dr ≠ some x →
      (stageReply r inputs resp x).code = .success ∧ (stageReply r inputs resp x).data = none)

/-- R212: the next state of an Output Stage; the round-robin head moves by one at each grant and stays
below the number of masters. -/
def Obligations.StageNextState : Prop :=
  ∀ (st : Stage) (r : StageRoute) (code : Code),
    (stageNext st r code).dataRoute = r.dr ∧ (stageNext st r code).lastCode = code ∧
    (stageNext st r code).cfg = st.cfg ∧
    ((code = .success ∨ code = .error2) → (stageNext st r code).addrRoute = r.w) ∧
    ((code = .pending ∨ code = .error1) → (stageNext st r code).addrRoute = none) ∧
    (st.cfg.arbiter = .roundRobin → r.w ≠ none → (code = .success ∨ code = .error2) →
      (stageNext st r code).rrHead = (st.rrHead + 1) % st.cfg.inputs) ∧
    ((st.cfg.arbiter = .fixedPriority ∨ r.w = none ∨ code = .pending ∨ code = .error1) →
      (stageNext st r code).rrHead = st.rrHead)

/-! ### The Aligner -/

/-- R234, R242: the slices of a payload, put back one after the other, give the payload, whatever stood
in the composite before. -/
def Obligations.SlicesReassemble : Prop :=
  ∀ (t : TransferMeta) (d acc : Data), d.length = t.size.bytes → acc.length = t.size.bytes →
    (splitChunks t).foldl (fun a c => putData a c (sliceData d c)) acc = d ∧
      ∀ c ∈ splitChunks t, (sliceData d c).length = c.2

/-- The Aligner under `Split` (R235 to R240). Chunk by chunk a split read gets `Pending` up, until the last
chunk's `Success` goes up with the bytes of `d`; a split write goes the same way, without data. If the
next sub-transfer is granted beside a chunk's `Success` it takes over the data phase, if it is denied
nothing does, and it is presented again and taken when granted. Downstream stand the Aligner's own
sub-transfers in order and then the master's next address phase, with the slice of a write's payload that
is in data phase. A split begins when an unaligned transfer, which stands downstream as its first
sub-transfer, is accepted: out of nothing, or with the last chunk or the `Error2` of the split before. A
wait keeps the record; a bus error part-way ends the split: what is not yet in data phase is never
issued, and no data is released (R239). Read data of another length than the chunk's is `BadReadWidth`
(R237). -/
def Obligations.SplitReadReassembles : Prop :=
  (∀ (t : TransferMeta) (d acc : Data) (i : Nat) (up : M2S) (dc : Code) (dg g : Bool), t.dir = .read →
    d.length = t.size.bytes → acc.length = t.size.bytes → needsAligner t = true →
    (∀ j < i, ∀ c, (splitChunks t)[j]? = some c → sliceData acc c = sliceData d c) →
    ∀ c, (splitChunks t)[i]? = some c →
      ∃ a, alUp .split ⟨some ⟨t, i + 1, some i, acc⟩, dc, dg⟩ up
            ⟨.success, some (sliceData d c), g⟩ = .ok a ∧
        (i + 1 < (splitChunks t).length → a.1 = ⟨.pending, none, true⟩ ∧
          ∃ acc', acc'.length = t.size.bytes ∧
            (∀ j ≤ i, ∀ c', (splitChunks t)[j]? = some c' → sliceData acc' c' = sliceData d c') ∧
            a.2 = ⟨some (if g then ⟨t, i + 2, some (i + 1), acc'⟩ else ⟨t, i + 1, none, acc'⟩),
              .success, g⟩) ∧
        (i + 1 = (splitChunks t).length →
          a = (⟨.success, some d, g⟩, ⟨splitBegun up.req g, .success, g⟩)) ∧
        ∀ y, (∀ x, y = some x → x.length ≠ c.2) →
          alUp .split ⟨some ⟨t, i + 1, some i, acc⟩, dc, dg⟩ up ⟨.success, y, g⟩ =
            .error .badReadWidth) ∧
  (∀ (t : TransferMeta) (acc : Data) (i : Nat) (up : M2S) (dc : Code) (dg g : Bool) (d : Option Data),
    t.dir = .write →
    (i + 1 < (splitChunks t).length →
      alUp .split ⟨some ⟨t, i + 1, some i, acc⟩, dc, dg⟩ up ⟨.success, d, g⟩ =
        .ok (⟨.pending, none, true⟩,
          ⟨some (if g then ⟨t, i + 2, some (i + 1), acc⟩ else ⟨t, i + 1, none, acc⟩), .success, g⟩)) ∧
    (i + 1 = (splitChunks t).length →
      alUp .split ⟨some ⟨t, i + 1, some i, acc⟩, dc, dg⟩ up ⟨.success, d, g⟩ =
        .ok (⟨.success, none, g⟩, ⟨splitBegun up.req g, .success, g⟩))) ∧
  (∀ (s : Split) (dc : Code) (dg : Bool) (up : M2S), (∀ x, up.req = some x → x.burst = .single) →
    ∃ low : Option TransferMeta,
      (∀ c, (splitChunks s.xfer)[s.next]? = some c → ∃ x, IsChunkOf s.xfer c x ∧ low = some x) ∧
      ((splitChunks s.xfer).length ≤ s.next → StandsFor up.req low) ∧
      ((s.cur = none ∨ s.xfer.dir = .read) →
        alDown .split ⟨some s, dc, dg⟩ up =
          .ok ⟨low, (dc == .success || dc == .error2) && dg, none⟩) ∧
      (∀ i c p, s.cur = some i → s.xfer.dir = .write → (splitChunks s.xfer)[i]? = some c →
        up.payload = some p →
          alDown .split ⟨some s, dc, dg⟩ up =
            .ok ⟨low, (dc == .success || dc == .error2) && dg, some (sliceData p c)⟩) ∧
      (s.cur ≠ none → s.xfer.dir = .write → up.payload = none →
        alDown .split ⟨some s, dc, dg⟩ up = .error .missingWriteData)) ∧
  (∀ (dc : Code) (dg : Bool) (up : M2S) (dn : S2M), (∀ x, up.req = some x → x.burst = .single) →
    ∃ low, StandsFor up.req low ∧
      alDown .split ⟨none, dc, dg⟩ up =
        .ok ⟨low, (dc == .success || dc == .error2) && dg, up.payload⟩ ∧
      alUp .split ⟨none, dc, dg⟩ up dn =
        .ok (dn, ⟨if dn.code = .success ∨ dn.code = .error2 then splitBegun up.req dn.grant else none,
          dn.code, dn.grant⟩)) ∧
  ∀ (s : Split) (i : Nat) (dc : Code) (dg g : Bool) (up : M2S) (d : Option Data),
    let own := decide (s.next < (splitChunks s.xfer).length)
    (s.cur = some i →
      alUp .split ⟨some s, dc, dg⟩ up ⟨.pending, d, g⟩ =
        .ok (⟨.pending, none, own || g⟩, ⟨some s, .pending, g⟩) ∧
      alUp .split ⟨some s, dc, dg⟩ up ⟨.error1, d, g⟩ =
        .ok (⟨.error1, none, own || g⟩,
          ⟨some { s with next := (splitChunks s.xfer).length }, .error1, g⟩) ∧
      alUp .split ⟨some s, dc, dg⟩ up ⟨.error2, d, g⟩ =
        .ok (⟨.error2, none, own || g⟩,
          ⟨if own then none else splitBegun up.req g, .error2, g⟩)) ∧
    (s.cur = none →
      alUp .split ⟨some s, dc, dg⟩ up ⟨.success, d, g⟩ =
        .ok (⟨.pending, none, own || g⟩,
          ⟨some (if own && g then { s with cur := some s.next, next := s.next + 1 } else s),
            .success, g⟩) ∧
      ∀ code, code ≠ .success →
        alUp .split ⟨some s, dc, dg⟩ up ⟨code, d, g⟩ = .error .responseWithoutTransfer)

/-- R241, R243: with no split in progress an idle or aligned address phase and the data phase pass the
Aligner unchanged, under either policy, and so does the response; no split begins. -/
def Obligations.AlignedPassesTheAligner : Prop :=
  ∀ (pol : AlignPolicy) (al : Aligner) (up : M2S) (dn : S2M), al.split = none →
    (∀ t, up.req = some t → t.burst = .single ∧ t.addr.toNat % t.size.bytes = 0) →
    up.ready = (readyCode al.dnCode && al.dnGrant) →
      alDown pol al up = .ok up ∧ alUp pol al up dn = .ok (dn, ⟨none, dn.code, dn.grant⟩)

/-- R246, R235, R237, R238: under `TruncateReinterpret` an unaligned transfer is one access at the address
aligned down, of the same direction and size. With nothing in data phase here every address phase stands
downstream aligned down (`truncReq`), the response passes, and an unaligned transfer that is accepted is
remembered; one that is denied, or not ready, is not. In its data phase a read's `Success` goes up in the
same cycle with the bytes reinterpreted, a write's payload goes down reinterpreted, the master's next
address phase stands downstream aligned down, a wait and both error cycles go up as they come, and no
record is left but that of the next transfer, if it is unaligned and accepted in that cycle. -/
def Obligations.TruncateMakesOneAccess : Prop :=
  (∀ (map : Reinterpret) (t : TransferMeta) (pay : Option Data),
    t.burst = .single → t.addr.toNat % t.size.bytes ≠ 0 →
      ∃ low acc, low.addr.toNat = t.addr.toNat - t.addr.toNat % t.size.bytes ∧ low.size = t.size ∧
        low.dir = t.dir ∧ low.burst = .single ∧ low.prot = t.prot ∧ acc.length = t.size.bytes ∧
        alDown (.truncateReinterpret map) .reset ⟨some t, true, pay⟩ = .ok ⟨some low, true, pay⟩ ∧
        alUp (.truncateReinterpret map) .reset ⟨some t, true, pay⟩ ⟨.success, none, true⟩ =
          .ok (⟨.success, none, true⟩, ⟨some ⟨t, 1, some 0, acc⟩, .success, true⟩)) ∧
  (∀ (map : Reinterpret) (dc : Code) (dg : Bool) (up : M2S) (dn : S2M),
    (∀ x, up.req = some x → x.burst = .single) →
      alDown (.truncateReinterpret map) ⟨none, dc, dg⟩ up =
        .ok ⟨truncReq up.req, (dc == .success || dc == .error2) && dg, up.payload⟩ ∧
      alUp (.truncateReinterpret map) ⟨none, dc, dg⟩ up dn =
        .ok (dn, ⟨if dn.code = .success ∨ dn.code = .error2 then splitBegun up.req dn.grant else none,
          dn.code, dn.grant⟩)) ∧
  ∀ (map : Reinterpret) (t : TransferMeta) (acc d : Data) (x : Option Data) (dc : Code) (dg g : Bool)
    (up : M2S), t.addr.toNat % t.size.bytes ≠ 0 → acc.length = t.size.bytes →
    d.length = t.size.bytes → (∀ r ∈ map.write, r.src.length = r.dst.length) →
    (∀ y, up.req = some y → y.burst = .single) →
      let al : Aligner := ⟨some ⟨t, 1, some 0, acc⟩, dc, dg⟩
      (t.dir = .read →
        alDown (.truncateReinterpret map) al up =
          .ok ⟨truncReq up.req, (dc == .success || dc == .error2) && dg, none⟩ ∧
        alUp (.truncateReinterpret map) al up ⟨.success, some d, g⟩ =
          .ok (⟨.success, some (reinterpretData map.read t d), g⟩, ⟨splitBegun up.req g, .success, g⟩) ∧
        ((∀ y, x = some y → y.length ≠ t.size.bytes) →
          alUp (.truncateReinterpret map) al up ⟨.success, x, g⟩ = .error .badReadWidth)) ∧
      (t.dir = .write →
        (up.payload = some d →
          alDown (.truncateReinterpret map) al up =
            .ok ⟨truncReq up.req, (dc == .success || dc == .error2) && dg,
              some (reinterpretData map.write t d)⟩) ∧
        (up.payload = none → alDown (.truncateReinterpret map) al up = .error .missingWriteData) ∧
        alUp (.truncateReinterpret map) al up ⟨.success, x, g⟩ =
          .ok (⟨.success, none, g⟩, ⟨splitBegun up.req g, .success, g⟩)) ∧
      (∀ c, c = .pending ∨ c = .error1 →
        alUp (.truncateReinterpret map) al up ⟨c, x, g⟩ =
          .ok (⟨c, none, g⟩, ⟨some ⟨t, 1, some 0, acc⟩, c, g⟩)) ∧
      alUp (.truncateReinterpret map) al up ⟨.error2, x, g⟩ =
        .ok (⟨.error2, none, g⟩, ⟨splitBegun up.req g, .error2, g⟩)

/-! ### The Bitband Translator -/

/-- R270: inserting a bit changes that bit to bit 0 of the payload and no other bit. -/
def Obligations.InsertChangesOneBit : Prop :=
  ∀ (x p : Data) (b k : Fin 32), x.length = 4 →
    (insertBit x b p).length = 4 ∧
      (dataVal (insertBit x b p)).testBit k =
        if k = b then (dataVal p).testBit 0 else (dataVal x).testBit k

/-- R266, R267, R276, R278: a read of an alias word goes down as a word read of its target; a wait goes
up, a bus error goes up in kind, and `Success` goes up with the bit, 0 or 1, in as many bytes as the
alias access has; the translator is then `Normal` again. Outside every alias range everything passes
unchanged. From `Normal`, and with the `Success` or the `Error2` of an alias read, the translator enters
the alias access that is accepted in that cycle (R277), which stands downstream as its word read; denied
or not ready, it enters none. A word that is not 4 bytes long is `BadReadWidth` (R265). -/
def Obligations.ExtractGivesTheBit : Prop :=
  (∀ (x : Data) (b : Fin 32) (z : Size) (dc : Code) (g : Bool), x.length = 4 →
    ∃ d, bbAnswer ⟨.bitbandRead b z, dc, g⟩ ⟨.success, some x, true⟩ = .ok ⟨.success, some d, x⟩ ∧
      d.length = z.bytes ∧ dataVal d = if (dataVal x).testBit b then 1 else 0) ∧
  (∀ (rs : List BandRegion) (t : TransferMeta) (w : Addr) (b : Fin 32) (x : Data) (up : M2S) (g : Bool),
    bandTranslate rs t.addr = some (w, b) → t.addr.toNat % 4 = 0 → t.burst = .single →
    t.dir = .read → x.length = 4 → up.req = none →
      ∃ bb d, bbDown rs .reset ⟨some t, true, none⟩ =
            .ok ⟨some ⟨.read, w, .word, .single, t.prot⟩, true, none⟩ ∧
        bbUp rs .reset ⟨some t, true, none⟩ ⟨.success, none, true⟩ = .ok (⟨.success, none, true⟩, bb) ∧
        bbDown rs bb up = .ok ⟨none, true, none⟩ ∧
        bbUp rs bb up ⟨.pending, none, g⟩ =
          .ok (⟨.pending, none, g⟩, { bb with dnCode := .pending, dnGrant := g }) ∧
        bbUp rs bb up ⟨.error1, none, g⟩ =
          .ok (⟨.error1, none, g⟩, { bb with dnCode := .error1, dnGrant := g }) ∧
        bbUp rs bb up ⟨.error2, none, g⟩ = .ok (⟨.error2, none, g⟩, ⟨.normal, .error2, g⟩) ∧
        bbUp rs bb up ⟨.success, some x, true⟩ = .ok (⟨.success, some d, true⟩, .reset) ∧
        d.length = t.size.bytes ∧ dataVal d = if (dataVal x).testBit b then 1 else 0) ∧
  (∀ (rs : List BandRegion) (dc : Code) (dg : Bool) (up : M2S) (dn : S2M),
    (∀ t, up.req = some t → t.burst = .single ∧ bandTranslate rs t.addr = none) →
    up.ready = ((dc == .success || dc == .error2) && dg) →
      bbDown rs ⟨.normal, dc, dg⟩ up = .ok up ∧
        bbUp rs ⟨.normal, dc, dg⟩ up dn = .ok (dn, ⟨.normal, dn.code, dn.grant⟩)) ∧
  ∀ (rs : List BandRegion) (b : Fin 32) (z : Size) (dc : Code) (dg g : Bool) (up : M2S) (dn : S2M),
    BandOk rs up.req →
      bbDown rs ⟨.normal, dc, dg⟩ up =
        .ok ⟨bandReq rs up.req, (dc == .success || dc == .error2) && dg, up.payload⟩ ∧
      bbUp rs ⟨.normal, dc, dg⟩ up dn =
        .ok (dn, ⟨if dn.code = .success ∨ dn.code = .error2 then bandBegun rs up.req dn.grant else .normal,
          dn.code, dn.grant⟩) ∧
      bbDown rs ⟨.bitbandRead b z, dc, dg⟩ up =
        .ok ⟨bandReq rs up.req, (dc == .success || dc == .error2) && dg, none⟩ ∧
      (∀ c, c = .pending ∨ c = .error1 →
        bbUp rs ⟨.bitbandRead b z, dc, dg⟩ up ⟨c, none, g⟩ =
          .ok (⟨c, none, g⟩, ⟨.bitbandRead b z, c, g⟩)) ∧
      bbUp rs ⟨.bitbandRead b z, dc, dg⟩ up ⟨.error2, none, g⟩ =
        .ok (⟨.error2, none, g⟩, ⟨bandBegun rs up.req g, .error2, g⟩) ∧
      (∀ y, (∀ x, y = some x → x.length ≠ 4) →
        bbUp rs ⟨.bitbandRead b z, dc, dg⟩ up ⟨.success, y, g⟩ = .error .badReadWidth) ∧
      ∀ x : Data, x.length = 4 → ∃ d,
        bbUp rs ⟨.bitbandRead b z, dc, dg⟩ up ⟨.success, some x, g⟩ =
          .ok (⟨.success, some d, g⟩, ⟨bandBegun rs up.req g, .success, g⟩) ∧
        d.length = z.bytes ∧ dataVal d = if (dataVal x).testBit b then 1 else 0

/-- R275, R268 to R273: a write to an alias word, from the cycle its address phase is accepted, with no
wait and no denial: `READ.W W`, an idle cycle in which the word is read, `WRITE.W W`, then the word with
the one bit inserted; the master is answered `Pending`, `Pending`, `Success`. Off that path (R271, R273,
R276): a wait in either data phase goes up and the state goes on, the read's `Success` leads to the write
after a wait too and whatever the master presents beside it (R269), a denied `WRITE.W W` is presented
again, and a bus error goes up in kind: of the read, so that no write is issued, or of the write. The
master's next address phase stands downstream, translated, in the write's data phase and in the read's
`Error2` cycle, and an alias access accepted there is entered at once (R277). A read word that
is not 4 bytes long is `BadReadWidth` (R265). -/
def Obligations.BandWriteIsReadThenWrite : Prop :=
  (∀ (rs : List BandRegion) (t : TransferMeta) (w : Addr) (b : Fin 32) (p x : Data) (up1 up2 up3 : M2S),
    bandTranslate rs t.addr = some (w, b) → t.addr.toNat % 4 = 0 → t.burst = .single →
    t.dir = .write → x.length = 4 → up1.req = none → up2.req = none → up3.req = none →
    up3.payload = some p →
      ∃ bb1 bb2 bb3 bb4,
        bbDown rs .reset ⟨some t, true, none⟩ = .ok ⟨some ⟨.read, w, .word, .single, t.prot⟩, true, none⟩ ∧
        bbUp rs .reset ⟨some t, true, none⟩ ⟨.success, none, true⟩ = .ok (⟨.success, none, true⟩, bb1) ∧
        bbDown rs bb1 up1 = .ok ⟨none, true, none⟩ ∧
        bbUp rs bb1 up1 ⟨.success, some x, true⟩ = .ok (⟨.pending, none, true⟩, bb2) ∧
        bbDown rs bb2 up2 = .ok ⟨some ⟨.write, w, .word, .single, t.prot⟩, true, none⟩ ∧
        bbUp rs bb2 up2 ⟨.success, none, true⟩ = .ok (⟨.pending, none, true⟩, bb3) ∧
        bbDown rs bb3 up3 = .ok ⟨none, true, some (insertBit x b p)⟩ ∧
        bbUp rs bb3 up3 ⟨.success, none, true⟩ = .ok (⟨.success, none, true⟩, bb4) ∧ bb4 = .reset) ∧
  ∀ (rs : List BandRegion) (r : BandWrite) (x : Data) (dc : Code) (dg g : Bool) (up : M2S),
    BandOk rs up.req →
      (dc ≠ .error1 →
        bbDown rs ⟨.bitbandWriteReading r, dc, dg⟩ up =
          .ok ⟨none, (dc == .success || dc == .error2) && dg, none⟩ ∧
        bbUp rs ⟨.bitbandWriteReading r, dc, dg⟩ up ⟨.pending, none, g⟩ =
          .ok (⟨.pending, none, true⟩, ⟨.bitbandWriteReading r, .pending, g⟩) ∧
        bbUp rs ⟨.bitbandWriteReading r, dc, dg⟩ up ⟨.error1, none, g⟩ =
          .ok (⟨.error1, none, true⟩, ⟨.bitbandWriteReading r, .error1, g⟩) ∧
        (x.length = 4 →
          bbUp rs ⟨.bitbandWriteReading r, dc, dg⟩ up ⟨.success, some x, g⟩ =
            .ok (⟨.pending, none, true⟩, ⟨.bitbandWriteRequestWriting r x, .success, g⟩)) ∧
        ∀ d, (∀ y, d = some y → y.length ≠ 4) →
          bbUp rs ⟨.bitbandWriteReading r, dc, dg⟩ up ⟨.success, d, g⟩ = .error .badReadWidth) ∧
      bbDown rs ⟨.bitbandWriteReading r, .error1, dg⟩ up = .ok ⟨bandReq rs up.req, false, none⟩ ∧
      bbUp rs ⟨.bitbandWriteReading r, .error1, dg⟩ up ⟨.error2, none, g⟩ =
        .ok (⟨.error2, none, g⟩, ⟨bandBegun rs up.req g, .error2, g⟩) ∧
      bbDown rs ⟨.bitbandWriteRequestWriting r x, dc, dg⟩ up =
        .ok ⟨some ⟨.write, r.addr, .word, .single, r.prot⟩,
          (dc == .success || dc == .error2) && dg, none⟩ ∧
      bbUp rs ⟨.bitbandWriteRequestWriting r x, dc, dg⟩ up ⟨.success, none, g⟩ =
        .ok (⟨.pending, none, true⟩,
          ⟨if g then .bitbandWriteWritingFirstCycle r x else .bitbandWriteRequestWriting r x,
            .success, g⟩) ∧
      (∀ c, c ≠ .success →
        bbUp rs ⟨.bitbandWriteRequestWriting r x, dc, dg⟩ up ⟨c, none, g⟩ =
          .error .responseWithoutTransfer) ∧
      ∀ st, (st = .bitbandWriteWritingFirstCycle r x ∨ st = .bitbandWriteWriting r x) →
        (∀ p, up.payload = some p →
          bbDown rs ⟨st, dc, dg⟩ up =
            .ok ⟨bandReq rs up.req, (dc == .success || dc == .error2) && dg,
              some (insertBit x r.bit p)⟩) ∧
        (up.payload = none → bbDown rs ⟨st, dc, dg⟩ up = .error .missingWriteData) ∧
        (∀ c, c = .pending ∨ c = .error1 →
          bbUp rs ⟨st, dc, dg⟩ up ⟨c, none, g⟩ =
            .ok (⟨c, none, g⟩, ⟨.bitbandWriteWriting r x, c, g⟩)) ∧
        ∀ c, c = .success ∨ c = .error2 →
          bbUp rs ⟨st, dc, dg⟩ up ⟨c, none, g⟩ =
            .ok (⟨c, none, g⟩, ⟨bandBegun rs up.req g, c, g⟩)

/-! ### The Master Driver -/

/-- R158: the driver emits its address slot and, while a write is in the data slot, its write data;
`ready` is formed from what it received last. -/
def Obligations.DispatchEmitsTheSlots : Prop :=
  ∀ md : MasterDriver,
    (∀ t, md.dataSlot = some t → t.dir = .write → md.wdata = none →
      mdDispatch md = .error .missingWriteData) ∧
    ∀ pl : Option Data,
      ((∃ t d, md.dataSlot = some t ∧ t.dir = .write ∧ md.wdata = some d ∧ pl = some d) ∨
        (pl = none ∧ ∀ t, md.dataSlot = some t → t.dir = .read)) →
      ∃ md', mdDispatch md =
          .ok (md', ⟨md.addrSlot.map Prod.fst,
            (md.lastCode == .success || md.lastCode == .error2) && md.lastGrant, pl⟩) ∧
        md' = { md with phase := md'.phase } ∧ (md.phase = .tickExtra → md'.phase = .sentMessages)

/-- R152, R159: the checks on an arriving response, each with its violation. Their order is R159's but
for the check of the phase, which comes first by the model's reading (log 12, DEDUCED). -/
def Obligations.ResponseIsChecked : Prop :=
  ∀ (b : Bool) (p : Nat) (md : MasterDriver) (r : S2M),
    (md.phase ≠ .sentMessages → mdReceive b p md r = .error .responseWithoutMessage) ∧
    (md.phase = .sentMessages → md.lastCode = .error1 → r.code ≠ .error2 →
      mdReceive b p md r = .error .error1NotFollowedByError2) ∧
    (md.phase = .sentMessages → r.code = .error2 → md.lastCode ≠ .error1 →
      mdReceive b p md r = .error .error2WithoutError1) ∧
    (md.phase = .sentMessages → (r.code = .error2 ↔ md.lastCode = .error1) → md.dataSlot = none →
      r.code ≠ .success → mdReceive b p md r = .error .responseWithoutTransfer) ∧
    (md.phase = .sentMessages → md.lastCode ≠ .error1 → r.code = .success →
      (∃ t, md.dataSlot = some t ∧ t.dir = .read ∧ (∀ d, r.data = some d → d.length ≠ t.size.bytes)) →
      mdReceive b p md r = .error .badReadWidth)

/-- R160 to R163: after `Success` the transfer is done and the owner told, after `Pending` it stays; the
address phase is accepted exactly when the code is ready and granted, else it is held, `Stalled` or
`Denied`. -/
def Obligations.SuccessAndPendingAreReceived : Prop :=
  ∀ (b : Bool) (p : Nat) (md : MasterDriver) (r : S2M), md.phase = .sentMessages →
    md.lastCode ≠ .error1 →
      (r.code = .success → md.dataSlot = none →
        ∃ m, mdReceive b p md r = .ok (m, []) ∧
          mdCommit m = .ok (md.answered none md.wdata md.cancelled .success r.grant)) ∧
      (∀ t d, r.code = .success → md.dataSlot = some t → t.dir = .read → r.data = some d →
        d.length = t.size.bytes →
        ∃ m, mdReceive b p md r = .ok (m, [.transferDone p t (some d)]) ∧
          mdCommit m = .ok (md.answered none none md.cancelled .success r.grant)) ∧
      (∀ t, r.code = .success → md.dataSlot = some t → t.dir = .write →
        ∃ m, mdReceive b p md r = .ok (m, [.transferDone p t none]) ∧
          mdCommit m = .ok (md.answered none none md.cancelled .success r.grant)) ∧
      (r.code = .pending → md.dataSlot ≠ none →
        ∃ m, mdReceive b p md r = .ok (m, []) ∧
          mdCommit m = .ok (md.answered md.dataSlot md.wdata md.cancelled .pending r.grant))

/-- R164, R165, R312, R313: after `Error1` the failed transfer stays one cycle and the address phase is
kept, or withdrawn under `CANCEL_ADDR_ON_ERROR`; with `Error2` the owner is told of the failed transfer
and of the withdrawn one, and the driver goes on. -/
def Obligations.BusErrorIsTaken : Prop :=
  ∀ (b : Bool) (p : Nat) (md : MasterDriver) (r : S2M) (t : TransferMeta), md.phase = .sentMessages →
    md.dataSlot = some t →
      (md.lastCode ≠ .error1 → r.code = .error1 → (b = false ∨ md.addrSlot = none) →
        ∃ m, mdReceive b p md r = .ok (m, []) ∧
          mdCommit m = .ok (md.answered (some t) md.wdata md.cancelled .error1 r.grant)) ∧
      (∀ a h, md.lastCode ≠ .error1 → r.code = .error1 → b = true → md.addrSlot = some (a, h) →
        ∃ m, mdReceive b p md r = .ok (m, []) ∧
          mdCommit m = .ok ⟨none, some t, md.wdata, some a, .error1, r.grant, .tickExtra⟩) ∧
      (md.lastCode = .error1 → r.code = .error2 →
        ∃ m, mdReceive b p md r = .ok (m, [.transfersAborted p (t :: md.cancelled.toList)]) ∧
          mdCommit m = .ok (md.answered none none none .error2 r.grant))

/-! ### Whole cycles: the bus commands -/

/-- `IDLE` on a quiet fabric (R153, R113): nothing is presented and nothing moves; every master receives
`Success`. The `ready` flag that the word carries may be either (log 4). -/
def Obligations.IdleOnQuietFabric : Prop :=
  ∀ (s : State) (p : Nat) (ready : Bool) (v : Word), s.Quiet → p < s.chains.length →
    exec (.idle p ready ⟨false, v⟩) s =
      .next { s with cells := s.cells.map Flop.committed, ret := .unit, out := [],
                     wires := s.idleWires p ready }

/-- The six bus commands on a quiet fabric (R155, R158, R160, R167, R339): the command is presented,
granted and accepted, so that its transfer is in the master's data slot; the address phase that left
the Aligner and the Translator is remembered and routed by the decoder; no handler is called, no other
master's chain changes, no callback is made (log 4). -/
def Obligations.CommandIsAcceptedOnQuietFabric : Prop :=
  ∀ (s : State) (p : Nat) (i : Instr) (x : TransferMeta) (ready : Bool) (v : Word) (c : Chain),
    s.Quiet → s.chains[p]? = some c →
    commandOf i = some (p, ⟨some x, ready, ⟨false, v⟩⟩) → x.burst = .single → c.aliasOk x = true →
      ∃ t low c', exec i s = .next t ∧
        bbTranslateReq (c.cfg.bitband.getD []) (some (c.presented x)) = .ok (some low) ∧
        t.chains = s.chains.set p c' ∧ c'.cfg = c.cfg ∧
        c'.md = { c.md with dataSlot := some x } ∧
        c'.dec.addrMeta = some low ∧
        c'.dec.addrRoute = some ((decodeAddr c.cfg.ports low.addr).getD .dflt) ∧
        c'.dec.dataRoute = c.dec.dataRoute ∧
        t.slaves.map Slave.handler = s.slaves.map Slave.handler ∧
        t.slaves.map Slave.cfg = s.slaves.map Slave.cfg ∧
        t.stages.map Stage.cfg = s.stages.map Stage.cfg ∧
        t.cells = s.cells.map Flop.committed ∧ t.inbox = s.inbox ∧ t.ret = .unit ∧ t.out = []

/-- R80, R304: a command row with an incrementing burst, on a master port of a quiet fabric, ends the run
(command rows: log 4). -/
def Obligations.BurstIsRefused : Prop :=
  ∀ (s : State) (p : Nat) (i : Instr) (x : TransferMeta) (ready : Bool) (dp : DataWord), s.Quiet →
    p < s.chains.length → commandOf i = some (p, ⟨some x, ready, dp⟩) → x.burst = .increment →
      exec i s = .fault .burstNotModelled

/-- R263, R304: on a quiet fabric, a command row with no payload beside it (log 4) that presents an access
inside an alias range, whose address is not that of an alias word, ends the run, also behind an
Aligner. -/
def Obligations.UnalignedAliasFaults : Prop :=
  ∀ (s : State) (p : Nat) (i : Instr) (x : TransferMeta) (ready : Bool) (v : Word) (c : Chain)
    (rs : List BandRegion) (r : BandRegion), s.Quiet → s.chains[p]? = some c →
    commandOf i = some (p, ⟨some x, ready, ⟨false, v⟩⟩) → x.burst = .single →
    c.cfg.bitband = some rs → r ∈ rs → r.aliasLo ≤ (c.presented x).addr.toNat →
    (c.presented x).addr.toNat < r.aliasHi → (c.presented x).addr.toNat % 4 ≠ 0 →
      exec i s = .fault .unalignedBitband

/-! ### Whole cycles: the response words -/

/-- The four codes at a master port of a fabric that is quiet below it (R162 to R165, R160): no other
chain's driver changes and no handler is called; the port's driver does what the rule of the code says
(log 5), the word's data fitting the transfer in data phase (log 6), its grant being true where the port
has no granting wire (R74). The transfer in data phase is a read, or there is none; the one in address
phase, if any, is single and not an unaligned alias access. -/
def Obligations.ResponseCodesAreReceived : Prop :=
  ∀ (s : State) (p : Nat) (c : Chain) (grant : Bool) (data : DataWord), s.QuietBelow →
    s.chains[p]? = some c → (∀ q c', q ≠ p → s.chains[q]? = some c' → c'.md.quiet = true) →
    c.md.phase = .tickExtra →
    (∀ a h, c.md.addrSlot = some (a, h) → a.burst = .single ∧ c.aliasOk a = true) →
    (∀ t, c.md.dataSlot = some t → t.dir = .read) → data.fits c.md.dataSlot = true →
    ∀ g, g = (grant || !c.cfg.grantWire) →
      (c.md.lastCode ≠ .error1 → c.md.dataSlot = none →
        ∃ t, exec (.success p grant data) s = .next t ∧ t.out = [] ∧
          t.chains.map Chain.md = (s.chains.map Chain.md).set p
            (c.md.answered none c.md.wdata c.md.cancelled .success g) ∧
          t.slaves.map Slave.handler = s.slaves.map Slave.handler) ∧
      (∀ x, c.md.lastCode ≠ .error1 → c.md.dataSlot = some x → data.present = true →
        ∃ t, exec (.success p grant data) s = .next t ∧
          t.out = [.transferDone p x (some (wordData x.size data.value))] ∧
          t.chains.map Chain.md = (s.chains.map Chain.md).set p
            (c.md.answered none none c.md.cancelled .success g) ∧
          t.slaves.map Slave.handler = s.slaves.map Slave.handler) ∧
      (c.md.lastCode ≠ .error1 → c.md.dataSlot ≠ none →
        ∃ t, exec (.pending p grant data) s = .next t ∧ t.out = [] ∧
          t.chains.map Chain.md = (s.chains.map Chain.md).set p
            (c.md.answered c.md.dataSlot c.md.wdata c.md.cancelled .pending g) ∧
          t.slaves.map Slave.handler = s.slaves.map Slave.handler) ∧
      (c.md.lastCode ≠ .error1 → c.md.dataSlot ≠ none →
        (c.cfg.cancelAddrOnError = false ∨ c.md.addrSlot = none) →
        ∃ t, exec (.error1 p grant data) s = .next t ∧ t.out = [] ∧
          t.chains.map Chain.md = (s.chains.map Chain.md).set p
            (c.md.answered c.md.dataSlot c.md.wdata c.md.cancelled .error1 g) ∧
          t.slaves.map Slave.handler = s.slaves.map Slave.handler) ∧
      (∀ a h, c.md.lastCode ≠ .error1 → c.md.dataSlot ≠ none → c.cfg.cancelAddrOnError = true →
        c.md.addrSlot = some (a, h) →
        ∃ t, exec (.error1 p grant data) s = .next t ∧ t.out = [] ∧
          t.chains.map Chain.md = (s.chains.map Chain.md).set p
            ⟨none, c.md.dataSlot, c.md.wdata, some a, .error1, g, .tickExtra⟩ ∧
          t.slaves.map Slave.handler = s.slaves.map Slave.handler) ∧
      ∀ x, c.md.lastCode = .error1 → c.md.dataSlot = some x →
        ∃ t, exec (.error2 p grant data) s = .next t ∧
          t.out = [.transfersAborted p (x :: c.md.cancelled.toList)] ∧
          t.chains.map Chain.md = (s.chains.map Chain.md).set p
            (c.md.answered none none none .error2 g) ∧
          t.slaves.map Slave.handler = s.slaves.map Slave.handler

/-- The two values of the grant wire at a master port (R84, R160): with `Success` a `GRANT` makes the
presented transfer the one in data phase, a `DENY` holds it, marked `Denied`, where the port has a
granting wire, and acts as `GRANT` where it has none (R74); with any code the word is the same word as
the code's row (R79, log 2; log 5). -/
def Obligations.GrantAndDenyAreReceived : Prop :=
  (∀ (s : State) (p : Nat) (c : Chain) (a : TransferMeta) (h : Hold) (data : DataWord),
    s.QuietBelow → s.chains[p]? = some c →
    (∀ q c', q ≠ p → s.chains[q]? = some c' → c'.md.quiet = true) → c.md.phase = .tickExtra →
    c.md.addrSlot = some (a, h) → a.burst = .single → c.aliasOk a = true → c.md.dataSlot = none →
    c.md.lastCode ≠ .error1 →
      (∃ t, exec (.grant p .success data) s = .next t ∧ t.out = [] ∧
        t.chains.map Chain.md = (s.chains.map Chain.md).set p
          { c.md with addrSlot := none, dataSlot := some a, lastCode := .success, lastGrant := true } ∧
        t.slaves.map Slave.handler = s.slaves.map Slave.handler) ∧
      (c.cfg.grantWire = true → ∃ t, exec (.deny p .success data) s = .next t ∧ t.out = [] ∧
        t.chains.map Chain.md = (s.chains.map Chain.md).set p
          { c.md with addrSlot := some (a, .denied), lastCode := .success, lastGrant := false } ∧
        t.slaves.map Slave.handler = s.slaves.map Slave.handler)) ∧
  (∀ (s : State) (p : Nat) (c : Chain) (code : Code) (data : DataWord), s.chains[p]? = some c →
    c.cfg.grantWire = false → exec (.deny p code data) s = exec (.grant p code data) s) ∧
  ∀ (s : State) (p : Nat) (data : DataWord),
    exec (.grant p .success data) s = exec (.success p true data) s ∧
    exec (.grant p .pending data) s = exec (.pending p true data) s ∧
    exec (.grant p .error1 data) s = exec (.error1 p true data) s ∧
    exec (.grant p .error2 data) s = exec (.error2 p true data) s ∧
    exec (.deny p .success data) s = exec (.success p false data) s ∧
    exec (.deny p .pending data) s = exec (.pending p false data) s ∧
    exec (.deny p .error1 data) s = exec (.error1 p false data) s ∧
    exec (.deny p .error2 data) s = exec (.error2 p false data) s

/-! ### Whole runs and whole-machine rules -/

/-- R63, R60: a write of `v` to an address, followed immediately by a read of it, yields `v`, at every
size that holds `v`, on a quiet fabric of one master wired straight to one slave with the reference
handler that never waits, whose range holds the address (`State.Direct`). That a command
row puts its transfer and the payload beside it on the port for one cycle, the driver taking them as its
own, is the model's (log 4, 6). -/
def Obligations.RoundTrip : Prop :=
  ∀ (s : State) (lo hi : Nat) (m : Memory) (a : Addr) (q q' : Prot) (v u u' : Word),
    s.Direct lo hi m → Memory.wf m = true → lo ≤ a.toNat → a.toNat < hi →
      (v.toNat < 2 ^ 8 → ∃ s1 s2 s3, exec (.writeB 0 true .single q a ⟨false, u⟩) s = .next s1 ∧
        exec (.readB 0 true .single q' a ⟨true, v⟩) s1 = .next s2 ∧
        exec (.idle 0 true ⟨false, u'⟩) s2 = .next s3 ∧
        .transferDone 0 ⟨.read, a, .byte, .single, q'⟩ (some (wordData .byte v)) ∈ s3.out) ∧
      (v.toNat < 2 ^ 16 → ∃ s1 s2 s3, exec (.writeH 0 true .single q a ⟨false, u⟩) s = .next s1 ∧
        exec (.readH 0 true .single q' a ⟨true, v⟩) s1 = .next s2 ∧
        exec (.idle 0 true ⟨false, u'⟩) s2 = .next s3 ∧
        .transferDone 0 ⟨.read, a, .halfword, .single, q'⟩ (some (wordData .halfword v)) ∈ s3.out) ∧
      ∃ s1 s2 s3, exec (.writeW 0 true .single q a ⟨false, u⟩) s = .next s1 ∧
        exec (.readW 0 true .single q' a ⟨true, v⟩) s1 = .next s2 ∧
        exec (.idle 0 true ⟨false, u'⟩) s2 = .next s3 ∧
        .transferDone 0 ⟨.read, a, .word, .single, q'⟩ (some (wordData .word v)) ∈ s3.out

/-- R188, R186, R301: on a quiet fabric of one master wired straight to one slave, without a mock
(`State.Direct`), a read or a write at an address outside the slave's range gets `Error1`, then `Error2`,
and the owner is told that it was aborted; no handler is called. The command rows stand on the port for
one cycle each, with the `ready` flag they carry, and the write's payload is taken by the driver as its
own (log 4, 6). -/
def Obligations.UnmappedReadGetsABusError : Prop :=
  ∀ (s : State) (lo hi : Nat) (m : Memory) (i : Instr) (x : TransferMeta) (v : Word) (dp : DataWord),
    s.Direct lo hi m → commandOf i = some (0, ⟨some x, true, ⟨false, v⟩⟩) →
    x.burst = .single → (x.addr.toNat < lo ∨ hi ≤ x.addr.toNat) →
    (x.dir = .read ∧ dp = ⟨false, 0⟩ ∨
      x.dir = .write ∧ dp.present = true ∧ dp.value.toNat < 2 ^ (8 * x.size.bytes)) →
      ∃ s1 s2 s3, exec i s = .next s1 ∧ exec (.idle 0 true dp) s1 = .next s2 ∧
        exec (.idle 0 false ⟨false, 0⟩) s2 = .next s3 ∧ s1.out = [] ∧
        s2.wires.map (fun w => w.up.code) = [.error1] ∧ s2.out = [] ∧
        s3.wires.map (fun w => w.up.code) = [.error2] ∧ s3.out = [.transfersAborted 0 [x]]

/-- R307, R159: whatever instruction makes the cycle, a master that received `Error1` receives `Error2`
in the next cycle, and it receives `Error2` in no other case. -/
def Obligations.Error2FollowsError1 : Prop :=
  ∀ (s t : State) (i : Instr) (p : Nat) (c c' : Chain), s.atBoundary → takesCycle i = true →
    exec i s = .next t → s.chains[p]? = some c → t.chains[p]? = some c' →
      (c'.md.lastCode = .error2 ↔ c.md.lastCode = .error1)

/-- R127 to R130, R339: what a cycle does to the store of a slave with the reference handler. The
transfer in data phase is what promotion (R125) gives for the wires that reach the slave; unless it is
a write no byte changes, and if it is one only the bytes at its addresses may change. -/
def Obligations.CycleChangesOnlyWrittenBytes : Prop :=
  ∀ (s t : State) (i : Instr) (k : Nat) (u : Slave) (m : Memory) (ws : List Nat) (rem : Option Nat)
    (w : M2S), s.atBoundary → takesCycle i = true → exec i s = .next t → s.slaves[k]? = some u →
    u.handler = .ram m ws rem → Memory.wf m = true → s.slaveInput i k = .ok w →
      ∃ u' m' ws' rem' ds, t.slaves[k]? = some u' ∧ u'.handler = .ram m' ws' rem' ∧
        slavePromote u.sd w.ready = .ok ds ∧
        ((∀ x, ds = some x → x.dir = .read) → m' = m) ∧
        ∀ x, ds = some x → ∀ a, (∀ j < x.size.bytes, a ≠ (x.addr.toNat + j) % 2 ^ 32) →
          readByte m' a = readByte m a

/-- Every step that gives a next state keeps the invariant: a cycle boundary (R152), write data only for
a write in the data slot (R156), one data slot that is full exactly through not-ready codes (R133,
R159), no error from a handler's slave (R121), split cursors in range (R29), the bitband word's width
(R30), round-robin heads in range (R28), canonical stores. -/
def Obligations.StepKeepsTheInvariant : Prop :=
  ∀ s t : State, s.Inv → step s = .next t → t.Inv

/-- The machine after reset satisfies the invariant. -/
def Obligations.ResetHasTheInvariant : Prop :=
  State.reset.Inv

/-- R39, R31, R330: the values the spec lists for reset, in a fabric of any configuration. That there are
two free-standing cells, one of each kind, is the model's (log 11). -/
def Obligations.ResetValues : Prop :=
  ∀ cfg : Config,
    (∀ c ∈ (State.ofConfig cfg).chains,
      c.md = ⟨none, none, none, none, .success, true, .tickExtra⟩ ∧
      c.dec.addrRoute = none ∧ c.dec.addrMeta = none ∧ c.dec.dataRoute = .dflt ∧
      c.dec.lastCode = .success ∧ c.dec.ds = ⟨none, none, .success⟩ ∧
      c.al = ⟨none, .success, true⟩ ∧ c.bb = ⟨.normal, .success, true⟩) ∧
    (∀ st ∈ (State.ofConfig cfg).stages,
      st.addrRoute = none ∧ st.dataRoute = none ∧ st.lastCode = .success ∧ st.rrHead = 0) ∧
    (∀ u ∈ (State.ofConfig cfg).slaves, u.sd = ⟨none, none, .success⟩) ∧
    (State.ofConfig cfg).cells =
      [⟨.plain, none, false, none⟩, ⟨.combinational, none, false, none⟩] ∧
    (State.ofConfig cfg).config = cfg

/-- R33: no step changes the configuration. -/
def Obligations.ConfigurationIsStatic : Prop :=
  ∀ s t : State, step s = .next t → t.config = s.config

/-- R21, R22, R323: the calls and pure functions that are not a cycle change no flop but the ones their
rule names: an owner's call changes the address slot and the write data of its Master Driver, a handler
call its handler, `set_next` and `deref` their cell, and the rest nothing. -/
def Obligations.CallsChangeTheirOwnUnitOnly : Prop :=
  ∀ (s t : State) (i : Instr), takesCycle i = false → exec i s = .next t →
    t.stages = s.stages ∧ t.inbox = s.inbox ∧ t.wires = s.wires ∧
    (∀ p, ownerCallAt i = some p → ∃ c a w, s.chains[p]? = some c ∧
      t.chains = s.chains.set p { c with md := { c.md with addrSlot := a, wdata := w } }) ∧
    (∀ p, handlerCallAt i = some p → ∃ u h, s.slaves[p]? = some u ∧
      t.slaves = s.slaves.set p { u with handler := h }) ∧
    (∀ p, cellOpAt i = some p → ∃ c c', s.cells[p]? = some c ∧ t.cells = s.cells.set p c' ∧
      c'.kind = c.kind ∧ c'.cur = c.cur) ∧
    (ownerCallAt i = none → t.chains = s.chains) ∧ (handlerCallAt i = none → t.slaves = s.slaves) ∧
    (cellOpAt i = none → t.cells = s.cells)

end Slice0Statements
end

