-- ==== Sys2Proof/Laws/State.lean ====
section
/-! SUPPORT. One lemma per field for each named update of the state, and the small lemmas of the
class `Ready` and the flags formed from it. -/

namespace Sys2Proof.Machine

open Sys2Proof

@[simp] theorem returned_chains (r : Ret) (s : State) : (returned r s).chains = s.chains := rfl
@[simp] theorem returned_stages (r : Ret) (s : State) : (returned r s).stages = s.stages := rfl
@[simp] theorem returned_slaves (r : Ret) (s : State) : (returned r s).slaves = s.slaves := rfl
@[simp] theorem returned_cells (r : Ret) (s : State) : (returned r s).cells = s.cells := rfl
@[simp] theorem returned_inbox (r : Ret) (s : State) : (returned r s).inbox = s.inbox := rfl
@[simp] theorem returned_ret (r : Ret) (s : State) : (returned r s).ret = r := rfl
@[simp] theorem returned_out (r : Ret) (s : State) : (returned r s).out = [] := rfl
@[simp] theorem returned_wires (r : Ret) (s : State) : (returned r s).wires = s.wires := rfl

@[simp] theorem withFetchWord_chains (s : State) (n w : Nat) : (s.withFetchWord n w).chains = s.chains := rfl
@[simp] theorem withFetchWord_stages (s : State) (n w : Nat) : (s.withFetchWord n w).stages = s.stages := rfl
@[simp] theorem withFetchWord_slaves (s : State) (n w : Nat) : (s.withFetchWord n w).slaves = s.slaves := rfl
@[simp] theorem withFetchWord_cells (s : State) (n w : Nat) : (s.withFetchWord n w).cells = s.cells := rfl
@[simp] theorem withFetchWord_inbox (s : State) (n w : Nat) :
    (s.withFetchWord n w).inbox = packetOfTable n w :: s.inbox := rfl
@[simp] theorem withFetchWord_ret (s : State) (n w : Nat) : (s.withFetchWord n w).ret = s.ret := rfl
@[simp] theorem withFetchWord_out (s : State) (n w : Nat) : (s.withFetchWord n w).out = s.out := rfl
@[simp] theorem withFetchWord_wires (s : State) (n w : Nat) : (s.withFetchWord n w).wires = s.wires := rfl

@[simp] theorem committed_kind (c : Flop) : c.committed.kind = c.kind := rfl
@[simp] theorem committed_cur (c : Flop) : c.committed.cur = c.next := rfl
@[simp] theorem committed_curRead (c : Flop) : c.committed.curRead = false := rfl
@[simp] theorem committed_next (c : Flop) : c.committed.next = none := rfl

@[simp] theorem readyCode_success : readyCode .success = true := rfl
@[simp] theorem readyCode_pending : readyCode .pending = false := rfl
@[simp] theorem readyCode_error1 : readyCode .error1 = false := rfl
@[simp] theorem readyCode_error2 : readyCode .error2 = true := rfl
@[simp] theorem readyFlag_success_true : readyFlag .success true = true := rfl
@[simp] theorem holdMark_true : holdMark true = .stalled := rfl
@[simp] theorem holdMark_false : holdMark false = .denied := rfl
@[simp] theorem acceptedBy_false_left (c : Code) (g : Bool) : acceptedBy false c g = false := rfl
@[simp] theorem acceptedBy_success_true : acceptedBy true .success true = true := rfl

@[simp] theorem onPort_code (w : Bool) (r : S2M) : (onPort w r).code = r.code := rfl
@[simp] theorem onPort_data (w : Bool) (r : S2M) : (onPort w r).data = r.data := rfl
@[simp] theorem onPort_grant (w : Bool) (r : S2M) : (onPort w r).grant = (r.grant || !w) := rfl
@[simp] theorem onPort_true (r : S2M) : onPort true r = r := by simp [onPort]


/-- A granted response is the same on every port (R74). -/
@[simp] theorem onPort_granted (w : Bool) (c : Code) (d : Option Data) :
    onPort w ⟨c, d, true⟩ = ⟨c, d, true⟩ := rfl

@[simp] theorem ofExcept_ok (s : State) : ofExcept (.ok s) = .next s := rfl
@[simp] theorem ofExcept_error (e : Fault) : ofExcept (.error e) = .fault e := rfl

/-- The outcome of a computation that can only fault is next exactly when it succeeds. -/
theorem ofExcept_eq_next {r : Except Fault State} {t : State} :
    ofExcept r = .next t ↔ r = .ok t := by
  cases r <;> simp [ofExcept]

end Sys2Proof.Machine
end

