-- ==== Sys2Proof/Laws/Operands.lean ====
section
/-! SUPPORT. The laws of the operand arithmetic: byte sequences and the numbers they spell, byte addresses,
and the chunk list of a split. -/

namespace Sys2Proof.Machine

open Sys2Proof

/-- A byte sequence spells a number below `256` to its length. -/
theorem natOfBytes_lt (d : Data) : natOfBytes d < 256 ^ d.length := by
  induction d with
  | nil => simp [natOfBytes]
  | cons b d ih =>
    have := b.isLt
    simp only [natOfBytes, List.length_cons, Nat.pow_succ]
    omega

/-- `val` undoes `bytes_k`, modulo `256^k`. -/
theorem natOfBytes_bytesOfNat (k v : Nat) : natOfBytes (bytesOfNat k v) = v % 256 ^ k := by
  induction k generalizing v with
  | zero => simp [bytesOfNat, natOfBytes, Nat.mod_one]
  | succ k ih =>
    have e : 256 ^ (k + 1) = 256 * 256 ^ k := by rw [Nat.pow_succ, Nat.mul_comm]
    rw [bytesOfNat, natOfBytes, ih, BitVec.toNat_ofNat, e, Nat.mod_mul]

/-- `bytes_k` undoes `val` (R11). -/
theorem bytesOfNat_natOfBytes (d : Data) : bytesOfNat d.length (natOfBytes d) = d := by
  induction d with
  | nil => rfl
  | cons b d ih =>
    have := b.isLt
    simp only [natOfBytes, List.length_cons, bytesOfNat]
    rw [show (b.toNat + 256 * natOfBytes d) / 256 = natOfBytes d by omega, ih]
    congr 1
    apply BitVec.eq_of_toNat_eq
    simp
    omega

/-- `bytes_k` gives `k` bytes. -/
theorem bytesOfNat_length (k v : Nat) : (bytesOfNat k v).length = k := by
  induction k generalizing v with
  | zero => rfl
  | succ k ih => simp [bytesOfNat, ih]

/-- Byte `i` of `bytes_k`. -/
theorem bytesOfNat_get (k v i : Nat) (h : i < k) :
    (bytesOfNat k v)[i]? = some (BitVec.ofNat 8 (v / 256 ^ i)) := by
  induction k generalizing v i with
  | zero => omega
  | succ k ih =>
    cases i with
    | zero => simp [bytesOfNat]
    | succ i => simp [bytesOfNat, ih (v / 256) i (by omega), Nat.div_div_eq_div_mul, Nat.pow_succ, Nat.mul_comm]

/-- `bytes_k` gives `k` bytes. -/
theorem dataOf_length (k v : Nat) : (dataOf k v).length = k :=
  bytesOfNat_length k v

/-- The payload of a word has the length of the transfer (R78). -/
theorem wordData_length (z : Size) (v : Word) : (wordData z v).length = z.bytes :=
  bytesOfNat_length _ _

/-- A payload of the transfer's own size fits it. -/
theorem dataFits_wordData (t : TransferMeta) (v : Word) : dataFits t (wordData t.size v) = true := by
  simp [dataFits, xferBytes, wordData_length]

/-- Byte addresses wrap modulo `2^32` (R10). -/
theorem byteAddr_eq (a : Addr) (i : Nat) : byteAddr a i = (a.toNat + i) % 2^32 := by
  simp [byteAddr, BitVec.toNat_add]

/-- The chunk list of an unaligned transfer is one of three (R232). -/
theorem splitChunks_cases (t : TransferMeta) (h : needsAligner t = true) :
    (t.size = .halfword ∧ splitChunks t = [(0,1),(1,1)]) ∨ (t.size = .word ∧ splitChunks t = [(0,1),(1,2),(3,1)]) ∨
    (t.size = .word ∧ splitChunks t = [(0,2),(2,2)]) := by
  simp only [needsAligner, bne_iff_ne, ne_eq, xferBytes] at h
  unfold splitChunks xferBytes
  generalize t.addr.toNat = a at *
  cases hs : t.size with
  | byte => simp [hs, Size.bytes, Nat.mod_one] at h
  | halfword =>
    simp only [hs, Size.bytes] at h
    simp [Size.bytes, chunksFrom, chunkAt, h]
  | word =>
    simp only [hs, Size.bytes] at h
    by_cases h2 : a % 2 = 0
    · have h3 : (a+2) % 2 = 0 := by omega
      simp [Size.bytes, chunksFrom, chunkAt, h, h2, h3]
    · have h3 : (a+1) % 2 = 0 := by omega
      simp [Size.bytes, chunksFrom, chunkAt, h, h2, h3]

/-- The chunk list of an aligned transfer is the transfer. -/
theorem splitChunks_aligned (t : TransferMeta) (h : needsAligner t = false) :
    splitChunks t = [(0, t.size.bytes)] := by
  simp only [needsAligner, bne_eq_false_iff_eq, xferBytes] at h
  unfold splitChunks xferBytes
  generalize t.addr.toNat = a at *
  cases hs : t.size <;> simp only [hs, Size.bytes] at h <;> simp [Size.bytes, chunksFrom, chunkAt, h]

/-- Every transfer has a sub-transfer. -/
theorem subCount_pos (pol : AlignPolicy) (t : TransferMeta) : 1 ≤ subCount pol t := by
  unfold subCount policyChunks
  cases pol with
  | truncateReinterpret m => simp
  | split =>
    simp only
    cases h : needsAligner t with
    | false => simp [splitChunks_aligned t h]
    | true => rcases splitChunks_cases t h with ⟨_, h⟩ | ⟨_, h⟩ | ⟨_, h⟩ <;> simp [h]

/-- A chunk lies inside its transfer (R242). -/
theorem chunkOf_le (pol : AlignPolicy) (t : TransferMeta) (i : Nat) :
    (chunkOf pol t i).1 + (chunkOf pol t i).2 ≤ xferBytes t := by
  unfold chunkOf policyChunks
  cases pol with
  | truncateReinterpret m => rcases i with _ | i <;> simp 
  | split =>
    simp only
    cases h : needsAligner t with
    | false => rw [splitChunks_aligned t h]; rcases i with _ | i <;> simp [xferBytes]
    | true => 
      rcases splitChunks_cases t h with ⟨hs, h⟩ | ⟨hs, h⟩ | ⟨hs, h⟩ <;> rw [h] <;>
        simp only [xferBytes, hs, Size.bytes] <;> rcases i with _ | _ | _ | i <;> simp

/-- Replacing a chunk's bytes keeps the length. -/
theorem putData_length {acc x : Data} {c : Nat × Nat} (h : c.1 + c.2 ≤ acc.length)
    (hx : x.length = c.2) : (putData acc c x).length = acc.length := by
  simp [putData, hx]; omega

/-- A first match in a range. -/
theorem find?_range_eq {n : Nat} {p : Nat → Bool} {x : Nat} (hx : x < n) (hp : p x = true)
    (hm : ∀ y < x, p y = false) : (List.range n).find? p = some x := by
  rw [List.find?_range_eq_some]
  exact ⟨hp, by simpa using hx, fun j hj => by simp [hm j hj]⟩

/-- The winner under `RoundRobin` is the first contender from the head on (R207). -/
theorem rr_some {n head : Nat} {c : List Nat} {k : Nat} (hk : k < n)
    (h1 : c.contains ((head + k) % n) = true)
    (h2 : ∀ j < k, c.contains ((head + j) % n) = false) : arbitrateRr n head c = some ((head + k) % n) := by
  rw [arbitrateRr, List.find?_map]
  rw [find?_range_eq (p := (fun x => c.contains x) ∘ fun k => (head + k) % n) (x := k) hk h1 h2]; rfl

end Sys2Proof.Machine
end

