-- ==== Sys2Proof/Laws/Memory.lean ====
section
/-! SUPPORT. The laws of the byte store: what a write does to a read, and that every store operation
keeps the canonical form. -/

namespace Sys2Proof.Machine

open Sys2Proof

theorem memoryWfFrom_cons {lo a : Nat} {v : Byte} {m : Memory} :
    memoryWfFrom lo ((a, v) :: m) = true ↔ lo ≤ a ∧ v ≠ unlistedByte ∧ memoryWfFrom (a + 1) m = true := by
  simp [memoryWfFrom, and_assoc]

theorem memoryWfFrom_mono {lo lo' : Nat} (h : lo' ≤ lo) {m : Memory} (hm : memoryWfFrom lo m = true) :
    memoryWfFrom lo' m = true := by
  cases m with
  | nil => rfl
  | cons c m =>
    obtain ⟨a, v⟩ := c
    rw [memoryWfFrom_cons] at hm ⊢
    exact ⟨h.trans hm.1, hm.2⟩

/-- A byte below every listed address reads as an unlisted one. -/
theorem readByte_below {lo a : Nat} {m : Memory} (hm : memoryWfFrom lo m = true) (h : a < lo) :
    readByte m a = unlistedByte := by
  induction m generalizing lo with
  | nil => rfl
  | cons c m ih =>
    obtain ⟨b, v⟩ := c
    rw [memoryWfFrom_cons] at hm
    have : a ≠ b := by omega
    simp only [readByte, if_neg this]
    exact ih hm.2.2 (by omega)

theorem writeByte_wfFrom {lo a : Nat} {v : Byte} {m : Memory} (hm : memoryWfFrom lo m = true)
    (h : lo ≤ a) : memoryWfFrom lo (writeByte m a v) = true := by
  induction m generalizing lo with
  | nil =>
    by_cases hv : v = unlistedByte
    · simp [writeByte, hv, memoryWfFrom]
    · simp [writeByte, hv, memoryWfFrom, h]
  | cons c m ih =>
    obtain ⟨b, w⟩ := c
    have hc := memoryWfFrom_cons.1 hm
    rw [writeByte]
    split
    · split
      · exact hm
      · exact memoryWfFrom_cons.2 ⟨h, by assumption, memoryWfFrom_cons.2 ⟨by omega, hc.2⟩⟩
    · split
      · split
        · exact memoryWfFrom_mono (by omega) hc.2.2
        · subst_vars
          exact memoryWfFrom_cons.2 ⟨h, by assumption, hc.2.2⟩
      · exact memoryWfFrom_cons.2 ⟨hc.1, hc.2.1, ih hc.2.2 (by omega)⟩

/-- Writing a byte keeps the canonical form. -/
theorem writeByte_wf {a : Nat} {v : Byte} {m : Memory} (hm : Memory.wf m = true) :
    Memory.wf (writeByte m a v) = true :=
  writeByte_wfFrom hm (Nat.zero_le _)

theorem readByte_writeByte_from {lo a b : Nat} {v : Byte} {m : Memory}
    (hm : memoryWfFrom lo m = true) :
    readByte (writeByte m a v) b = if b = a then v else readByte m b := by
  induction m generalizing lo with
  | nil =>
    by_cases hv : v = unlistedByte <;> by_cases hb : b = a <;> simp [writeByte, readByte, hv, hb]
  | cons c m ih =>
    obtain ⟨x, w⟩ := c
    have hc := memoryWfFrom_cons.1 hm
    rw [writeByte]
    by_cases h1 : a < x
    · rw [if_pos h1]
      by_cases hv : v = unlistedByte
      · rw [if_pos hv]
        by_cases hb : b = a
        · subst hb
          have hx : b ≠ x := by omega
          simp only [readByte, if_neg hx, if_true]
          rw [readByte_below hc.2.2 (by omega), hv]
        · simp only [if_neg hb]
      · rw [if_neg hv]
        simp only [readByte]
    · rw [if_neg h1]
      by_cases h2 : a = x
      · subst h2
        rw [if_pos rfl]
        by_cases hv : v = unlistedByte
        · rw [if_pos hv]
          by_cases hb : b = a
          · subst hb
            rw [if_pos rfl, readByte_below hc.2.2 (by omega), hv]
          · simp only [readByte, if_neg hb]
        · rw [if_neg hv]
          by_cases hb : b = a <;> simp [readByte, hb]
      · rw [if_neg h2]
        by_cases hb : b = x
        · subst hb
          have : b ≠ a := fun e => h2 e.symm
          simp [readByte, this]
        · simp only [readByte, if_neg hb]
          exact ih hc.2.2

/-- A write gives its byte and leaves every other byte alone. -/
theorem readByte_writeByte {a b : Nat} {v : Byte} {m : Memory} (hm : Memory.wf m = true) :
    readByte (writeByte m a v) b = if b = a then v else readByte m b :=
  readByte_writeByte_from hm

/-- `MemWrite` keeps the canonical form. -/
theorem memWrite_wf {m : Memory} {a : Addr} {d : Data} (hm : Memory.wf m = true) :
    Memory.wf (memWrite m a d) = true := by
  induction d generalizing m a with
  | nil => exact hm
  | cons b d ih => exact ih (writeByte_wf hm)

/-- A byte outside the written ones reads as before. -/
theorem readByte_memWrite_other {m : Memory} {a : Addr} {d : Data} {x : Nat}
    (hm : Memory.wf m = true) (hx : ∀ i < d.length, x ≠ byteAddr a i) :
    readByte (memWrite m a d) x = readByte m x := by
  induction d generalizing m a with
  | nil => rfl
  | cons b d ih =>
    have h0 : x ≠ a.toNat := by simpa [byteAddr] using hx 0 (by simp)
    rw [memWrite, ih (writeByte_wf hm), readByte_writeByte hm, if_neg h0]
    intro i hi
    have := hx (i + 1) (by simpa using hi)
    have e : a + 1 + BitVec.ofNat 32 i = a + BitVec.ofNat 32 (i + 1) := by
      rw [BitVec.add_assoc]
      congr 1
      apply BitVec.eq_of_toNat_eq
      simp [BitVec.toNat_add, Nat.add_comm]
    rwa [byteAddr, e]

/-- A written byte reads as written. -/
theorem readByte_memWrite_at {m : Memory} {a : Addr} {d : Data} {i : Nat} {b : Byte}
    (hm : Memory.wf m = true) (hl : d.length ≤ 4) (hi : d[i]? = some b) :
    readByte (memWrite m a d) (byteAddr a i) = b := by
  induction d generalizing m a i with
  | nil => simp at hi
  | cons x d ih =>
    rw [memWrite]
    cases i with
    | zero =>
      simp at hi; subst hi
      rw [readByte_memWrite_other (writeByte_wf hm), readByte_writeByte hm]
      · simp [byteAddr]
      · intro j hj
        simp at hl
        rw [byteAddr_eq, byteAddr_eq]
        have := a.isLt
        simp only [BitVec.toNat_add, show (1 : Addr).toNat = 1 from rfl]
        omega
    | succ i =>
      have := ih (m := writeByte m a.toNat x) (a := a + 1) (i := i) (writeByte_wf hm)
        (by simp at hl; omega) (by simpa using hi)
      rw [← this]
      congr 1
      rw [byteAddr_eq, byteAddr_eq]
      simp only [BitVec.toNat_add, show (1 : Addr).toNat = 1 from rfl]
      omega

/-- Reading what was just written gives it back (R63). -/
theorem memRead_memWrite {m : Memory} {a : Addr} {d : Data} (hm : Memory.wf m = true)
    (hl : d.length ≤ 4) : memRead (memWrite m a d) a d.length = d := by
  apply List.ext_getElem?
  intro i
  by_cases hi : i < d.length
  · simp only [memRead, List.getElem?_map, List.getElem?_range hi, Option.map_some]
    rw [readByte_memWrite_at hm hl (List.getElem?_eq_getElem hi), List.getElem?_eq_getElem hi]
  · rw [List.getElem?_eq_none (by simp [memRead]; omega), List.getElem?_eq_none (by omega)]

theorem nextAnswer_wf (q : List Answer) (s n k : Nat) : (nextAnswer q s n k).2.wf = true := by
  cases q <;> rfl

/-- The handler operations keep the canonical form. -/
theorem handlerRead_wf {h : Handler} {t : TransferMeta} (hw : h.wf = true) :
    (handlerRead h t).2.wf = true := by
  cases h with
  | ram mem waits rem =>
    simp only [handlerRead]
    rcases ramPend waits rem with ⟨b, ws, r⟩
    cases b <;> exact hw
  | external q s n => exact nextAnswer_wf _ _ _ _

theorem handlerPreWrite_wf {h : Handler} {t : TransferMeta} (hw : h.wf = true) :
    (handlerPreWrite h t).2.wf = true := by
  cases h with
  | ram mem waits rem =>
    simp only [handlerPreWrite]
    rcases ramPend waits rem with ⟨b, ws, r⟩
    cases b <;> exact hw
  | external q s n => exact nextAnswer_wf _ _ _ _

theorem handlerWrite_wf {h : Handler} {t : TransferMeta} {d : Data} {f : Bool} (hw : h.wf = true) :
    (handlerWrite h t d f).2.wf = true := by
  cases h with
  | ram mem waits rem =>
    cases f
    · exact hw
    · exact memWrite_wf hw
  | external q s n => exact nextAnswer_wf _ _ _ _

end Sys2Proof.Machine
end

