-- ==== Sys2Proof/Laws/Ops.lean ====
section
/-! SUPPORT. For each shared operation, once, everything it can do when it succeeds. -/

namespace Sys2Proof.Machine

open Sys2Proof

/-- `mapE` succeeds exactly when the function succeeds on every element. -/
theorem mapE_eq_ok {α β : Type} {f : α → Except Fault β} {l : List α} {l' : List β} :
    mapE f l = .ok l' ↔ List.Forall₂ (fun a b => f a = .ok b) l l' := by
  induction l generalizing l' with
  | nil => cases l' <;> simp [mapE]
  | cons a l ih =>
    simp only [mapE]
    cases h : f a with
    | error e => cases l' <;> simp [h]
    | ok b =>
      cases h' : mapE f l with
      | error e =>
        cases l' with
        | nil => simp
        | cons x xs =>
          simp only [List.forall₂_cons, h, reduceCtorEq, false_iff, not_and]
          intro _ hx
          rw [ih.2 hx] at h'
          simp at h'
      | ok bs =>
        cases l' with
        | nil => simp
        | cons x xs =>
          have := (ih (l' := bs)).1 h'
          simp only [List.forall₂_cons, h, Except.ok.injEq, List.cons.injEq]
          constructor
          · rintro ⟨rfl, rfl⟩
            exact ⟨rfl, this⟩
          · rintro ⟨rfl, hx⟩
            have := ih.2 hx
            rw [h'] at this
            exact ⟨rfl, Except.ok.inj this⟩

/-- What `mapE` keeps of each element it keeps of the list. -/
theorem mapE_map_eq {α β γ : Type} {f : α → Except Fault β} {g : α → γ} {g' : β → γ}
    (h : ∀ a b, f a = .ok b → g' b = g a) {l : List α} {l' : List β} (hl : mapE f l = .ok l') :
    l'.map g' = l.map g := by
  have := mapE_eq_ok.1 hl
  induction this with
  | nil => rfl
  | cons hab _ ih => simp [h _ _ hab, ih (mapE_eq_ok.2 ‹_›)]

/-- If every result of `mapE`'s function has a property, every element of its list has it. -/
theorem mapE_forall {α β : Type} {f : α → Except Fault β} {P : α → Prop} {Q : β → Prop}
    (h : ∀ a b, P a → f a = .ok b → Q b) {l : List α} {l' : List β} (hP : ∀ a ∈ l, P a)
    (hl : mapE f l = .ok l') : ∀ b ∈ l', Q b := by
  have hf := mapE_eq_ok.1 hl
  intro b hb
  obtain ⟨a, ha, hab⟩ : ∃ a ∈ l, f a = .ok b := by
    clear hl hP
    induction hf with
    | nil => simp at hb
    | cons hab _ ih =>
      rcases List.mem_cons.1 hb with rfl | hb
      · exact ⟨_, by simp, hab⟩
      · obtain ⟨a, ha, h⟩ := ih hb
        exact ⟨a, by simp [ha], h⟩
  exact h a b (hP a ha) hab

/-- `mapE` of a function that succeeds everywhere is the plain map. -/
theorem mapE_of_ok {α β : Type} {f : α → Except Fault β} {g : α → β} {l : List α}
    (h : ∀ a ∈ l, f a = .ok (g a)) : mapE f l = .ok (l.map g) := by
  induction l with
  | nil => rfl
  | cons a l ih =>
    simp only [mapE, h a (by simp), ih fun x hx => h x (by simp [hx]), List.map_cons]

/-- `mapE` over a mapped list. -/
theorem mapE_map {α β γ : Type} (f : β → Except Fault γ) (g : α → β) (l : List α) :
    mapE f (l.map g) = mapE (fun x => f (g x)) l := by
  induction l with
  | nil => rfl
  | cons a l ih => simp only [List.map_cons, mapE, ih]

/-- An equation of successes, turned round. -/
theorem ok_eq_comm {α : Type} {a b : α} : (Except.ok a : Except Fault α) = .ok b ↔ b = a :=
  ⟨fun h => (Except.ok.inj h).symm, fun h => h ▸ rfl⟩

theorem refuseBurst_ok {t : TransferMeta} (h : t.burst = .single) : refuseBurst (some t) = .ok () := by
  simp [refuseBurst, require, h]

theorem refuseBurst_error {t : TransferMeta} (h : t.burst = .increment) :
    refuseBurst (some t) = .error .burstNotModelled := by
  simp [refuseBurst, require, h]

@[simp] theorem refuseBurst_none : refuseBurst none = .ok () := rfl

/-- What `set_next` does when it succeeds (R102). -/
theorem flopSetNext_eq_ok {c c' : Flop} {v : Word} :
    flopSetNext c v = .ok c' ↔ (c.kind = .combinational ∨ c.next = none) ∧ c' = { c with next := some v } := by
  unfold flopSetNext
  rcases c with ⟨k, cur, r, n⟩
  cases k <;> cases n <;> simp [eq_comm]

/-- What `deref` does when it succeeds (R103). -/
theorem flopDeref_eq_ok {c c' : Flop} {v : Word} :
    flopDeref c = .ok (v, c') ↔ c.cur = some v ∧ c.curRead = false ∧ c' = { c with curRead := true } := by
  unfold flopDeref
  rcases c with ⟨k, cur, r, n⟩
  cases cur <;> cases r <;> simp [eq_comm]

/-- What `commit` does when it succeeds (R104). -/
theorem flopCommit_eq_ok {c c' : Flop} :
    flopCommit c = .ok c' ↔ c.committable = true ∧ c' = c.committed := by
  unfold flopCommit Flop.committable Flop.committed
  rcases c with ⟨k, cur, r, n⟩
  cases cur <;> cases r <;> simp [ok_eq_comm, -Except.ok.injEq]

/-- What `try_request` does when it succeeds (R155). -/
theorem mdTryRequest_eq_ok {md md' : MasterDriver} {t : TransferMeta} {b : Bool} :
    mdTryRequest md t = .ok (b, md') ↔
      md.phase = .tickExtra ∧ t.burst = .single ∧
        (b = false ∧ md.addrSlot ≠ none ∧ md' = md ∨
          b = true ∧ md.addrSlot = none ∧ md' = { md with addrSlot := some (t, .fresh) }) := by
  unfold mdTryRequest
  by_cases hp : md.phase = .tickExtra
  · cases hb : t.burst
    · cases ha : md.addrSlot with
      | none => cases b <;> simp [hp, ok_eq_comm, -Except.ok.injEq]
      | some x => cases b <;> simp [hp, ok_eq_comm, -Except.ok.injEq]
    · simp [hp]
  · simp [hp]

/-- What `try_force_cancel` does when it succeeds (R157). -/
theorem mdTryForceCancel_eq_ok {md md' : MasterDriver} {mode : CancelMode} {b : Bool} :
    mdTryForceCancel mode md = .ok (b, md') ↔
      md.phase = .tickExtra ∧
        ((∃ t h, b = true ∧ md.addrSlot = some (t, h) ∧ cancelAllowed mode h md.lastCode = true ∧
            md' = { md with addrSlot := none }) ∨
          b = false ∧ md' = md ∧
            ∀ t h, md.addrSlot = some (t, h) → cancelAllowed mode h md.lastCode = false) := by
  unfold mdTryForceCancel
  by_cases hp : md.phase = .tickExtra
  · cases ha : md.addrSlot with
    | none => cases b <;> simp [hp, ok_eq_comm, -Except.ok.injEq]
    | some x =>
      obtain ⟨t, h⟩ := x
      cases hc : cancelAllowed mode h md.lastCode <;> cases b <;>
        simp [hp, hc, ok_eq_comm, -Except.ok.injEq]
  · simp [hp]

/-- What `provide_data` does when it succeeds (R156). -/
theorem mdProvideData_eq_ok {md md' : MasterDriver} {d : Data} :
    mdProvideData md d = .ok md' ↔
      md.phase = .tickExtra ∧ md.wdata = none ∧
        (∃ t, md.dataSlot = some t ∧ t.dir = .write ∧ dataFits t d = true) ∧
        md' = { md with wdata := some d } := by
  unfold mdProvideData
  by_cases hp : md.phase = .tickExtra
  · cases hd : md.dataSlot with
    | none => simp [hp]
    | some t =>
      cases hw : md.wdata with
      | some x => simp [hp]
      | none =>
        by_cases hf : t.dir = .write ∧ dataFits t d = true
        · simp [hp, hf, ok_eq_comm, -Except.ok.injEq]
        · have : ¬ (t.dir = .write ∧ dataFits t d = true) := hf
          simp only [hp, ne_eq, not_true_eq_false, if_false, if_neg this, reduceCtorEq, true_and,
            Option.some.injEq, false_iff]
          rintro ⟨⟨t', rfl, h⟩, -⟩
          exact this h
  · simp [hp]

/-- A finished `onMaster` replaces one Master Driver. -/
theorem onMaster_eq_next {p : Nat} {f : Chain → Except Fault (Ret × MasterDriver)} {s t : State} :
    onMaster p f s = .next t ↔
      ∃ c r md, s.chains[p]? = some c ∧ f c = .ok (r, md) ∧
        t = { s with chains := s.chains.set p { c with md := md }, ret := r, out := [] } := by
  unfold onMaster
  cases s.chains[p]? with
  | none => simp
  | some c =>
    cases h : f c with
    | error e => simp [h]
    | ok x =>
      obtain ⟨r, md⟩ := x
      simp [h, eq_comm]

/-- A finished handler call was for a single transfer and replaces one handler. -/
theorem onHandler_eq_next {p : Nat} {x : TransferMeta} {f : Handler → Except Fault (Answer × Handler)}
    {e : Answer → Event} {s t : State} :
    onHandler p x f e s = .next t ↔
      ∃ u a h, s.slaves[p]? = some u ∧ x.burst = .single ∧ f u.handler = .ok (a, h) ∧
        t = { s with slaves := s.slaves.set p { u with handler := h }, ret := .answer a, out := [e a] } := by
  unfold onHandler
  cases s.slaves[p]? with
  | none => simp
  | some u =>
    cases hb : x.burst with
    | increment => simp [refuseBurst_error hb]
    | single =>
      cases h : f u.handler with
      | error y => simp [refuseBurst_ok hb, h]
      | ok y =>
        obtain ⟨a, g⟩ := y
        simp [refuseBurst_ok hb, h, eq_comm]

/-- A finished cell operation replaces one cell. -/
theorem onCell_eq_next {p : Nat} {f : Flop → Except Fault (Ret × Flop)} {s t : State} :
    onCell p f s = .next t ↔
      ∃ c r c', s.cells[p]? = some c ∧ f c = .ok (r, c') ∧
        t = { s with cells := s.cells.set p c', ret := r, out := [] } := by
  unfold onCell
  cases s.cells[p]? with
  | none => simp
  | some c =>
    cases h : f c with
    | error x => simp [h]
    | ok x =>
      obtain ⟨r, c'⟩ := x
      simp [h, eq_comm]

/-- The check of several transfers' bursts passes for single ones (R80). -/
theorem mapE_refuseBurst_ok {l : List TransferMeta} (h : ∀ t ∈ l, t.burst = .single) :
    mapE (fun t => refuseBurst (some t)) l = .ok (l.map fun _ => ()) :=
  mapE_of_ok fun t ht => refuseBurst_ok (h t ht)

/-- The check of several transfers' bursts fails for any other list (R80). -/
theorem mapE_refuseBurst_error {l : List TransferMeta} (h : ¬ ∀ t ∈ l, t.burst = .single) :
    mapE (fun t => refuseBurst (some t)) l = .error .burstNotModelled := by
  induction l with
  | nil => simp at h
  | cons a l ih =>
    cases hb : a.burst with
    | increment => simp [mapE, refuseBurst_error hb]
    | single => simp [mapE, refuseBurst_ok hb, ih fun hl => h (by simpa [hb] using hl)]

/-- A finished notification is about single transfers and changes what the last step showed, nothing
else. -/
theorem notify_eq_next {p : Nat} {l : List TransferMeta} {e : Event} {s t : State} :
    notify p l e s = .next t ↔
      p < s.chains.length ∧ (∀ x ∈ l, x.burst = .single) ∧ t = { s with ret := .unit, out := [e] } := by
  unfold notify
  by_cases h : p < s.chains.length
  · by_cases hl : ∀ x ∈ l, x.burst = .single
    · simp only [h, if_true, mapE_refuseBurst_ok hl, Host.Outcome.next.injEq, true_and]
      exact ⟨fun e => ⟨hl, e.symm⟩, fun e => e.2.symm⟩
    · simp only [h, if_true, mapE_refuseBurst_error hl, reduceCtorEq, false_iff]
      exact fun e => hl e.2.1
  · simp [h]

/-- A word at a port that answers next fits there and its cycle has been run. -/
theorem withWord_eq_next {p : Nat} {d : DataWord} {r : Except Fault State} {s t : State} :
    withWord p d r s = .next t ↔
      ∃ c, s.chains[p]? = some c ∧ d.fits c.md.dataSlot = true ∧ r = .ok t := by
  unfold withWord
  cases s.chains[p]? with
  | none => simp
  | some c => cases h : d.fits c.md.dataSlot <;> simp [h, ofExcept_eq_next]

/-- A word that fits at its port runs its cycle. -/
theorem withWord_of_fits {p : Nat} {d : DataWord} {r : Except Fault State} {s : State} {c : Chain}
    (hc : s.chains[p]? = some c) (h : d.fits c.md.dataSlot = true) : withWord p d r s = ofExcept r := by
  simp [withWord, hc, h]

/-- A bus command that answers next ran one cycle. -/
theorem present_eq_next {p : Nat} {d : Drive} {s t : State} :
    present p d s = .next t ↔
      ∃ c, s.chains[p]? = some c ∧ d.dp.fits c.md.dataSlot = true ∧
        cycle (some (p, d)) none s = .ok t :=
  withWord_eq_next

/-- A response word that answers next ran one cycle. -/
theorem respond_eq_next {p : Nat} {r : Reply} {s t : State} :
    respond p r s = .next t ↔
      ∃ c, s.chains[p]? = some c ∧ r.data.fits c.md.dataSlot = true ∧
        cycle none (some (p, r)) s = .ok t :=
  withWord_eq_next

/-- What an arriving response does to a Master Driver when it raises nothing (R159 to R165). -/
theorem mdReceive_eq_ok {b : Bool} {p : Nat} {md md' : MasterDriver} {r : S2M} {ev : List Event} :
    mdReceive b p md r = .ok (md', ev) ↔
      mdCheck md r.code = .ok () ∧ ∃ m, mdCode p md r.code r.data = .ok (m, ev) ∧
        md' = { mdAdvance b m r.code r.grant with
          lastCode := r.code, lastGrant := r.grant, phase := .gotMessages } := by
  unfold mdReceive
  cases mdCheck md r.code with
  | error e => simp
  | ok u =>
    cases mdCode p md r.code r.data with
    | error e => simp
    | ok x =>
      obtain ⟨m, e⟩ := x
      simp only [Except.ok.injEq, Prod.mk.injEq, true_and]
      constructor
      · rintro ⟨rfl, rfl⟩
        exact ⟨m, ⟨rfl, rfl⟩, rfl⟩
      · rintro ⟨m', ⟨rfl, rfl⟩, rfl⟩
        exact ⟨rfl, rfl⟩

end Sys2Proof.Machine
end

