-- ==== Sys2Proof/Laws/Cycle.lean ====
section
/-! SUPPORT. What a clock cycle can do: the passes it is made of, what each pass leaves alone, and the
invariant facts that follow for the configuration, the phases, the heads and the stores. -/

namespace Sys2Proof.Machine

open Sys2Proof

theorem except_bind_eq_ok {α β : Type} {x : Except Fault α} {f : α → Except Fault β} {b : β} :
    (x >>= f) = .ok b ↔ ∃ a, x = .ok a ∧ f a = .ok b := by
  cases x <;> simp [bind, Except.bind]

theorem except_map_eq_ok {α β : Type} {x : Except Fault α} {f : α → β} {b : β} :
    x.map f = .ok b ↔ ∃ a, x = .ok a ∧ f a = b := by
  cases x <;> simp [Except.map]

/-- The passes of a cycle that raises nothing, and the state they leave (R110). -/
theorem cycle_eq_ok {drive : Option (Nat × Drive)} {reply : Option (Nat × Reply)} {s t : State} :
    cycle drive reply s = .ok t ↔
      ∃ down stages outs dflt up lanes cells,
        chainsDown drive s.chains = .ok down ∧
        mapE (fun x : Stage × Nat => stageStart down x.2 x.1) s.stages.zipIdx = .ok stages ∧
        mapE (fun x : Slave × Nat => slaveCycle x.2 x.1 (slaveWires down stages x.2)) s.slaves.zipIdx
          = .ok outs ∧
        mapE laneDefault down = .ok dflt ∧
        chainsUp reply stages outs dflt = .ok up ∧
        mapE laneCommit up = .ok lanes ∧
        mapE flopCommit s.cells = .ok cells ∧
        t = { s with
          chains := lanes.map Lane.chain
          stages := stages.map (stageFinish outs)
          slaves := outs.map SlaveOut.slave
          cells := cells
          ret := .unit
          out := outs.flatMap SlaveOut.calls ++ lanes.flatMap Lane.calls
          wires := lanes.map laneWires } := by
  unfold cycle
  simp only [except_bind_eq_ok, ok_eq_comm]
  constructor
  · rintro ⟨down, h1, stages, h2, outs, h3, dflt, h4, up, h5, lanes, h6, cells, h7, h8⟩
    exact ⟨down, stages, outs, dflt, up, lanes, cells, h1, h2, h3, h4, h5, h6, h7, h8⟩
  · rintro ⟨down, stages, outs, dflt, up, lanes, cells, h1, h2, h3, h4, h5, h6, h7, h8⟩
    exact ⟨down, h1, stages, h2, outs, h3, dflt, h4, up, h5, lanes, h6, cells, h7, h8⟩

/-! ### What the passes keep -/

theorem laneStart_spec {drive : Option (Nat × Drive)} {p : Nat} {c : Chain} {l : Lane}
    (h : laneStart drive p c = .ok l) :
    ∃ md w, mdEmit drive p c.md = .ok (md, w) ∧
      l = { chain := { c with md := md }, up := w, mid := w, low := w, route := ⟨none, .dflt⟩,
            dsReply := idleReply, ds := c.dec.ds, resp := idleReply, calls := [] } := by
  obtain ⟨⟨md, w⟩, e, rfl⟩ := except_map_eq_ok.1 h
  exact ⟨md, w, e, rfl⟩

theorem laneAlign_spec {l l' : Lane} (h : laneAlign l = .ok l') :
    ∃ w, alignerDown l.chain.cfg.aligner l.chain.al l.up = .ok w ∧ l' = { l with mid := w, low := w } := by
  obtain ⟨w, e, rfl⟩ := except_map_eq_ok.1 h
  exact ⟨w, e, rfl⟩

theorem laneBand_spec {l l' : Lane} (h : laneBand l = .ok l') :
    ∃ w, bitbandDown l.chain.cfg.bitband l.chain.bb l.mid = .ok w ∧ l' = { l with low := w } := by
  obtain ⟨w, e, rfl⟩ := except_map_eq_ok.1 h
  exact ⟨w, e, rfl⟩

theorem laneRoute_spec {l l' : Lane} (h : laneRoute l = .ok l') :
    ∃ r, decDown l.chain.cfg l.chain.dec l.low = .ok r ∧ l' = { l with route := r } := by
  obtain ⟨r, e, rfl⟩ := except_map_eq_ok.1 h
  exact ⟨r, e, rfl⟩

theorem laneDefault_spec {l l' : Lane} (h : laneDefault l = .ok l') :
    ∃ r ds, defaultCycle l.chain.cfg.mock l.chain.dec.ds (decFan l.route l.low .dflt) = .ok (r, ds) ∧
      l' = { l with dsReply := r, ds := ds } := by
  obtain ⟨⟨r, ds⟩, e, rfl⟩ := except_map_eq_ok.1 h
  exact ⟨r, ds, e, rfl⟩

theorem laneBandUp_spec {l l' : Lane} (h : laneBandUp l = .ok l') :
    ∃ r bb, bitbandUp l.chain.cfg.bitband l.chain.cfg.bandWire l.chain.bb l.mid l.resp = .ok (r, bb) ∧
      l' = { l with resp := r, chain := { l.chain with bb := bb } } := by
  obtain ⟨⟨r, bb⟩, e, rfl⟩ := except_map_eq_ok.1 h
  exact ⟨r, bb, e, rfl⟩

theorem laneAlignUp_spec {l l' : Lane} (h : laneAlignUp l = .ok l') :
    ∃ r al, alignerUp l.chain.cfg.aligner l.chain.cfg.alignWire l.chain.al l.up l.resp = .ok (r, al) ∧
      l' = { l with resp := r, chain := { l.chain with al := al } } := by
  obtain ⟨⟨r, al⟩, e, rfl⟩ := except_map_eq_ok.1 h
  exact ⟨r, al, e, rfl⟩

theorem laneReceive_spec {reply : Option (Nat × Reply)} {p : Nat} {l l' : Lane}
    (h : laneReceive reply p l = .ok l') :
    ∃ r md ev, r = onPort l.chain.cfg.grantWire (replyAt reply p l.chain.md l.resp) ∧
      mdReceive l.chain.cfg.cancelAddrOnError p l.chain.md r = .ok (md, ev) ∧
      l' = { l with resp := r, chain := { l.chain with md := md }, calls := ev } := by
  obtain ⟨⟨md, ev⟩, e, rfl⟩ := except_map_eq_ok.1 h
  exact ⟨_, md, ev, rfl, e, rfl⟩

theorem laneCommit_spec {l l' : Lane} (h : laneCommit l = .ok l') :
    l.chain.md.phase = .gotMessages ∧
      l' = { l with chain := { l.chain with md := { l.chain.md with phase := .tickExtra } } } := by
  obtain ⟨md, e, rfl⟩ := except_map_eq_ok.1 h
  unfold mdCommit at e
  by_cases hp : l.chain.md.phase = .gotMessages
  · rw [if_pos hp] at e
    cases e
    exact ⟨hp, rfl⟩
  · simp [hp] at e

theorem stageStart_spec {lanes : List Lane} {o : Nat} {st : Stage} {r : StageLane}
    (h : stageStart lanes o st = .ok r) :
    r.stage = st ∧ r.inputs = (List.range st.cfg.inputs).map (fun x => sourceOf lanes (.stage o x)) ∧
      r.route = stageRoute st r.inputs := by
  obtain ⟨q, e, rfl⟩ := except_map_eq_ok.1 h
  unfold stageDown at e
  split at e
  · simp at e
  · simp only [Except.ok.injEq] at e
    exact ⟨rfl, rfl, e.symm⟩

/-- What a slave's cycle leaves alone, and that its handler went through handler operations only. -/
theorem slaveCycle_spec {i : Nat} {u : Slave} {w : M2S} {o : SlaveOut} (h : slaveCycle i u w = .ok o) :
    ∃ ds a, slavePromote u.sd w.ready = .ok ds ∧ slaveRespond i u ds w.payload = .ok a ∧
      refuseBurst w.req = .ok () ∧
      o = { resp := ⟨a.code, a.data, true⟩
            slave := { u with sd := slaveNext u.sd w.req ds a.code, handler := a.handler }
            calls := a.calls } := by
  unfold slaveCycle at h
  cases h1 : slavePromote u.sd w.ready with
  | error e => simp [h1] at h
  | ok ds =>
    cases h2 : slaveRespond i u ds w.payload with
    | error e => simp [h1, h2] at h
    | ok a =>
      cases h3 : refuseBurst w.req with
      | error e => simp [h1, h2, h3] at h
      | ok x =>
        simp only [h1, h2, h3, Except.ok.injEq] at h
        exact ⟨ds, a, rfl, h2, rfl, h.symm⟩

theorem checkedRead_wf {h h' : Handler} {t : TransferMeta} {a : Answer} (hw : h.wf = true)
    (e : checkedRead h t = .ok (a, h')) : h'.wf = true := by
  unfold checkedRead at e
  have := handlerRead_wf (t := t) hw
  rcases hr : handlerRead h t with ⟨x, g⟩
  rw [hr] at e this
  cases x with
  | pending => cases e; exact this
  | success d =>
    by_cases hf : dataFits t d = true
    · simp only [hf, if_true, Except.ok.injEq, Prod.mk.injEq] at e
      exact e.2 ▸ this
    · simp [hf] at e

/-- A slave's response keeps the canonical form of its store. -/
theorem slaveRespond_wf {i : Nat} {u : Slave} {ds : Option TransferMeta} {p : Option Data}
    {a : SlaveAnswer} (hw : u.handler.wf = true) (h : slaveRespond i u ds p = .ok a) :
    a.handler.wf = true := by
  unfold slaveRespond at h
  split at h
  · cases h; exact hw
  · cases ds with
    | none =>
      simp only at h
      split at h
      · simp at h
      · cases h; exact hw
    | some t =>
      simp only at h
      cases ht : t.dir with
      | read =>
        simp only [ht, slaveRead] at h
        split at h
        · simp at h
        · rcases hc : checkedRead u.handler t with e | ⟨x, g⟩
          · simp [hc] at h
          · have := checkedRead_wf hw hc
            cases x <;> (simp only [hc, Except.ok.injEq] at h; exact h ▸ this)
      | write =>
        simp only [ht, slaveWrite] at h
        cases p with
        | none => simp at h
        | some d =>
          simp only at h
          have hp := handlerPreWrite_wf (t := t) hw
          rcases hx : handlerPreWrite u.handler t with ⟨x, g⟩
          rw [hx] at h hp
          cases x with
          | pending =>
            simp only [Except.ok.injEq] at h
            subst h
            unfold slaveWriteWait
            split
            · exact handlerWrite_wf hp
            · exact hp
          | success y =>
            simp only [Except.ok.injEq] at h
            subst h
            unfold slaveWriteFinal
            have := handlerWrite_wf (t := t) (d := d) (f := true) hp
            rcases hz : handlerWrite g t d true with ⟨z, k⟩
            rw [hz] at this
            cases z <;> exact this

/-- The downstream pass of the chains keeps their configuration. -/
theorem chainsDown_cfg {drive : Option (Nat × Drive)} {chains : List Chain} {l : List Lane}
    (h : chainsDown drive chains = .ok l) : l.map (fun x => x.chain.cfg) = chains.map Chain.cfg := by
  unfold chainsDown at h
  simp only [except_bind_eq_ok] at h
  obtain ⟨l1, h1, l2, h2, l3, h3, h4⟩ := h
  rw [mapE_map_eq (g := fun x => x.chain.cfg) (fun a b hab => by
        obtain ⟨_, _, rfl⟩ := laneRoute_spec hab; rfl) h4,
    mapE_map_eq (g := fun x => x.chain.cfg) (fun a b hab => by
        obtain ⟨_, _, rfl⟩ := laneBand_spec hab; rfl) h3,
    mapE_map_eq (g := fun x => x.chain.cfg) (fun a b hab => by
        obtain ⟨_, _, rfl⟩ := laneAlign_spec hab; rfl) h2,
    mapE_map_eq (g := fun x : Chain × Nat => x.1.cfg) (fun a b hab => by
        obtain ⟨_, _, _, rfl⟩ := laneStart_spec hab; rfl) h1]
  have e : (fun x : Chain × Nat => x.1.cfg) = Chain.cfg ∘ Prod.fst := rfl
  rw [e, ← List.map_map, List.zipIdx_map_fst]

/-- The upstream pass of the chains keeps their configuration. -/
theorem chainsUp_cfg {reply : Option (Nat × Reply)} {stages : List StageLane} {outs : List SlaveOut}
    {lanes l : List Lane} (h : chainsUp reply stages outs lanes = .ok l) :
    l.map (fun x => x.chain.cfg) = lanes.map (fun x => x.chain.cfg) := by
  unfold chainsUp at h
  simp only [except_bind_eq_ok] at h
  obtain ⟨l1, h1, l2, h2, h3⟩ := h
  rw [mapE_map_eq (g := fun x : Lane × Nat => x.1.chain.cfg) (fun a b hab => by
        obtain ⟨_, _, _, _, _, rfl⟩ := laneReceive_spec hab; rfl) h3]
  have e : (fun x : Lane × Nat => x.1.chain.cfg) = (fun x : Lane => x.chain.cfg) ∘ Prod.fst := rfl
  rw [e, ← List.map_map, List.zipIdx_map_fst,
    mapE_map_eq (g := fun x => x.chain.cfg) (fun a b hab => by
        obtain ⟨_, _, _, rfl⟩ := laneAlignUp_spec hab; rfl) h2,
    mapE_map_eq (g := fun x => x.chain.cfg) (fun a b hab => by
        obtain ⟨_, _, _, rfl⟩ := laneBandUp_spec hab; rfl) h1, List.map_map]
  rfl

end Sys2Proof.Machine
end

