-- ==== Sys2Proof/Laws/Quiet.lean ====
section
/-! SUPPORT. The cycle of a fabric with nothing in flight below its Master Drivers: every pass succeeds,
every slave is idle, every response that comes up is `Success` with grant. -/

namespace Sys2Proof.Machine

open Sys2Proof

theorem refuseBurst_of_single {r : Option TransferMeta} (h : ∀ x, r = some x → x.burst = .single) :
    refuseBurst r = .ok () := by
  cases r with
  | none => rfl
  | some x => exact refuseBurst_ok (h x rfl)

theorem zipIdx_map_zipIdx {α β : Type} (l : List α) (f : α × Nat → β) :
    (l.zipIdx.map f).zipIdx = l.zipIdx.map fun x => (f x, x.2) := by
  apply List.ext_getElem?
  intro i
  cases h : l[i]? <;> simp [List.getElem?_zipIdx, h]

theorem mapE_exists {α β : Type} {f : α → Except Fault β} {l : List α} (h : ∀ a ∈ l, ∃ b, f a = .ok b) :
    ∃ l', mapE f l = .ok l' := by
  induction l with
  | nil => exact ⟨[], rfl⟩
  | cons a l ih =>
    obtain ⟨b, hb⟩ := h a (by simp)
    obtain ⟨l', hl⟩ := ih fun x hx => h x (by simp [hx])
    exact ⟨b :: l', by simp [mapE, hb, hl]⟩

/-! ### Downstream -/

/-- The wires below the Aligner of a quiet chain. -/
def quietMid (c : Chain) (w : M2S) : M2S :=
  match c.cfg.aligner with
  | none => w
  | some pol => ⟨alFront pol w.req, true, none⟩

/-- The wires below the Translator of a quiet chain. -/
def quietLow (c : Chain) (w : M2S) : M2S :=
  match c.cfg.bitband with
  | none => quietMid c w
  | some rs => ⟨bandReq rs (quietMid c w).req, true, none⟩

/-- The routes of a quiet decoder. -/
def quietRoute (c : Chain) (w : M2S) : Route :=
  ⟨(quietLow c w).req.map fun t => decodeTag c.cfg.ports t.addr, c.dec.dataRoute⟩

/-- The lane of a quiet chain after its downstream passes. -/
def quietLane (c : Chain) (md : MasterDriver) (w : M2S) : Lane :=
  { chain := { c with md := md }, up := w, mid := quietMid c w, low := quietLow c w,
    route := quietRoute c w, dsReply := idleReply, ds := c.dec.ds, resp := idleReply, calls := [] }

/-- What a driver may put on the port of a quiet chain. -/
def Presentable (c : Chain) (w : M2S) : Prop :=
  w.payload = none ∧ ∀ x, w.req = some x → x.burst = .single ∧ c.aliasOk x = true

theorem subAt_burst (pol : AlignPolicy) (t : TransferMeta) (i : Nat) (h : t.burst = .single) :
    (subAt pol t i).burst = .single := by
  cases pol <;> simp [subAt, subXfer, alignDown, h]

theorem alFront_burst {pol : AlignPolicy} {req : Option TransferMeta}
    (h : ∀ x, req = some x → x.burst = .single) : ∀ x, alFront pol req = some x → x.burst = .single := by
  intro x hx
  cases req with
  | none => simp [alFront] at hx
  | some t =>
    simp only [alFront, Option.map_some, Option.some.injEq] at hx
    subst hx
    split
    · exact subAt_burst _ _ _ (h t rfl)
    · exact h t rfl

theorem quietMid_spec {c : Chain} {w : M2S} (hw : Presentable c w) :
    (quietMid c w).payload = none ∧ (∀ x, (quietMid c w).req = some x → x.burst = .single) ∧
      (quietMid c w).req = w.req.map c.presented ∧ (w.req = none → (quietMid c w).req = none) := by
  have hb : ∀ x, w.req = some x → x.burst = .single := fun x hx => (hw.2 x hx).1
  unfold quietMid
  cases h : c.cfg.aligner with
  | none =>
    refine ⟨hw.1, hb, ?_, id⟩
    cases hr : w.req with
    | none => rfl
    | some x => simp [Chain.presented, h]
  | some pol =>
    refine ⟨rfl, alFront_burst hb, ?_, fun hr => by simp [alFront, hr]⟩
    cases hr : w.req with
    | none => rfl
    | some x => simp [alFront, Chain.presented, h]

theorem quietLow_spec {c : Chain} {w : M2S} (hw : Presentable c w) :
    (quietLow c w).payload = none ∧ (∀ x, (quietLow c w).req = some x → x.burst = .single) ∧
      (quietLow c w).req = bandReq (c.cfg.bitband.getD []) (w.req.map c.presented) := by
  have hm := quietMid_spec hw
  unfold quietLow
  cases h : c.cfg.bitband with
  | none =>
    refine ⟨hm.1, hm.2.1, ?_⟩
    rw [hm.2.2.1]
    cases w.req <;> simp [bandReq, bandTranslate]
  | some rs =>
    refine ⟨rfl, ?_, by simp [hm.2.2.1]⟩
    intro x hx
    simp only at hx
    unfold bandReq at hx
    split at hx
    · simp at hx
    · rename_i t ht
      split at hx <;> (simp only [Option.some.injEq] at hx; subst hx)
      · exact hm.2.1 _ ht
      · rfl

theorem quietLow_none {c : Chain} {w : M2S} (hw : Presentable c w) (h : w.req = none) :
    (quietLow c w).req = none := by
  rw [(quietLow_spec hw).2.2, h]; rfl

theorem bbTranslateReq_presented {c : Chain} {rs : List BandRegion} {x : TransferMeta}
    (hr : c.cfg.bitband.getD [] = rs) (ha : c.aliasOk x = true) :
    bbTranslateReq rs (some (c.presented x)) = .ok (bandReq rs (some (c.presented x))) := by
  unfold bbTranslateReq bandReq
  simp only
  unfold Chain.aliasOk at ha
  rw [hr] at ha
  cases hb : bandTranslate rs (c.presented x).addr with
  | none => rfl
  | some y =>
    rw [hb] at ha
    have : (c.presented x).addr.toNat % 4 = 0 := by simpa using ha
    simp [this]

/-- What `quietBelow` says, field by field. -/
theorem Chain.quietBelow_iff {c : Chain} : c.quietBelow = true ↔
    c.al = Aligner.reset ∧ c.bb = Translator.reset ∧ c.dec.addrRoute = none ∧ c.dec.addrMeta = none ∧
      c.dec.lastCode = .success ∧ c.dec.ds = ⟨none, none, .success⟩ := by
  obtain ⟨cfg, md, al, bb, ⟨ar, am, dr, lc, ⟨a, d, l⟩⟩⟩ := c
  simp [Chain.quietBelow, SlaveDriver.quiet]
  tauto

theorem quiet_align {c : Chain} {md : MasterDriver} {w : M2S} {l : Lane} (hq : c.quietBelow = true)
    (hw : Presentable c w) (hc : l.chain = { c with md := md }) (hu : l.up = w) :
    laneAlign l = .ok { l with mid := quietMid c w, low := quietMid c w } := by
  obtain ⟨hal, -⟩ := Chain.quietBelow_iff.1 hq
  have hb : ∀ x, w.req = some x → x.burst = .single := fun x hx => (hw.2 x hx).1
  unfold laneAlign quietMid
  rw [hc, hu]
  simp only
  cases h : c.cfg.aligner with
  | none => simp [alignerDown, Except.map]
  | some pol =>
    simp [alignerDown, alDown, refuseBurst_of_single hb, alPayload, hal, Aligner.reset, hw.1, alReq,
      Except.map]

theorem quiet_band {c : Chain} {md : MasterDriver} {w : M2S} {l : Lane} (hq : c.quietBelow = true)
    (hw : Presentable c w) (hc : l.chain = { c with md := md }) (hu : l.mid = quietMid c w)
    (hl : l.low = quietMid c w) : laneBand l = .ok { l with low := quietLow c w } := by
  obtain ⟨-, hbb, -⟩ := Chain.quietBelow_iff.1 hq
  have hm := quietMid_spec hw
  unfold laneBand quietLow
  rw [hc, hu]
  simp only
  cases h : c.cfg.bitband with
  | none => simp [bitbandDown, Except.map, ← hl]
  | some rs =>
    have : bbTranslateReq rs (quietMid c w).req = .ok (bandReq rs (quietMid c w).req) := by
      rw [hm.2.2.1]
      cases hr : w.req with
      | none => rfl
      | some x => exact bbTranslateReq_presented (by simp [h]) (hw.2 x hr).2
    simp [bitbandDown, bbDown, refuseBurst_of_single hm.2.1, bbReq, hbb, Translator.reset, bbFwd, this,
      bbPayload, hm.1, Except.map]

theorem quiet_route {c : Chain} {md : MasterDriver} {w : M2S} {l : Lane} (hq : c.quietBelow = true)
    (hw : Presentable c w) (hc : l.chain = { c with md := md }) (hl : l.low = quietLow c w) :
    laneRoute l = .ok { l with route := quietRoute c w } := by
  obtain ⟨-, -, har, ham, -, -⟩ := Chain.quietBelow_iff.1 hq
  unfold laneRoute quietRoute
  rw [hc, hl]
  have hr : decAddrRoute c.cfg.ports c.dec (quietLow c w) =
      (quietLow c w).req.map fun t => decodeTag c.cfg.ports t.addr := by
    unfold decAddrRoute
    cases (quietLow c w).req <;> simp [ham]
  have hd : decDataRoute c.dec (quietLow c w).ready = c.dec.dataRoute := by
    unfold decDataRoute
    cases (quietLow c w).ready <;> simp [har]
  simp [decDown, refuseBurst_of_single (quietLow_spec hw).2.1, addressChanged, ham, hr, hd, Except.map]

theorem quiet_down {drive : Option (Nat × Drive)} {chains : List Chain}
    {e : Chain × Nat → MasterDriver × M2S} (hq : ∀ c ∈ chains, c.quietBelow = true)
    (he : ∀ x ∈ chains.zipIdx, mdEmit drive x.2 x.1.md = .ok (e x))
    (hw : ∀ x ∈ chains.zipIdx, Presentable x.1 (e x).2) :
    chainsDown drive chains = .ok (chains.zipIdx.map fun x => quietLane x.1 (e x).1 (e x).2) := by
  have hq' : ∀ x ∈ chains.zipIdx, x.1.quietBelow = true := fun x hx =>
    hq _ (List.fst_mem_of_mem_zipIdx hx)
  unfold chainsDown
  have h1 : mapE (fun x => laneStart drive x.2 x.1) chains.zipIdx =
      .ok (chains.zipIdx.map fun x =>
        { chain := { x.1 with md := (e x).1 }, up := (e x).2, mid := (e x).2, low := (e x).2,
          route := ⟨none, .dflt⟩, dsReply := idleReply, ds := x.1.dec.ds, resp := idleReply,
          calls := [] }) :=
    mapE_of_ok fun x hx => by simp [laneStart, he x hx, Except.map]
  have h2 : mapE laneAlign (chains.zipIdx.map fun x =>
        { chain := { x.1 with md := (e x).1 }, up := (e x).2, mid := (e x).2, low := (e x).2,
          route := ⟨none, .dflt⟩, dsReply := idleReply, ds := x.1.dec.ds, resp := idleReply,
          calls := [] }) =
      .ok (chains.zipIdx.map fun x =>
        { chain := { x.1 with md := (e x).1 }, up := (e x).2, mid := quietMid x.1 (e x).2,
          low := quietMid x.1 (e x).2, route := ⟨none, .dflt⟩, dsReply := idleReply,
          ds := x.1.dec.ds, resp := idleReply, calls := [] }) := by
    rw [mapE_map]
    exact mapE_of_ok fun x hx => quiet_align (hq' x hx) (hw x hx) rfl rfl
  have h3 : mapE laneBand (chains.zipIdx.map fun x =>
        { chain := { x.1 with md := (e x).1 }, up := (e x).2, mid := quietMid x.1 (e x).2,
          low := quietMid x.1 (e x).2, route := ⟨none, .dflt⟩, dsReply := idleReply,
          ds := x.1.dec.ds, resp := idleReply, calls := [] }) =
      .ok (chains.zipIdx.map fun x =>
        { chain := { x.1 with md := (e x).1 }, up := (e x).2, mid := quietMid x.1 (e x).2,
          low := quietLow x.1 (e x).2, route := ⟨none, .dflt⟩, dsReply := idleReply,
          ds := x.1.dec.ds, resp := idleReply, calls := [] }) := by
    rw [mapE_map]
    exact mapE_of_ok fun x hx => quiet_band (hq' x hx) (hw x hx) rfl rfl rfl
  have h4 : mapE laneRoute (chains.zipIdx.map fun x =>
        { chain := { x.1 with md := (e x).1 }, up := (e x).2, mid := quietMid x.1 (e x).2,
          low := quietLow x.1 (e x).2, route := ⟨none, .dflt⟩, dsReply := idleReply,
          ds := x.1.dec.ds, resp := idleReply, calls := [] }) =
      .ok (chains.zipIdx.map fun x => quietLane x.1 (e x).1 (e x).2) := by
    rw [mapE_map]
    exact mapE_of_ok fun x hx => quiet_route (hq' x hx) (hw x hx) rfl rfl
  rw [h1]
  simp only [bind, Except.bind, h2, h3, h4]

/-! ### Output stages, slaves and default slaves -/

/-- Wires without payload that present nothing but single transfers. -/
def Bare (w : M2S) : Prop :=
  w.payload = none ∧ ∀ x, w.req = some x → x.burst = .single

/-- Every lane is bare, and whatever is presented to a port goes to one target, `tgt`. -/
def OneTarget (lanes : List Lane) (tgt : Option Target) : Prop :=
  ∀ l ∈ lanes, Bare l.low ∧ ∀ k, l.low.req ≠ none → l.route.ar = some (.port k) →
    (l.chain.cfg.ports[k]?).map PortCfg.target = tgt

theorem decFan_bare {r : Route} {w : M2S} {g : Tag} (h : Bare w) : Bare (decFan r w g) := by
  unfold decFan
  refine ⟨by simp only; split <;> simp [h.1], fun x hx => ?_⟩
  simp only at hx
  split at hx
  · exact h.2 x hx
  · simp at hx

theorem sourceOf_spec {lanes : List Lane} {tgt : Option Target} (h : OneTarget lanes tgt) (g : Target) :
    Bare (sourceOf lanes g) ∧ ((sourceOf lanes g).req ≠ none → tgt = some g) := by
  unfold sourceOf
  cases hf : lanes.findSome? (laneSource g) with
  | none => exact ⟨⟨rfl, fun x hx => by simp [idleWires] at hx⟩, fun hn => absurd rfl hn⟩
  | some w =>
    obtain ⟨l, hl, hs⟩ := List.exists_of_findSome?_eq_some hf
    obtain ⟨k, hk, rfl⟩ := Option.map_eq_some_iff.1 hs
    obtain ⟨hb, ht⟩ := h l hl
    refine ⟨decFan_bare hb, fun hn => ?_⟩
    simp only [Option.getD_some, decFan] at hn
    by_cases ha : l.route.ar = some (.port k)
    · rw [if_pos ha] at hn
      have := ht k hn ha
      obtain ⟨hlt, hp, -⟩ := List.findIdx?_eq_some_iff_getElem.1 hk
      rw [← this]
      simpa [hlt] using hp
    · rw [if_neg ha] at hn
      exact absurd rfl hn

/-- The inputs of an output stage. -/
def stageInputs (lanes : List Lane) (o : Nat) (st : Stage) : List M2S :=
  (List.range st.cfg.inputs).map fun x => sourceOf lanes (.stage o x)

theorem stageInput_stageInputs (lanes : List Lane) (o : Nat) (st : Stage) (x : Nat) :
    stageInput (stageInputs lanes o st) x =
      if x < st.cfg.inputs then sourceOf lanes (.stage o x) else idleWires := by
  unfold stageInput stageInputs
  by_cases h : x < st.cfg.inputs <;> simp [h]

theorem stageInput_bare {lanes : List Lane} {tgt : Option Target} (h : OneTarget lanes tgt) (o : Nat)
    (st : Stage) (x : Nat) : Bare (stageInput (stageInputs lanes o st) x) ∧
      ((stageInput (stageInputs lanes o st) x).req ≠ none →
        tgt = some (.stage o x) ∧ x < st.cfg.inputs) := by
  rw [stageInput_stageInputs]
  split
  · have := sourceOf_spec h (.stage o x)
    exact ⟨this.1, fun hn => ⟨this.2 hn, by assumption⟩⟩
  · exact ⟨⟨rfl, fun x hx => by simp [idleWires] at hx⟩, fun hn => absurd rfl hn⟩

theorem stageStart_quiet {lanes : List Lane} {tgt : Option Target} (h : OneTarget lanes tgt) (o : Nat)
    (st : Stage) : stageStart lanes o st =
      .ok ⟨st, stageInputs lanes o st, stageRoute st (stageInputs lanes o st)⟩ := by
  have hm : ∃ l', mapE (fun i : M2S => refuseBurst i.req) (stageInputs lanes o st) = .ok l' := by
    refine mapE_exists fun w hw => ⟨(), refuseBurst_of_single ?_⟩
    obtain ⟨x, -, rfl⟩ := List.mem_map.1 hw
    exact (sourceOf_spec h _).1.2
  obtain ⟨l', hm⟩ := hm
  unfold stageStart
  simp only
  change Except.map _ (stageDown st (stageInputs lanes o st)) = _
  simp only [stageDown, hm, Except.map]
  rfl

/-- The only contender wins under either policy (R206, R207). -/
theorem arbitrate_single {a : Arbiter} {n head x : Nat} {c : List Nat} (hx : x < n)
    (hc : ∀ y, c.contains y = true ↔ y = x) : arbitrate a n head c = some x := by
  cases a with
  | fixedPriority =>
    exact find?_range_eq hx ((hc x).2 rfl) fun y hy => by
      rw [Bool.eq_false_iff]; intro h; have := (hc y).1 h; omega
  | roundRobin =>
    simp only [arbitrate, arbitrateRr]
    have hn : 0 < n := by omega
    have hs : ∃ y, ((List.range n).map fun k => (head + k) % n).find? (fun x => c.contains x) = some y := by
      rw [← Option.isSome_iff_exists, List.find?_isSome]
      refine ⟨x, List.mem_map.2 ⟨(x + (n - head % n)) % n, by simp [Nat.mod_lt _ hn], ?_⟩, (hc x).2 rfl⟩
      have hh := Nat.mod_lt head hn
      rw [Nat.add_mod_mod, ← Nat.mod_add_mod]
      rw [show head % n + (x + (n - head % n)) = x + n by omega, Nat.add_mod_right, Nat.mod_eq_of_lt hx]
    obtain ⟨y, hy⟩ := hs
    have := (hc y).1 (by simpa using List.find?_some hy)
    rw [hy, this]

theorem Stage.quiet_iff {st : Stage} :
    st.quiet = true ↔ st.addrRoute = none ∧ st.lastCode = .success := by
  simp [Stage.quiet]

/-- What a quiet stage forwards. -/
theorem stageRoute_quiet {lanes : List Lane} {tgt : Option Target} (h : OneTarget lanes tgt) (o : Nat)
    {st : Stage} (hq : st.quiet = true) :
    Bare (stageRoute st (stageInputs lanes o st)).down ∧
    (stageRoute st (stageInputs lanes o st)).dr = st.dataRoute ∧
    (∀ x, (stageInput (stageInputs lanes o st) x).req ≠ none →
      (stageRoute st (stageInputs lanes o st)).w = some x) ∧
    (tgt = none → (stageRoute st (stageInputs lanes o st)).w = none) := by
  obtain ⟨ha, hl⟩ := Stage.quiet_iff.1 hq
  have hmem : ∀ y, (contenders st.cfg.inputs (stageInputs lanes o st)).contains y = true ↔
      y < st.cfg.inputs ∧ (stageInput (stageInputs lanes o st) y).req ≠ none := by
    intro y
    simp [contenders, Option.isSome_iff_ne_none]
  have hpipe : ∀ dr w0, pipelineRule st dr w0 = w0 := by
    intro dr w0
    cases w0 <;> simp [pipelineRule, hl]
  refine ⟨⟨?_, ?_⟩, by simp [stageRoute, stageDataRoute, ha], ?_, ?_⟩
  · simp only [stageRoute]
    cases stageDataRoute st (stageInputs lanes o st) with
    | none => rfl
    | some d => exact (stageInput_bare h o st d).1.1
  · intro x hx
    simp only [stageRoute] at hx
    obtain ⟨d, -, hd⟩ := Option.bind_eq_some_iff.1 hx
    exact (stageInput_bare h o st d).1.2 x hd
  · intro x hx
    have hx' := (stageInput_bare h o st x).2 hx
    have : arbitrate st.cfg.arbiter st.cfg.inputs st.rrHead
        (contenders st.cfg.inputs (stageInputs lanes o st)) = some x := by
      refine arbitrate_single hx'.2 fun y => ?_
      rw [hmem]
      constructor
      · rintro ⟨-, hy⟩
        have := ((stageInput_bare h o st y).2 hy).1
        rw [hx'.1] at this
        simpa using this.symm
      · rintro rfl
        exact ⟨hx'.2, hx⟩
    simp only [stageRoute, hpipe, stageWinner, this, Option.filter, (hmem x).2 ⟨hx'.2, hx⟩, if_true]
  · intro hn
    have hc : ∀ y, (contenders st.cfg.inputs (stageInputs lanes o st)).contains y = false := by
      intro y
      rw [Bool.eq_false_iff, ne_eq, hmem]
      rintro ⟨-, hy⟩
      have := ((stageInput_bare h o st y).2 hy).1
      rw [hn] at this
      simp at this
    simp only [stageRoute, hpipe, stageWinner, Option.filter]
    split
    · simp only [hc]; rfl
    · rfl

theorem slaveWires_bare {lanes : List Lane} {tgt : Option Target} (h : OneTarget lanes tgt)
    {stages : List Stage} (hq : ∀ st ∈ stages, st.quiet = true) (s : Nat) :
    Bare (slaveWires lanes (stages.zipIdx.map fun x =>
      ⟨x.1, stageInputs lanes x.2 x.1, stageRoute x.1 (stageInputs lanes x.2 x.1)⟩) s) := by
  unfold slaveWires
  split
  · rename_i st hst
    obtain ⟨x, hx, rfl⟩ := List.mem_map.1 (List.mem_of_find?_eq_some hst)
    exact (stageRoute_quiet h x.2 (hq _ (List.fst_mem_of_mem_zipIdx hx))).1
  · exact (sourceOf_spec h _).1

theorem SlaveDriver.quiet_iff {sd : SlaveDriver} : sd.quiet = true ↔ sd = ⟨none, none, .success⟩ := by
  obtain ⟨a, d, l⟩ := sd
  simp [SlaveDriver.quiet]
  tauto

/-- A quiet slave with bare wires is idle (R127, R132, R133). -/
theorem slaveCycle_quiet {i : Nat} {u : Slave} {w : M2S} (hq : u.sd.quiet = true) (hw : Bare w) :
    slaveCycle i u w =
      .ok ⟨⟨.success, none, true⟩, { u with sd := ⟨w.req, none, .success⟩ }, []⟩ := by
  have hs := SlaveDriver.quiet_iff.1 hq
  have hp : slavePromote u.sd w.ready = .ok none := by
    rw [hs]; cases w.ready <;> rfl
  have hl : u.sd.lastCode = .success := by rw [hs]
  simp [slaveCycle, hp, slaveRespond, hl, hw.1, refuseBurst_of_single hw.2, slaveNext]

/-- A quiet default slave with bare wires is idle. -/
theorem defaultCycle_quiet {rows : List MockRow} {sd : SlaveDriver} {w : M2S} (hq : sd.quiet = true)
    (hw : Bare w) : defaultCycle rows sd w = .ok (⟨.success, none, true⟩, ⟨w.req, none, .success⟩) := by
  have hs := SlaveDriver.quiet_iff.1 hq
  have hp : slavePromote sd w.ready = .ok none := by
    rw [hs]; cases w.ready <;> rfl
  have hl : sd.lastCode = .success := by rw [hs]
  simp [defaultCycle, hp, defaultRespond, hl, hw.1, refuseBurst_of_single hw.2, slaveNext]

/-! ### Upstream -/

/-- Every response of a slave in a list of idle ones is the idle response. -/
theorem slaveReply_idle {outs : List SlaveOut} (h : ∀ o ∈ outs, o.resp = ⟨.success, none, true⟩)
    (s : Nat) : slaveReply outs s = ⟨.success, none, true⟩ := by
  unfold slaveReply
  cases ho : outs[s]? with
  | none => rfl
  | some o => simpa using h o (List.mem_of_getElem? ho)

/-- Code and data at any port of a quiet decoder. -/
theorem portReply_quiet {stages : List StageLane} {outs : List SlaveOut} {l : Lane}
    (h : ∀ o ∈ outs, o.resp = ⟨.success, none, true⟩) (hd : l.dsReply = ⟨.success, none, true⟩)
    (g : Tag) : (portReply stages outs l g).code = .success ∧ (portReply stages outs l g).data = none := by
  have ht : ∀ tgt, (targetReply stages outs tgt).code = .success ∧
      (targetReply stages outs tgt).data = none := by
    intro tgt
    cases tgt with
    | slave s => simp [targetReply, slaveReply_idle h]
    | stage o x =>
      simp only [targetReply]
      split
      · simp only [stageReply, slaveReply_idle h]
        split <;> exact ⟨rfl, rfl⟩
      · exact ⟨rfl, rfl⟩
  cases g with
  | dflt => simp [portReply, hd]
  | port k =>
    simp only [portReply]
    split
    · exact ht _
    · exact ⟨rfl, rfl⟩

/-- The lanes of the quiet stages after their downstream pass. -/
def quietStages (lanes : List Lane) (stages : List Stage) : List StageLane :=
  stages.zipIdx.map fun x =>
    ⟨x.1, stageInputs lanes x.2 x.1, stageRoute x.1 (stageInputs lanes x.2 x.1)⟩

/-- The grant at any port of a quiet decoder. -/
theorem portReply_granted {lanes : List Lane} {tgt : Option Target} (h : OneTarget lanes tgt)
    {stages : List Stage} (hq : ∀ st ∈ stages, st.quiet = true) {outs : List SlaveOut} {l : Lane}
    (ho : ∀ o ∈ outs, o.resp = ⟨.success, none, true⟩) (hd : l.dsReply = ⟨.success, none, true⟩)
    (g : Tag) : (portReply (quietStages lanes stages) outs l g).grant = true := by
  have ht : ∀ t, (targetReply (quietStages lanes stages) outs t).grant = true := by
    intro t
    cases t with
    | slave s => simp [targetReply, slaveReply_idle ho]
    | stage o x =>
      simp only [targetReply, quietStages, List.getElem?_map, List.getElem?_zipIdx]
      cases hs : stages[o]? with
      | none => rfl
      | some st =>
        simp only [Option.map_some, stageReply, slaveReply_idle ho]
        have hr := stageRoute_quiet h (0 + o) (hq st (List.mem_of_getElem? hs))
        have hg : grantWireOf (stageInput (stageInputs lanes (0 + o) st) x).req.isSome
            ((stageRoute st (stageInputs lanes (0 + o) st)).w == some x) .success = true := by
          cases hx : (stageInput (stageInputs lanes (0 + o) st) x).req with
          | none => rfl
          | some t =>
            rw [hr.2.2.1 x (by rw [hx]; simp)]
            simp [grantWireOf]
        rw [hg]
        split <;> rfl
  cases g with
  | dflt => simp [portReply, hd]
  | port k =>
    simp only [portReply]
    split
    · simp [ht]
    · rfl

/-- A quiet decoder after the cycle. -/
def quietDec (c : Chain) (w : M2S) : Decoder :=
  { c.dec with
    addrRoute := (quietRoute c w).ar
    addrMeta := (quietLow c w).req
    lastCode := .success
    ds := ⟨(decFan (quietRoute c w) (quietLow c w) .dflt).req, none, .success⟩ }

/-- A quiet Translator after the cycle. -/
def quietBb (c : Chain) (w : M2S) : Translator :=
  match c.cfg.bitband with
  | none => c.bb
  | some rs => ⟨bbEntry rs c.bb (quietMid c w) .success true, .success, true⟩

/-- A quiet Aligner after the cycle. -/
def quietAl (c : Chain) (w : M2S) : Aligner :=
  match c.cfg.aligner with
  | none => c.al
  | some pol => ⟨alFresh pol c.al w .success true, .success, true⟩

/-- A chain after a quiet cycle, `md` being its driver. -/
def quietChain (c : Chain) (w : M2S) (md : MasterDriver) : Chain :=
  ⟨c.cfg, md, quietAl c w, quietBb c w, quietDec c w⟩

theorem laneBandUp_quiet {c : Chain} {w : M2S} {l : Lane} (hq : c.quietBelow = true)
    (h1 : l.chain.cfg = c.cfg) (h2 : l.chain.bb = c.bb) (h3 : l.mid = quietMid c w)
    (h4 : l.resp = ⟨.success, none, true⟩) :
    laneBandUp l = .ok { l with chain := { l.chain with bb := quietBb c w } } := by
  obtain ⟨-, hbb, -⟩ := Chain.quietBelow_iff.1 hq
  have hst : c.bb.state = .normal := by rw [hbb]; rfl
  unfold laneBandUp quietBb
  rw [h1, h2, h3, h4]
  cases c.cfg.bitband with
  | none => simp only [bitbandUp, Except.map, ← h2, ← h4]
  | some rs =>
    rw [bitbandUp, onPort_granted]
    simp only [bbUp, bbAnswer, hst, bbFwd, bbNext, Except.map, if_true, ← h4]

theorem laneAlignUp_quiet {c : Chain} {w : M2S} {l : Lane} (hq : c.quietBelow = true)
    (h1 : l.chain.cfg = c.cfg) (h2 : l.chain.al = c.al) (h3 : l.up = w)
    (h4 : l.resp = ⟨.success, none, true⟩) :
    laneAlignUp l = .ok { l with chain := { l.chain with al := quietAl c w } } := by
  obtain ⟨hal, -⟩ := Chain.quietBelow_iff.1 hq
  have hst : c.al.split = none := by rw [hal]; rfl
  unfold laneAlignUp quietAl
  rw [h1, h2, h3, h4]
  cases c.cfg.aligner with
  | none => simp only [alignerUp, Except.map, ← h2, ← h4]
  | some pol =>
    have ho : alOwn pol c.al = false := by simp [alOwn, hst]
    rw [alignerUp, onPort_granted]
    simp only [alUp, alAnswer, hst, ho, alNext, Except.map]
    simp

/-- The cycle of a fabric that is quiet below its Master Drivers, where the drivers' ports present at
most one transfer together, to one target, and no payload; `e` is what each driver emits, `r` what it
does with what arrives at it. -/
theorem quiet_cycle {drive : Option (Nat × Drive)} {reply : Option (Nat × Reply)} {s : State}
    {e : Chain × Nat → MasterDriver × M2S} {r : Chain × Nat → MasterDriver × List Event}
    (hq : s.QuietBelow)
    (he : ∀ x ∈ s.chains.zipIdx, mdEmit drive x.2 x.1.md = .ok (e x))
    (hw : ∀ x ∈ s.chains.zipIdx, Presentable x.1 (e x).2)
    (h1 : ∃ p, ∀ x ∈ s.chains.zipIdx, x.2 ≠ p → (e x).2.req = none)
    (hr : ∀ x ∈ s.chains.zipIdx, mdReceive x.1.cfg.cancelAddrOnError x.2 (e x).1
      (onPort x.1.cfg.grantWire (replyAt reply x.2 (e x).1 ⟨.success, none, true⟩)) = .ok (r x)) :
    ∃ stages outs, cycle drive reply s = .ok
        { s with
          chains := s.chains.zipIdx.map fun x =>
            quietChain x.1 (e x).2 { (r x).1 with phase := .tickExtra }
          stages := stages
          slaves := outs
          cells := s.cells.map Flop.committed
          ret := .unit
          out := s.chains.zipIdx.flatMap fun x => (r x).2
          wires := s.chains.zipIdx.map fun x =>
            ⟨(e x).2, onPort x.1.cfg.grantWire (replyAt reply x.2 (e x).1 ⟨.success, none, true⟩),
              x.1.dec.dataRoute⟩ } ∧
      outs.map Slave.handler = s.slaves.map Slave.handler ∧
      outs.map Slave.cfg = s.slaves.map Slave.cfg ∧
      stages.map Stage.cfg = s.stages.map Stage.cfg ∧
      ((∀ x ∈ s.chains.zipIdx, (e x).2.req = none) → stages = s.stages ∧ outs = s.slaves) := by
  obtain ⟨hc, hst, hsl, hcells⟩ := hq
  have hc' : ∀ x ∈ s.chains.zipIdx, x.1.quietBelow = true := fun x hx =>
    hc _ (List.fst_mem_of_mem_zipIdx hx)
  let lanes := s.chains.zipIdx.map fun x => quietLane x.1 (e x).1 (e x).2
  have hdown : chainsDown drive s.chains = .ok lanes := quiet_down hc he hw
  obtain ⟨p, hp⟩ := h1
  -- the one target
  obtain ⟨tgt, htgt, hnone⟩ : ∃ tgt, OneTarget lanes tgt ∧
      ((∀ x ∈ s.chains.zipIdx, (e x).2.req = none) → tgt = none) := by
    have hbare : ∀ x ∈ s.chains.zipIdx, Bare (quietLow x.1 (e x).2) := fun x hx =>
      ⟨(quietLow_spec (hw x hx)).1, (quietLow_spec (hw x hx)).2.1⟩
    by_cases hall : ∀ x ∈ s.chains.zipIdx, (e x).2.req = none
    · refine ⟨none, fun l hl => ?_, fun _ => rfl⟩
      obtain ⟨x, hx, rfl⟩ := List.mem_map.1 hl
      exact ⟨hbare x hx, fun k hk => absurd (quietLow_none (hw x hx) (hall x hx)) hk⟩
    · cases hcp : s.chains[p]? with
      | none =>
        exfalso
        apply hall
        intro x hx
        refine hp x hx fun h => ?_
        have := List.mem_zipIdx_iff_getElem?.1 hx
        rw [h, hcp] at this
        simp at this
      | some c =>
        refine ⟨match (quietRoute c (e (c, p)).2).ar with
          | some (.port k) => (c.cfg.ports[k]?).map PortCfg.target
          | _ => none, fun l hl => ?_, fun h => absurd h hall⟩
        obtain ⟨x, hx, rfl⟩ := List.mem_map.1 hl
        refine ⟨hbare x hx, fun k hk ha => ?_⟩
        have hxp : x.2 = p := by
          by_contra hne
          exact hk (quietLow_none (hw x hx) (hp x hx hne))
        have hxc : x = (c, p) := by
          have := List.mem_zipIdx_iff_getElem?.1 hx
          rw [hxp, hcp] at this
          obtain ⟨a, b⟩ := x
          simp_all
        subst hxc
        have ha' : (quietRoute c (e (c, p)).2).ar = some (.port k) := ha
        rw [ha']
        rfl
  have hstages : mapE (fun x : Stage × Nat => stageStart lanes x.2 x.1) s.stages.zipIdx
      = .ok (quietStages lanes s.stages) :=
    mapE_of_ok fun x _ => stageStart_quiet htgt x.2 x.1
  let outs := s.slaves.zipIdx.map fun x : Slave × Nat =>
    (⟨⟨.success, none, true⟩,
      { x.1 with sd := ⟨(slaveWires lanes (quietStages lanes s.stages) x.2).req, none, .success⟩ },
      []⟩ : SlaveOut)
  have hslaves : mapE (fun x : Slave × Nat =>
      slaveCycle x.2 x.1 (slaveWires lanes (quietStages lanes s.stages) x.2)) s.slaves.zipIdx
      = .ok outs :=
    mapE_of_ok fun x hx => slaveCycle_quiet (hsl _ (List.fst_mem_of_mem_zipIdx hx))
      (slaveWires_bare htgt hst x.2)
  have hidle : ∀ o ∈ outs, o.resp = ⟨.success, none, true⟩ := by
    intro o ho
    obtain ⟨x, -, rfl⟩ := List.mem_map.1 ho
    rfl
  let dlane : Chain × Nat → Lane := fun x =>
    { quietLane x.1 (e x).1 (e x).2 with
      dsReply := ⟨.success, none, true⟩
      ds := ⟨(decFan (quietRoute x.1 (e x).2) (quietLow x.1 (e x).2) .dflt).req, none, .success⟩ }
  have hdflt : mapE laneDefault lanes = .ok (s.chains.zipIdx.map dlane) := by
    rw [mapE_map]
    refine mapE_of_ok fun x hx => ?_
    have hds : x.1.dec.ds.quiet = true := by
      rw [SlaveDriver.quiet_iff]
      exact (Chain.quietBelow_iff.1 (hc' x hx)).2.2.2.2.2
    have hb : Bare (decFan (quietRoute x.1 (e x).2) (quietLow x.1 (e x).2) .dflt) :=
      decFan_bare ⟨(quietLow_spec (hw x hx)).1, (quietLow_spec (hw x hx)).2.1⟩
    unfold laneDefault
    simp only [quietLane, defaultCycle_quiet hds hb, Except.map]
    rfl
  let ulane : Chain × Nat → Lane := fun x =>
    { dlane x with
      resp := ⟨.success, none, true⟩
      chain := quietChain x.1 (e x).2 (e x).1 }
  have hup : chainsUp reply (quietStages lanes s.stages) outs (s.chains.zipIdx.map dlane) =
      .ok (s.chains.zipIdx.map fun x =>
        { ulane x with
          resp := onPort x.1.cfg.grantWire (replyAt reply x.2 (e x).1 ⟨.success, none, true⟩)
          chain := quietChain x.1 (e x).2 (r x).1
          calls := (r x).2 }) := by
    unfold chainsUp
    let l0 : Chain × Nat → Lane := fun x =>
      { dlane x with
        resp := ⟨.success, none, true⟩
        chain := { x.1 with md := (e x).1, dec := quietDec x.1 (e x).2 } }
    have hdec : (s.chains.zipIdx.map dlane).map (laneDecUp (quietStages lanes s.stages) outs) =
        s.chains.zipIdx.map l0 := by
      rw [List.map_map]
      refine List.map_congr_left fun x hx => ?_
      have hpr := fun g => portReply_quiet (stages := quietStages lanes s.stages) (l := dlane x) hidle rfl g
      have hpg := fun g => portReply_granted htgt hst (l := dlane x) hidle rfl g
      have hreply : decReply (dlane x).route (portReply (quietStages lanes s.stages) outs (dlane x)) =
          ⟨.success, none, true⟩ := by
        unfold decReply
        rw [(hpr _).1, (hpr _).2]
        congr 1
        split
        · exact hpg _
        · rfl
      simp only [Function.comp, laneDecUp, hreply]
      rfl
    have hband : mapE laneBandUp (s.chains.zipIdx.map l0) =
        .ok (s.chains.zipIdx.map fun x =>
          { l0 x with chain := { (l0 x).chain with bb := quietBb x.1 (e x).2 } }) := by
      rw [mapE_map]
      exact mapE_of_ok fun x hx => laneBandUp_quiet (hc' x hx) rfl rfl rfl rfl
    have halign : mapE laneAlignUp (s.chains.zipIdx.map fun x =>
          { l0 x with chain := { (l0 x).chain with bb := quietBb x.1 (e x).2 } }) =
        .ok (s.chains.zipIdx.map ulane) := by
      rw [mapE_map]
      exact mapE_of_ok fun x hx => laneAlignUp_quiet (hc' x hx) rfl rfl rfl rfl
    rw [hdec]
    simp only [bind, Except.bind, hband, halign, zipIdx_map_zipIdx]
    rw [mapE_map]
    refine mapE_of_ok fun x hx => ?_
    unfold laneReceive
    have := hr x hx
    simp only [ulane, quietChain] at *
    simp only [this, Except.map]
  refine ⟨(quietStages lanes s.stages).map (stageFinish outs), outs.map SlaveOut.slave,
    cycle_eq_ok.2 ⟨_, _, _, _, _, s.chains.zipIdx.map fun x =>
      { ulane x with
        resp := onPort x.1.cfg.grantWire (replyAt reply x.2 (e x).1 ⟨.success, none, true⟩)
        chain := quietChain x.1 (e x).2 { (r x).1 with phase := .tickExtra }
        calls := (r x).2 }, s.cells.map Flop.committed,
      hdown, hstages, hslaves, hdflt, hup, ?_, ?_, ?_⟩, ?_, ?_, ?_, ?_⟩
  · rw [mapE_map]
    refine mapE_of_ok fun x hx => ?_
    obtain ⟨-, m, -, hm⟩ := mdReceive_eq_ok.1 (hr x hx)
    have : (r x).1.phase = .gotMessages := by rw [hm]
    simp [laneCommit, quietChain, mdCommit, this, Except.map]
  · exact mapE_of_ok fun c hcc => flopCommit_eq_ok.2 ⟨hcells c hcc, rfl⟩
  · have ho : outs.flatMap SlaveOut.calls = [] := by
      simp [outs, List.flatMap_map]
    simp only [ho, List.nil_append, List.map_map, List.flatMap_map]
    rfl
  · simp [outs, List.map_map, Function.comp_def]
    rw [show (fun x : Slave × Nat => x.1.handler) = Slave.handler ∘ Prod.fst from rfl,
      ← List.map_map, List.zipIdx_map_fst]
  · simp [outs, List.map_map, Function.comp_def]
    rw [show (fun x : Slave × Nat => x.1.cfg) = Slave.cfg ∘ Prod.fst from rfl,
      ← List.map_map, List.zipIdx_map_fst]
  · simp [quietStages, List.map_map, Function.comp_def, stageFinish, stageNext]
    rw [show (fun x : Stage × Nat => x.1.cfg) = Stage.cfg ∘ Prod.fst from rfl,
      ← List.map_map, List.zipIdx_map_fst]
  · intro hall
    have hn := hnone hall
    constructor
    · conv_rhs => rw [← List.zipIdx_map_fst 0 s.stages]
      simp only [quietStages, List.map_map]
      refine List.map_congr_left fun x hx => ?_
      obtain ⟨ha, hl⟩ := Stage.quiet_iff.1 (hst _ (List.fst_mem_of_mem_zipIdx hx))
      have hrt := stageRoute_quiet htgt x.2 (hst _ (List.fst_mem_of_mem_zipIdx hx))
      obtain ⟨⟨cfg, a, d, l, h⟩, o⟩ := x
      simp only at ha hl
      subst ha hl
      simp [stageFinish, stageNext, slaveReply_idle hidle, stageGranted, hrt.2.2.2 hn, hrt.2.1]
    · conv_rhs => rw [← List.zipIdx_map_fst 0 s.slaves]
      simp only [outs, List.map_map]
      refine List.map_congr_left fun x hx => ?_
      have hsd := SlaveDriver.quiet_iff.1 (hsl _ (List.fst_mem_of_mem_zipIdx hx))
      have hreq : (slaveWires lanes (quietStages lanes s.stages) x.2).req = none := by
        unfold slaveWires
        split
        · rename_i st hfind
          obtain ⟨y, hy, rfl⟩ := List.mem_map.1 (List.mem_of_find?_eq_some hfind)
          have hrt := stageRoute_quiet htgt y.2 (hst _ (List.fst_mem_of_mem_zipIdx hy))
          have hwn := hrt.2.2.2 hn
          show ((stageRoute y.1 (stageInputs lanes y.2 y.1)).w.bind _) = none
          rw [hwn]
          rfl
        · by_contra hne
          have := (sourceOf_spec htgt _).2 hne
          rw [hn] at this
          simp at this
      obtain ⟨⟨cfg, sd, h⟩, i⟩ := x
      simp only at hsd
      simp [hreq, hsd]

end Sys2Proof.Machine
end

