-- ==== Sys2Proof/Laws/Direct.lean ====
section
/-! SUPPORT. One cycle of the fabric of one master wired straight to one slave (R190). -/

namespace Sys2Proof.Machine

open Sys2Proof

/-- A fabric of one master and one slave, field by field. -/
def direct (cfg : MasterCfg) (md : MasterDriver) (al : Aligner) (bb : Translator) (dec : Decoder)
    (ucfg : SlaveCfg) (sd : SlaveDriver) (h : Handler) (cells : List Flop) (inbox : List Packet)
    (ret : Ret) (out : List Event) (wires : List PortWires) : State :=
  ⟨[⟨cfg, md, al, bb, dec⟩], [], [⟨ucfg, sd, h⟩], cells, inbox, ret, out, wires⟩

/-- Its lane within a cycle: the three wires are one. -/
def directLane (cfg : MasterCfg) (md : MasterDriver) (al : Aligner) (bb : Translator) (dec : Decoder)
    (w : M2S) (r : Route) (dr : S2M) (ds : SlaveDriver) (resp : S2M) (ev : List Event) : Lane :=
  { chain := ⟨cfg, md, al, bb, dec⟩, up := w, mid := w, low := w, route := r, dsReply := dr, ds := ds,
    resp := resp, calls := ev }

/-- The response at a port of its decoder: the slave's at port 0, the default slave's, or idle. -/
theorem direct_portReply {cfg : MasterCfg} {md al bb dec w r dr ds resp ev} {lo hi : Nat} {g : Bool}
    (hp : cfg.ports = [⟨lo, hi, .slave 0, g⟩]) {o : SlaveOut} (hg : o.resp.grant = true) (tag : Tag) :
    portReply [] [o] (directLane cfg md al bb dec w r dr ds resp ev) tag =
      match tag with
      | .dflt => dr
      | .port 0 => o.resp
      | .port _ => idleReply := by
  obtain ⟨⟨code, data, grant⟩, u, calls⟩ := o
  simp only at hg
  subst hg
  rcases tag with _ | _ | k
  · rfl
  · simp [directLane, portReply, hp, targetReply, slaveReply]
  · simp [directLane, portReply, hp]

/-- One cycle of it, from what each component does. -/
theorem direct_cycle (drive : Option (Nat × Drive))
    {cfg md al bb dec ucfg sd h cells inbox ret out wires} {lo hi : Nat} {g : Bool}
    (ha : cfg.aligner = none) (hb : cfg.bitband = none) (hp : cfg.ports = [⟨lo, hi, .slave 0, g⟩])
    {md1 : MasterDriver} {w : M2S} (h1 : mdEmit drive 0 md = .ok (md1, w))
    {r : Route} (h2 : decDown cfg dec w = .ok r)
    {o : SlaveOut} (h3 : slaveCycle 0 ⟨ucfg, sd, h⟩ (decFan r w (.port 0)) = .ok o)
    {dr : S2M} {ds : SlaveDriver} (h4 : defaultCycle cfg.mock dec.ds (decFan r w .dflt) = .ok (dr, ds))
    (hg : o.resp.grant = true) (hgd : dr.grant = true)
    {resp : S2M} (hres : resp = match r.dr with
      | .dflt => dr
      | .port 0 => o.resp
      | .port _ => idleReply)
    (hr : ∀ k, r.ar = some (.port k) → k = 0)
    {md2 : MasterDriver} {ev : List Event}
    (h5 : mdReceive cfg.cancelAddrOnError 0 md1 ⟨resp.code, resp.data, true⟩ = .ok (md2, ev))
    (hcell : ∀ x ∈ cells, x.cur = none ∧ x.next = none) :
    cycle drive none (direct cfg md al bb dec ucfg sd h cells inbox ret out wires) =
      .ok (direct cfg { md2 with phase := .tickExtra } al bb (decNext dec r w resp.code ds) ucfg
        o.slave.sd o.slave.handler (cells.map Flop.committed) inbox .unit (o.calls ++ ev)
        [⟨w, ⟨resp.code, resp.data, true⟩, r.dr⟩]) := by
  have hsl : o.slave.cfg = ucfg := by
    obtain ⟨ds', a, -, -, -, rfl⟩ := slaveCycle_spec h3
    rfl
  have hph : md2.phase = .gotMessages := by
    obtain ⟨-, m, -, rfl⟩ := mdReceive_eq_ok.1 h5
    rfl
  have hcells : mapE flopCommit cells = .ok (cells.map Flop.committed) :=
    mapE_of_ok fun c hcc => flopCommit_eq_ok.2 ⟨by simp [Flop.committable, hcell c hcc], rfl⟩
  have hdown : chainsDown drive [⟨cfg, md, al, bb, dec⟩] =
      .ok [directLane cfg md1 al bb dec w r idleReply dec.ds idleReply []] := by
    simp [chainsDown, mapE, bind, Except.bind, laneStart, h1, Except.map, laneAlign, alignerDown, ha,
      laneBand, bitbandDown, hb, laneRoute, h2, directLane]
  have hsw : slaveWires [directLane cfg md1 al bb dec w r idleReply dec.ds idleReply []] [] 0 =
      decFan r w (.port 0) := by
    simp [slaveWires, sourceOf, laneSource, hp, directLane]
  have hrep : decReply r (portReply [] [o] (directLane cfg md1 al bb dec w r dr ds idleReply [])) =
      ⟨resp.code, resp.data, true⟩ := by
    unfold decReply
    rw [direct_portReply hp hg, hres]
    congr 1
    split
    · rename_i tag htag
      rw [direct_portReply hp hg]
      cases tag with
      | dflt => exact hgd
      | port k => rw [hr k htag]; exact hg
    · rfl
  have k3 : mapE (fun x : Slave × Nat => slaveCycle x.2 x.1 (slaveWires
      [directLane cfg md1 al bb dec w r idleReply dec.ds idleReply []] [] x.2))
      ([⟨ucfg, sd, h⟩] : List Slave).zipIdx = .ok [o] := by
    simp only [mapE, List.zipIdx, hsw, h3]
  have k4 : mapE laneDefault [directLane cfg md1 al bb dec w r idleReply dec.ds idleReply []] =
      .ok [directLane cfg md1 al bb dec w r dr ds idleReply []] := by
    simp only [mapE, laneDefault, directLane, h4, Except.map]
  have k5 : chainsUp none [] [o] [directLane cfg md1 al bb dec w r dr ds idleReply []] =
      .ok [directLane cfg md2 al bb (decNext dec r w resp.code ds) w r dr ds
        ⟨resp.code, resp.data, true⟩ ev] := by
    simp only [chainsUp, mapE, List.map, laneDecUp]
    rw [show (directLane cfg md1 al bb dec w r dr ds idleReply []).route = r from rfl, hrep]
    simp only [directLane, laneBandUp, laneAlignUp, bitbandUp, alignerUp, ha, hb, bind, Except.bind,
      Except.map, List.zipIdx, mapE, laneReceive, replyAt, onPort_granted, h5]
  have k6 : mapE laneCommit [directLane cfg md2 al bb (decNext dec r w resp.code ds) w r dr ds
      ⟨resp.code, resp.data, true⟩ ev] = .ok [directLane cfg { md2 with phase := .tickExtra } al bb
        (decNext dec r w resp.code ds) w r dr ds ⟨resp.code, resp.data, true⟩ ev] := by
    simp only [mapE, laneCommit, directLane, mdCommit, hph, if_true, Except.map]
  refine cycle_eq_ok.2 ⟨_, [], _, _, _, _, _, hdown, rfl, k3, k4, k5, k6, hcells, ?_⟩
  simp [direct, directLane, laneWires, ← hsl]

end Sys2Proof.Machine
end

