-- ==== Sys2Proof/Laws/Drivers.lean ====
section
/-! SUPPORT. What a quiet Master Driver emits and receives, and what an idle cycle leaves of a quiet chain. -/

namespace Sys2Proof.Machine

open Sys2Proof

/-- A quiet driver, field by field. -/
theorem mdQuiet_iff {md : MasterDriver} : md.quiet = true ↔
    ∃ w c, md = ⟨none, none, w, c, .success, true, .tickExtra⟩ := by
  obtain ⟨a, d, w, c, l, g, p⟩ := md
  simp [MasterDriver.quiet]
  constructor
  · rintro ⟨⟨⟨⟨rfl, rfl⟩, rfl⟩, rfl⟩, rfl⟩; simp
  · rintro ⟨rfl, rfl, rfl, rfl, rfl⟩; simp

/-- A quiet driver on whose port nothing is put emits `IDLE` (R153). -/
theorem emit_quiet {drive : Option (Nat × Drive)} {q : Nat} {md : MasterDriver} (h : md.quiet = true)
    (hd : ∀ p d, drive = some (p, d) → p ≠ q) :
    mdEmit drive q md = .ok ({ md with phase := .sentMessages }, ⟨none, true, none⟩) := by
  obtain ⟨w, c, rfl⟩ := mdQuiet_iff.1 h
  have : mdDispatch ⟨none, none, w, c, .success, true, .tickExtra⟩ =
      .ok (⟨none, none, w, c, .success, true, .sentMessages⟩, ⟨none, true, none⟩) := rfl
  unfold mdEmit
  split
  · rename_i p d
    rw [if_neg (hd _ _ rfl)]
    exact this
  · exact this

/-- A quiet driver emits the command put on its port (log 4). -/
theorem emit_drive {q : Nat} {md : MasterDriver} {req ready v} (h : md.quiet = true)
    (hb : ∀ x, req = some x → x.burst = .single) :
    mdEmit (some (q, ⟨req, ready, ⟨false, v⟩⟩)) q md =
      .ok ({ md with addrSlot := req.map fun t => (t, .fresh), phase := .sentMessages }, ⟨req, ready, none⟩) := by
  obtain ⟨w, c, rfl⟩ := mdQuiet_iff.1 h
  simp only [mdEmit, if_true, mdDrive, refuseBurst_of_single hb, adoptData, mdDispatch, mdPayload]
  cases req <;> simp [adoptAddr, phaseSent]

/-- A quiet driver receives the idle response (R162). -/
theorem recv_quiet {b : Bool} {q : Nat} {md : MasterDriver} (h : md.quiet = true) :
    mdReceive b q { md with phase := .sentMessages } ⟨.success, none, true⟩ =
      .ok ({ md with phase := .gotMessages }, []) := by
  obtain ⟨w, c, rfl⟩ := mdQuiet_iff.1 h
  rfl

/-- A driver that presented a transfer receives the idle response: the transfer is accepted (R160). -/
theorem recv_drive {b : Bool} {q : Nat} {md : MasterDriver} {x} (h : md.quiet = true) :
    mdReceive b q { md with addrSlot := some (x, .fresh), phase := .sentMessages } ⟨.success, none, true⟩ =
      .ok ({ md with dataSlot := some x, phase := .gotMessages }, []) := by
  obtain ⟨w, c, rfl⟩ := mdQuiet_iff.1 h
  rfl

/-- A quiet fabric is at a cycle boundary. -/
theorem boundary_of_quiet {s : State} (h : s.Quiet) :
    (s.chains.all fun c => c.md.phase == .tickExtra) = true := by
  rw [List.all_eq_true]
  intro c hc
  obtain ⟨w, c, h⟩ := mdQuiet_iff.1 (h.2 c hc)
  rw [h]; rfl

/-- A chain that carried nothing is as it was. -/
theorem quietChain_idle {c : Chain} {w : M2S} {md : MasterDriver} (hq : c.quietBelow = true)
    (hw : Presentable c w) (hr : w.req = none) :
    quietChain c w md = { c with md := md } := by
  obtain ⟨hal, hbb, har, ham, hlc, hds⟩ := Chain.quietBelow_iff.1 hq
  have hlow := quietLow_none hw hr
  have hmid := (quietMid_spec hw).2.2.2 hr
  obtain ⟨cfg, md0, al, bb, ⟨ar, am, dr, lc, ds⟩⟩ := c
  simp only at hal hbb har ham hlc hds
  subst hal hbb har ham hlc hds
  simp only [quietChain, quietAl, quietBb, quietDec, quietRoute, hlow]
  congr 1
  · split
    · rfl
    · simp [alFresh, hr, Aligner.reset]
  · split
    · rfl
    · simp only [bbEntry]; rw [hmid]; rfl

/-- A list function that fails at one element alone fails with its fault. -/
theorem mapE_error {α β : Type} {f : α → Except Fault β} {l : List α} {e : Fault} {a : α}
    (ha : a ∈ l) (he : f a = .error e) (hall : ∀ x ∈ l, (∃ b, f x = .ok b) ∨ f x = .error e) : mapE f l = .error e := by
  induction l with
  | nil => simp at ha
  | cons x l ih =>
    rcases hall x (by simp) with ⟨b, hb⟩ | hb
    · have : a ∈ l := by
        rcases List.mem_cons.1 ha with rfl | h
        · rw [hb] at he; simp at he
        · exact h
      simp [mapE, hb, ih this fun y hy => hall y (by simp [hy])]
    · simp [mapE, hb]

/-- An indexed map that changes one place. -/
theorem getElem?_zipIdx_set {s : State} {p : Nat} {c : Chain} (hc : s.chains[p]? = some c)
    (f : Chain × Nat → Chain) (h : ∀ x ∈ s.chains.zipIdx, x.2 ≠ p → f x = x.1) :
    s.chains.zipIdx.map f = s.chains.set p (f (c, p)) := by
  apply List.ext_getElem?
  intro i
  rw [List.getElem?_map, List.getElem?_zipIdx, List.getElem?_set]
  by_cases hi : p = i
  · subst hi; simp [hc]; exact (List.getElem?_eq_some_iff.1 hc).1
  · rw [if_neg hi]
    cases hx : s.chains[i]? with
    | none => rfl
    | some x => simp; exact h (x, i) (by rw [List.mem_zipIdx_iff_getElem?]; simpa using hx) (fun h => hi h.symm)

/-- The slot and phase after a response, for the four codes (R160, R161). -/
theorem answered_eq {md m : MasterDriver} {ds wd cn} {code : Code} {grant : Bool} (b : Bool)
    (ha : m.addrSlot = md.addrSlot) (h1 : m.dataSlot = ds) (h2 : m.wdata = wd) (h3 : m.cancelled = cn)
    (hb : b = false ∨ md.addrSlot = none ∨ code ≠ .error1) :
    mdCommit { mdAdvance b m code grant with lastCode := code, lastGrant := grant, phase := .gotMessages } =
      .ok (md.answered ds wd cn code grant) := by
  subst h1 h2 h3
  unfold mdCommit
  simp only [if_true, Except.ok.injEq]
  unfold mdAdvance MasterDriver.answered
  rw [ha]
  cases hm : md.addrSlot with
  | none => simp [hm, ha]
  | some x =>
    obtain ⟨a, h⟩ := x
    rcases hb with rfl | hb | hb
    · cases code <;> cases grant <;> simp [acceptedBy, holdMark]
    · simp [hm] at hb
    · cases code <;> cases grant <;> cases b <;> simp_all [acceptedBy, holdMark]

end Sys2Proof.Machine
end

