-- ==== Sys2Proof/Laws/Encoding.lean ====
section
/-! SUPPORT. The fields of the words that the encoder writes, read back one by one. -/

namespace Sys2Proof.Machine

open Sys2Proof

/-- A transfer takes 40 bits (R77). -/
theorem meta_lt (t : TransferMeta) : t.bits < 2 ^ 40 := by
  have h1 : t.dir.bits < 2 := by cases t.dir <;> decide
  have h2 : t.size.bits < 3 := by cases t.size <;> decide
  have h3 : t.burst.bits < 2 := by cases t.burst <;> decide
  have h4 := t.prot.isLt
  have h5 := t.addr.isLt
  unfold TransferMeta.bits; omega

/-- A data-phase word takes 33 bits (R78). -/
theorem dp_lt (d : DataWord) : d.bits < 2 ^ 33 := by
  have h1 : d.present.toNat < 2 := by cases d.present <;> decide
  have := d.value.isLt
  unfold DataWord.bits; omega

/-- The fields of a transfer read back (R77). -/
theorem metaOfBits_bits (t : TransferMeta) : metaOfBits t.bits = .ok t := by
  obtain ⟨dir, addr, size, burst, prot⟩ := t
  have h4 := prot.isLt
  have h5 := addr.isLt
  have e0 : field (TransferMeta.bits ⟨dir, addr, size, burst, prot⟩) 0 1 = dir.bits := by
    cases dir <;> simp only [field, TransferMeta.bits, Dir.bits] <;> omega
  have e1 : field (TransferMeta.bits ⟨dir, addr, size, burst, prot⟩) 1 2 = size.bits := by
    cases dir <;> cases size <;> simp only [field, TransferMeta.bits, Dir.bits, Size.bits] <;> omega
  have e2 : field (TransferMeta.bits ⟨dir, addr, size, burst, prot⟩) 3 1 = burst.bits := by
    cases dir <;> cases size <;> cases burst <;> simp only [field, TransferMeta.bits, Dir.bits, Size.bits, Burst.bits] <;> omega
  have e3 : field (TransferMeta.bits ⟨dir, addr, size, burst, prot⟩) 4 4 = prot.toNat := by
    cases dir <;> cases size <;> cases burst <;> simp only [field, TransferMeta.bits, Dir.bits, Size.bits, Burst.bits] <;> omega
  have e4 : field (TransferMeta.bits ⟨dir, addr, size, burst, prot⟩) 8 32 = addr.toNat := by
    cases dir <;> cases size <;> cases burst <;> simp only [field, TransferMeta.bits, Dir.bits, Size.bits, Burst.bits] <;> omega
  unfold metaOfBits
  simp only [flag, e0, e1, e2, e3, e4, BitVec.ofNat_toNat]
  cases dir <;> cases size <;> cases burst <;> simp [sizeOfCode, Size.bits, dirOfBit, burstOfBit, Dir.bits, Burst.bits, Except.map]

/-- The fields of a data-phase word read back (R78). -/
theorem dp_bits (d : DataWord) : dataWordOfBits d.bits = d := by
  obtain ⟨pr, v⟩ := d
  have := v.isLt
  have e0 : field (DataWord.bits ⟨pr, v⟩) 0 1 = pr.toNat := by
    have : pr.toNat < 2 := by cases pr <;> decide
    simp only [field, DataWord.bits]; omega
  have e1 : field (DataWord.bits ⟨pr, v⟩) 1 32 = v.toNat := by
    have : pr.toNat < 2 := by cases pr <;> decide
    simp only [field, DataWord.bits]; omega
  simp only [dataWordOfBits, flag, e0, e1, BitVec.ofNat_toNat]
  cases pr <;> simp

/-- A number is below the power of 256 that its bytes make, if the fuel is enough. -/
theorem lt_byteCount {fuel n : Nat} (h : n ≤ fuel) : n < 256 ^ byteCount fuel n := by
  induction fuel generalizing n with
  | zero => simp [byteCount]; omega
  | succ fuel ih =>
    by_cases hn : n = 0
    · simp [byteCount, hn]
    · rw [byteCount, if_neg hn, Nat.pow_succ]
      have := ih (n := n / 256) (by omega)
      omega

/-- It needs no fewer. -/
theorem byteCount_le {fuel n k : Nat} (h : n ≤ fuel) (hk : n < 256 ^ k) : byteCount fuel n ≤ k := by
  induction fuel generalizing n k with
  | zero => simp [byteCount]
  | succ fuel ih =>
    by_cases hn : n = 0
    · simp [byteCount, hn]
    · rw [byteCount, if_neg hn]
      cases k with
      | zero => simp at hk; omega
      | succ k =>
        rw [Nat.pow_succ] at hk
        have := ih (n := n / 256) (k := k) (by omega) (by omega)
        omega

/-- The kinds of packet that have one length. -/
theorem lengthFor_of_ne {fmt : Format} (h : fmt ≠ .call) (w : Nat) : fmt.lengthFor w = fmt.length := by
  cases fmt <;> simp_all [Format.lengthFor]

/-- A word fits in the packet around it. -/
theorem lt_lengthFor {fmt : Format} {w : Nat} (h : fmt = .call ∨ w < 256 ^ fmt.length) :
    w < 256 ^ fmt.lengthFor w := by
  by_cases hc : fmt = .call
  · subst hc
    exact Nat.lt_of_lt_of_le (lt_byteCount (Nat.le_refl w))
      (Nat.pow_le_pow_right (by decide) (Nat.le_max_right _ _))
  · rw [lengthFor_of_ne hc]
    exact h.resolve_left hc

/-- The last of the bytes of a number is its highest digit. -/
theorem bytesOfNat_getLast (k n : Nat) :
    (bytesOfNat (k + 1) n).getLast? = some (BitVec.ofNat 8 (n / 256 ^ k)) := by
  induction k generalizing n with
  | zero => simp [bytesOfNat]
  | succ k ih =>
    have h : bytesOfNat (k + 1 + 1) n = BitVec.ofNat 8 n :: bytesOfNat (k + 1) (n / 256) := rfl
    have hne : bytesOfNat (k + 1) (n / 256) ≠ [] := by simp [bytesOfNat]
    rw [h, List.getLast?_cons, ih, Nat.div_div_eq_div_mul, Nat.pow_succ, Nat.mul_comm]
    simp

/-- The packet around a word has a length its kind admits. -/
theorem admits_packetOf (fmt : Format) (p w : Nat) : fmt.admits (packetOf fmt p w).bytes = true := by
  unfold Format.admits packetOf
  simp only [bytesOfNat_length]
  by_cases hc : fmt = .call
  · subst hc
    by_cases h : byteCount w w ≤ 16
    · simp [Format.lengthFor, Format.length, Nat.max_eq_left h]
    · obtain ⟨k, hk⟩ : ∃ k, byteCount w w = k + 1 := ⟨byteCount w w - 1, by omega⟩
      have e : Format.call.lengthFor w = k + 1 := by
        simp only [Format.lengthFor, Format.length]; omega
      have h1 := lt_byteCount (Nat.le_refl w)
      have h2 : ¬ w < 256 ^ k := fun hlt => by
        have := byteCount_le (Nat.le_refl w) hlt
        omega
      rw [hk, Nat.pow_succ] at h1
      have h3 : 0 < w / 256 ^ k := Nat.div_pos (by omega) (by positivity)
      have h4 : w / 256 ^ k < 256 := Nat.div_lt_of_lt_mul (by omega)
      have h5 : BitVec.ofNat 8 (w / 256 ^ k) ≠ 0 := by
        intro he
        have := congrArg BitVec.toNat he
        rw [BitVec.toNat_ofNat, Nat.mod_eq_of_lt (by simpa using h4)] at this
        simp at this
        omega
      rw [e, bytesOfNat_getLast]
      have h6 : Format.call.length < k + 1 := by simp only [Format.length]; omega
      have h7 : (some (BitVec.ofNat 8 (w / 256 ^ k)) != some 0) = true := by
        rw [bne_iff_ne]
        exact fun e => h5 (Option.some.inj e)
      rw [h7, decide_eq_true h6]
      simp
  · simp [lengthFor_of_ne hc]

/-- Decoding a packet around a word decodes the word. -/
theorem decode_packetOf (fmt : Format) (p w : Nat) (h : fmt = .call ∨ w < 256 ^ fmt.length) :
    decode (packetOf fmt p w) = match fmt with
    | .addressPhase => decodeAddressPhase p w
    | .response => decodeResponse p w
    | .grantWire => decodeGrantWire p w
    | .call => decodeCall p w := by
  have ha := admits_packetOf fmt p w
  have hw := lt_lengthFor h
  simp only [decode, packetOf, natOfBytes_bytesOfNat, Nat.mod_eq_of_lt hw] at ha ⊢
  cases fmt <;> simp [ha]

/-- An instruction that passes the checks is accepted. -/
theorem ifWf_of_wf {i : Instr} (h : i.wf = true) : ifWf i = .ok i := by
  simp [ifWf, h]

/-- The checks of a bus command are those of the payload beside it. -/
theorem busCommand_wf (p : Nat) (r : Bool) (t : TransferMeta) (dp : DataWord) :
    (busCommand p r t dp).wf = dp.wf := by
  obtain ⟨dir, addr, size, burst, prot⟩ := t
  cases dir <;> cases size <;> rfl

/-- The bus commands read back. -/
theorem decode_bus (p : Nat) (r : Bool) (t : TransferMeta) (dp : DataWord) (hd : dp.wf = true) :
    decode (encodeBus p r t dp) = .ok (busCommand p r t dp) := by
  have h1 := meta_lt t
  have h2 := dp_lt dp
  have hr : r.toNat < 2 := by cases r <;> decide
  have hw : apwOf r t + 2 ^ 48 * dp.bits < 256 ^ Format.addressPhase.length := by
    simp only [apwOf, Format.length]; omega
  rw [encodeBus, decode_packetOf _ _ _ (.inr hw)]
  simp only [decodeAddressPhase]
  have f1 : field (apwOf r t + 2 ^ 48 * dp.bits) 42 6 = 0 := by simp only [field, apwOf]; omega
  have f2 : field (apwOf r t + 2 ^ 48 * dp.bits) 81 7 = 0 := by simp only [field, apwOf]; omega
  have f3 : field (apwOf r t + 2 ^ 48 * dp.bits) 0 1 = 1 := by simp only [field, apwOf]; omega
  have f4 : field (apwOf r t + 2 ^ 48 * dp.bits) 2 40 = t.bits := by simp only [field, apwOf]; omega
  have f5 : field (apwOf r t + 2 ^ 48 * dp.bits) 48 33 = dp.bits := by simp only [field, apwOf]; omega
  have f6 : field (apwOf r t + 2 ^ 48 * dp.bits) 1 1 = r.toNat := by simp only [field, apwOf]; omega
  simp only [flag, f1, f2, f3, f4, f5, f6, metaOfBits_bits, dp_bits, Except.bind]
  cases r <;> simp [ifWf_of_wf, busCommand_wf, hd]

/-- The fields of a response word read back (R79). -/
theorem decode_rsw (c : Code) (g : Bool) (d : DataWord) :
    field (rswOf c g d) 36 4 = 0 ∧ field (rswOf c g d) 0 2 = c.bits ∧ field (rswOf c g d) 2 1 = g.toNat ∧
    field (rswOf c g d) 3 33 = d.bits ∧ rswOf c g d < 256 ^ 5 := by
  have h2 := dp_lt d
  have hr : g.toNat < 2 := by cases g <;> decide
  have hc : c.bits < 4 := by cases c <;> decide
  refine ⟨?_, ?_, ?_, ?_, ?_⟩ <;> simp only [field, rswOf] <;> omega

/-- Decoding an interface operation reads its tag and operands. -/
theorem decode_call (p tag r : Nat) :
    decode (encodeCall p tag r) = decodeCall p (tag + 256 * r) := by
  rw [encodeCall, decode_packetOf _ _ _ (.inl rfl)]

/-- The tag of an interface operation. -/
theorem call_mod (tag r : Nat) (ht : tag < 256) : (tag + 256 * r) % 256 = tag := by omega

/-- The operands of an interface operation. -/
theorem call_div (tag r : Nat) (ht : tag < 256) : (tag + 256 * r) / 256 = r := by omega

/-- The size field reads back. -/
theorem sizeOfCode_bits (z : Size) : sizeOfCode z.bits = .ok z := by cases z <;> rfl

end Sys2Proof.Machine
end

