-- ==== Sys2Proof/Laws/History.lean ====
section
/-! SUPPORT. What one instruction, one step and one cycle did to each unit, read back from their result. -/

namespace Sys2Proof.Machine

open Sys2Proof

/-- Replacing an element keeps a projection that agrees on it. -/
theorem set_map_same {α β} (l : List α) (p : Nat) (c c' : α) (f : α → β) (h : l[p]? = some c)
    (hf : f c' = f c) : (l.set p c').map f = l.map f := by
  apply List.ext_getElem? 
  intro i
  rw [List.map_set, List.getElem?_set]
  split
  · subst_vars
    have := (List.getElem?_eq_some_iff.1 h).1
    have h' := (List.getElem?_eq_some_iff.1 h).2
    simp [this, hf, h']
  · rfl

/-- The instructions that take a cycle run one, with what they put on a port; `commit` inside a cycle is
the commit edge (log 17). -/
theorem takes_cycle {s t : State} {i : Instr} (hi : takesCycle i = true) (h : exec i s = .next t) :
    (∃ d r, cycle d r s = .ok t ∧ d = commandOf i ∧ r = responseOf i) ∨
      (i = .commit ∧ commitEdge s = .ok t ∧ ¬ s.atBoundary) := by
  cases i <;> simp [takesCycle, commandOf, responseOf] at hi <;> simp only [exec] at h
  case commit =>
    simp only [execCommit, ofExcept_eq_next, clock] at h
    split at h
    · left; exact ⟨none, none, h, rfl, rfl⟩
    · right; refine ⟨rfl, h, ?_⟩
      rename_i hn
      intro hb; apply hn; rw [List.all_eq_true]; intro c hc; simp [hb c hc]
  case success => left; exact (respond_eq_next.1 h).elim fun _ x => ⟨_, _, x.2.2, rfl, rfl⟩
  case pending => left; exact (respond_eq_next.1 h).elim fun _ x => ⟨_, _, x.2.2, rfl, rfl⟩
  case error1 => left; exact (respond_eq_next.1 h).elim fun _ x => ⟨_, _, x.2.2, rfl, rfl⟩
  case error2 => left; exact (respond_eq_next.1 h).elim fun _ x => ⟨_, _, x.2.2, rfl, rfl⟩
  case grant => left; exact (respond_eq_next.1 h).elim fun _ x => ⟨_, _, x.2.2, rfl, rfl⟩
  case deny => left; exact (respond_eq_next.1 h).elim fun _ x => ⟨_, _, x.2.2, rfl, rfl⟩
  all_goals left; exact (present_eq_next.1 h).elim fun _ x => ⟨_, _, x.2.2, rfl, rfl⟩

/-- A step that answers next ran an instruction, on the state with another inbox. -/
theorem step_exec {s t : State} (h : step s = .next t) :
    ∃ i inbox, exec i { s with inbox := inbox } = .next t := by
  obtain ⟨ch, st, sl, ce, inbox, r, o, w⟩ := s
  cases inbox with
  | nil => exact ⟨.commit, [], h⟩
  | cons k rest =>
    simp only [step, runNext, runPacket] at h
    cases hd : Sys2Proof.decode k with
    | error e => simp [hd] at h
    | ok i => exact ⟨i, rest, by simpa [hd] using h⟩

/-- An element of a mapped list came from the element at its place. -/
theorem mapE_get {α β : Type} {f : α → Except Fault β} {l : List α} {l' : List β} (h : mapE f l = .ok l')
    (k : Nat) (b : β) (hb : l'[k]? = some b) :
    ∃ a, l[k]? = some a ∧ f a = .ok b := by
  induction l generalizing l' k with
  | nil => simp [mapE] at h; subst h; simp at hb
  | cons x xs ih =>
    simp only [mapE] at h
    cases hx : f x with
    | error e => simp [hx] at h
    | ok y =>
      cases hxs : mapE f xs with
      | error e => simp [hx, hxs] at h
      | ok ys =>
        simp [hx, hxs] at h
        subst h
        cases k with
        | zero => simp at hb; subst hb; exact ⟨x, rfl, hx⟩
        | succ k => simpa using ih hxs k (by simpa using hb)

/-- An element of an indexed list. -/
theorem zip_get {α : Type} {l : List α} {k : Nat} {x : α × Nat} (h : l.zipIdx[k]? = some x) :
    l[k]? = some x.1 ∧ x.2 = k := by
  rw [List.getElem?_zipIdx] at h
  simp only [Option.map_eq_some_iff] at h
  obtain ⟨a, h1, rfl⟩ := h
  exact ⟨h1, by simp⟩

/-- What the downstream pass did to one chain. -/
theorem down_get {d} {chains : List Chain} {lanes : List Lane} (h : chainsDown d chains = .ok lanes)
    {k : Nat} {l : Lane} (hl : lanes[k]? = some l) :
    ∃ c md w mid low route, chains[k]? = some c ∧ mdEmit d k c.md = .ok (md, w) ∧
      alignerDown c.cfg.aligner c.al w = .ok mid ∧ bitbandDown c.cfg.bitband c.bb mid = .ok low ∧
      decDown c.cfg c.dec low = .ok route ∧
      l = { chain := { c with md := md }, up := w, mid := mid, low := low, route := route,
            dsReply := idleReply, ds := c.dec.ds, resp := idleReply, calls := [] } := by
  simp only [chainsDown, except_bind_eq_ok] at h
  obtain ⟨d1, f1, d2, f2, d3, f3, f4⟩ := h
  obtain ⟨m3, hm3, f4⟩ := mapE_get f4 k _ hl
  obtain ⟨m2, hm2, f3⟩ := mapE_get f3 k _ hm3
  obtain ⟨m1, hm1, f2⟩ := mapE_get f2 k _ hm2
  obtain ⟨x, hm0, f1⟩ := mapE_get f1 k _ hm1
  obtain ⟨hx, hk⟩ := zip_get hm0
  rw [hk] at f1
  obtain ⟨md, w, q1, rfl⟩ := laneStart_spec f1
  obtain ⟨mid, q2, rfl⟩ := laneAlign_spec f2
  obtain ⟨low, q3, rfl⟩ := laneBand_spec f3
  obtain ⟨route, q4, rfl⟩ := laneRoute_spec f4
  exact ⟨x.1, md, w, mid, low, route, hx, q1, q2, q3, q4, rfl⟩

/-- What the upstream pass did to one chain. -/
theorem up_get {r} {stages outs} {ls lanes : List Lane} (h : chainsUp r stages outs ls = .ok lanes)
    {k : Nat} {l' : Lane} (hl : lanes[k]? = some l') :
    ∃ l dn bb up al md ev code, ls[k]? = some l ∧ 
      bitbandUp l.chain.cfg.bitband l.chain.cfg.bandWire l.chain.bb l.mid
        (decReply l.route (portReply stages outs l)) = .ok (dn, bb) ∧
      alignerUp l.chain.cfg.aligner l.chain.cfg.alignWire l.chain.al l.up dn = .ok (up, al) ∧
      mdReceive l.chain.cfg.cancelAddrOnError k l.chain.md
        (onPort l.chain.cfg.grantWire (replyAt r k l.chain.md up)) = .ok (md, ev) ∧
      l'.calls = ev ∧
      l'.chain = { cfg := l.chain.cfg, md := md, al := al, bb := bb,
                   dec := decNext l.chain.dec l.route l.low code l.ds } := by
  simp only [chainsUp, except_bind_eq_ok] at h
  obtain ⟨u1, g1, u2, g2, g3⟩ := h
  obtain ⟨x, hl4, e5⟩ := mapE_get g3 k _ hl
  obtain ⟨hx, hk⟩ := zip_get hl4
  rw [hk] at e5
  obtain ⟨l3, hl3, e4⟩ := mapE_get g2 k _ hx
  obtain ⟨l2, hl2, e3⟩ := mapE_get g1 k _ hl3
  simp only [List.getElem?_map, Option.map_eq_some_iff] at hl2
  obtain ⟨l1, hl1, hl2⟩ := hl2
  obtain ⟨dn, bb, q3, h3⟩ := laneBandUp_spec e3
  obtain ⟨up, al, q4, h4⟩ := laneAlignUp_spec e4
  obtain ⟨r, md, ev, q0, q5, rfl⟩ := laneReceive_spec e5
  subst hl2
  refine ⟨l1, dn, bb, up, al, md, ev, (decReply l1.route (portReply stages outs l1)).code, hl1, q3, ?_, ?_, rfl, ?_⟩
  · rw [h3] at q4; exact q4
  · rw [q0, h4, h3] at q5; exact q5
  · rw [h4, h3]; rfl

/-- What a whole cycle did to one chain. -/
theorem cycle_chain {d r} {s t : State} (h : cycle d r s = .ok t) {k : Nat} {c' : Chain}
    (hc : t.chains[k]? = some c') :
    ∃ c md w md' resp ev al bb, s.chains[k]? = some c ∧ mdEmit d k c.md = .ok (md, w) ∧
      mdReceive c.cfg.cancelAddrOnError k md resp = .ok (md', ev) ∧
      ∃ dn mid low route ds dsr code dn' up, alignerDown c.cfg.aligner c.al w = .ok mid ∧
        bitbandDown c.cfg.bitband c.bb mid = .ok low ∧
        decDown c.cfg c.dec low = .ok route ∧
        defaultCycle c.cfg.mock c.dec.ds (decFan route low .dflt) = .ok (dsr, ds) ∧
        bitbandUp c.cfg.bitband c.cfg.bandWire c.bb mid dn' = .ok (dn, bb) ∧
        alignerUp c.cfg.aligner c.cfg.alignWire c.al w dn = .ok (up, al) ∧
        resp = onPort c.cfg.grantWire (replyAt r k md up) ∧
        c' = { cfg := c.cfg, md := { md' with phase := .tickExtra }, al := al, bb := bb,
               dec := decNext c.dec route low code ds } := by
  obtain ⟨down, stages, outs, dflt, up, lanes, cells, h1, h2, h3, h4, h5, h6, h7, rfl⟩ := cycle_eq_ok.1 h
  simp only [List.getElem?_map, Option.map_eq_some_iff] at hc
  obtain ⟨l6, hl6, rfl⟩ := hc
  obtain ⟨l5, hl5, e6⟩ := mapE_get h6 k _ hl6
  obtain ⟨hph, rfl⟩ := laneCommit_spec e6
  obtain ⟨l, dn, bb, up, al, md', ev, code, hl, e1, e2, e3, e4, e5⟩ := up_get h5 hl5
  obtain ⟨l0, hl0, f⟩ := mapE_get h4 k _ hl
  obtain ⟨dsr, ds, q, rfl⟩ := laneDefault_spec f
  obtain ⟨c, md, w, mid, low, route, hc, g1, g2, g3, g4, rfl⟩ := down_get h1 hl0
  refine ⟨c, md, w, md', _, ev, al, bb, hc, g1, e3, dn, mid, low, route, ds, dsr, code, _, up, g2, g3, g4, q, e1, e2, rfl, ?_⟩
  simp only [e5]

/-- What the dispatch of a Master Driver leaves alone. -/
theorem md_emit_spec {d p md md' w} (h : mdEmit d p md = .ok (md', w)) :
    md'.dataSlot = md.dataSlot ∧ md'.lastCode = md.lastCode ∧
    (md'.wdata = md.wdata ∨ ∃ t v, md.dataSlot = some t ∧ t.dir = .write ∧ md'.wdata = some (wordData t.size v)) := by
  have disp : ∀ md md' w, mdDispatch md = .ok (md', w) → md' = { md with phase := phaseSent md.phase } := by
    intro md md' w h
    unfold mdDispatch at h
    split at h <;> simp at h
    obtain ⟨rfl, -⟩ := h; rfl
  have drv : ∀ d md md' w, mdDrive md d = .ok (md', w) →
    md'.dataSlot = md.dataSlot ∧ md'.lastCode = md.lastCode ∧
    (md'.wdata = md.wdata ∨ ∃ t v, md.dataSlot = some t ∧ t.dir = .write ∧ md'.wdata = some (wordData t.size v)) := by
    intro d md md' w h
    unfold mdDrive at h
    split at h; simp at h
    split at h; simp at h
    rename_i hd
    simp at h
    have := disp _ _ _ hd
    rw [← h.1, this]
    refine ⟨rfl, rfl, ?_⟩
    simp only [adoptData]
    split
    · split
      · rename_i t h1 h2 h3
        exact .inr ⟨t, _, by assumption, h3, rfl⟩
      · exact .inl rfl
    · exact .inl rfl
  unfold mdEmit at h
  split at h
  · split at h
    · exact drv _ _ _ _ h
    · rw [disp _ _ _ h]; exact ⟨rfl, rfl, .inl rfl⟩
  · rw [disp _ _ _ h]; exact ⟨rfl, rfl, .inl rfl⟩

/-- The code and phase of a driver after a response arrived. -/
theorem mdReceive_lastCode {b p md md' r ev} (h : mdReceive b p md r = .ok (md', ev)) :
    md'.lastCode = r.code ∧ md'.phase = .gotMessages := by
  obtain ⟨-, m, -, rfl⟩ := mdReceive_eq_ok.1 h
  exact ⟨rfl, rfl⟩

/-- `Error2` arrives exactly after `Error1` (R159). -/
theorem mdReceive_err {b p md md' r ev} (h : mdReceive b p md r = .ok (md', ev)) :
    r.code = .error2 ↔ md.lastCode = .error1 := by
  obtain ⟨hc, -⟩ := mdReceive_eq_ok.1 h
  unfold mdCheck at hc
  split at hc; simp at hc
  split at hc; simp at hc
  split at hc; simp at hc
  rename_i h1 h2 h3
  constructor
  · intro h; by_contra hne; exact h3 ⟨h, hne⟩
  · intro h; by_contra hne; exact h2 ⟨h, hne⟩

end Sys2Proof.Machine
end

