-- ==== Sys2Proof/Laws/Inputs.lean ====
section
/-! SUPPORT. What the inputs of a cycle come to (R18): no calls and no answers change nothing, one call
is the row of the table of that name, and with no inputs the step of the fabric is the clock's. -/

namespace Sys2Proof.Machine

open Sys2Proof

@[simp] theorem mdCalls_nil (mode : CancelMode) (md : MasterDriver) : mdCalls mode md [] = .ok ([], md) := rfl

@[simp] theorem Handler.offer_nil (h : Handler) : h.offer [] = h := by
  cases h <;> simp [Handler.offer]

/-- No answers offered: the slaves as they were. -/
theorem offerAnswers_nil (slaves : List Slave) : offerAnswers slaves [] = slaves := by
  simp only [offerAnswers, List.getElem?_nil, Option.getD_none, Handler.offer_nil]
  exact List.zipIdx_map_fst 0 slaves

/-- No calls: the chain as it was. -/
@[simp] theorem chainCalls_nil (p : Nat) (c : Chain) : chainCalls [] p c = .ok ([], c) := rfl

/-- An owner's one call is what the row of its name does to that Master Driver (R155 to R157). -/
theorem mdCall_tryRequest {p : Nat} {t : TransferMeta} {c : Chain} {r : Ret} {md : MasterDriver} {s : State}
    (hc : s.chains[p]? = some c) (h : mdCall c.cfg.cancelMode c.md (.tryRequest t) = .ok (r, md)) :
    exec (.tryRequest p t) s =
      .next { s with chains := s.chains.set p { c with md := md }, ret := r, out := [] } :=
  onMaster_eq_next.2 ⟨c, r, md, hc, h, rfl⟩

theorem mdCall_tryForceCancel {p : Nat} {c : Chain} {r : Ret} {md : MasterDriver} {s : State}
    (hc : s.chains[p]? = some c) (h : mdCall c.cfg.cancelMode c.md .tryForceCancel = .ok (r, md)) :
    exec (.tryForceCancel p) s =
      .next { s with chains := s.chains.set p { c with md := md }, ret := r, out := [] } :=
  onMaster_eq_next.2 ⟨c, r, md, hc, h, rfl⟩

theorem mdCall_provideData {p : Nat} {z : Size} {v : Word} {c : Chain} {r : Ret} {md : MasterDriver}
    {s : State} (hc : s.chains[p]? = some c)
    (h : mdCall c.cfg.cancelMode c.md (.provideData (wordData z v)) = .ok (r, md)) :
    exec (.provideData p z v) s =
      .next { s with chains := s.chains.set p { c with md := md }, ret := r, out := [] } :=
  onMaster_eq_next.2 ⟨c, r, md, hc, h, rfl⟩

/-- With no inputs the step of the fabric is the clock's tick from a cycle boundary (R18, R110). -/
theorem fabricStep_no_inputs {s : State} (h : s.atBoundary) :
    (fabricStep ⟨[], []⟩ s).map Prod.snd = clock s := by
  have hb : (s.chains.all fun c => c.md.phase == .tickExtra) = true := by
    rw [List.all_eq_true]
    intro c hc
    simp [h c hc]
  have ht : mapE (fun x : Chain × Nat => chainCalls [] x.2 x.1) s.chains.zipIdx =
      .ok (s.chains.zipIdx.map fun x => ([], x.1)) := mapE_of_ok fun x _ => rfl
  have e : (s.chains.zipIdx.map fun x : Chain × Nat => (([] : List Ret), x.1)).map Prod.snd = s.chains := by
    rw [List.map_map]
    exact List.zipIdx_map_fst 0 s.chains
  simp only [fabricStep, ht, bind, Except.bind, e, offerAnswers_nil, clock, hb, if_true]
  cases cycle none none s <;> rfl

/-- Such a step is the machine's own when no packet waits (R18, R322). -/
theorem step_eq_fabricStep {s : State} (h : s.atBoundary) (hi : s.inbox = []) :
    step s = ofExcept ((fabricStep ⟨[], []⟩ s).map Prod.snd) := by
  rw [fabricStep_no_inputs h]
  simp only [step, runNext, hi]

/-- Calls of one owner alone, in their order. -/
def callsAt (p : Nat) (l : List OwnerCall) : List (List OwnerCall) :=
  List.replicate p [] ++ [l]

theorem callsAt_getD (p q : Nat) (l : List OwnerCall) :
    ((callsAt p l)[q]?.getD []) = if q = p then l else [] := by
  unfold callsAt
  rcases Nat.lt_trichotomy q p with h | rfl | h
  · rw [List.getElem?_append_left (by simpa using h), if_neg (Nat.ne_of_lt h)]
    simp [h]
  · simp
  · rw [List.getElem?_append_right (by simp; omega), if_neg (Nat.ne_of_gt h)]
    have : 0 < q - p := Nat.sub_pos_of_lt h
    cases hq : q - p with
    | zero => omega
    | succ n => simp [hq]

/-- A step of the fabric with one call is the cycle from the chains that the row of the call leaves (R18,
R110). -/
theorem fabricStep_one_call {p : Nat} {k : OwnerCall} {c : Chain} {r : Ret} {md : MasterDriver} {s : State}
    (hc : s.chains[p]? = some c) (h : mdCall c.cfg.cancelMode c.md k = .ok (r, md)) :
    (fabricStep ⟨callsAt p [k], []⟩ s).map Prod.snd =
      cycle none none { s with chains := s.chains.set p { c with md := md } } := by
  let f : Chain × Nat → List Ret × Chain := fun x => if x.2 = p then ([r], { c with md := md }) else ([], x.1)
  have ht : mapE (fun x : Chain × Nat => chainCalls (callsAt p [k]) x.2 x.1) s.chains.zipIdx =
      .ok (s.chains.zipIdx.map f) := by
    refine mapE_of_ok fun x hx => ?_
    have hg := List.mem_zipIdx_iff_getElem?.1 hx
    simp only [chainCalls, callsAt_getD, f]
    by_cases hp : x.2 = p
    · rw [hp, hc] at hg
      have hg : c = x.1 := by simpa using hg
      simp [hp, ← hg, mdCalls, h, Except.map]
    · simp [hp, Except.map]
  have e : (s.chains.zipIdx.map f).map Prod.snd = s.chains.set p { c with md := md } := by
    apply List.ext_getElem?
    intro i
    rw [List.map_map, List.getElem?_map, List.getElem?_zipIdx, List.getElem?_set]
    by_cases hi : p = i
    · subst hi
      have := (List.getElem?_eq_some_iff.1 hc).1
      simp [f, this]
    · rw [if_neg hi]
      cases s.chains[i]? with
      | none => rfl
      | some x => simp [f, show ¬ i = p from fun h => hi h.symm]
  simp only [fabricStep, ht, bind, Except.bind, e, offerAnswers_nil]
  cases cycle none none { s with chains := s.chains.set p { c with md := md } } <;> rfl

end Sys2Proof.Machine
end

