-- ==== Sys2Proof/Laws/PerInstr.lean ====
section
/-! SUPPORT. The family `EncodeLength`: the encoder writes a number of bytes that the kind of packet
admits, one lemma per instruction. -/

namespace Sys2Proof.Laws

open Sys2Proof Sys2Proof.Machine

/-- The packet of an instruction has a length its kind admits (R82, log 3). -/
def EncodeLength.Statement (i : Instr) : Prop :=
  (encode i).fmt.admits (encode i).bytes = true

theorem EncodeLength.idle (p : Nat) (ready : Bool) (dp : DataWord) :
    EncodeLength.Statement (.idle p ready dp) :=
  admits_packetOf _ _ _
theorem EncodeLength.readB (p : Nat) (ready : Bool) (burst : Burst) (prot : Prot) (addr : Addr) (dp : DataWord) :
    EncodeLength.Statement (.readB p ready burst prot addr dp) :=
  admits_packetOf _ _ _
theorem EncodeLength.readH (p : Nat) (ready : Bool) (burst : Burst) (prot : Prot) (addr : Addr) (dp : DataWord) :
    EncodeLength.Statement (.readH p ready burst prot addr dp) :=
  admits_packetOf _ _ _
theorem EncodeLength.readW (p : Nat) (ready : Bool) (burst : Burst) (prot : Prot) (addr : Addr) (dp : DataWord) :
    EncodeLength.Statement (.readW p ready burst prot addr dp) :=
  admits_packetOf _ _ _
theorem EncodeLength.writeB (p : Nat) (ready : Bool) (burst : Burst) (prot : Prot) (addr : Addr) (dp : DataWord) :
    EncodeLength.Statement (.writeB p ready burst prot addr dp) :=
  admits_packetOf _ _ _
theorem EncodeLength.writeH (p : Nat) (ready : Bool) (burst : Burst) (prot : Prot) (addr : Addr) (dp : DataWord) :
    EncodeLength.Statement (.writeH p ready burst prot addr dp) :=
  admits_packetOf _ _ _
theorem EncodeLength.writeW (p : Nat) (ready : Bool) (burst : Burst) (prot : Prot) (addr : Addr) (dp : DataWord) :
    EncodeLength.Statement (.writeW p ready burst prot addr dp) :=
  admits_packetOf _ _ _
theorem EncodeLength.success (p : Nat) (grant : Bool) (data : DataWord) :
    EncodeLength.Statement (.success p grant data) :=
  admits_packetOf _ _ _
theorem EncodeLength.pending (p : Nat) (grant : Bool) (data : DataWord) :
    EncodeLength.Statement (.pending p grant data) :=
  admits_packetOf _ _ _
theorem EncodeLength.error1 (p : Nat) (grant : Bool) (data : DataWord) :
    EncodeLength.Statement (.error1 p grant data) :=
  admits_packetOf _ _ _
theorem EncodeLength.error2 (p : Nat) (grant : Bool) (data : DataWord) :
    EncodeLength.Statement (.error2 p grant data) :=
  admits_packetOf _ _ _
theorem EncodeLength.grant (p : Nat) (code : Code) (data : DataWord) :
    EncodeLength.Statement (.grant p code data) :=
  admits_packetOf _ _ _
theorem EncodeLength.deny (p : Nat) (code : Code) (data : DataWord) :
    EncodeLength.Statement (.deny p code data) :=
  admits_packetOf _ _ _
theorem EncodeLength.tryRequest (p : Nat) (t : TransferMeta) :
    EncodeLength.Statement (.tryRequest p t) :=
  admits_packetOf _ _ _
theorem EncodeLength.tryForceCancel (p : Nat) :
    EncodeLength.Statement (.tryForceCancel p) :=
  admits_packetOf _ _ _
theorem EncodeLength.provideData (p : Nat) (size : Size) (value : Word) :
    EncodeLength.Statement (.provideData p size value) :=
  admits_packetOf _ _ _
theorem EncodeLength.transferDone (p : Nat) (t : TransferMeta) (value : Word) :
    EncodeLength.Statement (.transferDone p t value) :=
  admits_packetOf _ _ _
theorem EncodeLength.transfersAborted (p : Nat) (t : TransferMeta) (next : Option TransferMeta) :
    EncodeLength.Statement (.transfersAborted p t next) := by
  cases next <;> exact admits_packetOf _ _ _
theorem EncodeLength.read (p : Nat) (t : TransferMeta) :
    EncodeLength.Statement (.read p t) :=
  admits_packetOf _ _ _
theorem EncodeLength.preWrite (p : Nat) (t : TransferMeta) :
    EncodeLength.Statement (.preWrite p t) :=
  admits_packetOf _ _ _
theorem EncodeLength.write (p : Nat) (t : TransferMeta) (value : Word) (isFinal : Bool) :
    EncodeLength.Statement (.write p t value isFinal) :=
  admits_packetOf _ _ _
theorem EncodeLength.setNext (p : Nat) (value : Word) :
    EncodeLength.Statement (.setNext p value) :=
  admits_packetOf _ _ _
theorem EncodeLength.deref (p : Nat) :
    EncodeLength.Statement (.deref p) :=
  admits_packetOf _ _ _
theorem EncodeLength.commit :
    EncodeLength.Statement (.commit) :=
  admits_packetOf _ _ _
theorem EncodeLength.decode (p : Nat) (addr : Addr) :
    EncodeLength.Statement (.decode p addr) :=
  admits_packetOf _ _ _
theorem EncodeLength.arbitrateFixed (p : Nat) (contenders : Nat) :
    EncodeLength.Statement (.arbitrateFixed p contenders) :=
  admits_packetOf _ _ _
theorem EncodeLength.arbitrateRr (p : Nat) (contenders : Nat) :
    EncodeLength.Statement (.arbitrateRr p contenders) :=
  admits_packetOf _ _ _
theorem EncodeLength.split (t : TransferMeta) :
    EncodeLength.Statement (.split t) :=
  admits_packetOf _ _ _
theorem EncodeLength.bbTranslate (p : Nat) (addr : Addr) :
    EncodeLength.Statement (.bbTranslate p addr) :=
  admits_packetOf _ _ _

end Sys2Proof.Laws
end

