-- ==== Sys2Proof/Tests/Slice0.lean ====
section
/-! SUPPORT. Tests of the model, each on one small word or state, with the vector of
95_test_vectors.md or the rule they come from; and for every obligation that has hypotheses, a
`witness_` theorem with a concrete state and operands that meet them, clause by clause. -/

namespace Sys2Proof.Tests

open Sys2Proof Sys2Proof.Machine

/-- A single read. -/
def rd (z : Size) (a : Addr) : TransferMeta := ⟨.read, a, z, .single, 0⟩

/-- A single write. -/
def wr (z : Size) (a : Addr) : TransferMeta := ⟨.write, a, z, .single, 0⟩

/-- No data-phase word. -/
def noData : DataWord := ⟨false, 0⟩

/-- A transfer of an incrementing burst. -/
def inc (t : TransferMeta) : TransferMeta := { t with burst := .increment }

/-- One master whose decoder has one range, wired straight to one slave (the topology of S1). -/
def duoCfg : MasterCfg := ⟨.cortexM, false, none, none, [⟨0x1000, 0x2000, .slave 0, false⟩], [],
  true, true, true⟩

/-- The fabric of that topology after reset. -/
def duo : State := .ofConfig ⟨[duoCfg], [], [⟨false⟩]⟩

/-- The state after an instruction, for instructions that answer one. -/
def after (i : Instr) (s : State) : State :=
  match exec i s with
  | .next t => t
  | .fault _ => s
  | .refused _ => s

/-- The fault an instruction stops with, if it does. -/
def stops (i : Instr) (s : State) : Option Fault :=
  match exec i s with
  | .next _ => none
  | .fault e => some e
  | .refused _ => none

/-- A Master Driver inside `TickExtra` with given slots. -/
def driver (a : Option (TransferMeta × Hold)) (d : Option TransferMeta) (w : Option Data) : MasterDriver :=
  ⟨a, d, w, none, .success, true, .tickExtra⟩

/-- `duo` with a given Master Driver. -/
def duoWith (md : MasterDriver) : State := { duo with chains := [{ Chain.reset duoCfg with md := md }] }

/-- The same with a port that has no granting wire. -/
def unwired (md : MasterDriver) : State :=
  { duo with chains := [{ Chain.reset { duoCfg with grantWire := false } with md := md }] }

/-- `duo` with a given handler. -/
def duoHandler (h : Handler) : State := { duo with slaves := [⟨⟨false⟩, .reset, h⟩] }

/-- `duo` with one flop cell. -/
def duoCell (c : Flop) : State := { duo with cells := [c] }

/-- A packet of an interface operation: its tag and its operand bytes. -/
def callPacket (p : Nat) (l : List Byte) : Packet := ⟨.call, p, l ++ List.replicate (16 - l.length) 0⟩

/-! ### Well-formedness: the ill-formed terms are refused, their largest well-formed neighbours pass -/

/-- R78, R79: nothing present, so nothing beside the presence bit. -/
theorem test_wf_absent : Instr.wf (.idle 0 true ⟨false, 1⟩) = false ∧
    Instr.wf (.readW 0 true .single 0 0 ⟨false, 1⟩) = false ∧
    Instr.wf (.success 0 true ⟨false, 1⟩) = false ∧ Instr.wf (.grant 0 .success ⟨false, 1⟩) = false ∧
    Instr.wf (.idle 0 true ⟨true, 0⟩) = true ∧ Instr.wf (.success 0 true noData) = true := by decide
theorem test_wf_provide_data : Instr.wf (.provideData 0 .byte 0x100) = false ∧
    Instr.wf (.provideData 0 .byte 0xFF) = true := by decide
theorem test_wf_transfer_done_read : Instr.wf (.transferDone 0 (rd .halfword 0) 0x10000) = false ∧
    Instr.wf (.transferDone 0 (rd .halfword 0) 0xFFFF) = true := by decide
theorem test_wf_transfer_done_write : Instr.wf (.transferDone 0 (wr .word 0) 1) = false ∧
    Instr.wf (.transferDone 0 (wr .word 0) 0) = true := by decide
theorem test_wf_write : Instr.wf (.write 0 (wr .byte 0) 0x100 true) = false ∧
    Instr.wf (.write 0 (wr .word 0) 0xFFFFFFFF true) = true := by decide

/-! ### Decoding: words written out from R77 to R79, R85 and the vectors E1 to E21 -/

theorem test_decode_idle : decodeTableWord 42 0x00000000002 = some (.idle 0 true noData) ∧
    decodeTableWord 42 0x00000000000 = some (.idle 0 false noData) := by decide
theorem test_decode_readB :
    decodeTableWord 42 0x00000000003 = some (.readB 0 true .single 0 0 noData) ∧
    decodeTableWord 42 0x00000000023 = some (.readB 0 true .increment 0 0 noData) := by decide
theorem test_decode_readH :
    decodeTableWord 42 0x08000000ACB = some (.readH 0 true .single 0xB 0x20000002 noData) := by decide
theorem test_decode_readW :
    decodeTableWord 42 0x00000008013 = some (.readW 0 true .single 0 0x20 noData) := by decide
/-- `WRITE.B 0x44`: valid, ready and dir set, address from bit 10. -/
theorem test_decode_writeB :
    decodeTableWord 42 0x00000011007 = some (.writeB 0 true .single 0 0x44 noData) := by decide
theorem test_decode_writeH :
    decodeTableWord 42 0x0000040100F = some (.writeH 0 true .single 0 0x1004 noData) := by decide
/-- E7, E8; and E4 beside the data-phase word of E12, six bytes and five. -/
theorem test_decode_writeW :
    decodeTableWord 42 0x3FFFFFFF3D7 = some (.writeW 0 true .single 0xF 0xFFFFFFFC noData) ∧
    decodeTableWord 42 0x3FFFFFFF3D5 = some (.writeW 0 false .single 0xF 0xFFFFFFFC noData) ∧
    decode ⟨.addressPhase, 3, [0x17, 0x40, 0, 0, 0, 0, 0xF1, 0xAC, 0x68, 0x24, 0]⟩ =
      .ok (.writeW 3 true .single 0 0x10 ⟨true, 0x12345678⟩) := by decide
/-- E10: the fourth size code. -/
theorem test_decode_reserved_size : decode ⟨.addressPhase, 0, [0x1B, 0, 0, 0, 0, 0, 0, 0, 0, 0, 0]⟩ =
    .error .reservedSize := by decide
/-- E15 and E20 as bytes. -/
theorem test_decode_success :
    decode ⟨.response, 0, [0x04, 0, 0, 0, 0]⟩ = .ok (.success 0 true noData) ∧
    decode ⟨.response, 1, [0x1C, 0x21, 0x32, 0x43, 0x04]⟩ = .ok (.success 1 true ⟨true, 0x44332211⟩) := by
  decide
theorem test_decode_pending : decode ⟨.response, 0, [0x05, 0, 0, 0, 0]⟩ = .ok (.pending 0 true noData) := by
  decide
theorem test_decode_error1 : decode ⟨.response, 0, [0x06, 0, 0, 0, 0]⟩ = .ok (.error1 0 true noData) := by
  decide
theorem test_decode_error2 : decode ⟨.response, 0, [0x07, 0, 0, 0, 0]⟩ = .ok (.error2 0 true noData) := by
  decide
theorem test_decode_grant : decodeTableWord 36 0x000000005 = some (.grant 0 .pending noData) ∧
    decode ⟨.grantWire, 0, [0x06, 0, 0, 0, 0]⟩ = .ok (.grant 0 .error1 noData) := by decide
/-- E16. -/
theorem test_decode_deny : decode ⟨.grantWire, 0, [0x00, 0, 0, 0, 0]⟩ = .ok (.deny 0 .success noData) := by
  decide
/-- The transfer `READ.W 0x20` is `04 20 00 00 00`, R77's bits 41 to 2. -/
theorem test_decode_try_request : decode (callPacket 1 [0x00, 0x04, 0x20]) =
    .ok (.tryRequest 1 (rd .word 0x20)) := by decide
theorem test_decode_try_force_cancel : decode (callPacket 0 [0x01]) = .ok (.tryForceCancel 0) := by decide
theorem test_decode_provide_data : decode (callPacket 0 [0x02, 0x01, 0x34, 0x12]) =
    .ok (.provideData 0 .halfword 0x1234) := by decide
theorem test_decode_transfer_done : decode (callPacket 0 [0x03, 0x00, 0x40, 0, 0, 0, 0x77]) =
    .ok (.transferDone 0 (rd .byte 0x40) 0x77) := by decide
/-- The second transfer, `WRITE.B 0x44`, begins at bit 41: `03 88`. -/
theorem test_decode_transfers_aborted :
    decode (callPacket 0 [0x04, 0x04, 0x40]) = .ok (.transfersAborted 0 (rd .word 0x40) none) ∧
    decode (callPacket 0 [0x04, 0x04, 0x40, 0, 0, 0, 0x03, 0x88]) =
      .ok (.transfersAborted 0 (rd .word 0x40) (some (wr .byte 0x44))) := by decide
theorem test_decode_read : decode (callPacket 0 [0x08, 0x02, 0x00, 0x10]) =
    .ok (.read 0 (rd .halfword 0x1000)) := by decide
theorem test_decode_pre_write : decode (callPacket 0 [0x09, 0x01, 0x00, 0x10]) =
    .ok (.preWrite 0 (wr .byte 0x1000)) := by decide
/-- `is_final` is the bit above the transfer, the value `5A` above it: `0xB5`. -/
theorem test_decode_write : decode (callPacket 0 [0x0A, 0x01, 0x08, 0x10, 0, 0, 0xB5]) =
    .ok (.write 0 (wr .byte 0x1008) 0x5A true) := by decide
theorem test_decode_set_next : decode (callPacket 0 [0x10, 0x05]) = .ok (.setNext 0 5) := by decide
theorem test_decode_deref : decodeTableWord 8 0x11 = some (.deref 0) := by decide
theorem test_decode_commit : decodeTableWord 8 0x12 = some .commit := by decide
theorem test_decode_decode : decode (callPacket 1 [0x18, 0xEF, 0xBE, 0xAD, 0xDE]) =
    .ok (.decode 1 0xDEADBEEF) := by decide
theorem test_decode_arbitrate_fixed : decode (callPacket 0 [0x19, 0x06]) = .ok (.arbitrateFixed 0 6) := by
  decide
theorem test_decode_arbitrate_rr : decode (callPacket 0 [0x1A, 0x05]) = .ok (.arbitrateRr 0 5) := by decide
theorem test_decode_split : decode (callPacket 0 [0x1B, 0x04, 0x01, 0x10]) =
    .ok (.split (rd .word 0x1001)) := by decide
theorem test_decode_bb_translate : decode (callPacket 0 [0x1C, 0x10, 0, 0, 0x22]) =
    .ok (.bbTranslate 0 0x22000010) := by decide
/-- Contenders above master 31 (R206, R8): bit 120 of the mask is in the seventeenth byte. -/
theorem test_decode_many_masters :
    decode ⟨.call, 0, 0x19 :: List.replicate 15 0 ++ [0x01]⟩ = .ok (.arbitrateFixed 0 (2 ^ 120)) ∧
    decode ⟨.call, 0, 0x19 :: List.replicate 16 0⟩ = .error .wrongLength := by decide
/-- R78, R79: the word is not 0 beside a cleared presence bit. -/
theorem test_decode_absent_value :
    decode ⟨.addressPhase, 0, [2, 0, 0, 0, 0, 0, 0xB4, 0, 0, 0, 0]⟩ = .error .reservedBits ∧
    decode ⟨.response, 0, [0x14, 0, 0, 0, 0]⟩ = .error .reservedBits := by decide
theorem test_decode_unknown_tag : decode (callPacket 0 [0x05]) = .error .unknownTag ∧
    decode (callPacket 0 [0x01, 1]) = .error .reservedBits ∧
    decode ⟨.call, 0, [0x12]⟩ = .error .wrongLength := by decide

/-! ### The flop cell: vectors F1 to F10 of section 3 -/

/-- F2's first half and F5: the last one wins on a `Combinational` cell. -/
theorem test_set_next : (after (.setNext 0 5) (duoCell ⟨.plain, some 3, true, none⟩)).cells =
    [⟨.plain, some 3, true, some 5⟩] ∧
    (after (.setNext 0 6) (duoCell ⟨.combinational, some 3, true, some 5⟩)).cells =
    [⟨.combinational, some 3, true, some 6⟩] := by decide
/-- F4. -/
theorem test_set_next_twice : stops (.setNext 0 6) (duoCell ⟨.plain, some 3, true, some 5⟩) =
      some .flopWrittenTwice := by decide
/-- F1 and F10: the committed value is read, not the next one. -/
theorem test_deref : (after (.deref 0) (duoCell ⟨.plain, some 3, false, some 5⟩)).ret = .value 3 ∧
    (after (.deref 0) (duoCell ⟨.plain, some 3, false, none⟩)).cells = [⟨.plain, some 3, true, none⟩] := by
  decide
/-- F3 and F6. -/
theorem test_deref_violations :
    stops (.deref 0) (duoCell ⟨.plain, some 3, true, some 5⟩) = some .flopReadTwice ∧
    stops (.deref 0) (duoCell ⟨.plain, none, false, none⟩) = some .flopReadUnset := by decide
/-- F2 and F9. -/
theorem test_commit : (after .commit (duoCell ⟨.plain, some 3, true, some 5⟩)).cells =
    [⟨.plain, some 5, false, none⟩] ∧
    (after .commit (duoCell ⟨.plain, some 3, true, none⟩)).cells = [⟨.plain, none, false, none⟩] := by decide
/-- F7 and F8. -/
theorem test_commit_unread :
    stops .commit (duoCell ⟨.plain, some 3, false, some 5⟩) = some .flopUnreadOverwritten ∧
    stops .commit (duoCell ⟨.plain, some 3, false, none⟩) = some .flopUnreadOverwritten := by decide

/-! ### The owner's calls and the callbacks -/

/-- M5: the second request of a cycle returns false. -/
theorem test_try_request : (after (.tryRequest 0 (rd .word 0x20)) duo).ret = .bool true ∧
    (after (.tryRequest 0 (rd .word 0x24)) (duoWith (driver (some (rd .word 0x20, .fresh)) none none))).ret =
      .bool false := by decide
theorem test_try_request_burst :
    stops (.tryRequest 0 ⟨.read, 0, .byte, .increment, 0⟩) duo = some .burstNotModelled := by decide
/-- R157 under `CortexM`; with nothing held it returns false. -/
theorem test_try_force_cancel :
    (after (.tryForceCancel 0) (duoWith (driver (some (rd .word 0x20, .stalled)) none none))).chains.map
      (fun c => c.md.addrSlot) = [none] ∧
    (after (.tryForceCancel 0) duo).ret = .bool false := by decide
/-- R156's example, and M6. -/
theorem test_provide_data :
    (after (.provideData 0 .word 0x12345678) (duoWith (driver none (some (wr .word 0x10)) none))).chains.map
      (fun c => c.md.wdata) = [some [0x78, 0x56, 0x34, 0x12]] := by decide
theorem test_provide_data_unexpected :
    stops (.provideData 0 .byte 0) (duoWith (driver none (some (wr .halfword 0x10)) none)) =
      some .unexpectedData ∧
    stops (.provideData 0 .byte 0) duo = some .unexpectedData := by decide
/-- R162's example. -/
theorem test_transfer_done : (after (.transferDone 0 (rd .word 0x20) 0xDDCCBBAA) duo).out =
    [.transferDone 0 (rd .word 0x20) (some [0xAA, 0xBB, 0xCC, 0xDD])] := by decide
/-- M2's callback. -/
theorem test_transfers_aborted :
    (after (.transfersAborted 0 (rd .word 0x40) (some (rd .byte 0x1000))) duo).out =
      [.transfersAborted 0 [rd .word 0x40, rd .byte 0x1000]] := by decide

/-! ### The handler: section 2 of the vectors -/

theorem test_read : (after (.read 0 (rd .halfword 0x1000)) (duoHandler (.ram [(0x1000, 0xAA)] [] none))).ret =
    .answer (.success [0xAA, 0x00]) ∧
    (after (.read 0 (rd .halfword 0x1000)) (duoHandler (.ram [] [2] none))).slaves.map Slave.handler =
      [.ram [] [] (some 1)] := by decide
/-- S6: data of the wrong length. -/
theorem test_read_width :
    stops (.read 0 (rd .halfword 0)) (duoHandler (.external [.success [0x00]] 0 0)) =
      some .badReadWidth := by
  decide
theorem test_pre_write : (after (.preWrite 0 (wr .byte 0x1000)) (duoHandler (.ram [] [1] none))).ret =
    .answer .pending := by decide
/-- S2's last write; the byte `00` of a store is not listed. -/
theorem test_write : (after (.write 0 (wr .halfword 0x1004) 0x1200 true)
      (duoHandler (.ram [(0x1004, 0x77)] [] none))).slaves.map Slave.handler =
      [.ram [(0x1005, 0x12)] [] none] ∧
    (after (.write 0 (wr .halfword 0x1004) 0x1234 false) duo).slaves.map Slave.handler =
      [.ram [] [] none] := by decide

/-- R80, R54: no handler runs an incrementing burst as a single transfer. -/
theorem test_handler_burst : stops (.read 0 (inc (rd .byte 0))) duo = some .burstNotModelled ∧
    stops (.write 0 (inc (wr .byte 0)) 0 true) duo = some .burstNotModelled := by decide

/-! ### The pure functions -/

/-- D1, on V1's ranges, which `State.reset` has. -/
theorem test_decode_ranges : (after (.decode 0 0x1F) .reset).ret = .tag (some (.port 0)) ∧
    (after (.decode 0 0x20) .reset).ret = .tag (some (.port 1)) ∧
    (after (.decode 0 0x0F) .reset).ret = .tag none ∧
    (after (.decode 0 0x30) .reset).ret = .tag none := by decide
/-- A0: one stage of three inputs, the head at 1. -/
def three : State := { duo with stages := [{ Stage.reset ⟨.roundRobin, 3, 0⟩ with rrHead := 1 }] }
theorem test_arbitrate_fixed : (after (.arbitrateFixed 0 6) three).ret = .master (some 1) ∧
    (after (.arbitrateFixed 0 5) three).ret = .master (some 0) ∧
    (after (.arbitrateFixed 0 0) three).ret = .master none := by decide
theorem test_arbitrate_rr : (after (.arbitrateRr 0 5) three).ret = .master (some 2) ∧
    (after (.arbitrateRr 0 1) three).ret = .master (some 0) ∧
    (after (.arbitrateRr 0 7) three).ret = .master (some 1) ∧
    (after (.arbitrateRr 0 0) three).ret = .master none := by decide
/-- AL0. -/
theorem test_split : (after (.split (rd .word 0x1001)) duo).ret = .chunks [(0, 1), (1, 2), (3, 1)] ∧
    (after (.split (rd .word 0xFFFFFFFE)) duo).ret = .chunks [(0, 2), (2, 2)] ∧
    (after (.split (rd .halfword 0x1003)) duo).ret = .chunks [(0, 1), (1, 1)] := by decide
/-- R262's examples. -/
theorem test_bb_translate :
    (after (.bbTranslate 0 0x22000010) .reset).ret = .bit (some (0x20000000, 4)) ∧
    (after (.bbTranslate 0 0x22000080) .reset).ret = .bit (some (0x20000004, 0)) ∧
    (after (.bbTranslate 0 0x2200007C) .reset).ret = .bit (some (0x20000000, 31)) ∧
    (after (.bbTranslate 0 0x20000000) .reset).ret = .bit none := by decide
/-- R266's and R270's examples. -/
theorem test_bits : extractBit [0x0F, 0, 0, 0x80] 31 = 1 ∧ extractBit [0x0F, 0, 0, 0x80] 4 = 0 ∧
    insertBit [0x0F, 0, 0, 0] 4 [1, 0, 0, 0] = [0x1F, 0, 0, 0] ∧
    insertBit [0x0F, 0, 0, 0] 4 [0xFE] = [0x0F, 0, 0, 0] := by decide

/-! ### The bus commands: one cycle each -/

/-- A word command's transfer is accepted and remembered (V1's first cycle, R160). -/
def accepts (i : Instr) (t : TransferMeta) : Bool :=
  (after i duo).chains.map (fun c => (c.md.dataSlot, c.md.addrSlot, c.dec.addrMeta)) ==
    [(some t, none, some t)]

theorem test_exec_idle : (after (.idle 0 true noData) duo).chains = duo.chains := by decide
theorem test_exec_readB : accepts (.readB 0 true .single 0 0x1000 noData) (rd .byte 0x1000) = true := by decide
theorem test_exec_readH : accepts (.readH 0 true .single 0 0x1000 noData) (rd .halfword 0x1000) = true := by
  decide
theorem test_exec_readW : accepts (.readW 0 true .single 0 0x40 noData) (rd .word 0x40) = true := by decide
theorem test_exec_writeB : accepts (.writeB 0 true .single 0 0x1008 noData) (wr .byte 0x1008) = true := by decide
theorem test_exec_writeH : accepts (.writeH 0 true .single 0 0x1004 noData) (wr .halfword 0x1004) = true := by
  decide
theorem test_exec_writeW : accepts (.writeW 0 true .single 0 0x1010 noData) (wr .word 0x1010) = true := by
  decide
/-- E11: refused. -/
theorem test_exec_burst : stops (.readB 0 true .increment 0 0 noData) duo = some .burstNotModelled := by decide
/-- S4's second cycle: the write is stored, the read behind it accepted. -/
theorem test_exec_data_phase :
    (after (.readB 0 true .single 0 0x1008 ⟨true, 0x5A⟩)
      (after (.writeB 0 true .single 0 0x1008 noData) duo)).slaves.map Slave.handler =
      [.ram [(0x1008, 0x5A)] [] none] := by decide

/-- R78: `0x100` has a byte above a byte transfer's size. -/
theorem test_exec_over_wide : exec (.idle 0 true ⟨true, 0x100⟩) (duoWith (driver none (some (wr .byte 0x1008)) none)) =
    .refused (.invalidWord .reservedBits) := rfl

/-! ### The response words: one cycle each -/

/-- R162's example. -/
theorem test_exec_success : (after (.success 0 true ⟨true, 0xDDCCBBAA⟩)
      (duoWith (driver none (some (rd .word 0x20)) none))).out =
    [.transferDone 0 (rd .word 0x20) (some [0xAA, 0xBB, 0xCC, 0xDD])] := by decide
/-- S4's third cycle: the address phase is `Stalled`. -/
theorem test_exec_pending : (after (.pending 0 true noData)
      (duoWith (driver (some (rd .byte 0x1000, .fresh)) (some (rd .byte 0x1008)) none))).chains.map
      (fun c => (c.md.addrSlot, c.md.dataSlot)) =
    [(some (rd .byte 0x1000, .stalled), some (rd .byte 0x1008))] := by decide
/-- M1's second cycle, and M7. -/
theorem test_exec_error1 : (after (.error1 0 true noData)
      (duoWith (driver (some (rd .byte 0x1000, .fresh)) (some (rd .word 0x40)) none))).chains.map
      (fun c => (c.md.addrSlot, c.md.lastCode)) = [(some (rd .byte 0x1000, .stalled), .error1)] ∧
    stops (.error1 0 true noData) duo = some .responseWithoutTransfer := by decide
/-- M2's third cycle, and M7. -/
theorem test_exec_error2 : (after (.error2 0 true noData)
      (duoWith ⟨none, some (rd .word 0x40), none, some (rd .byte 0x1000), .error1, true, .tickExtra⟩)).out =
    [.transfersAborted 0 [rd .word 0x40, rd .byte 0x1000]] ∧
    stops (.error2 0 true noData) duo = some .error2WithoutError1 := by decide
/-- R160's example. -/
theorem test_exec_grant : (after (.grant 0 .success noData)
      (duoWith (driver (some (rd .word 0x20, .fresh)) none none))).chains.map
      (fun c => (c.md.addrSlot, c.md.dataSlot)) = [(none, some (rd .word 0x20))] := by decide
theorem test_exec_deny : (after (.deny 0 .success noData)
      (duoWith (driver (some (rd .word 0x20, .fresh)) none none))).chains.map
      (fun c => (c.md.addrSlot, c.md.dataSlot)) = [(some (rd .word 0x20, .denied), none)] := by decide

/-- R74, R160: a port without a granting wire has the grant constantly true. -/
theorem test_exec_deny_unwired : (after (.deny 0 .success noData)
      (unwired (driver (some (rd .word 0x20, .fresh)) none none))).chains.map
      (fun c => (c.md.addrSlot, c.md.dataSlot)) = [(none, some (rd .word 0x20))] := by decide

/-! ### Stimuli and whole cycles -/

/-- R91: a word unless a size is given, `prot` 0 unless one is. -/
theorem test_item_defaults : itemRead 0x20 none none = rd .word 0x20 ∧
    itemRead 0x20 (some .byte) (some 3) = ⟨.read, 0x20, .byte, .single, 3⟩ ∧
    itemWrite 0x20 .byte none = wr .byte 0x20 ∧ itemData .halfword none = [0, 0] := by decide
/-- V1's first cycle as one step of the fabric (R18): the owner asks, the cycle runs. -/
theorem test_fabric_step :
    (fabricStep ⟨[[.tryRequest (rd .word 0x20)]], []⟩ duo).toOption.map
      (fun x => (x.1, x.2.chains.map fun c => c.md.dataSlot)) =
    some ([[.bool true]], [some (rd .word 0x20)]) := by decide

/-! ### The configuration and the program's way in -/

theorem test_reset_config : checkConfig State.reset.config = none := by decide
theorem test_step_from_reset : step (State.reset.withFetchWord 8 0x12) = exec .commit .reset := rfl

/-! ### Witnesses: the hypotheses of the obligations can be met, clause by clause -/

theorem witness_DecodeEncodeAgree : Instr.wf (.provideData 7 .byte 0xFF) = true := by decide

theorem witness_WordsSpellOneInstruction :
    decode ⟨.addressPhase, 0, [3, 0, 0, 0, 0, 0, 0, 0, 0, 0, 0]⟩ = .ok (.readB 0 true .single 0 0 noData) ∧
    flag (natOfBytes [3, 0, 0, 0, 0, 0, 0, 0, 0, 0, 0]) 0 = true ∧
    decode ⟨.addressPhase, 0, [6, 0, 0, 0, 0, 0, 0, 0, 0, 0, 0]⟩ = .ok (.idle 0 true noData) ∧
    flag (natOfBytes [6, 0, 0, 0, 0, 0, 0, 0, 0, 0, 0]) 0 = false := by decide

theorem witness_StepRunsDecodedInstruction :
    ({ duo with inbox := [callPacket 0 [0x12]] } : State).inbox = callPacket 0 [0x12] :: [] ∧
    decode (callPacket 0 [0x12]) = .ok .commit ∧ decodeTableWord 8 0x12 = some .commit := by decide

theorem witness_StepOtherwise :
    ({ duo with inbox := [callPacket 0 [0x05]] } : State).inbox = callPacket 0 [0x05] :: [] ∧
    decode (callPacket 0 [0x05]) = .error .unknownTag ∧
    ([0x1B, 0, 0, 0, 0, 0, 0, 0, 0, 0, 0] : List Byte).length = 11 ∧
    flag (natOfBytes [0x1B, 0, 0, 0, 0, 0, 0, 0, 0, 0, 0]) 0 = true ∧
    field (natOfBytes [0x1B, 0, 0, 0, 0, 0, 0, 0, 0, 0, 0]) 3 2 = 3 ∧ duo.inbox = [] ∧
    (duoWith (driver none (some (wr .byte 0)) none)).chains[0]?.map (fun c => c.md.dataSlot) =
      some (some (wr .byte 0)) ∧
    commandOf (.idle 0 true ⟨true, 0x100⟩) = some (0, ⟨none, true, ⟨true, 0x100⟩⟩) ∧
    responseOf (.success 0 true ⟨true, 0x100⟩) = some (0, ⟨.success, true, ⟨true, 0x100⟩⟩) ∧
    2 ^ (8 * (wr .byte 0).size.bytes) ≤ (0x100 : Word).toNat := by decide

theorem witness_UnitsOutsideTheTopologyAreRefused :
    duo.chains.length ≤ 1 ∧ commandOf (.idle 1 true noData) = some (1, ⟨none, true, noData⟩) ∧
    responseOf (.success 1 true noData) = some (1, ⟨.success, true, noData⟩) ∧
    duo.slaves.length ≤ 1 ∧ duo.stages.length ≤ 0 ∧ duo.cells.length ≤ 2 := by decide

theorem witness_DecodeFindsTheRange :
    duo.chains[0]? = some (.reset duoCfg) ∧ rangesOk duoCfg.ports = true ∧
    duoCfg.ports[0]? = some ⟨0x1000, 0x2000, .slave 0, false⟩ ∧
    (0x1000 : Addr).toNat < 0x2000 ∧ 0x1000 ≤ (0x1FFF : Addr).toNat ∧ (0x1FFF : Addr).toNat < 0x2000 ∧
    ∀ r ∈ duoCfg.ports, ¬ (r.lo ≤ (0x2000 : Addr).toNat ∧ (0x2000 : Addr).toNat < r.hi) := by decide

theorem witness_SplitTilesTheTransfer :
    (rd .word 0xFFFFFFFF).addr.toNat % (rd .word 0xFFFFFFFF).size.bytes ≠ 0 := by decide

/-- The first master of `State.reset`, which has the bitband regions of R261. -/
def bandCfg : MasterCfg := Config.default.masters[0]

theorem witness_BbTranslateFindsTheBit :
    State.reset.chains[0]? = some (.reset bandCfg) ∧
    bandRegionsOk (bandCfg.bitband.getD []) = true ∧
    (⟨0x22000000, 0x24000000, 0x20000000⟩ : BandRegion) ∈ bandCfg.bitband.getD [] ∧
    0x22000000 ≤ (0x22000000 : Addr).toNat ∧ (0x23FFFFFC : Addr).toNat < 0x24000000 ∧
    ∀ r ∈ bandCfg.bitband.getD [], ¬ (r.aliasLo ≤ (0x24000000 : Addr).toNat ∧
      (0x24000000 : Addr).toNat < r.aliasHi) := by decide

theorem witness_FixedPriorityPicksTheLeast :
    three.stages[0]?.map (fun st => st.cfg.inputs) = some 3 ∧
    Nat.testBit 4 2 = true ∧ (∀ y < 2, Nat.testBit 4 y = false) ∧ ∀ x < 3, Nat.testBit 8 x = false := by
  decide

theorem witness_RoundRobinPicksFromTheHead :
    three.stages[0]?.map (fun st => (st.cfg.inputs, st.rrHead)) = some (3, 1) ∧
    Nat.testBit 1 ((1 + 2) % 3) = true ∧ (∀ j < 2, Nat.testBit 1 ((1 + j) % 3) = false) ∧
    ∀ x < 3, Nat.testBit 8 x = false := by decide

theorem witness_RoundRobinServesEveryMaster :
    1 < 2 ∧ arbitrateRr 2 ((0 + 1) % 2) (List.range 2) = some 1 := by decide

theorem witness_SetNextWritesNext :
    (duoCell ⟨.combinational, none, false, some 1⟩).cells[0]? = some ⟨.combinational, none, false, some 1⟩ ∧
    (duoCell ⟨.plain, none, false, none⟩).cells[0]? = some ⟨.plain, none, false, none⟩ ∧
    (duoCell ⟨.plain, none, false, some 1⟩).cells[0]? = some ⟨.plain, none, false, some 1⟩ := by decide

theorem witness_DerefReadsOnce :
    (duoCell ⟨.plain, none, false, none⟩).cells[0]? = some ⟨.plain, none, false, none⟩ ∧
    (duoCell ⟨.plain, some 3, true, none⟩).cells[0]? = some ⟨.plain, some 3, true, none⟩ ∧
    (duoCell ⟨.plain, some 3, false, none⟩).cells[0]? = some ⟨.plain, some 3, false, none⟩ := by decide

theorem witness_FlopCommitMovesNext :
    (⟨.plain, some 3, false, none⟩ : Flop).cur ≠ none ∧
    (⟨.plain, none, false, some 1⟩ : Flop).cur = none ∧
    (⟨.plain, some 3, true, none⟩ : Flop).curRead = true := by decide

theorem reset_quiet : State.reset.Quiet := by
  unfold State.Quiet State.QuietBelow
  decide

theorem witness_CommitOnQuietFabric : State.reset.Quiet ∧
    State.Quiet { duoCell ⟨.plain, some 3, false, none⟩ with cells := [] } ∧
    (⟨.plain, some 3, false, none⟩ : Flop) ∈ (duoCell ⟨.plain, some 3, false, none⟩).cells := by
  refine ⟨reset_quiet, ?_, by decide⟩
  unfold State.Quiet State.QuietBelow
  decide

/-- A driver's slots as the owner's calls find them: `TickExtra`, or just before the response. -/
theorem witness_TryRequestFillsTheAddressSlot :
    duo.chains[0]? = some (.reset duoCfg) ∧ (Chain.reset duoCfg).md.phase = .tickExtra ∧
    (rd .word 0x20).burst = .single ∧ (Chain.reset duoCfg).md.addrSlot = none ∧
    (⟨.read, 0, .byte, .increment, 0⟩ : TransferMeta).burst = .increment ∧
    (driver (some (rd .word 0x20, .fresh)) none none).addrSlot ≠ none ∧
    ({ driver none none none with phase := .sentMessages } : MasterDriver).phase ≠ .tickExtra := by decide

theorem witness_TryForceCancelObeysTheMode :
    (duoWith (driver (some (rd .word 0x20, .stalled)) none none)).chains[0]? =
      some { Chain.reset duoCfg with md := driver (some (rd .word 0x20, .stalled)) none none } ∧
    (driver (some (rd .word 0x20, .stalled)) none none).phase = .tickExtra ∧
    duoCfg.cancelMode = .cortexM ∧
    ({ duoCfg with cancelMode := .ambaStrict } : MasterCfg).cancelMode = .ambaStrict ∧
    Hold.stalled ≠ .fresh ∧ (driver none none none).lastCode ≠ .error1 ∧
    ({ driver none none none with phase := .gotMessages } : MasterDriver).phase ≠ .tickExtra := by decide

theorem witness_ProvideDataIsTakenOnce :
    (duoWith (driver none (some (wr .halfword 0x10)) none)).chains[0]?.map (fun c => c.md) =
      some (driver none (some (wr .halfword 0x10)) none) ∧
    (wr .halfword 0x10).dir = .write ∧ (wr .halfword 0x10).size = .halfword ∧
    (driver none none none).dataSlot = none ∧
    (driver none (some (wr .halfword 0x10)) (some [1, 2])).wdata ≠ none ∧
    (rd .halfword 0x10).dir = .read ∧ (wr .halfword 0x10).size ≠ .byte ∧
    ({ driver none none none with phase := .runDriver } : MasterDriver).phase ≠ .tickExtra := by decide

theorem witness_CallbacksTellTheOwner :
    0 < duo.chains.length ∧ (rd .word 0).dir = .read ∧ (wr .word 0).dir = .write ∧
    (rd .word 0).burst = .single ∧ (∀ x ∈ (some (wr .word 0) : Option TransferMeta), x.burst = .single) ∧
    (inc (rd .word 0)).burst = .increment ∧
    ∃ x, (some (inc (wr .word 0)) : Option TransferMeta) = some x ∧ x.burst = .increment := by
  refine ⟨by decide, rfl, rfl, rfl, by decide, rfl, _, rfl, rfl⟩

theorem witness_HandlerReadGivesTheBytes :
    (duoHandler (.ram [] [] (some 1))).slaves[0]? = some ⟨⟨false⟩, .reset, .ram [] [] (some 1)⟩ ∧
    (duoHandler (.ram [] [1] none)).slaves[0]? = some ⟨⟨false⟩, .reset, .ram [] [1] none⟩ ∧
    ([1] : List Nat).head? = some (0 + 1) ∧
    (duoHandler (.ram [] [] (some 0))).slaves[0]? = some ⟨⟨false⟩, .reset, .ram [] [] (some 0)⟩ ∧
    (duoHandler (.ram [] [0] none)).slaves[0]? = some ⟨⟨false⟩, .reset, .ram [] [0] none⟩ ∧
    (rd .byte 0).burst = .single ∧ (inc (rd .byte 0)).burst = .increment ∧
    duo.slaves[0]? = some ⟨⟨false⟩, .reset, .ram [] [] none⟩ := by decide

theorem witness_HandlerReadExternal :
    (duoHandler (.external [.pending] 0 0)).slaves[0]? = some ⟨⟨false⟩, .reset, .external [.pending] 0 0⟩ ∧
    (duoHandler (.external [.success [1]] 0 0)).slaves[0]? =
      some ⟨⟨false⟩, .reset, .external [.success [1]] 0 0⟩ ∧
    ([1] : Data).length = (rd .byte 0).size.bytes ∧ ([1] : Data).length ≠ (rd .halfword 0).size.bytes ∧
    (rd .byte 0).burst = .single ∧ (inc (rd .byte 0)).burst = .increment ∧
    (duoHandler (.external [] 0 5)).slaves[0]? = some ⟨⟨false⟩, .reset, .external [] 0 5⟩ := by decide

theorem witness_HandlerPreWriteAnswers :
    (wr .byte 0).burst = .single ∧ (inc (wr .byte 0)).burst = .increment ∧
    duo.slaves[0]? = some ⟨⟨false⟩, .reset, .ram [] [] none⟩ ∧
    (duoHandler (.external [.pending] 0 0)).slaves[0]? = some ⟨⟨false⟩, .reset, .external [.pending] 0 0⟩ ∧
    (duoHandler (.external [] 0 5)).slaves[0]? = some ⟨⟨false⟩, .reset, .external [] 0 5⟩ := by decide

theorem witness_HandlerWriteStoresTheBytes :
    (duoHandler (.ram [(0, 1), (0xFFFFFFFF, 2)] [] none)).slaves[0]? =
      some ⟨⟨false⟩, .reset, .ram [(0, 1), (0xFFFFFFFF, 2)] [] none⟩ ∧
    Memory.wf [(0, 1), (0xFFFFFFFF, 2)] = true ∧
    (wr .byte 0).burst = .single ∧ (inc (wr .byte 0)).burst = .increment ∧
    (∀ i < (wr .halfword 0xFFFFFFFF).size.bytes, 1 ≠ ((wr .halfword 0xFFFFFFFF).addr.toNat + i) % 2 ^ 32) ∧
    (duoHandler (.external [.pending] 0 0)).slaves[0]? = some ⟨⟨false⟩, .reset, .external [.pending] 0 0⟩ ∧
    (duoHandler (.external [] 0 5)).slaves[0]? = some ⟨⟨false⟩, .reset, .external [] 0 5⟩ := by decide

theorem witness_SlavePromotesOnReady :
    (⟨none, some (rd .byte 0), .pending⟩ : SlaveDriver).lastCode = .pending ∧
    SlaveDriver.reset.lastCode = .success := by decide

theorem witness_SlaveIdleCycle :
    SlaveDriver.reset.lastCode ≠ .error1 ∧ slavePromote .reset true = .ok none ∧
    (⟨none, true, some [0]⟩ : M2S).payload = some [0] ∧
    (⟨some (rd .byte 0), true, none⟩ : M2S).payload = none ∧ (rd .byte 0).burst = .single := by
  refine ⟨by decide, rfl, rfl, rfl, rfl⟩

/-- A slave that sampled `t` and has handler `h`. -/
def sampled (t : TransferMeta) (h : Handler) : Slave := ⟨⟨false⟩, ⟨some t, none, .success⟩, h⟩

theorem witness_SlaveReadCycle :
    slavePromote (sampled (rd .byte 0) (.ram [] [] none)).sd true = .ok (some (rd .byte 0)) ∧
    handlerRead (.ram [] [] none) (rd .byte 0) = (.success [0], .ram [] [] none) ∧
    ([0] : Data).length = (rd .byte 0).size.bytes ∧
    handlerRead (.external [.success []] 0 0) (rd .byte 0) = (.success [], .external [] 0 0) ∧
    ([] : Data).length ≠ (rd .byte 0).size.bytes ∧
    handlerRead (.ram [] [1] none) (rd .byte 0) = (.pending, .ram [] [] (some 0)) := by
  refine ⟨rfl, rfl, rfl, rfl, by decide, rfl⟩

theorem witness_SlaveWriteCycle :
    slavePromote (sampled (wr .byte 0) (.ram [] [] none)).sd true = .ok (some (wr .byte 0)) ∧
    handlerPreWrite (.ram [] [] none) (wr .byte 0) = (.success [], .ram [] [] none) ∧
    handlerWrite (.ram [] [] none) (wr .byte 0) [0] true = (.success [], .ram [] [] none) ∧
    handlerPreWrite (.external [.success [], .pending] 0 0) (wr .byte 0) =
      (.success [], .external [.pending] 0 0) ∧
    handlerWrite (.external [.pending] 0 0) (wr .byte 0) [0] true = (.pending, .external [] 0 0) ∧
    handlerPreWrite (.ram [] [1] none) (wr .byte 0) = (.pending, .ram [] [] (some 0)) ∧
    handlerWrite (.ram [] [] (some 0)) (wr .byte 0) [0] false = (.success [], .ram [] [] (some 0)) := by
  refine ⟨rfl, rfl, rfl, rfl, rfl, rfl, rfl⟩

theorem witness_DefaultSlaveErrorPair :
    slavePromote ⟨some (rd .byte 0x40), none, .success⟩ true = .ok (some (rd .byte 0x40)) ∧
    slavePromote ⟨some (wr .byte 0x40), none, .error2⟩ true = .ok (some (wr .byte 0x40)) ∧
    mockFor [] (rd .byte 0x40) = none ∧
    mockFor [⟨rd .byte 0x40, some [1]⟩] (rd .byte 0x40) = some ⟨rd .byte 0x40, some [1]⟩ ∧
    ([1] : Data).length = (rd .byte 0x40).size.bytes ∧
    mockFor [⟨rd .byte 0x40, none⟩] (rd .byte 0x40) = some ⟨rd .byte 0x40, none⟩ ∧
    mockFor [⟨wr .byte 0x40, none⟩] (wr .byte 0x40) = some ⟨wr .byte 0x40, none⟩ ∧
    mockFor [⟨wr .byte 0x40, some []⟩] (wr .byte 0x40) = some ⟨wr .byte 0x40, some []⟩ ∧
    slavePromote .reset true = .ok none ∧ (SlaveDriver.reset).lastCode ≠ .error1 ∧
    (⟨none, true, none⟩ : M2S).payload = none ∧ (⟨none, true, some [1]⟩ : M2S).payload ≠ none := by
  refine ⟨rfl, rfl, rfl, by decide, rfl, by decide, by decide, by decide, rfl, by decide, rfl, by decide⟩

/-- Log 26: a write without payload is reported before its mock's wrong shape. -/
theorem test_default_missing_payload :
    defaultAnswer [⟨wr .byte 0x40, some []⟩] (wr .byte 0x40) none = .error .missingWriteData := rfl

/-- A decoder after the held address phase `t`. -/
def held (t : TransferMeta) (c : Code) : Decoder := ⟨some (.port 0), some t, .dflt, c, .reset⟩

theorem witness_DecoderRoutesAnAddressPhase :
    (rd .byte 0x1001).burst = .single ∧
    ({ duoCfg with cancelMode := .ambaStrict } : MasterCfg).cancelMode ≠ .cortexM ∧
    (held (rd .byte 0x1000) .pending).lastCode ≠ .error1 ∧
    (held (rd .byte 0x1000) .pending).addrMeta ≠ none ∧
    some (rd .byte 0x1001) ≠ (held (rd .byte 0x1000) .pending).addrMeta ∧
    duoCfg.cancelMode = .cortexM ∧ (held (rd .byte 0x1000) .pending).addrMeta = some (rd .byte 0x1000) ∧
    (held (rd .byte 0x1000) .success).addrRoute = some (.port 0) ∧
    Decoder.reset.addrRoute = none := by decide

theorem witness_DecoderSteersTheWires :
    (⟨some (.port 0), .dflt⟩ : Route).ar = some (.port 0) ∧ (⟨some (.port 0), .dflt⟩ : Route).ar ≠ some .dflt ∧
    (⟨some (.port 0), .dflt⟩ : Route).dr = .dflt ∧ (⟨some (.port 0), .dflt⟩ : Route).dr ≠ .port 0 ∧
    (⟨none, .dflt⟩ : Route).ar = none := by decide

/-- Two inputs, the second presenting a read. -/
def inputs2 : List M2S := [⟨none, true, none⟩, ⟨some (rd .byte 0), true, none⟩]

theorem witness_StageForwardsTheWinner :
    (∀ i ∈ inputs2, ∀ t ∈ i.req, t.burst = .single) ∧
    inputs2.length = (Stage.reset ⟨.fixedPriority, 2, 0⟩).cfg.inputs ∧
    inputs2[1]? = some ⟨some (rd .byte 0), true, none⟩ ∧
    (∀ y < 1, ∀ v ∈ inputs2[y]?, v.req = none) ∧
    1 = ((Stage.reset ⟨.roundRobin, 2, 0⟩).rrHead + 1) % 2 ∧
    (∀ j < 1, ∀ v ∈ inputs2[(0 + j) % 2]?, v.req = none) ∧
    (stageRoute (Stage.reset ⟨.fixedPriority, 2, 0⟩) inputs2).w = some 1 ∧
    (stageRoute ⟨⟨.roundRobin, 2, 0⟩, some 1, none, .pending, 0⟩ inputs2).w = some 1 ∧
    (stageRoute ⟨⟨.fixedPriority, 2, 0⟩, some 1, none, .pending, 0⟩ inputs2).w = some 1 ∧
    (stageRoute ⟨⟨.roundRobin, 2, 0⟩, none, none, .pending, 0⟩ inputs2).w = none ∧
    (stageRoute ⟨⟨.fixedPriority, 2, 0⟩, none, some 0, .pending, 0⟩ inputs2).w = none ∧
    (stageRoute ⟨⟨.roundRobin, 2, 0⟩, none, some 1, .success, 0⟩ inputs2).dr = some 1 := by decide

theorem witness_StageAnswersItsPorts :
    inputs2[0]? = some ⟨none, true, none⟩ ∧ inputs2[1]? = some ⟨some (rd .byte 0), true, none⟩ ∧
    (⟨some 1, some 0, ⟨none, true, none⟩⟩ : StageRoute).dr = some 0 ∧
    (⟨some 1, some 0, ⟨none, true, none⟩⟩ : StageRoute).dr ≠ some 1 := by decide

theorem witness_StageNextState :
    (Stage.reset ⟨.roundRobin, 2, 0⟩).cfg.arbiter = .roundRobin ∧
    (⟨some 1, none, ⟨none, true, none⟩⟩ : StageRoute).w ≠ none ∧
    (Stage.reset ⟨.fixedPriority, 2, 0⟩).cfg.arbiter = .fixedPriority ∧
    (⟨none, none, ⟨none, true, none⟩⟩ : StageRoute).w = none := by decide

theorem witness_SlicesReassemble :
    ([1, 2, 3, 4] : Data).length = (rd .word 0x1001).size.bytes ∧
    ([0, 0, 0, 0] : Data).length = (rd .word 0x1001).size.bytes := by decide

theorem witness_SplitReadReassembles :
    (rd .word 0x1001).dir = .read ∧ ([1, 2, 3, 4] : Data).length = (rd .word 0x1001).size.bytes ∧
    ([1, 0, 0, 0] : Data).length = (rd .word 0x1001).size.bytes ∧ needsAligner (rd .word 0x1001) = true ∧
    (∀ j < 1, ∀ c ∈ (splitChunks (rd .word 0x1001))[j]?,
      sliceData [1, 0, 0, 0] c = sliceData [1, 2, 3, 4] c) ∧
    (splitChunks (rd .word 0x1001))[1]? = some (1, 2) ∧ 1 + 1 < (splitChunks (rd .word 0x1001)).length ∧
    (splitChunks (rd .halfword 0x1001))[1]? = some (1, 1) ∧
    1 + 1 = (splitChunks (rd .halfword 0x1001)).length ∧
    (wr .word 0x1001).dir = .write ∧ 0 + 1 < (splitChunks (wr .word 0x1001)).length ∧
    2 + 1 = (splitChunks (wr .word 0x1001)).length ∧ (splitChunks (wr .word 0x1001))[2]? = some (3, 1) ∧
    (⟨none, true, some [1, 2, 3, 4]⟩ : M2S).payload = some [1, 2, 3, 4] ∧
    (∀ x ∈ (some (rd .word 0x1004) : Option TransferMeta),
      x.burst = .single ∧ x.addr.toNat % x.size.bytes = 0) ∧
    (⟨rd .halfword 0x1001, 2, some 1, [1, 0]⟩ : Split).next = (splitChunks (rd .halfword 0x1001)).length ∧
    (⟨rd .halfword 0x1001, 2, some 1, [1, 0]⟩ : Split).cur = some 1 ∧
    (⟨rd .halfword 0x1001, 1, none, [0, 0]⟩ : Split).cur = none ∧ Code.error1 ≠ .success ∧
    (⟨wr .halfword 0x1001, 2, some 1, [0, 0]⟩ : Split).cur ≠ none ∧
    (splitChunks (wr .halfword 0x1001)).length ≤
      (⟨wr .halfword 0x1001, 2, some 1, [0, 0]⟩ : Split).next ∧
    (splitChunks (wr .halfword 0x1001))[1]? = some (1, 1) ∧
    splitBegun (some (rd .halfword 0x1003)) true = some ⟨rd .halfword 0x1003, 1, some 0, [0, 0]⟩ ∧
    splitBegun (some (rd .halfword 0x1003)) false = none ∧
    splitBegun (some (rd .word 0x1004)) true = none := by decide

/-- An unaligned address phase behind the last chunk stands downstream as its first sub-transfer. -/
theorem witness_StandsFor : StandsFor (some (rd .halfword 0x1003)) (some (rd .byte 0x1003)) := by
  simp only [StandsFor]
  rw [if_neg (by decide)]
  exact ⟨(0, 1), rd .byte 0x1003, by decide, ⟨rfl, by decide, rfl, rfl, rfl⟩, rfl⟩

theorem witness_AlignedPassesTheAligner :
    Aligner.reset.split = none ∧
    (∀ t ∈ (some (rd .word 0x1004) : Option TransferMeta),
      t.burst = .single ∧ t.addr.toNat % t.size.bytes = 0) ∧
    true = (readyCode Aligner.reset.dnCode && Aligner.reset.dnGrant) := by decide

theorem witness_TruncateMakesOneAccess :
    (rd .word 0x1002).dir = .read ∧ (rd .word 0x1002).burst = .single ∧
    (rd .word 0x1002).addr.toNat % (rd .word 0x1002).size.bytes ≠ 0 ∧
    ([0, 0x11, 0x22, 0x33] : Data).length = (rd .word 0x1002).size.bytes ∧
    (∀ r ∈ ([⟨wr .word 0x1002, [0, 0x11, 0x22, 0x33], [0x22, 0x33, 0, 0]⟩] : List ReinterpretRow),
      r.src.length = r.dst.length) ∧ (wr .word 0x1002).dir = .write ∧
    (⟨none, true, some [0, 0x11, 0x22, 0x33]⟩ : M2S).payload = some [0, 0x11, 0x22, 0x33] ∧
    ([0, 0, 0, 0] : Data).length = (rd .word 0x1002).size.bytes ∧
    (∀ x ∈ (some (rd .word 0x1006) : Option TransferMeta), x.burst = .single) ∧
    truncReq (some (rd .word 0x1006)) = some (rd .word 0x1004) ∧
    truncReq (some (rd .word 0x1004)) = some (rd .word 0x1004) ∧
    splitBegun (some (rd .word 0x1006)) false = none ∧
    (∀ y ∈ (some [1, 2] : Option Data), y.length ≠ (rd .word 0x1002).size.bytes) ∧
    (⟨none, true, none⟩ : M2S).payload = none := by decide

/-- The band regions let an alias word and an ordinary unaligned access pass. -/
theorem witness_BandOk : BandOk Config.bandRegions (some (wr .byte 0x2200007C)) ∧
    BandOk Config.bandRegions (some (rd .word 0x24000001)) ∧
    bandReq Config.bandRegions (some (wr .byte 0x2200007C)) = some (rd .word 0x20000000) ∧
    bandBegun Config.bandRegions (some (wr .byte 0x2200007C)) true =
      .bitbandWriteReading ⟨0x20000000, 31, 0⟩ ∧
    bandBegun Config.bandRegions (some (wr .byte 0x2200007C)) false = .normal := by
  refine ⟨?_, ?_, by decide, by decide, by decide⟩ <;> rintro t ⟨⟩ <;> decide

theorem witness_InsertChangesOneBit : ([0x0F, 0, 0, 0] : Data).length = 4 := by decide

theorem witness_ExtractGivesTheBit : ([0x0F, 0, 0, 0x80] : Data).length = 4 ∧
    bandTranslate Config.bandRegions (rd .byte 0x2200007C).addr = some (0x20000000, 31) ∧
    (rd .byte 0x2200007C).addr.toNat % 4 = 0 ∧ (rd .byte 0x2200007C).burst = .single ∧
    (rd .byte 0x2200007C).dir = .read ∧
    bandTranslate Config.bandRegions (wr .word 0x24000000).addr = none ∧
    (false = ((Code.pending == .success || Code.pending == .error2) && true)) := by decide

theorem witness_BandWriteIsReadThenWrite :
    bandTranslate Config.bandRegions (wr .word 0x22000010).addr = some (0x20000000, 4) ∧
    (wr .word 0x22000010).addr.toNat % 4 = 0 ∧ (wr .word 0x22000010).burst = .single ∧
    (wr .word 0x22000010).dir = .write ∧ ([0x0F, 0, 0, 0] : Data).length = 4 ∧
    (⟨none, true, some [1, 0, 0, 0]⟩ : M2S).payload = some [1, 0, 0, 0] ∧
    (wr .word 0x24000000).burst = .single ∧
    bandTranslate Config.bandRegions (wr .word 0x24000000).addr = none ∧ Code.success ≠ .error1 ∧
    Code.pending ≠ .success ∧ (⟨none, true, none⟩ : M2S).payload = none ∧ Code.pending ≠ .error1 ∧
    (∀ y ∈ (some [1] : Option Data), y.length ≠ 4) := by decide

theorem witness_DispatchEmitsTheSlots :
    (driver none (some (wr .byte 0)) none).dataSlot = some (wr .byte 0) ∧
    (driver none (some (wr .byte 0)) none).wdata = none ∧ (wr .byte 0).dir = .write ∧
    (driver none (some (wr .byte 0)) (some [1])).wdata = some [1] ∧
    (∀ t ∈ (driver none (some (rd .byte 0)) none).dataSlot, t.dir = .read) ∧
    (driver none none none).phase = .tickExtra := by decide

/-- A driver that has emitted, with `d` in its data slot, after a response of code `c`. -/
def sent (d : Option TransferMeta) (c : Code) : MasterDriver :=
  ⟨none, d, none, none, c, true, .sentMessages⟩

theorem witness_ResponseIsChecked :
    (driver none none none).phase ≠ .sentMessages ∧ (sent none .error1).phase = .sentMessages ∧
    (sent none .error1).lastCode = .error1 ∧ Code.success ≠ .error2 ∧
    (sent none .success).lastCode ≠ .error1 ∧
    (Code.pending = .error2 ↔ (sent none .success).lastCode = .error1) ∧
    (sent none .success).dataSlot = none ∧ Code.pending ≠ .success ∧
    (sent (some (rd .halfword 0)) .success).dataSlot = some (rd .halfword 0) ∧
    (rd .halfword 0).dir = .read ∧ ([1] : Data).length ≠ (rd .halfword 0).size.bytes := by decide

theorem witness_SuccessAndPendingAreReceived :
    (sent none .success).phase = .sentMessages ∧ (sent none .success).lastCode ≠ .error1 ∧
    (sent none .success).dataSlot = none ∧
    (sent (some (rd .byte 0)) .pending).dataSlot = some (rd .byte 0) ∧ (rd .byte 0).dir = .read ∧
    ([1] : Data).length = (rd .byte 0).size.bytes ∧
    (sent (some (wr .byte 0)) .pending).dataSlot = some (wr .byte 0) ∧ (wr .byte 0).dir = .write := by decide

theorem witness_BusErrorIsTaken :
    (sent (some (rd .word 0x40)) .success).phase = .sentMessages ∧
    (sent (some (rd .word 0x40)) .success).dataSlot = some (rd .word 0x40) ∧
    (sent (some (rd .word 0x40)) .success).lastCode ≠ .error1 ∧
    (sent (some (rd .word 0x40)) .success).addrSlot = none ∧
    ({ sent (some (rd .word 0x40)) .success with addrSlot := some (rd .byte 0, .fresh) } :
      MasterDriver).addrSlot = some (rd .byte 0, .fresh) ∧
    (sent (some (rd .word 0x40)) .error1).lastCode = .error1 := by decide

theorem witness_IdleOnQuietFabric : State.reset.Quiet ∧ 1 < State.reset.chains.length :=
  ⟨reset_quiet, by decide⟩

theorem witness_CommandIsAcceptedOnQuietFabric : State.reset.Quiet ∧
    State.reset.chains[0]? = some (.reset bandCfg) ∧
    commandOf (.writeB 0 true .single 0 0x22000010 noData) =
      some (0, ⟨some (wr .byte 0x22000010), true, noData⟩) ∧
    (wr .byte 0x22000010).burst = .single ∧ (Chain.reset bandCfg).aliasOk (wr .byte 0x22000010) = true ∧
    (Chain.reset bandCfg).aliasOk (rd .word 0x1001) = true := by
  exact ⟨reset_quiet, by decide, by decide, by decide, by decide, by decide⟩

theorem witness_BurstIsRefused : State.reset.Quiet ∧ 0 < State.reset.chains.length ∧
    commandOf (.readB 0 true .increment 0 0 noData) =
      some (0, ⟨some ⟨.read, 0, .byte, .increment, 0⟩, true, noData⟩) :=
  ⟨reset_quiet, by decide, by decide⟩

theorem witness_UnalignedAliasFaults : State.reset.Quiet ∧
    State.reset.chains[0]? = some (.reset bandCfg) ∧
    commandOf (.readH 0 true .single 0 0x22000012 noData) =
      some (0, ⟨some (rd .halfword 0x22000012), true, noData⟩) ∧
    (rd .halfword 0x22000012).burst = .single ∧ bandCfg.bitband = some Config.bandRegions ∧
    (⟨0x22000000, 0x24000000, 0x20000000⟩ : BandRegion) ∈ Config.bandRegions ∧
    0x22000000 ≤ ((Chain.reset bandCfg).presented (rd .halfword 0x22000012)).addr.toNat ∧
    ((Chain.reset bandCfg).presented (rd .halfword 0x22000012)).addr.toNat < 0x24000000 ∧
    ((Chain.reset bandCfg).presented (rd .halfword 0x22000012)).addr.toNat % 4 ≠ 0 := by
  exact ⟨reset_quiet, by decide, by decide, by decide, by decide, by decide, by decide, by decide, by decide⟩

theorem duo_quietBelow (md : MasterDriver) : (duoWith md).QuietBelow := by
  refine ⟨fun c hc => ?_, (by decide : ∀ st ∈ duo.stages, st.quiet = true),
    (by decide : ∀ u ∈ duo.slaves, u.sd.quiet = true), (by decide : ∀ c ∈ duo.cells, c.committable = true)⟩
  have : c = { Chain.reset duoCfg with md := md } := by simpa [duoWith] using hc
  subst this
  exact (by decide : (Chain.reset duoCfg).quietBelow = true)

theorem witness_ResponseCodesAreReceived (d : Option TransferMeta) (c : Code) :
    (duoWith ⟨some (rd .byte 0x1000, .fresh), d, none, none, c, true, .tickExtra⟩).QuietBelow ∧
    (duoWith ⟨some (rd .byte 0x1000, .fresh), d, none, none, c, true, .tickExtra⟩).chains[0]?.map
      (fun x => (x.md.phase, x.md.dataSlot, x.md.lastCode)) = some (.tickExtra, d, c) ∧
    (duoWith ⟨some (rd .byte 0x1000, .fresh), d, none, none, c, true, .tickExtra⟩).chains.length = 1 ∧
    (rd .byte 0x1000).burst = .single ∧ (Chain.reset duoCfg).aliasOk (rd .byte 0x1000) = true ∧
    duoCfg.cancelAddrOnError = false ∧
    ({ duoCfg with cancelAddrOnError := true } : MasterCfg).cancelAddrOnError = true ∧
    (rd .byte 0x1000).dir = .read ∧
    DataWord.fits ⟨true, 0xFF⟩ (some (rd .byte 0x1000)) = true ∧ DataWord.fits noData d = true ∧
    true = (true || !duoCfg.grantWire) ∧ false = (false || !duoCfg.grantWire) :=
  ⟨duo_quietBelow _, rfl, rfl, rfl, by decide, rfl, rfl, rfl, rfl, rfl, rfl, rfl⟩

theorem witness_GrantAndDenyAreReceived :
    (duoWith (driver (some (rd .word 0x20, .fresh)) none none)).QuietBelow ∧
    (duoWith (driver (some (rd .word 0x20, .fresh)) none none)).chains =
      [{ Chain.reset duoCfg with md := driver (some (rd .word 0x20, .fresh)) none none }] ∧
    (driver (some (rd .word 0x20, .fresh)) none none).phase = .tickExtra ∧
    (rd .word 0x20).burst = .single ∧ (Chain.reset duoCfg).aliasOk (rd .word 0x20) = true ∧
    (driver (some (rd .word 0x20, .fresh)) none none).lastCode ≠ .error1 ∧ duoCfg.grantWire = true ∧
    (unwired (driver (some (rd .word 0x20, .fresh)) none none)).chains[0]?.map
      (fun c => c.cfg.grantWire) = some false :=
  ⟨duo_quietBelow _, rfl, rfl, rfl, by decide, by decide, rfl, rfl⟩

theorem duo_direct : duo.Direct 0x1000 0x2000 [] :=
  ⟨_, _, false, rfl, rfl, rfl, by decide, by decide, rfl, rfl, rfl, rfl, rfl, rfl, by decide⟩

theorem witness_RoundTrip : duo.Direct 0x1000 0x2000 [] ∧ Memory.wf [] = true ∧
    0x1000 ≤ (0x1000 : Addr).toNat ∧ (0x1FFF : Addr).toNat < 0x2000 ∧
    (0xFF : Word).toNat < 2 ^ 8 ∧ (0xFFFF : Word).toNat < 2 ^ 16 :=
  ⟨duo_direct, rfl, by decide, by decide, by decide, by decide⟩

theorem witness_UnmappedReadGetsABusError : duo.Direct 0x1000 0x2000 [] ∧
    commandOf (.readW 0 true .single 0 0x2000 noData) = some (0, ⟨some (rd .word 0x2000), true, noData⟩) ∧
    (rd .word 0x2000).dir = .read ∧ (rd .word 0x2000).burst = .single ∧
    (rd .byte 0xFFF).addr.toNat < 0x1000 ∧ 0x2000 ≤ (rd .word 0x2000).addr.toNat ∧
    commandOf (.writeB 0 true .single 0 0xFFF noData) = some (0, ⟨some (wr .byte 0xFFF), true, noData⟩) ∧
    (wr .byte 0xFFF).dir = .write ∧ (⟨true, 0xFF⟩ : DataWord).present = true ∧
    (⟨true, 0xFF⟩ : DataWord).value.toNat < 2 ^ (8 * (wr .byte 0xFFF).size.bytes) :=
  ⟨duo_direct, rfl, rfl, rfl, by decide, by decide, rfl, rfl, rfl, by decide⟩

/-- A fabric whose master received `Error1` from its default slave in the cycle before. -/
def failed : State :=
  { duo with chains := [{ Chain.reset duoCfg with
      md := ⟨none, some (rd .word 0x40), none, none, .error1, true, .tickExtra⟩
      dec := { Decoder.reset with lastCode := .error1, ds := ⟨none, some (rd .word 0x40), .error1⟩ } }] }

theorem witness_Error2FollowsError1 : failed.atBoundary ∧ takesCycle .commit = true ∧
    (∃ t, exec .commit failed = .next t ∧ t.chains.map (fun c => c.md.lastCode) = [.error2]) ∧
    duo.atBoundary ∧ ∃ t, exec .commit duo = .next t ∧ t.chains.map (fun c => c.md.lastCode) = [.success] := by
  refine ⟨?_, by decide, ⟨_, rfl, by decide⟩, ?_, _, rfl, by decide⟩ <;> unfold State.atBoundary <;> decide

/-- The fabric of S4 after its first cycle: the write of `5A` to `0x1008` is in its data phase next. -/
def storing : State := after (.writeB 0 true .single 0 0x1008 noData) duo

theorem witness_CycleChangesOnlyWrittenBytes : storing.atBoundary ∧
    takesCycle (.idle 0 true ⟨true, 0x5A⟩) = true ∧
    (∃ t, exec (.idle 0 true ⟨true, 0x5A⟩) storing = .next t ∧ t.slaveByte 0 0x1008 = 0x5A) ∧
    (storing.slaves[0]?.map Slave.handler) = some (.ram [] [] none) ∧ Memory.wf [] = true ∧
    storing.slaveInput (.idle 0 true ⟨true, 0x5A⟩) 0 = .ok ⟨none, true, some [0x5A]⟩ ∧
    (∀ j < (wr .byte 0x1008).size.bytes, 0x1009 ≠ ((wr .byte 0x1008).addr.toNat + j) % 2 ^ 32) ∧
    duo.slaveInput .commit 0 = .ok ⟨none, true, none⟩ := by
  refine ⟨?_, by decide, ⟨_, rfl, by decide⟩, by decide, rfl, rfl, by decide, rfl⟩
  unfold State.atBoundary
  decide

/-- The same with the word of S4's second cycle waiting: `DPW` is E13's. -/
def fed : State := { storing with inbox := [⟨.addressPhase, 0, [2, 0, 0, 0, 0, 0, 0xB5, 0, 0, 0, 0]⟩] }

theorem witness_StepKeepsTheInvariant : fed.Inv ∧
    ∃ t, step fed = .next t ∧ t.slaves.map Slave.handler = [.ram [(0x1008, 0x5A)] [] none] := by
  refine ⟨?_, _, rfl, by decide⟩
  unfold State.Inv
  decide

theorem witness_ResetValues :
    Chain.reset bandCfg ∈ (State.ofConfig Config.default).chains ∧
    (State.ofConfig Config.default).stages ≠ [] ∧ (State.ofConfig Config.default).slaves ≠ [] := by
  decide

theorem witness_ConfigurationIsStatic : ∃ t, step duo = .next t := ⟨_, rfl⟩

theorem witness_CallsChangeTheirOwnUnitOnly : takesCycle (.tryRequest 0 (rd .word 0x20)) = false ∧
    (∃ t, exec (.tryRequest 0 (rd .word 0x20)) duo = .next t) ∧
    (∃ t, exec (.setNext 0 5) duo = .next t) ∧ (∃ t, exec (.read 0 (rd .word 0x20)) duo = .next t) ∧
    (∃ t, exec (.decode 0 0x20) duo = .next t) ∧ ownerCallAt (.tryRequest 0 (rd .word 0x20)) = some 0 ∧
    handlerCallAt (.read 0 (rd .word 0x20)) = some 0 ∧ cellOpAt (.setNext 0 5) = some 0 ∧
    ownerCallAt (.decode 0 0x20) = none ∧ handlerCallAt (.decode 0 0x20) = none ∧
    cellOpAt (.decode 0 0x20) = none :=
  ⟨by decide, ⟨_, rfl⟩, ⟨_, rfl⟩, ⟨_, rfl⟩, ⟨_, rfl⟩, rfl, rfl, rfl, rfl, rfl, rfl⟩

end Sys2Proof.Tests
end

section
/-! The operations on a unit refuse a unit number that the topology (R9) does not have, each by the
name of its kind of unit (log 19), and the obligation O6 that follows. -/

namespace Sys2Proof.Proofs

open Sys2Proof Sys2Proof.Machine

/-! ### What the words of the two interfaces run -/

/-- A bus command's row puts its words on its master port for one cycle (R83, log 4). -/
theorem exec_of_commandOf {i : Instr} {p : Nat} {d : Drive} (h : commandOf i = some (p, d))
    (s : State) : exec i s = present p d s := by
  cases i <;> cases h <;> rfl

/-- A response word's row is received by its Master Driver for one cycle (R84, log 5). -/
theorem exec_of_responseOf {i : Instr} {p : Nat} {r : Reply} (h : responseOf i = some (p, r))
    (s : State) : exec i s = respond p r s := by
  cases i <;> cases h <;> rfl

/-! ### Each shared operation on a unit that is not there -/

section Masters

variable {s : State} {p : Nat}

theorem withWord_noSuchMaster (hp : s.chains.length ≤ p) (d : DataWord) (r : Except Fault State) :
    withWord p d r s = .refused (.noSuchMaster p) := by
  simp [withWord, List.getElem?_eq_none hp]

theorem onMaster_noSuchMaster (hp : s.chains.length ≤ p)
    (f : Chain → Except Fault (Ret × MasterDriver)) :
    onMaster p f s = .refused (.noSuchMaster p) := by
  simp [onMaster, List.getElem?_eq_none hp]

theorem notify_noSuchMaster (hp : s.chains.length ≤ p) (l : List TransferMeta) (e : Event) :
    notify p l e s = .refused (.noSuchMaster p) := by
  simp [notify, Nat.not_lt.mpr hp]

theorem execDecode_noSuchMaster (hp : s.chains.length ≤ p) (a : Addr) :
    execDecode p a s = .refused (.noSuchMaster p) := by
  simp [execDecode, List.getElem?_eq_none hp]

theorem execBbTranslate_noSuchMaster (hp : s.chains.length ≤ p) (a : Addr) :
    execBbTranslate p a s = .refused (.noSuchMaster p) := by
  simp [execBbTranslate, List.getElem?_eq_none hp]

end Masters

section OtherUnits

variable {s : State} {p : Nat}

theorem onHandler_noSuchSlave (hp : s.slaves.length ≤ p) (t : TransferMeta)
    (f : Handler → Except Fault (Answer × Handler)) (e : Answer → Event) :
    onHandler p t f e s = .refused (.noSuchSlave p) := by
  simp [onHandler, List.getElem?_eq_none hp]

theorem execArbitrateFixed_noSuchStage (hp : s.stages.length ≤ p) (m : Nat) :
    execArbitrateFixed p m s = .refused (.noSuchStage p) := by
  simp [execArbitrateFixed, List.getElem?_eq_none hp]

theorem execArbitrateRr_noSuchStage (hp : s.stages.length ≤ p) (m : Nat) :
    execArbitrateRr p m s = .refused (.noSuchStage p) := by
  simp [execArbitrateRr, List.getElem?_eq_none hp]

theorem onCell_noSuchCell (hp : s.cells.length ≤ p) (f : Flop → Except Fault (Ret × Flop)) :
    onCell p f s = .refused (.noSuchCell p) := by
  simp [onCell, List.getElem?_eq_none hp]

end OtherUnits

/-! ### The obligation -/

/-- Settles O6: every row runs one of the shared operations above on the unit it names. -/
theorem unitsOutsideTheTopologyAreRefused : Obligations.UnitsOutsideTheTopologyAreRefused := by
  intro s p
  refine ⟨fun hp t u z v a d r i hi => ?masters, fun hp t v f => ⟨?read, ?preWrite, ?write⟩,
    fun hp m => ⟨?fixed, ?rr⟩, fun hp v => ⟨?setNext, ?deref⟩⟩
  case masters =>
    obtain hc | hr | rfl | rfl | rfl | rfl | rfl | rfl | rfl := hi
    · exact (exec_of_commandOf hc s).trans (withWord_noSuchMaster hp _ _)
    · exact (exec_of_responseOf hr s).trans (withWord_noSuchMaster hp _ _)
    · exact onMaster_noSuchMaster hp _
    · exact onMaster_noSuchMaster hp _
    · exact onMaster_noSuchMaster hp _
    · exact notify_noSuchMaster hp _ _
    · exact notify_noSuchMaster hp _ _
    · exact execDecode_noSuchMaster hp a
    · exact execBbTranslate_noSuchMaster hp a
  case read => simp only [exec, execRead, onHandler_noSuchSlave hp]
  case preWrite => simp only [exec, execPreWrite, onHandler_noSuchSlave hp]
  case write => simp only [exec, execWrite, onHandler_noSuchSlave hp]
  case fixed => exact execArbitrateFixed_noSuchStage hp m
  case rr => exact execArbitrateRr_noSuchStage hp m
  case setNext => exact onCell_noSuchCell hp _
  case deref => exact onCell_noSuchCell hp _

end Sys2Proof.Proofs
end

section
/-! What a row of the operation table that takes no cycle does to the state (R21, R22): the inversion
lemma `exec_call`, and the obligation O60 that follows. -/

namespace Sys2Proof.Proofs

open Sys2Proof Sys2Proof.Machine

/-- The kinds of effect of a row that takes no cycle: an owner's call, a handler call, an operation on one
cell, or an answer beside an unchanged fabric. -/
inductive CallDid (i : Instr) (s : State) : State → Prop where
  | owner {p : Nat} {c : Chain} {k : OwnerCall} {r : Ret} {md : MasterDriver}
      (ho : ownerCallAt i = some p) (hh : handlerCallAt i = none) (hf : cellOpAt i = none)
      (hc : s.chains[p]? = some c) (hk : mdCall c.cfg.cancelMode c.md k = .ok (r, md)) :
      CallDid i s { s with chains := s.chains.set p { c with md := md }, ret := r, out := [] }
  | handler {p : Nat} {u : Slave} {h : Handler} {a : Answer} {e : Event}
      (ho : ownerCallAt i = none) (hh : handlerCallAt i = some p) (hf : cellOpAt i = none)
      (hu : s.slaves[p]? = some u) (hw : u.handler.wf = true → h.wf = true) :
      CallDid i s
        { s with slaves := s.slaves.set p { u with handler := h }, ret := .answer a, out := [e] }
  | cell {p : Nat} {c c' : Flop} {r : Ret}
      (ho : ownerCallAt i = none) (hh : handlerCallAt i = none) (hf : cellOpAt i = some p)
      (hc : s.cells[p]? = some c) (hkind : c'.kind = c.kind) (hcur : c'.cur = c.cur) :
      CallDid i s { s with cells := s.cells.set p c', ret := r, out := [] }
  | answer {r : Ret} {l : List Event}
      (ho : ownerCallAt i = none) (hh : handlerCallAt i = none) (hf : cellOpAt i = none) :
      CallDid i s { s with ret := r, out := l }

section Arms

variable {i : Instr} {s t : State} {p : Nat}

/-- A row that runs an owner's call changes one Master Driver as the call does (R151). -/
theorem CallDid.of_onMaster {k : OwnerCall}
    (ho : ownerCallAt i = some p) (hh : handlerCallAt i = none) (hf : cellOpAt i = none)
    (h : onMaster p (fun c => mdCall c.cfg.cancelMode c.md k) s = .next t) : CallDid i s t := by
  obtain ⟨c, r, md, hc, hk, rfl⟩ := onMaster_eq_next.1 h
  exact .owner ho hh hf hc hk

/-- A row that runs a handler operation changes one handler, whose store stays canonical (R121). -/
theorem CallDid.of_onHandler {x : TransferMeta} {f : Handler → Except Fault (Answer × Handler)}
    {e : Answer → Event}
    (ho : ownerCallAt i = none) (hh : handlerCallAt i = some p) (hf : cellOpAt i = none)
    (hw : ∀ g a h, g.wf = true → f g = .ok (a, h) → h.wf = true)
    (h : onHandler p x f e s = .next t) : CallDid i s t := by
  obtain ⟨u, a, g, hu, -, hg, rfl⟩ := onHandler_eq_next.1 h
  exact .handler ho hh hf hu fun hwf => hw _ _ _ hwf hg

/-- A row that runs a cell operation changes one cell, but not its kind or its committed value. -/
theorem CallDid.of_onCell {f : Flop → Except Fault (Ret × Flop)}
    (ho : ownerCallAt i = none) (hh : handlerCallAt i = none) (hf : cellOpAt i = some p)
    (hkeep : ∀ c r c', f c = .ok (r, c') → c'.kind = c.kind ∧ c'.cur = c.cur)
    (h : onCell p f s = .next t) : CallDid i s t := by
  obtain ⟨c, r, c', hc, hr, rfl⟩ := onCell_eq_next.1 h
  obtain ⟨hkind, hcur⟩ := hkeep c r c' hr
  exact .cell ho hh hf hc hkind hcur

/-- A callback tells the owner something and changes no flop (R162, R165). -/
theorem CallDid.of_notify {l : List TransferMeta} {e : Event}
    (ho : ownerCallAt i = none) (hh : handlerCallAt i = none) (hf : cellOpAt i = none)
    (h : notify p l e s = .next t) : CallDid i s t := by
  obtain ⟨-, -, rfl⟩ := notify_eq_next.1 h
  exact .answer ho hh hf

end Arms

/-! The pure functions inside the components leave their value (R86). -/

section Pure

variable {s t : State} {p : Nat}

theorem execDecode_eq_next {a : Addr} :
    execDecode p a s = .next t ↔
      ∃ c, s.chains[p]? = some c ∧ t = returned (.tag (decodeAddr c.cfg.ports a)) s := by
  unfold execDecode
  cases s.chains[p]? <;> simp [eq_comm]

theorem execBbTranslate_eq_next {a : Addr} :
    execBbTranslate p a s = .next t ↔
      ∃ c, s.chains[p]? = some c ∧
        t = returned (.bit (bandTranslate (c.cfg.bitband.getD []) a)) s := by
  unfold execBbTranslate
  cases s.chains[p]? <;> simp [eq_comm]

theorem execArbitrateFixed_eq_next {m : Nat} :
    execArbitrateFixed p m s = .next t ↔
      ∃ st, s.stages[p]? = some st ∧
        t = returned (.master (arbitrateFixed st.cfg.inputs (maskMembers st.cfg.inputs m))) s := by
  unfold execArbitrateFixed
  cases s.stages[p]? <;> simp [eq_comm]

theorem execArbitrateRr_eq_next {m : Nat} :
    execArbitrateRr p m s = .next t ↔
      ∃ st, s.stages[p]? = some st ∧
        t = returned (.master (arbitrateRr st.cfg.inputs st.rrHead (maskMembers st.cfg.inputs m))) s := by
  unfold execArbitrateRr
  cases s.stages[p]? <;> simp [eq_comm]

end Pure

/-- What `set_next` keeps of its cell (R102). -/
theorem flopSetNext_keeps {v : Word} {c c' : Flop} {r : Ret}
    (h : ((flopSetNext c v).map fun c' => (Ret.unit, c')) = .ok (r, c')) :
    c'.kind = c.kind ∧ c'.cur = c.cur := by
  obtain ⟨x, hx, hr⟩ := except_map_eq_ok.1 h
  obtain ⟨-, rfl⟩ := flopSetNext_eq_ok.1 hx
  cases hr
  exact ⟨rfl, rfl⟩

/-- What `deref` keeps of its cell (R103). -/
theorem flopDeref_keeps {c c' : Flop} {r : Ret}
    (h : ((flopDeref c).map fun (v, c') => (Ret.value v, c')) = .ok (r, c')) :
    c'.kind = c.kind ∧ c'.cur = c.cur := by
  obtain ⟨⟨v, x⟩, hx, hr⟩ := except_map_eq_ok.1 h
  obtain ⟨-, -, rfl⟩ := flopDeref_eq_ok.1 hx
  cases hr
  exact ⟨rfl, rfl⟩

/-- A handler operation that cannot fail gives back the handler it computed. -/
theorem wf_of_ok {x : Answer × Handler} {a : Answer} {h : Handler} (hw : x.2.wf = true)
    (e : (Except.ok x : Except Fault (Answer × Handler)) = .ok (a, h)) : h.wf = true := by
  obtain rfl := Except.ok.inj e
  exact hw

/-- Everything a row that takes no cycle can do when it gives a next state. -/
theorem exec_call {i : Instr} {s t : State} (hi : takesCycle i = false) (h : exec i s = .next t) :
    CallDid i s t := by
  cases i with
  | tryRequest p x => exact .of_onMaster (k := .tryRequest x) rfl rfl rfl h
  | tryForceCancel p => exact .of_onMaster (k := .tryForceCancel) rfl rfl rfl h
  | provideData p z v => exact .of_onMaster (k := .provideData (wordData z v)) rfl rfl rfl h
  | transferDone p x v => exact .of_notify rfl rfl rfl h
  | transfersAborted p x y => exact .of_notify rfl rfl rfl h
  | read p x => exact .of_onHandler rfl rfl rfl (fun _ _ _ hw e => checkedRead_wf hw e) h
  | preWrite p x =>
    exact .of_onHandler (f := fun g => .ok (handlerPreWrite g x)) rfl rfl rfl
      (fun _ _ _ hw e => wf_of_ok (handlerPreWrite_wf hw) e) h
  | write p x v f =>
    exact .of_onHandler (f := fun g => .ok (handlerWrite g x (wordData x.size v) f)) rfl rfl rfl
      (fun _ _ _ hw e => wf_of_ok (handlerWrite_wf hw) e) h
  | setNext p v => exact .of_onCell rfl rfl rfl (fun _ _ _ => flopSetNext_keeps) h
  | deref p => exact .of_onCell rfl rfl rfl (fun _ _ _ => flopDeref_keeps) h
  | decode p a =>
    obtain ⟨-, -, rfl⟩ := execDecode_eq_next.1 h
    exact .answer rfl rfl rfl
  | arbitrateFixed p m =>
    obtain ⟨-, -, rfl⟩ := execArbitrateFixed_eq_next.1 h
    exact .answer rfl rfl rfl
  | arbitrateRr p m =>
    obtain ⟨-, -, rfl⟩ := execArbitrateRr_eq_next.1 h
    exact .answer rfl rfl rfl
  | split x => cases h; exact .answer rfl rfl rfl
  | bbTranslate p a =>
    obtain ⟨-, -, rfl⟩ := execBbTranslate_eq_next.1 h
    exact .answer rfl rfl rfl
  | _ => cases hi

/-- What an owner's call changes of its Master Driver: the address slot, and write data that belongs to
the write in its data slot (R155 to R157). -/
theorem mdCall_changes {mode : CancelMode} {md md' : MasterDriver} {k : OwnerCall} {r : Ret}
    (h : mdCall mode md k = .ok (r, md')) :
    ∃ a w, md' = { md with addrSlot := a, wdata := w } ∧
      (w = md.wdata ∨
        ∃ d x, w = some d ∧ md.dataSlot = some x ∧ x.dir = .write ∧ dataFits x d = true) := by
  cases k with
  | tryRequest x =>
    obtain ⟨⟨b, m⟩, hm, hr⟩ := except_map_eq_ok.1 h
    cases hr
    obtain ⟨-, -, ⟨-, -, rfl⟩ | ⟨-, -, rfl⟩⟩ := mdTryRequest_eq_ok.1 hm
    all_goals exact ⟨_, _, rfl, .inl rfl⟩
  | tryForceCancel =>
    obtain ⟨⟨b, m⟩, hm, hr⟩ := except_map_eq_ok.1 h
    cases hr
    obtain ⟨-, ⟨_, _, -, -, -, rfl⟩ | ⟨-, rfl, -⟩⟩ := mdTryForceCancel_eq_ok.1 hm
    all_goals exact ⟨_, _, rfl, .inl rfl⟩
  | provideData d =>
    obtain ⟨m, hm, hr⟩ := except_map_eq_ok.1 h
    cases hr
    obtain ⟨-, -, ⟨x, hx, hdir, hfit⟩, rfl⟩ := mdProvideData_eq_ok.1 hm
    exact ⟨_, _, rfl, .inr ⟨d, x, rfl, hx, hdir, hfit⟩⟩

/-- Settles O60, by the kinds of effect of a row that takes no cycle. -/
theorem callsChangeTheirOwnUnitOnly : Obligations.CallsChangeTheirOwnUnitOnly := by
  intro s t i hi h
  cases exec_call hi h with
  | owner ho hh hf hc hk =>
    obtain ⟨a, w, rfl, -⟩ := mdCall_changes hk
    simpa [ho, hh, hf, hc] using ⟨a, w, rfl⟩
  | handler ho hh hf hu hw =>
    simpa [ho, hh, hf, hu] using ⟨_, rfl⟩
  | cell ho hh hf hc hkind hcur =>
    simpa [ho, hh, hf, hc] using ⟨_, rfl, hkind, hcur⟩
  | answer ho hh hf => simp [ho, hh, hf]

end Sys2Proof.Proofs
end

section
/-! The configuration is static (R33): every shared operation, and every pass of a cycle, gives back the
parameters that it was given. -/

namespace Sys2Proof.Proofs

open Sys2Proof Sys2Proof.Machine

/-- A cycle keeps the parameters of every chain. -/
theorem cycle_chains_cfg {drive : Option (Nat × Drive)} {reply : Option (Nat × Reply)} {s t : State}
    (h : cycle drive reply s = .ok t) : t.chains.map Chain.cfg = s.chains.map Chain.cfg := by
  obtain ⟨down, stages, outs, dflt, up, lanes, cells, hdown, -, -, hdflt, hup, hcommit, -, rfl⟩ :=
    cycle_eq_ok.1 h
  calc (lanes.map Lane.chain).map Chain.cfg
      = lanes.map (fun l => l.chain.cfg) := List.map_map
    _ = up.map (fun l => l.chain.cfg) :=
        mapE_map_eq (fun _ _ e => by obtain ⟨-, rfl⟩ := laneCommit_spec e; rfl) hcommit
    _ = dflt.map (fun l => l.chain.cfg) := chainsUp_cfg hup
    _ = down.map (fun l => l.chain.cfg) :=
        mapE_map_eq (fun _ _ e => by obtain ⟨_, _, -, rfl⟩ := laneDefault_spec e; rfl) hdflt
    _ = s.chains.map Chain.cfg := chainsDown_cfg hdown

/-- A pass over numbered units that keeps a projection of each keeps that of the list. -/
theorem mapE_zipIdx_map_eq {α β γ : Type} {f : α × Nat → Except Fault β} {g : α → γ} {g' : β → γ}
    (hkeep : ∀ a n b, f (a, n) = .ok b → g' b = g a) {l : List α} {l' : List β}
    (h : mapE f l.zipIdx = .ok l') : l'.map g' = l.map g := by
  calc l'.map g' = l.zipIdx.map (g ∘ Prod.fst) := mapE_map_eq (fun a b e => hkeep a.1 a.2 b e) h
    _ = l.map g := by rw [← List.map_map, List.zipIdx_map_fst]

/-- A cycle keeps the parameters of every output stage. -/
theorem cycle_stages_cfg {drive : Option (Nat × Drive)} {reply : Option (Nat × Reply)} {s t : State}
    (h : cycle drive reply s = .ok t) : t.stages.map Stage.cfg = s.stages.map Stage.cfg := by
  obtain ⟨down, stages, outs, dflt, up, lanes, cells, -, hstages, -, -, -, -, -, rfl⟩ := cycle_eq_ok.1 h
  calc (stages.map (stageFinish outs)).map Stage.cfg
      = stages.map (fun st => st.stage.cfg) := List.map_map
    _ = s.stages.map Stage.cfg :=
        mapE_zipIdx_map_eq (fun _ _ _ e => congrArg Stage.cfg (stageStart_spec e).1) hstages

/-- A cycle keeps the parameters of every slave. -/
theorem cycle_slaves_cfg {drive : Option (Nat × Drive)} {reply : Option (Nat × Reply)} {s t : State}
    (h : cycle drive reply s = .ok t) : t.slaves.map Slave.cfg = s.slaves.map Slave.cfg := by
  obtain ⟨down, stages, outs, dflt, up, lanes, cells, -, -, houts, -, -, -, -, rfl⟩ := cycle_eq_ok.1 h
  calc (outs.map SlaveOut.slave).map Slave.cfg
      = outs.map (fun o => o.slave.cfg) := List.map_map
    _ = s.slaves.map Slave.cfg :=
        mapE_zipIdx_map_eq (fun _ _ _ e => by obtain ⟨_, _, -, -, -, rfl⟩ := slaveCycle_spec e; rfl) houts

/-- What the clock's commit alone replaces: the Master Drivers and the cells (R110 step 6). -/
theorem commitEdge_eq_ok {s t : State} :
    commitEdge s = .ok t ↔ ∃ chains cells,
      mapE (fun c => (mdCommit c.md).map fun md => ({ c with md := md } : Chain)) s.chains = .ok chains ∧
      mapE flopCommit s.cells = .ok cells ∧
      t = { s with chains := chains, cells := cells, ret := .unit, out := [] } := by
  unfold commitEdge
  simp only [except_bind_eq_ok, ok_eq_comm]
  constructor
  · rintro ⟨chains, hchains, cells, hcells, ht⟩
    exact ⟨chains, cells, hchains, hcells, ht⟩
  · rintro ⟨chains, cells, hchains, hcells, ht⟩
    exact ⟨chains, hchains, cells, hcells, ht⟩

/-- The clock's commit alone keeps the configuration. -/
theorem commitEdge_config {s t : State} (h : commitEdge s = .ok t) : t.config = s.config := by
  obtain ⟨chains, cells, hchains, -, rfl⟩ := commitEdge_eq_ok.1 h
  have hcfg : chains.map Chain.cfg = s.chains.map Chain.cfg :=
    mapE_map_eq (fun _ _ e => by obtain ⟨_, -, rfl⟩ := except_map_eq_ok.1 e; rfl) hchains
  simp [State.config, hcfg]

/-- A row that takes no cycle keeps the configuration. -/
theorem CallDid.config {i : Instr} {s t : State} (h : CallDid i s t) : t.config = s.config := by
  cases h with
  | owner _ _ _ hc _ => simp only [State.config, set_map_same _ _ _ _ _ hc]
  | handler _ _ _ hu _ => simp only [State.config, set_map_same _ _ _ _ _ hu]
  | cell _ _ _ _ _ _ => rfl
  | answer _ _ _ => rfl

/-- Settles O59: a step runs a row, which takes a cycle, the commit alone, or neither. -/
theorem configurationIsStatic : Obligations.ConfigurationIsStatic := by
  intro s t h
  obtain ⟨i, inbox, hi⟩ := step_exec h
  cases htc : takesCycle i with
  | true =>
    obtain ⟨d, r, hcycle, -, -⟩ | ⟨-, hedge, -⟩ := takes_cycle htc hi
    · simp only [State.config, cycle_chains_cfg hcycle, cycle_stages_cfg hcycle, cycle_slaves_cfg hcycle]
    · exact (commitEdge_config hedge).trans rfl
  | false => exact (exec_call htc hi).config

end Sys2Proof.Proofs
end

section
/-! The state after reset (R39, R330): the obligations O58 and O57. -/

namespace Sys2Proof.Proofs

open Sys2Proof Sys2Proof.Machine

/-- A fabric after reset runs under the configuration it was made of (R33). -/
theorem config_ofConfig (cfg : Config) : (State.ofConfig cfg).config = cfg := by
  have hm : Chain.cfg ∘ Chain.reset = id := rfl
  have hs : Stage.cfg ∘ Stage.reset = id := rfl
  have hu : Slave.cfg ∘ Slave.reset = id := rfl
  simp [State.config, State.ofConfig, hm, hs, hu]

/-- Settles O58: each unit of the fabric is the reset value of its kind. -/
theorem resetValues : Obligations.ResetValues := by
  intro cfg
  refine ⟨fun c hc => ?chain, fun st hst => ?stage, fun u hu => ?slave, rfl, config_ofConfig cfg⟩
  case chain =>
    obtain ⟨m, -, rfl⟩ := List.mem_map.1 hc
    exact ⟨rfl, rfl, rfl, rfl, rfl, rfl, rfl, rfl⟩
  case stage =>
    obtain ⟨m, -, rfl⟩ := List.mem_map.1 hst
    exact ⟨rfl, rfl, rfl, rfl⟩
  case slave =>
    obtain ⟨m, -, rfl⟩ := List.mem_map.1 hu
    rfl

theorem chain_reset_wf (m : MasterCfg) : (Chain.reset m).wf = true := by
  have hal : Aligner.reset.wf m.aligner = true := by cases m.aligner <;> rfl
  have hmd : MasterDriver.reset.wf = true := rfl
  have hbb : Translator.reset.wf = true := rfl
  have hds : Decoder.reset.ds.dfltWf = true := rfl
  simp [Chain.wf, Chain.reset, hmd, hal, hbb, hds]

/-- A fabric of any configuration has the invariant after reset. -/
theorem inv_ofConfig (cfg : Config) : (State.ofConfig cfg).Inv := by
  refine ⟨fun c hc => ?chain, fun st hst => ?stage, fun u hu => ?slave⟩
  case chain =>
    obtain ⟨m, -, rfl⟩ := List.mem_map.1 hc
    exact chain_reset_wf m
  case stage =>
    obtain ⟨m, -, rfl⟩ := List.mem_map.1 hst
    simp [Stage.wf, Stage.reset]
  case slave =>
    obtain ⟨m, -, rfl⟩ := List.mem_map.1 hu
    rfl

/-- Settles O57: the machine's configuration is one of those. -/
theorem resetHasTheInvariant : Obligations.ResetHasTheInvariant :=
  inv_ofConfig .default

end Sys2Proof.Proofs
end

section
/-! Every step keeps the invariant (O56): for each kind of unit, that what a cycle makes of it is again at
a cycle boundary. -/

namespace Sys2Proof.Proofs

open Sys2Proof Sys2Proof.Machine

/-! ### The Master Driver -/

/-- The write data of a driver belongs to the write in its data slot (R156). -/
def Backed (md : MasterDriver) : Prop :=
  ∀ d, md.wdata = some d → ∃ x, md.dataSlot = some x ∧ x.dir = .write ∧ dataFits x d = true

theorem masterDriver_wf_iff {md : MasterDriver} :
    md.wf = true ↔ md.phase = .tickExtra ∧ Backed md ∧
      (readyCode md.lastCode = false → md.dataSlot ≠ none) := by
  obtain ⟨a, ds, wd, cn, code, g, ph⟩ := md
  cases wd <;> cases ds <;> cases code <;> simp [MasterDriver.wf, Backed]

theorem backed_of_wdata_none {md : MasterDriver} (h : md.wdata = none) : Backed md := by
  simp [Backed, h]

/-- An owner's call leaves a driver at its cycle boundary (R155 to R157). -/
theorem mdCall_wf {mode : CancelMode} {md md' : MasterDriver} {k : OwnerCall} {r : Ret}
    (h : mdCall mode md k = .ok (r, md')) (hwf : md.wf = true) : md'.wf = true := by
  obtain ⟨hphase, hbacked, hheld⟩ := masterDriver_wf_iff.1 hwf
  obtain ⟨a, w, rfl, hw⟩ := mdCall_changes h
  refine masterDriver_wf_iff.2 ⟨hphase, ?_, hheld⟩
  obtain rfl | ⟨d, x, rfl, hx, hdir, hfit⟩ := hw
  · exact hbacked
  · rintro _ ⟨⟩
    exact ⟨x, hx, hdir, hfit⟩

/-- Dispatch keeps the write data with its write (R158, log 4). -/
theorem mdEmit_backed {drive : Option (Nat × Drive)} {p : Nat} {md md' : MasterDriver} {w : M2S}
    (h : mdEmit drive p md = .ok (md', w)) (hb : Backed md) : Backed md' := by
  obtain ⟨hslot, -, hdata | ⟨x, v, hx, hdir, hdata⟩⟩ := md_emit_spec h
  · rwa [Backed, hslot, hdata]
  · rw [Backed, hslot, hdata]
    rintro _ ⟨⟩
    exact ⟨x, hx, hdir, dataFits_wordData x v⟩

/-- A code that is not `Success` arrives only while a transfer is in data phase (R159). -/
theorem mdCheck_dataSlot {md : MasterDriver} {code : Code} (h : mdCheck md code = .ok ())
    (hc : code ≠ .success) : md.dataSlot ≠ none := by
  intro hd
  simp only [mdCheck, hd, hc, ne_eq, not_false_eq_true, and_self, if_true] at h
  split_ifs at h

/-- The rule of the code empties the data slot at a ready code and else keeps the driver (R162 to
R165). -/
theorem mdCode_spec {p : Nat} {md m : MasterDriver} {code : Code} {data : Option Data} {ev : List Event}
    (h : mdCode p md code data = .ok (m, ev)) (hb : Backed md) :
    (readyCode code = true ∧ m.wdata = none) ∨ (readyCode code = false ∧ m = md) := by
  unfold mdCode at h
  cases hd : md.dataSlot with
  | none =>
    rw [hd] at h
    cases h
    have hw : md.wdata = none := by
      by_contra hne
      obtain ⟨d, hw⟩ := Option.ne_none_iff_exists'.1 hne
      obtain ⟨x, hx, -⟩ := hb d hw
      simp [hd] at hx
    cases readyCode code
    · exact .inr ⟨rfl, rfl⟩
    · exact .inl ⟨rfl, hw⟩
  | some x =>
    rw [hd] at h
    cases code with
    | success =>
      simp only [mdDone] at h
      split at h
      · cases h; exact .inl ⟨rfl, rfl⟩
      · split at h
        · cases h; exact .inl ⟨rfl, rfl⟩
        · cases h
      · cases h
    | pending => cases h; exact .inr ⟨rfl, rfl⟩
    | error1 => cases h; exact .inr ⟨rfl, rfl⟩
    | error2 => cases h; exact .inl ⟨rfl, rfl⟩

/-- The address-slot rule touches no write data, and the data slot at a ready code only (R160). -/
theorem mdAdvance_keeps (b : Bool) (md : MasterDriver) (code : Code) (grant : Bool) :
    (mdAdvance b md code grant).wdata = md.wdata ∧
      (readyCode code = false → (mdAdvance b md code grant).dataSlot = md.dataSlot) := by
  unfold mdAdvance
  split
  · exact ⟨rfl, fun _ => rfl⟩
  · split_ifs with h
    · exact ⟨rfl, fun hc => by simp [acceptedBy, hc] at h⟩
    · exact ⟨rfl, fun _ => rfl⟩
    · exact ⟨rfl, fun _ => rfl⟩

/-- A driver that has received its response and commits is at a cycle boundary (R152, R159 to R165). -/
theorem mdReceive_wf {b : Bool} {p : Nat} {md md' : MasterDriver} {r : S2M} {ev : List Event}
    (h : mdReceive b p md r = .ok (md', ev)) (hb : Backed md) :
    ({ md' with phase := .tickExtra } : MasterDriver).wf = true := by
  obtain ⟨hcheck, m, hm, rfl⟩ := mdReceive_eq_ok.1 h
  obtain ⟨hwdata, hslot⟩ := mdAdvance_keeps b m r.code r.grant
  refine masterDriver_wf_iff.2 ⟨rfl, ?_⟩
  obtain ⟨hready, hw⟩ | ⟨hready, rfl⟩ := mdCode_spec hm hb
  · refine ⟨backed_of_wdata_none (hwdata.trans hw), fun hc => ?_⟩
    simp [hready] at hc
  · refine ⟨?_, fun _ => ?_⟩
    · rw [Backed, hwdata, hslot hready]
      exact hb
    · rw [hslot hready]
      exact mdCheck_dataSlot hcheck fun hc => by simp [hc] at hready

/-! ### The Aligner -/

/-- The cursors of a split are in range and its composite has the transfer's length (R29). -/
def SplitOk (pol : AlignPolicy) (s : Split) : Prop :=
  s.next ≤ subCount pol s.xfer ∧ s.acc.length = xferBytes s.xfer ∧ ∀ i, s.cur = some i → i < s.next

theorem aligner_wf_some_iff {pol : AlignPolicy} {al : Aligner} :
    al.wf (some pol) = true ↔ ∀ s, al.split = some s → SplitOk pol s := by
  unfold Aligner.wf
  cases al.split with
  | none => simp
  | some s => cases hc : s.cur <;> simp [SplitOk, hc, and_assoc]

/-- A split that begins is at its first sub-transfer, the accumulator full of zeros (R238). -/
theorem alFresh_ok {pol : AlignPolicy} {al : Aligner} {up : M2S} {code : Code} {g : Bool} {s : Split}
    (h : alFresh pol al up code g = some s) : SplitOk pol s := by
  unfold alFresh at h
  split at h
  · cases h
  · split at h
    · cases h
      exact ⟨subCount_pos pol _, List.length_replicate, by rintro _ ⟨⟩; exact Nat.one_pos⟩
    · cases h

/-- Accumulating keeps the length of the composite (R234, R237). -/
theorem alAccumulate_length {pol : AlignPolicy} {s : Split} {i : Nat} {data : Option Data} {acc : Data}
    (h : alAccumulate pol s i data = .ok acc) (hs : s.acc.length = xferBytes s.xfer) :
    acc.length = xferBytes s.xfer := by
  unfold alAccumulate at h
  split at h
  · cases h; exact hs
  · split at h
    · rename_i hlen
      cases h
      exact (putData_length (hs ▸ chunkOf_le pol s.xfer i) hlen).trans hs
    · cases h
  · cases h

/-- The accumulator that goes with an answer has the transfer's length (R237). -/
theorem alAnswer_acc_length {pol : AlignPolicy} {al : Aligner} {dn : S2M} {a : AlignAnswer} {s : Split}
    (h : alAnswer pol al dn = .ok a) (hsp : al.split = some s)
    (hs : s.acc.length = xferBytes s.xfer) : a.acc.length = xferBytes s.xfer := by
  simp only [alAnswer, hsp] at h
  cases hcur : s.cur with
  | none =>
    simp only [hcur] at h
    split at h
    · cases h; exact hs
    · cases h
  | some i =>
    simp only [hcur] at h
    cases hcode : dn.code with
    | success =>
      simp only [hcode] at h
      cases hacc : alAccumulate pol s i dn.data with
      | error e => simp [hacc] at h
      | ok acc =>
        simp only [hacc, Except.ok.injEq] at h
        have hout : (alChunkDone pol s i acc).acc = acc := by unfold alChunkDone; split <;> rfl
        rw [← h, hout]
        exact alAccumulate_length hacc hs
    | pending => simp only [hcode] at h; cases h; exact hs
    | error1 => simp only [hcode] at h; cases h; exact hs
    | error2 => simp only [hcode] at h; cases h; exact hs

/-- A split that goes on stays in range: it takes a sub-transfer only while it has one of its own, and
after `Error1` it has none left (R238). -/
theorem alContinue_ok {pol : AlignPolicy} {al : Aligner} {s : Split} {dn : S2M} {acc : Data}
    (hsp : al.split = some s) (hs : SplitOk pol s) (hacc : acc.length = xferBytes s.xfer) :
    SplitOk pol (alContinue pol al s dn acc) := by
  obtain ⟨hnext, -, hcur⟩ := hs
  have htaken : acceptedBy (alOwn pol al) dn.code dn.grant = true →
      s.next < subCount pol s.xfer ∧ dn.code ≠ .error1 := by
    simp only [acceptedBy, alOwn, hsp, Bool.and_eq_true, decide_eq_true_eq]
    rintro ⟨⟨hown, hready⟩, -⟩
    exact ⟨hown, fun hc => by simp [hc] at hready⟩
  refine ⟨?next, hacc, fun i hi => ?cur⟩
  case next =>
    simp only [alContinue]
    split_ifs with herr ht
    · exact Nat.le_refl _
    · exact (htaken ht).1
    · exact hnext
  case cur =>
    simp only [alContinue] at hi ⊢
    split_ifs at hi with ht hready
    · cases hi
      rw [if_neg (htaken ht).2, if_pos ht]
      exact Nat.lt_succ_self _
    · have := hcur i hi
      split_ifs <;> omega

/-- The Aligner's cycle keeps its split in range (R238). -/
theorem alUp_wf {pol : AlignPolicy} {al al' : Aligner} {up : M2S} {dn r : S2M}
    (h : alUp pol al up dn = .ok (r, al')) (hwf : al.wf (some pol) = true) :
    al'.wf (some pol) = true := by
  rw [aligner_wf_some_iff] at hwf ⊢
  unfold alUp at h
  cases ha : alAnswer pol al dn with
  | error e => simp [ha] at h
  | ok a =>
    simp only [ha, Except.ok.injEq, Prod.mk.injEq] at h
    obtain ⟨-, rfl⟩ := h
    intro s' hs'
    simp only [alNext] at hs'
    cases hsp : al.split with
    | none =>
      simp only [hsp] at hs'
      exact alFresh_ok hs'
    | some s =>
      have hs := hwf s hsp
      simp only [hsp] at hs'
      split at hs'
      · exact alFresh_ok hs'
      · cases hs'
        exact alContinue_ok hsp hs (alAnswer_acc_length ha hsp hs.2.1)

/-- The optional Aligner of a chain keeps its split in range (R9). -/
theorem alignerUp_wf {pol : Option AlignPolicy} {wire : Bool} {al al' : Aligner} {up : M2S} {dn r : S2M}
    (h : alignerUp pol wire al up dn = .ok (r, al')) (hwf : al.wf pol = true) : al'.wf pol = true := by
  cases pol with
  | none => rfl
  | some pol => exact alUp_wf h hwf

/-! ### The Bitband Translator -/

/-- The word that a read gives has 4 bytes (R265). -/
theorem bbWord_length {dn : S2M} {x : Data} (h : bbWord dn = .ok x) : x.length = 4 := by
  unfold bbWord at h
  split at h
  · split_ifs at h with hlen
    cases h
    exact hlen
  · cases h

/-- The answer to the read of a bitband write carries the word read (R265, R269). -/
theorem bbAnswer_word_length {bb : Translator} {dn : S2M} {a : BandAnswer} {w : BandWrite}
    (h : bbAnswer bb dn = .ok a) (hst : bb.state = .bitbandWriteReading w) (hc : dn.code = .success) :
    a.word.length = 4 := by
  simp only [bbAnswer, hst, hc, if_true] at h
  obtain ⟨x, hx, rfl⟩ := except_map_eq_ok.1 h
  exact bbWord_length hx

/-- The word that a translator's state carries has 4 bytes (R30). -/
def BandWordOk (b : BandState) : Prop :=
  ∀ r w, (b = .bitbandWriteRequestWriting r w ∨ b = .bitbandWriteWritingFirstCycle r w ∨
    b = .bitbandWriteWriting r w) → w.length = 4

theorem translator_wf_iff {bb : Translator} : bb.wf = true ↔ BandWordOk bb.state := by
  unfold Translator.wf
  cases bb.state <;> simp [BandWordOk]

/-- `entry` carries no word (R277). -/
theorem bbEntry_ok (rs : List BandRegion) (bb : Translator) (up : M2S) (c : Code) (g : Bool) :
    BandWordOk (bbEntry rs bb up c g) := by
  unfold bbEntry
  repeat' split
  all_goals simp [BandWordOk]

/-- The state in the next cycle carries a word of 4 bytes if it carries one (R277). -/
theorem bbNext_ok {rs : List BandRegion} {bb : Translator} {up : M2S} {dn : S2M} {a : BandAnswer}
    (h : bbAnswer bb dn = .ok a) (hok : BandWordOk bb.state) : BandWordOk (bbNext rs bb up dn a) := by
  have hentry := bbEntry_ok rs bb up a.code dn.grant
  unfold bbNext
  cases hst : bb.state with
  | normal => exact hentry
  | bitbandRead bit size =>
    simp only
    split
    · exact hentry
    · simp [BandWordOk]
  | bitbandWriteReading r =>
    cases hc : dn.code with
    | success => simpa [BandWordOk] using bbAnswer_word_length h hst hc
    | error2 => exact hentry
    | pending => simp [BandWordOk]
    | error1 => simp [BandWordOk]
  | bitbandWriteRequestWriting r w =>
    have hw := hok r w (.inl hst)
    simp only
    split <;> simpa [BandWordOk] using hw
  | bitbandWriteWritingFirstCycle r w =>
    have hw := hok r w (.inr (.inl hst))
    simp only
    split
    · exact hentry
    · simpa [BandWordOk] using hw
  | bitbandWriteWriting r w =>
    have hw := hok r w (.inr (.inr hst))
    simp only
    split
    · exact hentry
    · simpa [BandWordOk] using hw

/-- The optional Translator of a chain keeps its word's width (R9, R30). -/
theorem bitbandUp_wf {rs : Option (List BandRegion)} {wire : Bool} {bb bb' : Translator} {up : M2S}
    {dn r : S2M} (h : bitbandUp rs wire bb up dn = .ok (r, bb')) (hwf : bb.wf = true) :
    bb'.wf = true := by
  cases rs with
  | none => cases h; exact hwf
  | some rs =>
    simp only [bitbandUp, bbUp] at h
    cases ha : bbAnswer bb (onPort wire dn) with
    | error e => simp [ha] at h
    | ok a =>
      simp only [ha, Except.ok.injEq, Prod.mk.injEq] at h
      obtain ⟨-, rfl⟩ := h
      exact translator_wf_iff.2 (bbNext_ok ha (translator_wf_iff.1 hwf))

/-! ### The default slave -/

/-- A default slave never waits, and fails only a transfer in data phase (R186, R187). -/
theorem defaultRespond_code {rows : List MockRow} {sd : SlaveDriver} {ds : Option TransferMeta}
    {p d : Option Data} {code : Code} (h : defaultRespond rows sd ds p = .ok (code, d)) :
    code ≠ .pending ∧ (code = .error1 → ds.isSome = true) := by
  unfold defaultRespond at h
  split at h
  · cases h; simp
  · cases ds with
    | none =>
      simp only at h
      split at h
      · cases h
      · cases h; simp
    | some x =>
      refine ⟨fun hc => ?_, fun _ => rfl⟩
      subst hc
      simp only [defaultAnswer] at h
      split_ifs at h
      split at h
      · cases h
      · split_ifs at h
        cases h

/-- The default slave's next flops, after a code it can give (R132, R133). -/
theorem slaveNext_dfltWf {sd : SlaveDriver} {req ds : Option TransferMeta} {code : Code}
    (hp : code ≠ .pending) (he : code = .error1 → ds.isSome = true) :
    (slaveNext sd req ds code).dfltWf = true := by
  cases code with
  | pending => exact absurd rfl hp
  | error1 => simpa [SlaveDriver.dfltWf, slaveNext] using he rfl
  | success => rfl
  | error2 => rfl

/-- The default slave's cycle ends at a cycle boundary (R186). -/
theorem defaultCycle_wf {rows : List MockRow} {sd sd' : SlaveDriver} {w : M2S} {r : S2M}
    (h : defaultCycle rows sd w = .ok (r, sd')) : sd'.dfltWf = true := by
  unfold defaultCycle at h
  cases hpro : slavePromote sd w.ready with
  | error e => simp [hpro] at h
  | ok ds =>
    cases hres : defaultRespond rows sd ds w.payload with
    | error e => simp [hpro, hres] at h
    | ok x =>
      obtain ⟨code, d⟩ := x
      cases hb : refuseBurst w.req with
      | error e => simp [hpro, hres, hb] at h
      | ok u =>
        simp only [hpro, hres, hb, Except.ok.injEq, Prod.mk.injEq] at h
        obtain ⟨-, rfl⟩ := h
        obtain ⟨hp, he⟩ := defaultRespond_code hres
        exact slaveNext_dfltWf hp he

/-! ### The slave -/

theorem slave_wf_iff {u : Slave} :
    u.wf = true ↔ u.handler.wf = true ∧ (u.sd.lastCode = .success ∧ u.sd.dataSlot = none ∨
      u.sd.lastCode = .pending ∧ u.sd.dataSlot.isSome = true) := by
  simp [Slave.wf]

/-- A slave that did not answer an error answers `Success`, or `Pending` with a transfer in data phase
(R121, R127 to R130). -/
theorem slaveRespond_code {i : Nat} {u : Slave} {ds : Option TransferMeta} {p : Option Data}
    {a : SlaveAnswer} (h : slaveRespond i u ds p = .ok a) (hlast : u.sd.lastCode ≠ .error1) :
    a.code = .success ∨ a.code = .pending ∧ ds.isSome = true := by
  unfold slaveRespond at h
  rw [if_neg hlast] at h
  cases ds with
  | none =>
    simp only at h
    split at h
    · cases h
    · cases h; exact .inl rfl
  | some x =>
    simp only [Option.isSome_some, and_true]
    simp only at h
    cases hdir : x.dir with
    | read =>
      simp only [hdir, slaveRead] at h
      split at h
      · cases h
      · split at h
        · cases h
        · cases h; exact .inl rfl
        · cases h; exact .inr rfl
    | write =>
      simp only [hdir, slaveWrite] at h
      split at h
      · cases h
      · split at h
        · cases h
          unfold slaveWriteWait
          split <;> exact .inr rfl
        · cases h
          unfold slaveWriteFinal
          split
          · exact .inr rfl
          · exact .inl rfl

/-- A slave's cycle ends at a cycle boundary (R124 to R133). -/
theorem slaveCycle_wf {i : Nat} {u : Slave} {w : M2S} {o : SlaveOut} (h : slaveCycle i u w = .ok o)
    (hwf : u.wf = true) : o.slave.wf = true := by
  obtain ⟨hstore, hcode⟩ := slave_wf_iff.1 hwf
  have hlast : u.sd.lastCode ≠ .error1 := by
    obtain ⟨hc, -⟩ | ⟨hc, -⟩ := hcode <;> simp [hc]
  obtain ⟨ds, a, -, hres, -, rfl⟩ := slaveCycle_spec h
  refine slave_wf_iff.2 ⟨slaveRespond_wf hstore hres, ?_⟩
  obtain hc | ⟨hc, hds⟩ := slaveRespond_code hres hlast
  · exact .inl (by simp [slaveNext, hc])
  · exact .inr (by simp [slaveNext, hc, hds])

/-! ### The Output Stage -/

/-- An address phase is granted at a stage with inputs only: its winner contends (R205, R212). -/
theorem inputs_pos_of_granted {st : Stage} {inputs : List M2S} {code : Code}
    (h : stageGranted (stageRoute st inputs) code = true) : 0 < st.cfg.inputs := by
  by_contra hn
  have hz : st.cfg.inputs = 0 := Nat.eq_zero_of_not_pos hn
  have hwin : stageWinner st inputs = none := by
    simp [stageWinner, contenders, hz]
  simp [stageGranted, stageRoute, hwin, pipelineRule] at h

theorem stage_wf_iff {st : Stage} : st.wf = true ↔ st.rrHead < st.cfg.inputs ∨ st.rrHead = 0 := by
  simp [Stage.wf]

/-- The round-robin head stays in range (R212, R28). -/
theorem stageNext_wf {st : Stage} {inputs : List M2S} {code : Code} (hwf : st.wf = true) :
    (stageNext st (stageRoute st inputs) code).wf = true := by
  rw [stage_wf_iff] at hwf ⊢
  simp only [stageNext]
  split_ifs with hg
  · exact .inl (Nat.mod_lt _ (inputs_pos_of_granted hg.2))
  · exact hwf

/-! ### The chain and the machine -/

theorem chain_wf_iff {c : Chain} :
    c.wf = true ↔ c.md.wf = true ∧ c.al.wf c.cfg.aligner = true ∧ c.bb.wf = true ∧
      c.dec.ds.dfltWf = true := by
  simp [Chain.wf, and_assoc]

/-- A cycle leaves every chain at a cycle boundary. -/
theorem cycle_chains_wf {drive : Option (Nat × Drive)} {reply : Option (Nat × Reply)} {s t : State}
    (h : cycle drive reply s = .ok t) (hwf : ∀ c ∈ s.chains, c.wf = true) :
    ∀ c ∈ t.chains, c.wf = true := by
  intro c' hc'
  obtain ⟨k, hk⟩ := List.mem_iff_getElem?.1 hc'
  obtain ⟨c, md, w, md', resp, ev, al, bb, hc, hemit, hrecv, dn, mid, low, route, ds, dsr, code, dn', up,
    -, -, -, hds, hbb, hal, -, rfl⟩ := cycle_chain h hk
  obtain ⟨hmd, halwf, hbbwf, -⟩ := chain_wf_iff.1 (hwf c (List.mem_of_getElem? hc))
  obtain ⟨-, hbacked, -⟩ := masterDriver_wf_iff.1 hmd
  exact chain_wf_iff.2 ⟨mdReceive_wf hrecv (mdEmit_backed hemit hbacked), alignerUp_wf hal halwf,
    bitbandUp_wf hbb hbbwf, defaultCycle_wf hds⟩

/-- What a pass over numbered units gives each of good units, all its results have. -/
theorem mapE_zipIdx_forall {α β : Type} {f : α × Nat → Except Fault β} {P : α → Prop} {Q : β → Prop}
    (hstep : ∀ a n b, P a → f (a, n) = .ok b → Q b) {l : List α} {l' : List β} (hl : ∀ a ∈ l, P a)
    (h : mapE f l.zipIdx = .ok l') : ∀ b ∈ l', Q b :=
  mapE_forall (P := fun x => P x.1) (fun a b => hstep a.1 a.2 b)
    (fun x hx => hl x.1 (List.fst_mem_of_mem_zipIdx hx)) h

/-- A cycle keeps the heads of the output stages in range. -/
theorem cycle_stages_wf {drive : Option (Nat × Drive)} {reply : Option (Nat × Reply)} {s t : State}
    (h : cycle drive reply s = .ok t) (hwf : ∀ st ∈ s.stages, st.wf = true) :
    ∀ st ∈ t.stages, st.wf = true := by
  obtain ⟨down, stages, outs, dflt, up, lanes, cells, -, hstages, -, -, -, -, -, rfl⟩ := cycle_eq_ok.1 h
  refine List.forall_mem_map.2 (mapE_zipIdx_forall (fun st n l hst e => ?_) hwf hstages)
  obtain ⟨rfl, -, hroute⟩ := stageStart_spec e
  simp only [stageFinish, hroute]
  exact stageNext_wf hst

/-- A cycle leaves every slave at a cycle boundary. -/
theorem cycle_slaves_wf {drive : Option (Nat × Drive)} {reply : Option (Nat × Reply)} {s t : State}
    (h : cycle drive reply s = .ok t) (hwf : ∀ u ∈ s.slaves, u.wf = true) :
    ∀ u ∈ t.slaves, u.wf = true := by
  obtain ⟨down, stages, outs, dflt, up, lanes, cells, -, -, houts, -, -, -, -, rfl⟩ := cycle_eq_ok.1 h
  exact List.forall_mem_map.2 (mapE_zipIdx_forall (fun _ _ _ hu e => slaveCycle_wf e hu) hwf houts)

/-- A cycle keeps the invariant. -/
theorem cycle_inv {drive : Option (Nat × Drive)} {reply : Option (Nat × Reply)} {s t : State}
    (h : cycle drive reply s = .ok t) (hinv : s.Inv) : t.Inv := by
  obtain ⟨hchains, hstages, hslaves⟩ := hinv
  exact ⟨cycle_chains_wf h hchains, cycle_stages_wf h hstages, cycle_slaves_wf h hslaves⟩

/-- The invariant has every Master Driver at a cycle boundary. -/
theorem atBoundary_of_inv {s : State} (h : s.Inv) : s.atBoundary := by
  intro c hc
  obtain ⟨hmd, -⟩ := chain_wf_iff.1 (h.1 c hc)
  exact (masterDriver_wf_iff.1 hmd).1

/-- Replacing one element by a good one keeps a list good. -/
theorem forall_mem_set {α : Type} {P : α → Prop} {l : List α} {p : Nat} {a : α}
    (hl : ∀ x ∈ l, P x) (ha : P a) : ∀ x ∈ l.set p a, P x := by
  intro x hx
  obtain hx | rfl := List.mem_or_eq_of_mem_set hx
  · exact hl x hx
  · exact ha

/-- A row that takes no cycle keeps the invariant. -/
theorem CallDid.inv {i : Instr} {s t : State} (h : CallDid i s t) (hinv : s.Inv) : t.Inv := by
  obtain ⟨hchains, hstages, hslaves⟩ := hinv
  cases h with
  | @owner p c k r md _ _ _ hc hk =>
    obtain ⟨hmd, hrest⟩ := chain_wf_iff.1 (hchains _ (List.mem_of_getElem? hc))
    have hnew : ({ c with md := md } : Chain).wf = true := chain_wf_iff.2 ⟨mdCall_wf hk hmd, hrest⟩
    exact ⟨forall_mem_set hchains hnew, hstages, hslaves⟩
  | handler _ _ _ hu hw =>
    obtain ⟨hstore, hsd⟩ := slave_wf_iff.1 (hslaves _ (List.mem_of_getElem? hu))
    exact ⟨hchains, hstages, forall_mem_set hslaves (slave_wf_iff.2 ⟨hw hstore, hsd⟩)⟩
  | cell _ _ _ _ _ _ => exact ⟨hchains, hstages, hslaves⟩
  | answer _ _ _ => exact ⟨hchains, hstages, hslaves⟩

/-- Settles O56: a step runs a row, which takes a cycle from a cycle boundary, or no cycle. -/
theorem stepKeepsTheInvariant : Obligations.StepKeepsTheInvariant := by
  intro s t hinv h
  obtain ⟨i, inbox, hi⟩ := step_exec h
  have hinv' : ({ s with inbox := inbox } : State).Inv := hinv
  cases htc : takesCycle i with
  | true =>
    obtain ⟨d, r, hcycle, -, -⟩ | ⟨-, -, hoff⟩ := takes_cycle htc hi
    · exact cycle_inv hcycle hinv'
    · exact absurd (atBoundary_of_inv hinv') hoff
  | false => exact (exec_call htc hi).inv hinv'

end Sys2Proof.Proofs
end

section
/-! The fabric of one master wired straight to one slave (R190) with at most one transfer in flight: what
each component does in a cycle whose address phase is ready, the cycle of the whole, and the obligation
O52 that follows from three such cycles. -/

namespace Sys2Proof.Proofs

open Sys2Proof Sys2Proof.Machine

/-! ### What the reference handler does with the transfer in data phase -/

/-- The data with which a reference handler that never waits answers the transfer `x` (R128, R130). -/
def servedData (mem : Memory) (x : Option TransferMeta) : Option Data :=
  x.bind fun t =>
    match t.dir with
    | .read => some (memRead mem t.addr (xferBytes t))
    | .write => none

/-- Its store after the transfer `x` with the value `v` beside it (R130). -/
def servedStore (mem : Memory) (x : Option TransferMeta) (v : Word) : Memory :=
  match x with
  | none => mem
  | some t =>
    match t.dir with
    | .read => mem
    | .write => memWrite mem t.addr (wordData t.size v)

/-- What the owner is told when the transfer `x` succeeds with `d` (R162). -/
def doneEvents (x : Option TransferMeta) (d : Option Data) : List Event :=
  x.toList.map fun t => .transferDone 0 t d

/-- The payload word travels beside the transfer `x` in data phase: it is present exactly for a write, and
holds no byte above its size (R73, R78). -/
structure Accompanies (dp : DataWord) (x : Option TransferMeta) : Prop where
  present_eq : dp.present = x.any fun t => t.dir == .write
  fits : dp.fits x = true

/-- An absent payload word travels beside anything but a write. -/
theorem accompanies_absent {x : Option TransferMeta} (h : ∀ t, x = some t → t.dir = .read) (v : Word) :
    Accompanies ⟨false, v⟩ x := by
  cases x with
  | none => exact ⟨rfl, rfl⟩
  | some t => exact ⟨by simp [h t rfl], rfl⟩

/-- The bytes that a word of the transfer's size carries are not cut by a store (R130). -/
theorem take_wordData (z : Size) (v : Word) : (wordData z v).take z.bytes = wordData z v :=
  List.take_of_length_le (wordData_length z v).le

/-- A read by the reference handler that never waits gives the bytes of its store (R13, R123). -/
theorem checkedRead_ram (mem : Memory) (t : TransferMeta) :
    checkedRead (.ram mem [] none) t =
      .ok (.success (memRead mem t.addr (xferBytes t)), .ram mem [] none) := by
  have hlen : dataFits t (memRead mem t.addr (xferBytes t)) = true := by simp [dataFits, memRead]
  simp [checkedRead, handlerRead, ramPend, hlen]

/-- The slave serves the transfer that it sampled in the cycle before, and samples the next (R124 to
R133). -/
theorem slaveCycle_serves {ucfg : SlaveCfg} {mem : Memory} {x req : Option TransferMeta} {dp : DataWord}
    (hdp : Accompanies dp x) (hreq : ∀ t, req = some t → t.burst = .single) :
    ∃ calls, slaveCycle 0 ⟨ucfg, ⟨x, none, .success⟩, .ram mem [] none⟩ ⟨req, true, portData x dp⟩ =
      .ok ⟨⟨.success, servedData mem x, true⟩,
        ⟨ucfg, ⟨req, none, .success⟩, .ram (servedStore mem x dp.value) [] none⟩, calls⟩ := by
  obtain ⟨hpresent, -⟩ := hdp
  suffices ∃ calls, slaveRespond 0 ⟨ucfg, ⟨x, none, .success⟩, .ram mem [] none⟩ x (portData x dp) =
      .ok ⟨.success, servedData mem x, .ram (servedStore mem x dp.value) [] none, calls⟩ by
    obtain ⟨calls, hcalls⟩ := this
    exact ⟨calls, by simp [slaveCycle, slavePromote, hcalls, refuseBurst_of_single hreq, slaveNext]⟩
  cases x with
  | none => exact ⟨[], by simp [slaveRespond, portData, hpresent, servedData, servedStore]⟩
  | some t =>
    cases hdir : t.dir with
    | read =>
      refine ⟨[.handlerRead 0 t (.success (memRead mem t.addr (xferBytes t)))], ?_⟩
      simp [slaveRespond, slaveRead, checkedRead_ram, portData, hpresent, servedData, servedStore, hdir]
    | write =>
      refine ⟨[.handlerPreWrite 0 t (.success []),
        .handlerWrite 0 t (wordData t.size dp.value) true (.success [])], ?_⟩
      simp [slaveRespond, slaveWrite, slaveWriteFinal, handlerPreWrite, handlerWrite, ramPend, portData,
        hpresent, servedData, servedStore, hdir, xferBytes, take_wordData]

/-! ### The Master Driver and the Decoder -/

/-- The driver emits the command put on its port, with the payload beside it (R158, log 4). -/
theorem mdEmit_command {x req : Option TransferMeta} {wd : Option Data} {cn : Option TransferMeta}
    {dp : DataWord} (hdp : Accompanies dp x) (hreq : ∀ t, req = some t → t.burst = .single) :
    ∃ wd', mdEmit (some (0, ⟨req, true, dp⟩)) 0 ⟨none, x, wd, cn, .success, true, .tickExtra⟩ =
      .ok (⟨req.map fun t => (t, .fresh), x, wd', cn, .success, true, .sentMessages⟩,
        ⟨req, true, portData x dp⟩) := by
  obtain ⟨hpresent, -⟩ := hdp
  have haddr : adoptAddr none req = req.map fun t => (t, .fresh) := by cases req <;> rfl
  have hwire : (req.map fun t => (t, Hold.fresh)).map Prod.fst = req := by cases req <;> rfl
  refine ⟨adoptData ⟨none, x, wd, cn, .success, true, .tickExtra⟩ dp, ?_⟩
  simp only [mdEmit, if_true, mdDrive, refuseBurst_of_single hreq, haddr, mdDispatch]
  cases x with
  | none => simp [mdPayload, portData, hpresent, phaseSent, hwire]
  | some t =>
    cases hdir : t.dir <;>
      simp [mdPayload, adoptData, portData, hpresent, hdir, phaseSent, hwire]

/-- The driver receives `Success`: the transfer in data phase is done, and the presented one is accepted
(R160, R162). -/
theorem mdReceive_success {b : Bool} {mem : Memory} {x req : Option TransferMeta} {wd : Option Data}
    {cn : Option TransferMeta} :
    ∃ wd', mdReceive b 0 ⟨req.map fun t => (t, .fresh), x, wd, cn, .success, true, .sentMessages⟩
        ⟨.success, servedData mem x, true⟩ =
      .ok (⟨none, req, wd', cn, .success, true, .gotMessages⟩, doneEvents x (servedData mem x)) := by
  suffices ∃ wd', mdCode 0 ⟨req.map fun t => (t, .fresh), x, wd, cn, .success, true, .sentMessages⟩
        .success (servedData mem x) =
      .ok (⟨req.map fun t => (t, .fresh), none, wd', cn, .success, true, .sentMessages⟩,
        doneEvents x (servedData mem x)) by
    obtain ⟨wd', hcode⟩ := this
    refine ⟨wd', mdReceive_eq_ok.2 ⟨by simp [mdCheck], _, hcode, ?_⟩⟩
    cases req <;> rfl
  cases x with
  | none => exact ⟨wd, rfl⟩
  | some t =>
    refine ⟨none, ?_⟩
    cases hdir : t.dir <;>
      simp [mdCode, mdDone, servedData, doneEvents, hdir, dataFits, memRead]

/-- A single transfer at an address of the range. -/
structure Inside (lo hi : Nat) (t : TransferMeta) : Prop where
  single : t.burst = .single
  lo_le : lo ≤ t.addr.toNat
  lt_hi : t.addr.toNat < hi

/-- An address inside the only range is routed to its port (R181). -/
theorem decodeTag_inside {lo hi : Nat} {tgt : Target} {g : Bool} {t : TransferMeta} (h : Inside lo hi t) :
    decodeTag [⟨lo, hi, tgt, g⟩] t.addr = .port 0 := by
  simp [decodeTag, decodeAddr, h.lo_le, h.lt_hi]

/-- The routes of a direct fabric: whatever is presented or in data phase is the slave's; with nothing in
data phase the data route stands where it stood. -/
def directRoute (x req : Option TransferMeta) (dr : Tag) : Route :=
  ⟨req.map fun _ => .port 0, (x.map fun _ => .port 0).getD dr⟩

/-- An address phase whose `ready` flag is set is decoded, and moves the route before it to the data phase
(R182, R183). -/
theorem decDown_direct {cfg : MasterCfg} {lo hi : Nat} {tgt : Target} {g : Bool}
    {x req am : Option TransferMeta} {dr : Tag} {lc : Code} {ds : SlaveDriver} {p : Option Data}
    (hports : cfg.ports = [⟨lo, hi, tgt, g⟩]) (hreq : ∀ t, req = some t → Inside lo hi t) :
    decDown cfg ⟨x.map fun _ => .port 0, am, dr, lc, ds⟩ ⟨req, true, p⟩ =
      .ok (directRoute x req dr) := by
  have hburst : refuseBurst req = .ok () := refuseBurst_of_single fun t ht => (hreq t ht).single
  have haddr : decAddrRoute cfg.ports ⟨x.map fun _ => .port 0, am, dr, lc, ds⟩ ⟨req, true, p⟩ =
      req.map fun _ => .port 0 := by
    cases req with
    | none => rfl
    | some t => simp [decAddrRoute, hports, decodeTag_inside (hreq t rfl)]
  have hdata : decDataRoute ⟨x.map fun _ => .port 0, am, dr, lc, ds⟩ true =
      (x.map fun _ => .port 0).getD dr := by
    cases x <;> rfl
  simp [decDown, hburst, addressChanged, haddr, hdata, directRoute]

/-- The port of the slave carries what the master sends (R184). -/
theorem decFan_direct_slave {x req : Option TransferMeta} {dr : Tag} {p : Option Data}
    (hidle : x = none → p = none) :
    decFan (directRoute x req dr) ⟨req, true, p⟩ (.port 0) = ⟨req, true, p⟩ := by
  cases req <;> cases x <;> simp [decFan, directRoute, hidle]

/-- The port of the default slave is idle (R184). -/
theorem decFan_direct_default {x req : Option TransferMeta} {dr : Tag} {p : Option Data}
    (hidle : x = none → p = none) :
    decFan (directRoute x req dr) ⟨req, true, p⟩ .dflt = ⟨none, true, none⟩ := by
  cases req <;> cases x <;> simp [decFan, directRoute, hidle]

/-! ### The cycle of the whole fabric -/

/-- A direct fabric at a cycle boundary, where `x` is the transfer accepted in the cycle before: the master
has it in its data slot, the slave in its address slot, the decoder routes to the slave. -/
def DirectAt (s : State) (lo hi : Nat) (mem : Memory) (x : Option TransferMeta) : Prop :=
  ∃ cfg wd cn al bb am dr lc ucfg g cells inbox ret out wires,
    s = direct cfg ⟨none, x, wd, cn, .success, true, .tickExtra⟩ al bb
      ⟨x.map fun _ => .port 0, am, dr, lc, ⟨none, none, .success⟩⟩ ucfg ⟨x, none, .success⟩
      (.ram mem [] none) cells inbox ret out wires ∧
    cfg.aligner = none ∧ cfg.bitband = none ∧ cfg.ports = [⟨lo, hi, .slave 0, g⟩] ∧
    ∀ f ∈ cells, f.cur = none ∧ f.next = none

/-- The direct fabric of the statements has no transfer accepted. -/
theorem directAt_of_direct {s : State} {lo hi : Nat} {mem : Memory} (h : s.Direct lo hi mem) :
    DirectAt s lo hi mem none := by
  obtain ⟨⟨cfg, md, al, bb, ⟨ar, am, dr, lc, ds⟩⟩, ⟨ucfg, sd, hand⟩, g, hchains, hstages, hslaves, hquiet,
    hsd, -, halign, hband, -, hports, hram, hcells⟩ := h
  obtain ⟨hmd, hbelow⟩ : md.quiet = true ∧ _ := by simpa [Chain.quiet] using hquiet
  obtain ⟨wd, cn, rfl⟩ := mdQuiet_iff.1 hmd
  obtain ⟨-, -, har, -, -, hds⟩ := Chain.quietBelow_iff.1 hbelow
  obtain rfl : sd = _ := SlaveDriver.quiet_iff.1 hsd
  obtain ⟨chains, stages, slaves, cells, inbox, ret, out, wires⟩ := s
  simp only at har hds hram hchains hstages hslaves
  subst har hds hram hchains hstages hslaves
  exact ⟨cfg, wd, cn, al, bb, am, dr, lc, ucfg, g, cells, inbox, ret, out, wires, rfl, halign, hband,
    hports, hcells⟩

/-- One cycle of a direct fabric: the transfer accepted before is served, the one presented is accepted. -/
theorem DirectAt.command {s : State} {lo hi : Nat} {mem : Memory} {x req : Option TransferMeta}
    {dp : DataWord} (h : DirectAt s lo hi mem x) (hdp : Accompanies dp x)
    (hreq : ∀ t, req = some t → Inside lo hi t) :
    ∃ t, present 0 ⟨req, true, dp⟩ s = .next t ∧
      DirectAt t lo hi (servedStore mem x dp.value) req ∧
      ∀ y, x = some y → .transferDone 0 y (servedData mem x) ∈ t.out := by
  obtain ⟨cfg, wd, cn, al, bb, am, dr, lc, ucfg, g, cells, inbox, ret, out, wires, rfl, halign, hband,
    hports, hcells⟩ := h
  have hsingle : ∀ t, req = some t → t.burst = .single := fun t ht => (hreq t ht).single
  have hidle : x = none → portData x dp = none := by
    rintro rfl
    simp [portData, hdp.present_eq]
  obtain ⟨wd1, hemit⟩ := mdEmit_command (wd := wd) (cn := cn) hdp hsingle
  obtain ⟨calls, hslave⟩ := slaveCycle_serves (ucfg := ucfg) (mem := mem) hdp hsingle
  rw [← decFan_direct_slave (dr := dr) hidle] at hslave
  have hdflt : defaultCycle cfg.mock ⟨none, none, .success⟩
      (decFan (directRoute x req dr) ⟨req, true, portData x dp⟩ .dflt) =
        .ok (⟨.success, none, true⟩, ⟨none, none, .success⟩) := by
    rw [decFan_direct_default hidle]
    exact defaultCycle_quiet rfl ⟨rfl, by simp⟩
  have hresp : (⟨.success, servedData mem x, true⟩ : S2M) = match (directRoute x req dr).dr with
      | .dflt => ⟨.success, none, true⟩
      | .port 0 => ⟨.success, servedData mem x, true⟩
      | .port _ => idleReply := by
    cases x with
    | none => rcases dr with _ | _ | k <;> rfl
    | some t => rfl
  have hport : ∀ k, (directRoute x req dr).ar = some (.port k) → k = 0 := by
    cases req <;> simp [directRoute, eq_comm]
  obtain ⟨wd2, hrecv⟩ := mdReceive_success (b := cfg.cancelAddrOnError) (mem := mem) (x := x)
    (req := req) (wd := wd1) (cn := cn)
  have hcycle := direct_cycle (some (0, ⟨req, true, dp⟩)) (al := al) (bb := bb) (inbox := inbox)
    (ret := ret) (out := out) (wires := wires) halign hband hports hemit
    (decDown_direct (am := am) (lc := lc) hports hreq) hslave hdflt rfl rfl hresp hport hrecv hcells
  refine ⟨_, present_eq_next.2 ⟨_, rfl, hdp.fits, hcycle⟩, ⟨cfg, wd2, cn, al, bb, _, _, _, ucfg, g, _, _,
    _, _, _, rfl, halign, hband, hports, ?_⟩, ?_⟩
  · simp +contextual [hcells]
  · rintro y rfl
    simp [direct, doneEvents]

/-! ### The obligation -/

/-- A write and a read of the same address right behind it, at any size that holds the value. -/
theorem DirectAt.write_read {s : State} {lo hi : Nat} {mem : Memory} {a : Addr} {z : Size} {q q' : Prot}
    {v u u' : Word} {iw ir : Instr} (h : DirectAt s lo hi mem none) (hmem : Memory.wf mem = true)
    (hlo : lo ≤ a.toNat) (hhi : a.toNat < hi) (hv : z.fits v = true)
    (hiw : commandOf iw = some (0, ⟨some ⟨.write, a, z, .single, q⟩, true, ⟨false, u⟩⟩))
    (hir : commandOf ir = some (0, ⟨some ⟨.read, a, z, .single, q'⟩, true, ⟨true, v⟩⟩)) :
    ∃ s1 s2 s3, exec iw s = .next s1 ∧ exec ir s1 = .next s2 ∧
      exec (.idle 0 true ⟨false, u'⟩) s2 = .next s3 ∧
      .transferDone 0 ⟨.read, a, z, .single, q'⟩ (some (wordData z v)) ∈ s3.out := by
  have hinside : ∀ (d : Dir) (r : Prot) (t : TransferMeta),
      some ⟨d, a, z, .single, r⟩ = some t → Inside lo hi t := by
    rintro d r t ⟨⟩
    exact ⟨rfl, hlo, hhi⟩
  obtain ⟨s1, hs1, h1, -⟩ := h.command (accompanies_absent (by simp) u) (hinside .write q)
  obtain ⟨s2, hs2, h2, -⟩ := h1.command (dp := ⟨true, v⟩) ⟨rfl, by simpa [DataWord.fits] using hv⟩
    (hinside .read q')
  obtain ⟨s3, hs3, -, hdone⟩ := h2.command (req := none)
    (accompanies_absent (by rintro t ⟨⟩; rfl) u') (by simp)
  have hread : memRead (memWrite mem a (wordData z v)) a z.bytes = wordData z v := by
    have hshort : (wordData z v).length ≤ 4 := by rw [wordData_length]; cases z <;> decide
    simpa only [wordData_length] using memRead_memWrite hmem hshort
  refine ⟨s1, s2, s3, (exec_of_commandOf hiw s).trans hs1, (exec_of_commandOf hir s1).trans hs2,
    (exec_of_commandOf rfl s2).trans hs3, ?_⟩
  simpa [servedData, servedStore, xferBytes, hread] using hdone _ rfl

/-- Settles O52: a row of each size is a case of `DirectAt.write_read`. -/
theorem roundTrip : Obligations.RoundTrip := by
  intro s lo hi m a q q' v u u' hs hm hlo hhi
  have h := directAt_of_direct hs
  refine ⟨fun hv => ?byte, fun hv => ?halfword, ?word⟩
  case byte => exact h.write_read hm hlo hhi (decide_eq_true hv) rfl rfl
  case halfword => exact h.write_read hm hlo hhi (decide_eq_true hv) rfl rfl
  case word => exact h.write_read hm hlo hhi (decide_eq_true v.isLt) rfl rfl

end Sys2Proof.Proofs
end

section
/-! The encoding (R77 to R79, R85): for each reader of the decoder, exactly which words it accepts and
what it reads there, stated through the encoder; and the obligations O1, O2 and O3 that follow. -/

namespace Sys2Proof.Proofs

open Sys2Proof Sys2Proof.Machine

/-! ### Fields and flags -/

theorem field_lt (w lo n : Nat) : field w lo n < 2 ^ n :=
  Nat.mod_lt _ (Nat.two_pow_pos n)

theorem toNat_flag (w i : Nat) : (flag w i).toNat = field w i 1 := by
  have hlt := field_lt w i 1
  simp only [flag]
  obtain h | h : field w i 1 = 0 ∨ field w i 1 = 1 := by omega
  all_goals simp [h]

theorem flag_eq_of_field {w i : Nat} {b : Bool} (h : field w i 1 = b.toNat) : flag w i = b := by
  cases b <;> simp [flag, h]

/-- Words that agree from bit `lo` up have the same fields there. -/
theorem field_eq_of_div_eq {w w' lo j n : Nat} (h : w' / 2 ^ lo = w / 2 ^ lo) (hj : lo ≤ j) :
    field w' j n = field w j n := by
  obtain ⟨k, rfl⟩ := Nat.exists_eq_add_of_le hj
  simp only [field, Nat.pow_add, ← Nat.div_div_eq_div_mul, h]

theorem dirOfBit_bits (w i : Nat) : (dirOfBit (flag w i)).bits = field w i 1 := by
  rw [← toNat_flag]
  cases flag w i <;> rfl

theorem burstOfBit_bits (w i : Nat) : (burstOfBit (flag w i)).bits = field w i 1 := by
  rw [← toNat_flag]
  cases flag w i <;> rfl

theorem codeOfBits_bits {n : Nat} (h : n < 4) : (codeOfBits n).bits = n := by
  interval_cases n <;> rfl

theorem codeOfBits_of_bits (c : Code) : codeOfBits c.bits = c := by
  cases c <;> rfl

theorem sizeOfCode_eq_ok {n : Nat} {z : Size} : sizeOfCode n = .ok z ↔ n = z.bits := by
  refine ⟨fun h => ?_, fun h => h ▸ sizeOfCode_bits z⟩
  unfold sizeOfCode at h
  split at h <;> cases h <;> rfl

theorem sizeOfCode_three : sizeOfCode 3 = .error .reservedSize := rfl

/-! ### Readers in sequence -/

theorem bind_eq_ok {α β : Type} {x : Except Reject α} {f : α → Except Reject β} {b : β} :
    x.bind f = .ok b ↔ ∃ a, x = .ok a ∧ f a = .ok b := by
  cases x <;> simp [Except.bind]

theorem map_eq_ok {α β : Type} {x : Except Reject α} {f : α → β} {b : β} :
    x.map f = .ok b ↔ ∃ a, x = .ok a ∧ b = f a := by
  cases x <;> simp [Except.map, eq_comm]

/-! ### Transfers and data-phase words -/

theorem size_bits_lt (z : Size) : z.bits < 3 := by
  cases z <;> decide

/-- Forty bits spell the transfer whose bits they are, or none (R77). -/
theorem metaOfBits_eq_ok {r : Nat} {t : TransferMeta} (hr : r < 2 ^ 40) :
    metaOfBits r = .ok t ↔ r = t.bits := by
  refine ⟨fun h => ?_, fun h => h ▸ metaOfBits_bits t⟩
  unfold metaOfBits at h
  cases hz : sizeOfCode (field r 1 2) with
  | error why => simp [hz, Except.map] at h
  | ok z =>
    have hsize : field r 1 2 = z.bits := sizeOfCode_eq_ok.1 hz
    simp only [hz, Except.map, Except.ok.injEq] at h
    subst h
    simp only [TransferMeta.bits, dirOfBit_bits, burstOfBit_bits, ← hsize, BitVec.toNat_ofNat, field]
    omega

/-- A transfer whose size field has the fourth code is none (R81). -/
theorem metaOfBits_reserved {r : Nat} (h : field r 1 2 = 3) : metaOfBits r = .error .reservedSize := by
  simp [metaOfBits, h, sizeOfCode_three, Except.map]

/-- Thirty-three bits spell the data-phase word whose bits they are (R78). -/
theorem bits_dataWordOfBits {r : Nat} (hr : r < 2 ^ 33) : (dataWordOfBits r).bits = r := by
  simp only [dataWordOfBits, DataWord.bits, toNat_flag, BitVec.toNat_ofNat, field]
  omega

theorem ifWf_eq_ok {i j : Instr} : ifWf j = .ok i ↔ j.wf = true ∧ i = j := by
  unfold ifWf
  cases j.wf <;> simp [eq_comm]

/-! ### Response words -/

/-- The row of a response word read as its code (R84). -/
def codeRow (p : Nat) (c : Code) (g : Bool) (d : DataWord) : Instr :=
  match c with
  | .success => .success p g d
  | .pending => .pending p g d
  | .error1 => .error1 p g d
  | .error2 => .error2 p g d

/-- The row of a response word read as its grant (R84). -/
def grantRow (p : Nat) (c : Code) (g : Bool) (d : DataWord) : Instr :=
  if g then .grant p c d else .deny p c d

theorem encode_codeRow (p : Nat) (c : Code) (g : Bool) (d : DataWord) :
    encode (codeRow p c g d) = packetOf .response p (rswOf c g d) := by
  cases c <;> rfl

theorem encode_grantRow (p : Nat) (c : Code) (g : Bool) (d : DataWord) :
    encode (grantRow p c g d) = packetOf .grantWire p (rswOf c g d) := by
  cases g <;> rfl

theorem codeRow_wf (p : Nat) (c : Code) (g : Bool) (d : DataWord) : (codeRow p c g d).wf = d.wf := by
  cases c <;> rfl

theorem grantRow_wf (p : Nat) (c : Code) (g : Bool) (d : DataWord) : (grantRow p c g d).wf = d.wf := by
  cases g <;> rfl

/-- A word without padding is the response word of its fields (R79). -/
theorem rswOf_fields {w : Nat} (hw : w < 256 ^ 5) (hpad : field w 36 4 = 0) :
    rswOf (codeOfBits (field w 0 2)) (flag w 2) (dataWordOfBits (field w 3 33)) = w := by
  simp only [rswOf, codeOfBits_bits (field_lt w 0 2), toNat_flag, bits_dataWordOfBits (field_lt w 3 33)]
  simp only [field] at hpad ⊢
  omega

/-- The fields of a response word, read back (R79). -/
theorem fields_rswOf (c : Code) (g : Bool) (d : DataWord) :
    field (rswOf c g d) 36 4 = 0 ∧ codeOfBits (field (rswOf c g d) 0 2) = c ∧
      flag (rswOf c g d) 2 = g ∧ dataWordOfBits (field (rswOf c g d) 3 33) = d := by
  obtain ⟨hpad, hcode, hgrant, hdata, -⟩ := decode_rsw c g d
  exact ⟨hpad, by rw [hcode, codeOfBits_of_bits], flag_eq_of_field hgrant, by rw [hdata, dp_bits]⟩

/-- Which words a reader of response words accepts, and what it makes of them, where `row` is the row of
the fields (R79). -/
theorem readResponse_eq_ok {row : Code → Bool → DataWord → Instr} {w : Nat} {i : Instr}
    (hw : w < 256 ^ 5) (hrow : ∀ c g d, (row c g d).wf = d.wf) :
    (if field w 36 4 ≠ 0 then .error .reservedBits else
      ifWf (row (codeOfBits (field w 0 2)) (flag w 2) (dataWordOfBits (field w 3 33)))) = .ok i ↔
      ∃ c g d, w = rswOf c g d ∧ d.wf = true ∧ i = row c g d := by
  constructor
  · split
    case isTrue => simp
    case isFalse hpad =>
      rw [ifWf_eq_ok, hrow]
      rintro ⟨hd, rfl⟩
      exact ⟨_, _, _, (rswOf_fields hw (not_not.1 hpad)).symm, hd, rfl⟩
  · rintro ⟨c, g, d, rfl, hd, rfl⟩
    obtain ⟨hpad, hcode, hgrant, hdata⟩ := fields_rswOf c g d
    rw [if_neg (not_not.2 hpad), hcode, hgrant, hdata, ifWf_eq_ok, hrow]
    exact ⟨hd, rfl⟩

/-- The words that are read as a code, and the row that is read (R79, R84). -/
theorem decodeResponse_eq_ok {p w : Nat} {i : Instr} (hw : w < 256 ^ 5) :
    decodeResponse p w = .ok i ↔
      ∃ c g d, w = rswOf c g d ∧ d.wf = true ∧ i = codeRow p c g d := by
  rw [← readResponse_eq_ok hw (codeRow_wf p)]
  unfold decodeResponse
  cases codeOfBits (field w 0 2) <;> rfl

/-- The words that are read as a grant, and the row that is read (R79, R84). -/
theorem decodeGrantWire_eq_ok {p w : Nat} {i : Instr} (hw : w < 256 ^ 5) :
    decodeGrantWire p w = .ok i ↔
      ∃ c g d, w = rswOf c g d ∧ d.wf = true ∧ i = grantRow p c g d := by
  rw [← readResponse_eq_ok hw (grantRow_wf p)]
  unfold decodeGrantWire grantRow
  cases flag w 2 <;> rfl

/-! ### Address-phase words -/

theorem encode_busCommand (p : Nat) (r : Bool) (t : TransferMeta) (dp : DataWord) :
    encode (busCommand p r t dp) = encodeBus p r t dp := by
  obtain ⟨dir, addr, size, burst, prot⟩ := t
  cases dir <;> cases size <;> rfl

/-- The word of an idle address phase (R77), with the data-phase word beside it. -/
def idleWord (r : Bool) (dp : DataWord) : Nat :=
  2 * r.toNat + 2 ^ 48 * dp.bits

theorem idleWord_lt (r : Bool) (dp : DataWord) : idleWord r dp < 256 ^ 11 := by
  have hr := r.toNat_lt
  have hd := dp_lt dp
  unfold idleWord
  omega

/-- An idle word agrees with the one its fields give but for the bits that are not read (R77). -/
theorem flag_idleWord_fields {w j : Nat} (hw : w < 256 ^ 11) (hlow : field w 42 6 = 0)
    (hhigh : field w 81 7 = 0) (hvalid : flag w 0 = false) (hj : j < 2 ∨ 42 ≤ j) :
    flag (idleWord (flag w 1) (dataWordOfBits (field w 48 33))) j = flag w j := by
  have hbit : field w 0 1 = 0 := by rw [← toNat_flag, hvalid]; rfl
  have hword : idleWord (flag w 1) (dataWordOfBits (field w 48 33)) =
      2 * field w 1 1 + 2 ^ 48 * field w 48 33 := by
    rw [idleWord, toNat_flag, bits_dataWordOfBits (field_lt w 48 33)]
  rw [hword, flag, flag]
  congr 1
  obtain hj | hj := hj
  · interval_cases j <;> simp only [field] at hbit ⊢ <;> omega
  · refine field_eq_of_div_eq ?_ hj
    simp only [field] at hlow hhigh hbit ⊢
    omega

/-- What the reader of address-phase words makes of `w`: the command of a presented transfer, whose word it
is, or an idle command, whose word it agrees with but for the bits that are not read (R77). -/
inductive AddressPhaseReads (p w : Nat) : Instr → Prop where
  | command {r : Bool} {t : TransferMeta} {dp : DataWord} (hd : dp.wf = true)
      (hw : w = apwOf r t + 2 ^ 48 * dp.bits) : AddressPhaseReads p w (busCommand p r t dp)
  | idle {r : Bool} {dp : DataWord} (hd : dp.wf = true) (hvalid : flag w 0 = false)
      (hw : ∀ j, j < 2 ∨ 42 ≤ j → flag (idleWord r dp) j = flag w j) :
      AddressPhaseReads p w (.idle p r dp)

/-- A word whose `valid` bit is set is the one of the fields that are read from it (R77, R78). -/
theorem apwOf_fields {w : Nat} {t : TransferMeta} (hw : w < 256 ^ 11) (hlow : field w 42 6 = 0)
    (hhigh : field w 81 7 = 0) (hvalid : flag w 0 = true) (ht : field w 2 40 = t.bits) :
    w = apwOf (flag w 1) t + 2 ^ 48 * (dataWordOfBits (field w 48 33)).bits := by
  have hbit : field w 0 1 = 1 := by rw [← toNat_flag, hvalid]; rfl
  simp only [apwOf, bits_dataWordOfBits (field_lt w 48 33), toNat_flag, ← ht]
  simp only [field] at hlow hhigh hbit ⊢
  omega

/-- What the reader of address-phase words accepts (R77). -/
theorem decodeAddressPhase_reads {p w : Nat} {i : Instr} (hw : w < 256 ^ 11)
    (h : decodeAddressPhase p w = .ok i) : AddressPhaseReads p w i := by
  unfold decodeAddressPhase at h
  split at h
  case isTrue => cases h
  case isFalse hpad =>
    obtain ⟨hlow, hhigh⟩ := not_or.1 hpad
    rw [not_not] at hlow hhigh
    split at h
    case isTrue hvalid =>
      obtain ⟨t, ht, h⟩ := bind_eq_ok.1 h
      obtain ⟨hd, rfl⟩ := ifWf_eq_ok.1 h
      rw [busCommand_wf] at hd
      exact .command hd
        (apwOf_fields hw hlow hhigh hvalid ((metaOfBits_eq_ok (field_lt w 2 40)).1 ht))
    case isFalse hvalid =>
      rw [Bool.not_eq_true] at hvalid
      obtain ⟨hd, rfl⟩ := ifWf_eq_ok.1 h
      exact .idle hd hvalid fun j hj => flag_idleWord_fields hw hlow hhigh hvalid hj

/-- The idle words read back. -/
theorem decode_idle (p : Nat) (r : Bool) (dp : DataWord) (hd : dp.wf = true) :
    decode (encode (.idle p r dp)) = .ok (.idle p r dp) := by
  have hr := r.toNat_lt
  have hlt := dp_lt dp
  have hlow : field (idleWord r dp) 42 6 = 0 := by simp only [field, idleWord]; omega
  have hhigh : field (idleWord r dp) 81 7 = 0 := by simp only [field, idleWord]; omega
  have hvalid : field (idleWord r dp) 0 1 = 0 := by simp only [field, idleWord]; omega
  have hready : field (idleWord r dp) 1 1 = r.toNat := by simp only [field, idleWord]; omega
  have hdata : field (idleWord r dp) 48 33 = dp.bits := by simp only [field, idleWord]; omega
  have hflag : flag (idleWord r dp) 1 = r := flag_eq_of_field hready
  have hword : encode (.idle p r dp) = packetOf .addressPhase p (idleWord r dp) := rfl
  rw [hword, decode_packetOf _ _ _ (.inr (idleWord_lt r dp))]
  simp only [decodeAddressPhase, hlow, hhigh, hflag, hdata, dp_bits]
  simp [flag, hvalid, ifWf_of_wf (i := .idle p r dp) hd]

/-! ### The operands of the interface operations -/

/-- One transfer (R85). -/
theorem metaOperand_eq_ok {r : Nat} {f : TransferMeta → Instr} {i : Instr} :
    metaOperand r f = .ok i ↔ ∃ t, r = t.bits ∧ i = f t := by
  unfold metaOperand
  constructor
  · split
    case isTrue hr =>
      intro h
      obtain ⟨t, ht, rfl⟩ := map_eq_ok.1 h
      exact ⟨t, (metaOfBits_eq_ok hr).1 ht, rfl⟩
    case isFalse => simp
  · rintro ⟨t, rfl, rfl⟩
    rw [if_pos (meta_lt t), metaOfBits_bits]
    rfl

/-- One 32-bit value (R85). -/
theorem wordOperand_eq_ok {r : Nat} {f : BitVec 32 → Instr} {i : Instr} :
    wordOperand r f = .ok i ↔ ∃ v : BitVec 32, r = v.toNat ∧ i = f v := by
  unfold wordOperand
  constructor
  · split
    case isTrue hr =>
      rintro ⟨⟩
      exact ⟨BitVec.ofNat 32 r, by rw [BitVec.toNat_ofNat, Nat.mod_eq_of_lt hr], rfl⟩
    case isFalse => simp
  · rintro ⟨v, rfl, rfl⟩
    simp [v.isLt]

theorem noOperand_eq_ok {r : Nat} {i j : Instr} : noOperand r j = .ok i ↔ r = 0 ∧ i = j := by
  unfold noOperand
  split <;> simp_all [eq_comm (a := i)]

/-- A size and a value that fits it (R156). -/
theorem decodeProvideData_eq_ok {p r : Nat} {i : Instr} :
    decodeProvideData p r = .ok i ↔ ∃ (z : Size) (v : Word),
      r = z.bits + 2 ^ 8 * v.toNat ∧ (Instr.provideData p z v).wf = true ∧
        i = .provideData p z v := by
  unfold decodeProvideData
  constructor
  · split
    case isTrue hr =>
      intro h
      obtain ⟨z, hz, h⟩ := bind_eq_ok.1 h
      obtain ⟨hwf, rfl⟩ := ifWf_eq_ok.1 h
      refine ⟨z, _, ?_, hwf, rfl⟩
      rw [← sizeOfCode_eq_ok.1 hz, BitVec.toNat_ofNat]
      simp only [field]
      omega
    case isFalse => simp
  · rintro ⟨z, v, rfl, hwf, rfl⟩
    have hz := size_bits_lt z
    have hv := v.isLt
    have hsize : field (z.bits + 2 ^ 8 * v.toNat) 0 8 = z.bits := by simp only [field]; omega
    have hvalue : field (z.bits + 2 ^ 8 * v.toNat) 8 32 = v.toNat := by simp only [field]; omega
    rw [if_pos (by omega), hsize, hvalue, sizeOfCode_bits]
    simpa [Except.bind] using ifWf_of_wf hwf

/-- A transfer and its value (R162). -/
theorem decodeTransferDone_eq_ok {p r : Nat} {i : Instr} :
    decodeTransferDone p r = .ok i ↔ ∃ (t : TransferMeta) (v : Word),
      r = t.bits + 2 ^ 40 * v.toNat ∧ (Instr.transferDone p t v).wf = true ∧
        i = .transferDone p t v := by
  unfold decodeTransferDone
  constructor
  · split
    case isTrue hr =>
      intro h
      obtain ⟨t, ht, h⟩ := bind_eq_ok.1 h
      obtain ⟨hwf, rfl⟩ := ifWf_eq_ok.1 h
      refine ⟨t, _, ?_, hwf, rfl⟩
      rw [← (metaOfBits_eq_ok (field_lt r 0 40)).1 ht, BitVec.toNat_ofNat]
      simp only [field]
      omega
    case isFalse => simp
  · rintro ⟨t, v, rfl, hwf, rfl⟩
    have ht := meta_lt t
    have hv := v.isLt
    have hmeta : field (t.bits + 2 ^ 40 * v.toNat) 0 40 = t.bits := by simp only [field]; omega
    have hvalue : field (t.bits + 2 ^ 40 * v.toNat) 40 32 = v.toNat := by simp only [field]; omega
    rw [if_pos (by omega), hmeta, hvalue, metaOfBits_bits]
    simpa [Except.bind] using ifWf_of_wf hwf

/-- A transfer, the bit `is_final` and a value (R121). -/
theorem decodeWrite_eq_ok {p r : Nat} {i : Instr} :
    decodeWrite p r = .ok i ↔ ∃ (t : TransferMeta) (v : Word) (b : Bool),
      r = t.bits + 2 ^ 40 * (b.toNat + 2 * v.toNat) ∧ (Instr.write p t v b).wf = true ∧
        i = .write p t v b := by
  unfold decodeWrite
  constructor
  · split
    case isTrue hr =>
      intro h
      obtain ⟨t, ht, h⟩ := bind_eq_ok.1 h
      obtain ⟨hwf, rfl⟩ := ifWf_eq_ok.1 h
      refine ⟨t, _, _, ?_, hwf, rfl⟩
      rw [← (metaOfBits_eq_ok (field_lt r 0 40)).1 ht, BitVec.toNat_ofNat, toNat_flag]
      simp only [field]
      omega
    case isFalse => simp
  · rintro ⟨t, v, b, rfl, hwf, rfl⟩
    have ht := meta_lt t
    have hv := v.isLt
    have hb := b.toNat_lt
    have hmeta : field (t.bits + 2 ^ 40 * (b.toNat + 2 * v.toNat)) 0 40 = t.bits := by
      simp only [field]; omega
    have hbit : field (t.bits + 2 ^ 40 * (b.toNat + 2 * v.toNat)) 40 1 = b.toNat := by
      simp only [field]; omega
    have hvalue : field (t.bits + 2 ^ 40 * (b.toNat + 2 * v.toNat)) 41 32 = v.toNat := by
      simp only [field]; omega
    have hflag : flag (t.bits + 2 ^ 40 * (b.toNat + 2 * v.toNat)) 40 = b := flag_eq_of_field hbit
    rw [if_pos (by omega), hmeta, hvalue, hflag, metaOfBits_bits]
    simpa [Except.bind] using ifWf_of_wf hwf

/-- The operand of `transfers_aborted`: one transfer, or two (R165). -/
def abortedBits (t : TransferMeta) (u : Option TransferMeta) : Nat :=
  t.bits + 2 ^ 40 * (u.elim 0 fun u => 1 + 2 * u.bits)

theorem encode_transfersAborted (p : Nat) (t : TransferMeta) (u : Option TransferMeta) :
    encode (.transfersAborted p t u) = encodeCall p 0x04 (abortedBits t u) := by
  cases u <;> rfl

/-- One transfer, or two (R165). -/
theorem decodeTransfersAborted_eq_ok {p r : Nat} {i : Instr} :
    decodeTransfersAborted p r = .ok i ↔ ∃ t u,
      r = abortedBits t u ∧ i = .transfersAborted p t u := by
  unfold decodeTransfersAborted
  constructor
  · split
    case isTrue hr =>
      intro h
      obtain ⟨t, ht, h⟩ := bind_eq_ok.1 h
      have hfst := (metaOfBits_eq_ok (field_lt r 0 40)).1 ht
      have hbit := toNat_flag r 40
      split at h
      case isTrue hflag =>
        obtain ⟨u, hu, rfl⟩ := map_eq_ok.1 h
        have hsnd := (metaOfBits_eq_ok (field_lt r 41 40)).1 hu
        refine ⟨t, some u, ?_, rfl⟩
        rw [hflag] at hbit
        simp only [abortedBits, Option.elim, ← hfst, ← hsnd]
        simp only [field, Bool.toNat_true] at hbit ⊢
        omega
      case isFalse hflag =>
        split at h
        case isTrue hzero =>
          obtain rfl := Except.ok.inj h
          refine ⟨t, none, ?_, rfl⟩
          rw [Bool.not_eq_true] at hflag
          rw [hflag] at hbit
          simp only [abortedBits, Option.elim, ← hfst]
          simp only [field, Bool.toNat_false] at hbit hzero ⊢
          omega
        case isFalse => cases h
    case isFalse => simp
  · rintro ⟨t, u, rfl, rfl⟩
    have ht := meta_lt t
    cases u with
    | none =>
      have hmeta : field (abortedBits t none) 0 40 = t.bits := by
        simp only [field, abortedBits, Option.elim]; omega
      have hbit : field (abortedBits t none) 40 1 = false.toNat := by
        simp only [field, abortedBits, Option.elim, Bool.toNat_false]; omega
      have hrest : field (abortedBits t none) 41 40 = 0 := by
        simp only [field, abortedBits, Option.elim]; omega
      have hlt : abortedBits t none < 2 ^ 81 := by simp only [abortedBits, Option.elim]; omega
      rw [if_pos hlt, hmeta, hrest, flag_eq_of_field hbit, metaOfBits_bits]
      rfl
    | some u =>
      have hu := meta_lt u
      have hmeta : field (abortedBits t (some u)) 0 40 = t.bits := by
        simp only [field, abortedBits, Option.elim]; omega
      have hbit : field (abortedBits t (some u)) 40 1 = true.toNat := by
        simp only [field, abortedBits, Option.elim, Bool.toNat_true]; omega
      have hrest : field (abortedBits t (some u)) 41 40 = u.bits := by
        simp only [field, abortedBits, Option.elim]; omega
      have hlt : abortedBits t (some u) < 2 ^ 81 := by simp only [abortedBits, Option.elim]; omega
      rw [if_pos hlt, hmeta, hrest, flag_eq_of_field hbit, metaOfBits_bits, metaOfBits_bits]
      rfl

/-! ### Packets -/

/-- A length that the kind of packet admits is the one the encoder gives to its word (R82, log 3). -/
theorem lengthFor_of_admits {f : Format} {l : List Byte} (h : f.admits l = true) :
    f.lengthFor (natOfBytes l) = l.length := by
  by_cases hlen : l.length = f.length
  · cases f with
    | call =>
      have hcount := byteCount_le (le_refl _) (natOfBytes_lt l)
      simp only [Format.lengthFor]
      omega
    | _ => exact hlen.symm
  · obtain ⟨rfl, hlong, hlast⟩ : f = .call ∧ f.length < l.length ∧ l.getLast? ≠ some 0 := by
      simpa [Format.admits, hlen, and_assoc] using h
    obtain ⟨k, hk⟩ : ∃ k, l.length = k + 1 := ⟨l.length - 1, by omega⟩
    have hcount := byteCount_le (le_refl _) (natOfBytes_lt l)
    have htop : natOfBytes l / 256 ^ k ≠ 0 := by
      intro hzero
      have hbytes := bytesOfNat_getLast k (natOfBytes l)
      rw [← hk, bytesOfNat_natOfBytes, hzero] at hbytes
      exact hlast hbytes
    have hle : 256 ^ k ≤ natOfBytes l := by
      by_contra hlt
      exact htop (Nat.div_eq_of_lt (by omega))
    have hpow := (Nat.pow_lt_pow_iff_right (by decide : 1 < 256)).1
      (hle.trans_lt (lt_byteCount (le_refl (natOfBytes l))))
    simp only [Format.lengthFor]
    omega

/-- The packet around the word that a packet's bytes spell has those bytes. -/
theorem packetOf_natOfBytes {f : Format} {l : List Byte} (p : Nat) (h : f.admits l = true) :
    (packetOf f p (natOfBytes l)).bytes = l := by
  simp only [packetOf, lengthFor_of_admits h, bytesOfNat_natOfBytes]

/-- A packet of a kind with one length spells a word that fits it. -/
theorem natOfBytes_lt_of_admits {f : Format} {l : List Byte} (hf : f ≠ .call)
    (h : f.admits l = true) : natOfBytes l < 256 ^ f.length := by
  rw [← lengthFor_of_ne hf (natOfBytes l), lengthFor_of_admits h]
  exact natOfBytes_lt l

/-! ### The instruction that a word spells -/

/-- The instruction is well-formed and `w` is its word, in a packet of kind `f`. -/
structure Spells (f : Format) (w : Nat) (i : Instr) : Prop where
  wf : i.wf = true
  encode_eq : ∃ p, encode i = packetOf f p w

/-- A row of the interface operations is spelled by its tag and its operands (R85). -/
theorem spells_call {w tag r p : Nat} {i : Instr} (hwf : i.wf = true) (htag : w % 256 = tag)
    (hr : w / 256 = r) (he : encode i = encodeCall p tag r) : Spells .call w i :=
  ⟨hwf, p, by rw [he, encodeCall, ← htag, ← hr, Nat.mod_add_div]⟩

/-- What the reader of interface operations accepts is spelled by its word, by cases on the tag (R85). -/
theorem decodeCall_spells {p w : Nat} {i : Instr} (h : decodeCall p w = .ok i) :
    Spells .call w i := by
  unfold decodeCall at h
  simp only at h
  split at h
  -- one transfer: `try_request`, `read`, `pre_write`, `split`
  case h_1 htag | h_6 htag | h_7 htag | h_15 htag =>
    obtain ⟨t, hr, rfl⟩ := metaOperand_eq_ok.1 h
    exact spells_call rfl htag hr rfl
  -- no operand: `try_force_cancel`, `deref`, `commit`
  case h_2 htag | h_10 htag | h_11 htag =>
    obtain ⟨hr, rfl⟩ := noOperand_eq_ok.1 h
    exact spells_call rfl htag hr rfl
  -- one value: `set_next`, `decode`, `bb_translate`
  case h_9 htag | h_12 htag | h_16 htag =>
    obtain ⟨v, hr, rfl⟩ := wordOperand_eq_ok.1 h
    exact spells_call rfl htag hr rfl
  -- a set of contenders: the two arbitrations
  case h_13 htag | h_14 htag =>
    obtain rfl := Except.ok.inj h
    exact spells_call rfl htag rfl rfl
  -- `provide_data`
  case h_3 htag =>
    obtain ⟨z, v, hr, hwf, rfl⟩ := decodeProvideData_eq_ok.1 h
    exact spells_call hwf htag hr rfl
  -- `transfer_done`
  case h_4 htag =>
    obtain ⟨t, v, hr, hwf, rfl⟩ := decodeTransferDone_eq_ok.1 h
    exact spells_call hwf htag hr rfl
  -- `transfers_aborted`
  case h_5 htag =>
    obtain ⟨t, u, hr, rfl⟩ := decodeTransfersAborted_eq_ok.1 h
    exact spells_call rfl htag hr (encode_transfersAborted p t u)
  -- `write`
  case h_8 htag =>
    obtain ⟨t, v, b, hr, hwf, rfl⟩ := decodeWrite_eq_ok.1 h
    exact spells_call hwf htag hr rfl
  -- a tag of no operation
  case h_17 => cases h

/-- What the decoder accepts: a word that spells its instruction, or an idle address-phase word, which
agrees with its instruction's word but for the bits that are not read (R77). -/
theorem decode_accepts {k : Packet} {i : Instr} (h : decode k = .ok i) :
    k.fmt.admits k.bytes = true ∧ (Spells k.fmt (natOfBytes k.bytes) i ∨
      k.fmt = .addressPhase ∧ flag (natOfBytes k.bytes) 0 = false ∧
        ∃ r dp, i = .idle k.unit r dp ∧ dp.wf = true ∧
          ∀ j, j < 2 ∨ 42 ≤ j → flag (idleWord r dp) j = flag (natOfBytes k.bytes) j) := by
  obtain ⟨fmt, p, l⟩ := k
  unfold decode at h
  split at h
  case isTrue => cases h
  case isFalse hadmits =>
    rw [Bool.not_eq_false] at hadmits
    refine ⟨hadmits, ?_⟩
    cases fmt with
    | addressPhase =>
      obtain ⟨hd, hw⟩ | ⟨hd, hvalid, hw⟩ :=
        decodeAddressPhase_reads (natOfBytes_lt_of_admits (f := .addressPhase) (by decide) hadmits) h
      · exact .inl ⟨by rwa [busCommand_wf], p, by rw [encode_busCommand, encodeBus, hw]⟩
      · exact .inr ⟨rfl, hvalid, _, _, rfl, hd, hw⟩
    | response =>
      obtain ⟨c, g, d, hw, hd, rfl⟩ :=
        (decodeResponse_eq_ok (natOfBytes_lt_of_admits (f := .response) (by decide) hadmits)).1 h
      exact .inl ⟨by rwa [codeRow_wf], p, by rw [encode_codeRow, hw]⟩
    | grantWire =>
      obtain ⟨c, g, d, hw, hd, rfl⟩ :=
        (decodeGrantWire_eq_ok (natOfBytes_lt_of_admits (f := .grantWire) (by decide) hadmits)).1 h
      exact .inl ⟨by rwa [grantRow_wf], p, by rw [encode_grantRow, hw]⟩
    | call => exact .inl (decodeCall_spells h)

/-- The packet of an idle command spells its word. -/
theorem natOfBytes_encode_idle (p : Nat) (r : Bool) (dp : DataWord) :
    natOfBytes (encode (.idle p r dp)).bytes = idleWord r dp :=
  (natOfBytes_bytesOfNat _ _).trans (Nat.mod_eq_of_lt (idleWord_lt r dp))

/-- Settles O2, from what the decoder accepts in each kind of packet. -/
theorem wordsSpellOneInstruction : Obligations.WordsSpellOneInstruction := by
  intro k i h
  obtain ⟨hadmits, ⟨hwf, p, he⟩ | ⟨hfmt, hvalid, r, dp, rfl, hd, hbits⟩⟩ := decode_accepts h
  · have hbytes : (encode i).bytes = k.bytes := by rw [he, packetOf_natOfBytes p hadmits]
    exact ⟨hwf, by rw [he]; rfl, fun _ => hbytes, fun _ _ => by simp [hbytes]⟩
  · refine ⟨hd, hfmt.symm, fun hset => ?_, fun _ _ => ⟨?_, ?_⟩⟩
    · rw [hset hfmt] at hvalid
      cases hvalid
    · have hlen : k.bytes.length = 11 := by simpa [hfmt, Format.admits, Format.length] using hadmits
      rw [hlen]
      exact bytesOfNat_length _ _
    · simpa only [natOfBytes_encode_idle] using hbits

/-- A response word read as its code reads back (R79). -/
theorem decode_codeRow (p : Nat) (c : Code) (g : Bool) {d : DataWord} (hd : d.wf = true) :
    decode (encode (codeRow p c g d)) = .ok (codeRow p c g d) := by
  obtain ⟨-, -, -, -, hw⟩ := decode_rsw c g d
  rw [encode_codeRow, decode_packetOf _ _ _ (.inr hw)]
  exact (decodeResponse_eq_ok hw).2 ⟨c, g, d, rfl, hd, rfl⟩

/-- A response word read as its grant reads back (R79). -/
theorem decode_grantRow (p : Nat) (c : Code) (g : Bool) {d : DataWord} (hd : d.wf = true) :
    decode (encode (grantRow p c g d)) = .ok (grantRow p c g d) := by
  obtain ⟨-, -, -, -, hw⟩ := decode_rsw c g d
  rw [encode_grantRow, decode_packetOf _ _ _ (.inr hw)]
  exact (decodeGrantWire_eq_ok hw).2 ⟨c, g, d, rfl, hd, rfl⟩

/-- A row of the interface operations reads back when the reader of its tag reads its operands (R85). -/
theorem decode_callRow {i : Instr} {p tag r : Nat} (he : encode i = encodeCall p tag r)
    (htag : tag < 256) (h : ∀ w, w % 256 = tag → w / 256 = r → decodeCall p w = .ok i) :
    decode (encode i) = .ok i := by
  rw [he, decode_call]
  exact h _ (call_mod tag r htag) (call_div tag r htag)

/-- Settles O1: each row of the table is read by the reader of its kind of word. -/
theorem decodeEncodeAgree : Obligations.DecodeEncodeAgree := by
  intro i h
  cases i with
  | idle p r dp => exact decode_idle p r dp h
  | readB p r b q a dp => exact decode_bus p r ⟨.read, a, .byte, b, q⟩ dp h
  | readH p r b q a dp => exact decode_bus p r ⟨.read, a, .halfword, b, q⟩ dp h
  | readW p r b q a dp => exact decode_bus p r ⟨.read, a, .word, b, q⟩ dp h
  | writeB p r b q a dp => exact decode_bus p r ⟨.write, a, .byte, b, q⟩ dp h
  | writeH p r b q a dp => exact decode_bus p r ⟨.write, a, .halfword, b, q⟩ dp h
  | writeW p r b q a dp => exact decode_bus p r ⟨.write, a, .word, b, q⟩ dp h
  | success p g d => exact decode_codeRow p .success g h
  | pending p g d => exact decode_codeRow p .pending g h
  | error1 p g d => exact decode_codeRow p .error1 g h
  | error2 p g d => exact decode_codeRow p .error2 g h
  | grant p c d => exact decode_grantRow p c true h
  | deny p c d => exact decode_grantRow p c false h
  | tryRequest p t | read p t | preWrite p t | split t =>
    exact decode_callRow rfl (by decide) fun w htag hr => by
      simpa only [decodeCall, htag, hr] using metaOperand_eq_ok.2 ⟨t, rfl, rfl⟩
  | setNext p v | decode p v | bbTranslate p v =>
    exact decode_callRow rfl (by decide) fun w htag hr => by
      simpa only [decodeCall, htag, hr] using wordOperand_eq_ok.2 ⟨v, rfl, rfl⟩
  | tryForceCancel p | deref p | commit =>
    exact decode_callRow rfl (by decide) fun w htag hr => by
      simpa only [decodeCall, htag, hr] using noOperand_eq_ok.2 ⟨rfl, rfl⟩
  | arbitrateFixed p c | arbitrateRr p c =>
    exact decode_callRow rfl (by decide) fun w htag hr => by simp only [decodeCall, htag, hr]
  | provideData p z v =>
    exact decode_callRow rfl (by decide) fun w htag hr => by
      simpa only [decodeCall, htag, hr] using decodeProvideData_eq_ok.2 ⟨z, v, rfl, h, rfl⟩
  | transferDone p t v =>
    exact decode_callRow rfl (by decide) fun w htag hr => by
      simpa only [decodeCall, htag, hr] using decodeTransferDone_eq_ok.2 ⟨t, v, rfl, h, rfl⟩
  | transfersAborted p t u =>
    exact decode_callRow (encode_transfersAborted p t u) (by decide) fun w htag hr => by
      simpa only [decodeCall, htag, hr] using decodeTransfersAborted_eq_ok.2 ⟨t, u, rfl, rfl⟩
  | write p t v b =>
    exact decode_callRow rfl (by decide) fun w htag hr => by
      simpa only [decodeCall, htag, hr] using decodeWrite_eq_ok.2 ⟨t, v, b, rfl, h, rfl⟩

/-- Settles O3, by evaluating the decoder on the words of the vectors and on the tags. -/
theorem specWordsDecode : Obligations.SpecWordsDecode := by
  refine ⟨?addressPhase, ?dataPhase, ?response, ?call⟩
  case addressPhase => decide
  case dataPhase => decide
  case response => decide
  case call => decide

end Sys2Proof.Proofs
end

section
/-! What a step makes of the word that waits, or of none (R110, R322), and which words it refuses (R78,
R81): the obligation O5. -/

namespace Sys2Proof.Proofs

open Sys2Proof Sys2Proof.Machine

/-- An address-phase word whose size field has the fourth code spells nothing (R81). -/
theorem decodeAddressPhase_reservedSize {p w : Nat} (hvalid : flag w 0 = true)
    (hsize : field w 3 2 = 3) : ∃ why, decodeAddressPhase p w = .error why := by
  have hfield : field (field w 2 40) 1 2 = 3 := by
    simp only [field] at hsize ⊢
    omega
  unfold decodeAddressPhase
  rw [if_pos hvalid]
  split
  · exact ⟨_, rfl⟩
  · rw [metaOfBits_reserved hfield]
    exact ⟨_, rfl⟩

/-- A value with a byte above the size of the transfer in data phase does not travel beside it (R78). -/
theorem not_fits_of_le {d : DataWord} {x : TransferMeta} (hpresent : d.present = true)
    (hv : 2 ^ (8 * x.size.bytes) ≤ d.value.toNat) : d.fits (some x) = false := by
  simpa [DataWord.fits, Size.fits, hpresent] using hv

/-- A word that does not fit at its port is refused (log 6). -/
theorem withWord_of_not_fits {p : Nat} {d : DataWord} {r : Except Fault State} {s : State} {c : Chain}
    (hc : s.chains[p]? = some c) (h : d.fits c.md.dataSlot = false) :
    withWord p d r s = .refused (.invalidWord .reservedBits) := by
  simp [withWord, hc, h]

/-- Settles O5, by whether a packet waits and what its word is. -/
theorem stepOtherwise : Obligations.StepOtherwise := by
  refine ⟨fun s k rest why hs hk => ?invalid, fun k hf hl hvalid hsize => ?reserved,
    fun s p i c x d r hc hx hi => ?tooWide, fun s hs => ?tick⟩
  case invalid => simp [step, runNext, hs, runPacket, hk]
  case reserved =>
    obtain ⟨why, hwhy⟩ := decodeAddressPhase_reservedSize (p := k.unit) hvalid hsize
    have hadmits : Format.addressPhase.admits k.bytes = true := by
      simp [hl, Format.admits, Format.length]
    exact ⟨why, by simp [decode, hf, hadmits, hwhy]⟩
  case tooWide =>
    obtain ⟨hi, hpresent, hv⟩ | ⟨hi, hpresent, hv⟩ := hi
    · exact (exec_of_commandOf hi s).trans
        (withWord_of_not_fits hc (hx ▸ not_fits_of_le hpresent hv))
    · exact (exec_of_responseOf hi s).trans
        (withWord_of_not_fits hc (hx ▸ not_fits_of_le hpresent hv))
  case tick =>
    simp only [step, runNext, hs]
    rfl

end Sys2Proof.Proofs
end

section
/-! A command row with an incrementing burst (R80, R304): its driver faults at dispatch, while no other
driver of a quiet fabric does. The obligation O48. -/

namespace Sys2Proof.Proofs

open Sys2Proof Sys2Proof.Machine

/-- The driver on whose port the burst is put faults (R80). -/
theorem laneStart_burst {p : Nat} {c : Chain} {x : TransferMeta} {ready : Bool} {dp : DataWord}
    (hx : x.burst = .increment) :
    laneStart (some (p, ⟨some x, ready, dp⟩)) p c = .error .burstNotModelled := by
  simp [laneStart, mdEmit, mdDrive, refuseBurst_error hx, Except.map]

/-- Every other quiet driver dispatches (R153). -/
theorem laneStart_other {p q : Nat} {c : Chain} {d : Drive} (hc : c.md.quiet = true) (hq : p ≠ q) :
    ∃ l, laneStart (some (p, d)) q c = .ok l := by
  have hemit : mdEmit (some (p, d)) q c.md = _ :=
    emit_quiet hc fun p' d' h => by cases h; exact hq
  exact ⟨_, by rw [laneStart, hemit]; rfl⟩

/-- So the cycle of a fabric whose drivers are quiet faults (R303). -/
theorem cycle_burst {s : State} {p : Nat} {c : Chain} {x : TransferMeta} {ready : Bool} {dp : DataWord}
    {reply : Option (Nat × Reply)} (hquiet : ∀ c ∈ s.chains, c.md.quiet = true)
    (hc : s.chains[p]? = some c) (hx : x.burst = .increment) :
    cycle (some (p, ⟨some x, ready, dp⟩)) reply s = .error .burstNotModelled := by
  have hstart : mapE (fun y : Chain × Nat => laneStart (some (p, ⟨some x, ready, dp⟩)) y.2 y.1)
      s.chains.zipIdx = .error .burstNotModelled := by
    refine mapE_error (a := (c, p)) (List.mem_zipIdx_iff_getElem?.2 hc) (laneStart_burst hx) ?_
    rintro ⟨c', q⟩ hmem
    by_cases hq : p = q
    · subst hq
      exact .inr (laneStart_burst hx)
    · exact .inl (laneStart_other (hquiet _ (List.fst_mem_of_mem_zipIdx hmem)) hq)
  simp only [cycle, chainsDown, hstart, bind, Except.bind]

/-- Settles O48: with nothing in data phase every payload fits, so the cycle runs, and faults. -/
theorem burstIsRefused : Obligations.BurstIsRefused := by
  intro s p i x ready dp hs hp hi hx
  obtain ⟨c, hc⟩ : ∃ c, s.chains[p]? = some c := ⟨_, List.getElem?_eq_getElem hp⟩
  obtain ⟨wd, cn, hmd⟩ := mdQuiet_iff.1 (hs.2 c (List.mem_of_getElem? hc))
  have hfits : dp.fits c.md.dataSlot = true := by simp [hmd, DataWord.fits]
  rw [exec_of_commandOf hi, present, withWord_of_fits hc hfits, cycle_burst hs.2 hc hx]
  rfl

end Sys2Proof.Proofs
end

section
/-! The two values of the grant wire (R84, R160): what a cycle makes of a `Success` that arrives where
nothing is in data phase, that the grant is not looked at on a port without the wire (R74), and the
obligation O51. -/

namespace Sys2Proof.Proofs

open Sys2Proof Sys2Proof.Machine

/-! ### A `Success` with nothing in data phase -/

/-- A Master Driver at a cycle boundary with nothing in data phase, which may receive `Success` (R159). -/
structure AwaitsGrant (md : MasterDriver) : Prop where
  dataSlot_eq : md.dataSlot = none
  phase_eq : md.phase = .tickExtra
  lastCode_ne : md.lastCode ≠ .error1

theorem awaitsGrant_of_quiet {md : MasterDriver} (h : md.quiet = true) : AwaitsGrant md := by
  obtain ⟨wd, cn, rfl⟩ := mdQuiet_iff.1 h
  exact ⟨rfl, rfl, nofun⟩

/-- The driver after the cycle in which `Success` arrives with the grant `g` (R160, R162). -/
def afterSuccess (md : MasterDriver) (g : Bool) : MasterDriver :=
  md.answered none md.wdata md.cancelled .success g

theorem afterSuccess_phase (md : MasterDriver) (g : Bool) : (afterSuccess md g).phase = .tickExtra := by
  unfold afterSuccess MasterDriver.answered
  split
  · rfl
  · split <;> rfl

/-- A quiet driver that is granted stays as it is (R153). -/
theorem afterSuccess_quiet {md : MasterDriver} (h : md.quiet = true) : afterSuccess md true = md := by
  obtain ⟨wd, cn, rfl⟩ := mdQuiet_iff.1 h
  rfl

/-- What such a driver emits: its address phase (R158). -/
def emits (md : MasterDriver) : MasterDriver × M2S :=
  ({ md with phase := .sentMessages },
    ⟨md.addrSlot.map Prod.fst, readyFlag md.lastCode md.lastGrant, none⟩)

theorem mdEmit_awaitsGrant {q : Nat} {md : MasterDriver} (h : AwaitsGrant md) :
    mdEmit none q md = .ok (emits md) := by
  simp [mdEmit, mdDispatch, mdPayload, h.dataSlot_eq, h.phase_eq, phaseSent, emits]

/-- Such a driver receives `Success` (R160, R162). -/
theorem mdReceive_awaitsGrant {b : Bool} {q : Nat} {md : MasterDriver} {r : S2M} (h : AwaitsGrant md)
    (hr : r.code = .success) :
    mdReceive b q (emits md).1 r = .ok ({ afterSuccess md r.grant with phase := .gotMessages }, []) := by
  obtain ⟨hslot, -, hlast⟩ := h
  obtain ⟨code, data, g⟩ := r
  obtain rfl : code = .success := hr
  refine mdReceive_eq_ok.2 ⟨by simp [mdCheck, emits, hlast], (emits md).1,
    by simp [mdCode, emits, hslot], ?_⟩
  have hcommit : mdCommit { mdAdvance b (emits md).1 .success g with
      lastCode := .success, lastGrant := g, phase := .gotMessages } = .ok (afterSuccess md g) :=
    answered_eq b rfl hslot rfl rfl (.inr (.inr nofun))
  simp only [mdCommit, if_true, Except.ok.injEq] at hcommit
  rw [← hcommit]

/-- What arrives at the driver of each chain when a `Success` word is put on port `p` of a fabric that is
quiet below (log 5). -/
def arrivesAt (p : Nat) (g : Bool) (data : DataWord) (x : Chain × Nat) : S2M :=
  onPort x.1.cfg.grantWire
    (replyAt (some (p, ⟨.success, g, data⟩)) x.2 (emits x.1.md).1 ⟨.success, none, true⟩)

theorem arrivesAt_code (p : Nat) (g : Bool) (data : DataWord) (x : Chain × Nat) :
    (arrivesAt p g data x).code = .success := by
  simp only [arrivesAt, onPort_code, replyAt]
  split <;> rfl

theorem arrivesAt_grant_same (p : Nat) (g : Bool) (data : DataWord) (c : Chain) :
    (arrivesAt p g data (c, p)).grant = (g || !c.cfg.grantWire) := by
  simp [arrivesAt, replyAt]

theorem arrivesAt_grant_other {p : Nat} {x : Chain × Nat} (h : x.2 ≠ p) (g : Bool) (data : DataWord) :
    (arrivesAt p g data x).grant = true := by
  simp [arrivesAt, replyAt, h.symm]

/-- A chain whose driver has received `Success` with the grant that arrives, and nothing else. -/
def granted (p : Nat) (g : Bool) (data : DataWord) (x : Chain × Nat) : Chain :=
  { x.1 with md := afterSuccess x.1.md (arrivesAt p g data x).grant }

/-- A chain is the one at port `p`, or its driver is quiet. -/
theorem port_or_quiet {s : State} {p : Nat} {c : Chain} (hc : s.chains[p]? = some c)
    (hothers : ∀ q c', q ≠ p → s.chains[q]? = some c' → c'.md.quiet = true) :
    ∀ x ∈ s.chains.zipIdx, x = (c, p) ∨ x.2 ≠ p ∧ x.1.md.quiet = true := by
  rintro ⟨c', q⟩ hx
  have hx := List.mem_zipIdx_iff_getElem?.1 hx
  by_cases hq : q = p
  · subst hq
    obtain rfl : c = c' := Option.some.inj (hc.symm.trans hx)
    exact .inl rfl
  · exact .inr ⟨hq, hothers q c' hq hx⟩

/-- A `Success` word at a driver that waits for it, in a fabric that is quiet otherwise: the driver does as
R160 says, and nothing else happens (log 5). -/
theorem respond_success {s : State} {p : Nat} {c : Chain} {a : TransferMeta} {h : Hold} {g : Bool}
    {data : DataWord} (hquiet : s.QuietBelow) (hc : s.chains[p]? = some c)
    (hothers : ∀ q c', q ≠ p → s.chains[q]? = some c' → c'.md.quiet = true)
    (hmd : AwaitsGrant c.md) (haddr : c.md.addrSlot = some (a, h)) (hburst : a.burst = .single)
    (halias : c.aliasOk a = true) :
    ∃ t, respond p ⟨.success, g, data⟩ s = .next t ∧ t.out = [] ∧
      t.chains.map Chain.md =
        (s.chains.map Chain.md).set p (afterSuccess c.md (g || !c.cfg.grantWire)) ∧
      t.slaves.map Slave.handler = s.slaves.map Slave.handler := by
  have hcases := port_or_quiet hc hothers
  have hawaits : ∀ x ∈ s.chains.zipIdx, AwaitsGrant x.1.md := by
    intro x hx
    obtain rfl | ⟨-, hq⟩ := hcases x hx
    · exact hmd
    · exact awaitsGrant_of_quiet hq
  have hidle : ∀ x ∈ s.chains.zipIdx, x.2 ≠ p → (emits x.1.md).2.req = none := by
    intro x hx hne
    obtain rfl | ⟨-, hq⟩ := hcases x hx
    · exact absurd rfl hne
    · obtain ⟨wd, cn, heq⟩ := mdQuiet_iff.1 hq
      simp [emits, heq]
  have hpresentable : ∀ x ∈ s.chains.zipIdx, Presentable x.1 (emits x.1.md).2 := by
    intro x hx
    refine ⟨rfl, fun t ht => ?_⟩
    obtain rfl | ⟨hne, -⟩ := hcases x hx
    · obtain rfl : a = t := by simpa [emits, haddr] using ht
      exact ⟨hburst, halias⟩
    · rw [hidle x hx hne] at ht
      cases ht
  obtain ⟨stages, outs, hcycle, hhandlers, -⟩ := quiet_cycle (drive := none)
    (e := fun x => emits x.1.md)
    (r := fun x =>
      ({ afterSuccess x.1.md (arrivesAt p g data x).grant with phase := .gotMessages }, []))
    hquiet (fun x hx => mdEmit_awaitsGrant (hawaits x hx)) hpresentable ⟨p, hidle⟩
    (fun x hx => mdReceive_awaitsGrant (hawaits x hx) (arrivesAt_code p g data x))
  have hfits : data.fits c.md.dataSlot = true := by simp [hmd.dataSlot_eq, DataWord.fits]
  refine ⟨_, respond_eq_next.2 ⟨c, hc, hfits, hcycle⟩, by simp, ?_, hhandlers⟩
  have hset : s.chains.zipIdx.map (granted p g data) = s.chains.set p (granted p g data (c, p)) := by
    refine getElem?_zipIdx_set hc _ fun x hx hne => ?_
    obtain rfl | ⟨-, hq⟩ := hcases x hx
    · exact absurd rfl hne
    · simp only [granted, arrivesAt_grant_other hne, afterSuccess_quiet hq]
  calc _ = (s.chains.zipIdx.map (granted p g data)).map Chain.md := by
        simp only [List.map_map]
        refine List.map_congr_left fun x _ => ?_
        simp only [Function.comp, quietChain, granted,
          ← afterSuccess_phase x.1.md (arrivesAt p g data x).grant]
    _ = _ := by rw [hset, List.map_set, granted, arrivesAt_grant_same]

/-! ### A port without a granting wire -/

theorem except_bind_congr {α β : Type} {x : Except Fault α} {f f' : α → Except Fault β}
    (h : ∀ a, x = .ok a → f a = f' a) : (x >>= f) = (x >>= f') := by
  cases x with
  | error e => rfl
  | ok a => exact h a rfl

theorem mapE_congr {α β : Type} {f f' : α → Except Fault β} {l : List α}
    (h : ∀ a ∈ l, f a = f' a) : mapE f l = mapE f' l := by
  induction l with
  | nil => rfl
  | cons a l ih =>
    simp only [mapE, h a (by simp), ih fun x hx => h x (by simp [hx])]

/-- Two replies that each port of the configurations `cfgs` receives alike. -/
def SameAtPorts (cfgs : List MasterCfg) (reply reply' : Option (Nat × Reply)) : Prop :=
  ∀ q l, cfgs[q]? = some l.chain.cfg → laneReceive reply q l = laneReceive reply' q l

/-- The upstream pass looks at a reply at the ports only. -/
theorem chainsUp_congr {reply reply' : Option (Nat × Reply)} {stages : List StageLane}
    {outs : List SlaveOut} {lanes : List Lane}
    (h : SameAtPorts (lanes.map fun l => l.chain.cfg) reply reply') :
    chainsUp reply stages outs lanes = chainsUp reply' stages outs lanes := by
  unfold chainsUp
  refine except_bind_congr fun l1 h1 => except_bind_congr fun l2 h2 => ?_
  have hcfg : l2.map (fun l => l.chain.cfg) = lanes.map fun l => l.chain.cfg := by
    rw [mapE_map_eq (g := fun l => l.chain.cfg)
        (fun _ _ e => by obtain ⟨_, _, -, rfl⟩ := laneAlignUp_spec e; rfl) h2,
      mapE_map_eq (g := fun l => l.chain.cfg)
        (fun _ _ e => by obtain ⟨_, _, -, rfl⟩ := laneBandUp_spec e; rfl) h1, List.map_map]
    rfl
  refine mapE_congr fun x hx => h x.2 x.1 ?_
  rw [← hcfg, List.getElem?_map, List.mem_zipIdx_iff_getElem?.1 hx]
  rfl

/-- A cycle looks at a reply at the ports only. -/
theorem cycle_congr {drive : Option (Nat × Drive)} {reply reply' : Option (Nat × Reply)} {s : State}
    (h : SameAtPorts (s.chains.map Chain.cfg) reply reply') :
    cycle drive reply s = cycle drive reply' s := by
  unfold cycle
  refine except_bind_congr fun down hdown => except_bind_congr fun stages _ =>
    except_bind_congr fun outs _ => except_bind_congr fun dflt hdflt => ?_
  have hcfg : dflt.map (fun l => l.chain.cfg) = s.chains.map Chain.cfg := by
    rw [mapE_map_eq (g := fun l => l.chain.cfg)
      (fun _ _ e => by obtain ⟨_, _, -, rfl⟩ := laneDefault_spec e; rfl) hdflt, chainsDown_cfg hdown]
  rw [chainsUp_congr (hcfg ▸ h)]

/-- On a port without a granting wire the grant of a word is not looked at (R74). -/
theorem sameAtPorts_of_noWire {cfgs : List MasterCfg} {p : Nat} {cfg : MasterCfg}
    (hcfg : cfgs[p]? = some cfg) (hwire : cfg.grantWire = false) (code : Code) (g g' : Bool)
    (data : DataWord) :
    SameAtPorts cfgs (some (p, ⟨code, g, data⟩)) (some (p, ⟨code, g', data⟩)) := by
  intro q l hl
  by_cases hq : p = q
  · subst hq
    obtain rfl : cfg = l.chain.cfg := Option.some.inj (hcfg.symm.trans hl)
    simp [laneReceive, replyAt, onPort, hwire]
  · simp [laneReceive, replyAt, hq]

theorem respond_noWire {s : State} {p : Nat} {c : Chain} (hc : s.chains[p]? = some c)
    (hwire : c.cfg.grantWire = false) (code : Code) (g g' : Bool) (data : DataWord) :
    respond p ⟨code, g, data⟩ s = respond p ⟨code, g', data⟩ s := by
  have hcfg : (s.chains.map Chain.cfg)[p]? = some c.cfg := by simp [hc]
  unfold respond
  rw [cycle_congr (sameAtPorts_of_noWire hcfg hwire code g g' data)]

/-! ### The obligation -/

/-- A granted address phase moves to the data phase (R160). -/
theorem afterSuccess_granted {md : MasterDriver} {a : TransferMeta} {h : Hold} (hmd : AwaitsGrant md)
    (haddr : md.addrSlot = some (a, h)) :
    afterSuccess md true =
      { md with addrSlot := none, dataSlot := some a, lastCode := .success, lastGrant := true } := by
  simp [afterSuccess, MasterDriver.answered, haddr, hmd.phase_eq]

/-- A denied one is held, and marked so (R160). -/
theorem afterSuccess_denied {md : MasterDriver} {a : TransferMeta} {h : Hold} (hmd : AwaitsGrant md)
    (haddr : md.addrSlot = some (a, h)) :
    afterSuccess md false =
      { md with addrSlot := some (a, .denied), lastCode := .success, lastGrant := false } := by
  simp [afterSuccess, MasterDriver.answered, haddr, hmd.phase_eq, hmd.dataSlot_eq]

/-- Settles O51: a row of the grant wire is a response word with its grant, which `respond_success` and
`respond_noWire` are about. -/
theorem grantAndDenyAreReceived : Obligations.GrantAndDenyAreReceived := by
  refine ⟨fun s p c a h data hquiet hc hothers hphase haddr hburst halias hslot hlast => ?received,
    fun s p c code data hc hwire => ?noWire, fun s p data => ?sameWord⟩
  case received =>
    have hmd : AwaitsGrant c.md := ⟨hslot, hphase, hlast⟩
    refine ⟨?granted, fun hwire => ?denied⟩
    case granted =>
      rw [← afterSuccess_granted hmd haddr]
      exact respond_success (g := true) hquiet hc hothers hmd haddr hburst halias
    case denied =>
      rw [← afterSuccess_denied hmd haddr]
      have hdeny := respond_success (g := false) (data := data) hquiet hc hothers hmd haddr hburst halias
      rwa [hwire] at hdeny
  case noWire => exact respond_noWire hc hwire code false true data
  case sameWord => exact ⟨rfl, rfl, rfl, rfl, rfl, rfl, rfl, rfl⟩

end Sys2Proof.Proofs
end

section
/-! The flop cell (R102 to R104) with both outcomes of each of its operations, and what they make of the
state: the obligations O13, O14 and O15. -/

namespace Sys2Proof.Proofs

open Sys2Proof Sys2Proof.Machine

/-! ### When each operation raises -/

section Outcomes

variable {c : Flop}

theorem error_eq_comm {α : Type} {a e : Fault} : (Except.error a : Except Fault α) = .error e ↔ e = a :=
  ⟨fun h => (Except.error.inj h).symm, fun h => h ▸ rfl⟩

/-- An operation with one check raises the check's violation and no other (R14). -/
theorem ite_error_eq_error {α : Type} {p : Prop} [Decidable p] {a e : Fault} {b : α} :
    (if p then Except.error a else .ok b) = Except.error e ↔ p ∧ e = a := by
  split
  next h => rw [error_eq_comm, and_iff_right h]
  next h => exact iff_of_false nofun fun hp => h hp.1

theorem flopSetNext_eq_error {v : Word} {e : Fault} :
    flopSetNext c v = .error e ↔ (c.kind = .plain ∧ c.next ≠ none) ∧ e = .flopWrittenTwice :=
  ite_error_eq_error

theorem flopDeref_eq_error {e : Fault} :
    flopDeref c = .error e ↔
      (c.cur = none ∧ e = .flopReadUnset) ∨
        (∃ v, c.cur = some v) ∧ c.curRead = true ∧ e = .flopReadTwice := by
  unfold flopDeref
  cases c.cur with
  | none => simp [error_eq_comm, -Except.error.injEq]
  | some v => simpa using ite_error_eq_error

theorem flopCommit_eq_error {e : Fault} :
    flopCommit c = .error e ↔ (c.cur ≠ none ∧ c.curRead = false) ∧ e = .flopUnreadOverwritten :=
  ite_error_eq_error

theorem committable_iff : c.committable = true ↔ c.cur = none ∨ c.curRead = true := by
  simp [Flop.committable]

/-- A row on a cell faults as the operation on its cell does (R303). -/
theorem onCell_eq_fault {p : Nat} {f : Flop → Except Fault (Ret × Flop)} {s : State} {e : Fault} :
    onCell p f s = .fault e ↔ ∃ c, s.cells[p]? = some c ∧ f c = .error e := by
  unfold onCell
  cases s.cells[p]? with
  | none => simp
  | some c => cases hf : f c <;> simp [hf]

theorem except_map_eq_error {α β : Type} {x : Except Fault α} {f : α → β} {e : Fault} :
    x.map f = .error e ↔ x = .error e := by
  cases x <;> simp [Except.map]

end Outcomes

/-! ### The obligations -/

/-- Settles O13, by whether the cell may be written. -/
theorem setNextWritesNext : Obligations.SetNextWritesNext := by
  intro s p v c hc
  refine ⟨fun hfree => ?written, fun hkind hnext => ?twice⟩
  case written =>
    have hset := (flopSetNext_eq_ok (v := v)).2 ⟨hfree, rfl⟩
    exact onCell_eq_next.2 ⟨c, .unit, _, hc, except_map_eq_ok.2 ⟨_, hset, rfl⟩, rfl⟩
  case twice =>
    have hset := (flopSetNext_eq_error (v := v)).2 ⟨⟨hkind, hnext⟩, rfl⟩
    exact onCell_eq_fault.2 ⟨c, hc, except_map_eq_error.2 hset⟩

/-- Settles O14, by the committed value and whether it has been read. -/
theorem derefReadsOnce : Obligations.DerefReadsOnce := by
  intro s p c hc
  refine ⟨fun hunset => ?unset, fun v hcur hread => ?twice, fun v hcur hread => ?once⟩
  case unset =>
    have hderef := flopDeref_eq_error.2 (.inl ⟨hunset, rfl⟩)
    exact onCell_eq_fault.2 ⟨c, hc, except_map_eq_error.2 hderef⟩
  case twice =>
    have hderef := flopDeref_eq_error.2 (.inr ⟨⟨v, hcur⟩, hread, rfl⟩)
    exact onCell_eq_fault.2 ⟨c, hc, except_map_eq_error.2 hderef⟩
  case once =>
    have hderef := flopDeref_eq_ok.2 ⟨hcur, hread, rfl⟩
    exact onCell_eq_next.2 ⟨c, .value v, _, hc, except_map_eq_ok.2 ⟨_, hderef, rfl⟩, rfl⟩

/-- Settles O15, by whether the committed value has been read. -/
theorem flopCommitMovesNext : Obligations.FlopCommitMovesNext := fun _ =>
  ⟨fun hcur hunread => flopCommit_eq_error.2 ⟨⟨hcur, hunread⟩, rfl⟩,
    fun hread => flopCommit_eq_ok.2 ⟨committable_iff.2 hread, rfl⟩⟩

end Sys2Proof.Proofs
end

section
/-! The instruction that a waiting packet spells is the one that the step runs (R91, R110): the
obligation O4. -/

namespace Sys2Proof.Proofs

open Sys2Proof Sys2Proof.Machine

theorem decodeTableWord_eq_some {nbits w : Nat} {i : Instr} :
    decodeTableWord nbits w = some i ↔ decode (packetOfTable nbits w) = .ok i := by
  unfold decodeTableWord
  cases decode (packetOfTable nbits w) <;> simp [Except.toOption]

/-- The step takes the first packet and runs what it spells (R110). -/
theorem step_of_decode {s : State} {k : Packet} {rest : List Packet} {i : Instr}
    (hinbox : s.inbox = k :: rest) (hk : decode k = .ok i) :
    step s = exec i { s with inbox := rest } := by
  simp only [step, runNext, hinbox, runPacket, hk]

/-- Settles O4: a table word is the first packet of the inbox it is placed in. -/
theorem stepRunsDecodedInstruction : Obligations.StepRunsDecodedInstruction :=
  ⟨fun _ _ _ _ => step_of_decode, fun s nbits w _ hw =>
    step_of_decode (withFetchWord_inbox s nbits w) (decodeTableWord_eq_some.1 hw)⟩

end Sys2Proof.Proofs
end

section
/-! The idle cycle of a quiet fabric (R110, R113), and that a cell with an unread value faults it although
every other component has done its part (R104, R303). The obligation O16. -/

namespace Sys2Proof.Proofs

open Sys2Proof Sys2Proof.Machine

/-! ### The idle cycle -/

/-- A cycle in which every driver of a quiet fabric emits `IDLE`, with the ready flag `ready` on port `p`:
the cells commit and nothing else moves (R113). -/
theorem cycle_idle {s : State} {drive : Option (Nat × Drive)} {p : Nat} {ready : Bool} (hs : s.Quiet)
    (hemit : ∀ x ∈ s.chains.zipIdx, mdEmit drive x.2 x.1.md =
      .ok ({ x.1.md with phase := .sentMessages }, ⟨none, if x.2 = p then ready else true, none⟩)) :
    cycle drive none s =
      .ok { s with cells := s.cells.map Flop.committed, ret := .unit, out := [],
                   wires := s.idleWires p ready } := by
  obtain ⟨hbelow, hdrivers⟩ := hs
  have hpresentable : ∀ x ∈ s.chains.zipIdx,
      Presentable x.1 ⟨none, if x.2 = p then ready else true, none⟩ := fun _ _ => ⟨rfl, nofun⟩
  obtain ⟨stages, slaves, hcycle, -, -, -, hkept⟩ := quiet_cycle (reply := none)
    (r := fun x => ({ x.1.md with phase := .gotMessages }, []))
    hbelow hemit hpresentable ⟨p, fun _ _ _ => rfl⟩
    (fun x hx => recv_quiet (hdrivers _ (List.fst_mem_of_mem_zipIdx hx)))
  obtain ⟨rfl, rfl⟩ := hkept fun _ _ => rfl
  have hchain : ∀ x ∈ s.chains.zipIdx,
      quietChain x.1 ⟨none, if x.2 = p then ready else true, none⟩
        { x.1.md with phase := .tickExtra } = x.1 := by
    intro x hx
    have hmem := List.fst_mem_of_mem_zipIdx hx
    obtain ⟨wd, cn, hmd⟩ := mdQuiet_iff.1 (hdrivers _ hmem)
    rw [quietChain_idle (hbelow.1 _ hmem) (hpresentable x hx) rfl]
    simp only [hmd]
    rw [← hmd]
  have hchains : s.chains.zipIdx.map (fun x => quietChain x.1
      ⟨none, if x.2 = p then ready else true, none⟩ { x.1.md with phase := .tickExtra }) = s.chains :=
    (List.map_congr_left hchain).trans (List.zipIdx_map_fst 0 s.chains)
  rw [hcycle, hchains]
  simp [State.idleWires, replyAt]

/-- From a cycle boundary the clock's tick is the whole cycle (log 17). -/
theorem clock_of_boundary {s : State} (h : (s.chains.all fun c => c.md.phase == .tickExtra) = true) :
    clock s = cycle none none s :=
  if_pos h

/-- The clock's tick on a quiet fabric is the idle cycle (R110, log 17). -/
theorem clock_of_quiet {s : State} (hs : s.Quiet) :
    clock s =
      .ok { s with cells := s.cells.map Flop.committed, ret := .unit, out := [],
                   wires := s.idleWires 0 true } := by
  rw [clock_of_boundary (boundary_of_quiet hs)]
  refine cycle_idle hs fun x hx => ?_
  rw [ite_self]
  exact emit_quiet (hs.2 _ (List.fst_mem_of_mem_zipIdx hx)) nofun

/-! ### A cell that may not commit -/

/-- The cells commit last: a fault of theirs is the cycle's when the rest of the cycle raises nothing. -/
theorem cycle_of_cells_error {s t : State} {drive : Option (Nat × Drive)}
    {reply : Option (Nat × Reply)} {e : Fault}
    (hrest : cycle drive reply { s with cells := [] } = .ok t)
    (hcells : mapE flopCommit s.cells = .error e) : cycle drive reply s = .error e := by
  obtain ⟨down, stages, outs, dflt, up, lanes, -, hdown, hstages, houts, hdflt, hup, hlanes, -, -⟩ :=
    cycle_eq_ok.1 hrest
  simp only at hdown hstages houts
  simp only [cycle, hdown, hstages, houts, hdflt, hup, hlanes, hcells, bind, Except.bind]

/-- Unread committed values are the only reason why cells do not commit (R104). -/
theorem mapE_flopCommit_of_unread {cells : List Flop} {c : Flop} (hc : c ∈ cells) (hcur : c.cur ≠ none)
    (hunread : c.curRead = false) : mapE flopCommit cells = .error .flopUnreadOverwritten := by
  refine mapE_error hc (flopCommit_eq_error.2 ⟨⟨hcur, hunread⟩, rfl⟩) fun x _ => ?_
  cases hx : flopCommit x with
  | ok x' => exact .inl ⟨x', rfl⟩
  | error e =>
    obtain ⟨-, rfl⟩ := flopCommit_eq_error.1 hx
    exact .inr rfl

/-- Settles O16: the tick is the idle cycle, which without the cells runs to its end also where one of
them may not commit. -/
theorem commitOnQuietFabric : Obligations.CommitOnQuietFabric := by
  refine ⟨fun s hs => ?idle, fun s c hs hc hcur hunread => ?unread⟩
  case idle =>
    simp only [exec, execCommit, clock_of_quiet hs, ofExcept_ok]
  case unread =>
    have hboundary := boundary_of_quiet hs
    have hrest := (clock_of_boundary hboundary).symm.trans (clock_of_quiet hs)
    have hcycle := cycle_of_cells_error hrest (mapE_flopCommit_of_unread hc hcur hunread)
    rw [exec, execCommit, clock_of_boundary (s := s) hboundary, hcycle, ofExcept_error]

end Sys2Proof.Proofs
end

section
/-! The calls from a Slave Driver to its handler (R121): what the reference handler and an external one
answer, and the obligations O21 to O24. -/

namespace Sys2Proof.Proofs

open Sys2Proof Sys2Proof.Machine

/-! ### The counter of the reference handler -/

/-- `pend()` of the reference handler answers that it waits, `n` more times after this one: its counter or,
without one, the head of its list of waits says so (95_test_vectors.md section 2). -/
def RamWaits (ws : List Nat) (rem : Option Nat) (n : Nat) : Prop :=
  rem = some (n + 1) ∨ rem = none ∧ ws.head? = some (n + 1)

/-- `pend()` of the reference handler answers that it does not wait. -/
def RamReady (ws : List Nat) (rem : Option Nat) : Prop :=
  rem = some 0 ∨ rem = none ∧ (ws = [] ∨ ws.head? = some 0)

/-- The list of waits after a `pend()`: a call without a counter takes its head. -/
def waitsLeft (ws : List Nat) (rem : Option Nat) : List Nat :=
  if rem = none then ws.tail else ws

section Counter

variable {ws : List Nat} {rem : Option Nat} {n : Nat}

theorem ramPend_of_waits (h : RamWaits ws rem n) :
    ramPend ws rem = (true, waitsLeft ws rem, some n) := by
  obtain rfl | ⟨rfl, hhead⟩ := h
  · rfl
  · obtain ⟨l, rfl⟩ := List.head?_eq_some_iff.1 hhead
    rfl

theorem ramPend_of_ready (h : RamReady ws rem) : ramPend ws rem = (false, waitsLeft ws rem, none) := by
  obtain rfl | ⟨rfl, rfl | hhead⟩ := h
  · rfl
  · rfl
  · obtain ⟨l, rfl⟩ := List.head?_eq_some_iff.1 hhead
    rfl

theorem ram_waits_or_ready (ws : List Nat) (rem : Option Nat) :
    (∃ n, RamWaits ws rem n) ∨ RamReady ws rem := by
  match rem, ws with
  | some (n + 1), _ => exact .inl ⟨n, .inl rfl⟩
  | some 0, _ => exact .inr (.inl rfl)
  | none, [] => exact .inr (.inr ⟨rfl, .inl rfl⟩)
  | none, 0 :: _ => exact .inr (.inr ⟨rfl, .inr rfl⟩)
  | none, (n + 1) :: _ => exact .inl ⟨n, .inr ⟨rfl, rfl⟩⟩

end Counter

/-! ### The answers of the handlers -/

section Answers

variable {mem : Memory} {ws ws' : List Nat} {rem rem' : Option Nat} {b : Bool} {h : Handler}
  {t : TransferMeta}

/-- A `read` of the reference handler answers as its counter says and keeps its store (R128). -/
theorem handlerRead_ram (hram : h = .ram mem ws rem) (hpend : ramPend ws rem = (b, ws', rem')) :
    handlerRead h t =
      (if b then .pending else .success (memRead mem t.addr (xferBytes t)), .ram mem ws' rem') := by
  cases b <;> simp [handlerRead, hram, hpend]

/-- A `pre_write` of the reference handler answers as its counter says and keeps its store (R129). -/
theorem handlerPreWrite_ram (hram : h = .ram mem ws rem) (hpend : ramPend ws rem = (b, ws', rem')) :
    handlerPreWrite h t =
      (if b then .pending else .success [], .ram mem ws' rem') := by
  cases b <;> simp [handlerPreWrite, hram, hpend]

/-- An external handler with nothing queued gives some answer, data of the length asked for (log 9). -/
theorem nextAnswer_free (k n len : Nat) :
    ∃ a, nextAnswer [] k n len = (a, .external [] k (n + 1)) ∧
      (a = .pending ∨ ∃ d, a = .success d ∧ d.length = len) := by
  refine ⟨_, rfl, ?_⟩
  split
  · exact .inl rfl
  · exact .inr ⟨_, rfl, dataOf_length _ _⟩

theorem memRead_length (m : Memory) (a : Addr) (k : Nat) : (memRead m a k).length = k := by
  simp [memRead]

theorem memRead_getElem {m : Memory} {a : Addr} {k i : Nat} (h : i < (memRead m a k).length) :
    (memRead m a k)[i] = readByte m ((a.toNat + i) % 2 ^ 32) := by
  simp [memRead, byteAddr_eq]

variable {h' : Handler} {a : Answer} {d : Data}

/-- A `read` is accepted exactly when data in its answer has the length of the transfer (R123). -/
theorem checkedRead_eq_ok :
    checkedRead h t = .ok (a, h') ↔
      handlerRead h t = (a, h') ∧ ∀ d, a = .success d → d.length = t.size.bytes := by
  unfold checkedRead
  obtain ⟨x, g⟩ := handlerRead h t
  cases x with
  | pending =>
    simp only [Except.ok.injEq, iff_self_and, Prod.mk.injEq, and_imp]
    rintro rfl - d hd
    cases hd
  | success y =>
    by_cases hlen : y.length = t.size.bytes
    · simp only [dataFits, xferBytes, hlen, beq_self_eq_true, if_true, Except.ok.injEq, iff_self_and,
        Prod.mk.injEq, and_imp]
      rintro rfl - d hd
      cases hd
      exact hlen
    · simp only [dataFits, xferBytes, beq_iff_eq, if_neg hlen, reduceCtorEq, false_iff, Prod.mk.injEq]
      rintro ⟨⟨rfl, -⟩, hd⟩
      exact hlen (hd y rfl)

theorem checkedRead_pending (hread : handlerRead h t = (.pending, h')) :
    checkedRead h t = .ok (.pending, h') :=
  checkedRead_eq_ok.2 ⟨hread, nofun⟩

theorem checkedRead_success (hread : handlerRead h t = (.success d, h'))
    (hlen : d.length = t.size.bytes) : checkedRead h t = .ok (.success d, h') :=
  checkedRead_eq_ok.2 ⟨hread, fun _ hd => Answer.success.inj hd ▸ hlen⟩

theorem checkedRead_badReadWidth (hread : handlerRead h t = (.success d, h'))
    (hlen : d.length ≠ t.size.bytes) : checkedRead h t = .error .badReadWidth := by
  simp [checkedRead, hread, dataFits, xferBytes, hlen]

end Answers

/-! ### The rows of the handler's calls -/

section Rows

variable {s : State} {p : Nat} {u : Slave} {t : TransferMeta} {a : Answer} {g : Handler}

/-- No handler is called for a transfer with an incrementing burst (R80, R54). -/
theorem onHandler_increment (hu : s.slaves[p]? = some u) (hburst : t.burst = .increment)
    (f : Handler → Except Fault (Answer × Handler)) (e : Answer → Event) :
    onHandler p t f e s = .fault .burstNotModelled := by
  simp [onHandler, hu, refuseBurst_error hburst]

theorem exec_read_ok (hu : s.slaves[p]? = some u) (hburst : t.burst = .single)
    (h : checkedRead u.handler t = .ok (a, g)) :
    exec (.read p t) s =
      .next { s with slaves := s.slaves.set p { u with handler := g }
                     ret := .answer a, out := [.handlerRead p t a] } :=
  (onHandler_eq_next (f := fun h => checkedRead h t) (e := .handlerRead p t)).2
    ⟨u, a, g, hu, hburst, h, rfl⟩

theorem exec_read_error {e : Fault} (hu : s.slaves[p]? = some u) (hburst : t.burst = .single)
    (h : checkedRead u.handler t = .error e) : exec (.read p t) s = .fault e := by
  simp [exec, execRead, onHandler, hu, refuseBurst_ok hburst, h]

theorem exec_preWrite (hu : s.slaves[p]? = some u) (hburst : t.burst = .single)
    (h : handlerPreWrite u.handler t = (a, g)) :
    exec (.preWrite p t) s =
      .next { s with slaves := s.slaves.set p { u with handler := g }
                     ret := .answer a, out := [.handlerPreWrite p t a] } :=
  (onHandler_eq_next (f := fun h => .ok (handlerPreWrite h t)) (e := .handlerPreWrite p t)).2
    ⟨u, a, g, hu, hburst, congrArg Except.ok h, rfl⟩

theorem exec_write {v : Word} {f : Bool} (hu : s.slaves[p]? = some u) (hburst : t.burst = .single)
    (h : handlerWrite u.handler t (wordData t.size v) f = (a, g)) :
    exec (.write p t v f) s =
      .next { s with slaves := s.slaves.set p { u with handler := g }
                     ret := .answer a, out := [.handlerWrite p t (wordData t.size v) f a] } :=
  (onHandler_eq_next (f := fun h => .ok (handlerWrite h t (wordData t.size v) f))
    (e := .handlerWrite p t (wordData t.size v) f)).2 ⟨u, a, g, hu, hburst, congrArg Except.ok h, rfl⟩

end Rows

/-! ### The obligations on `read` and `pre_write` -/

/-- Settles O21, by what the handler's counter says. -/
theorem handlerReadGivesTheBytes : Obligations.HandlerReadGivesTheBytes := by
  intro s p t u m ws rem hu hram hburst
  refine ⟨fun n hwaits => ?waits, fun hready =>
    ⟨memRead m t.addr (xferBytes t), memRead_length _ _ _, fun i => memRead_getElem, ?ready⟩⟩
  case waits =>
    exact exec_read_ok hu hburst (checkedRead_pending (handlerRead_ram hram (ramPend_of_waits hwaits)))
  case ready =>
    have hread := handlerRead_ram (t := t) hram (ramPend_of_ready hready)
    exact exec_read_ok hu hburst (checkedRead_success hread (memRead_length _ _ _))

/-- Settles O22, by what is queued. -/
theorem handlerReadExternal : Obligations.HandlerReadExternal := by
  intro s p t u hu
  refine ⟨fun hburst => by simp only [exec, execRead, onHandler_increment hu hburst], fun hburst q k n =>
    ⟨fun hext => ?pending, fun d hext => ?success, fun hext => ?free⟩⟩
  case pending =>
    have hread : handlerRead u.handler t = (.pending, .external q k n) := by rw [hext]; rfl
    exact exec_read_ok hu hburst (checkedRead_pending hread)
  case success =>
    have hread : handlerRead u.handler t = (.success d, .external q k n) := by rw [hext]; rfl
    exact ⟨fun hlen => exec_read_ok hu hburst (checkedRead_success hread hlen),
      fun hlen => exec_read_error hu hburst (checkedRead_badReadWidth hread hlen)⟩
  case free =>
    obtain ⟨a, hnext, ha⟩ := nextAnswer_free k n (xferBytes t)
    have hread : handlerRead u.handler t = (a, .external [] k (n + 1)) := by rw [hext]; exact hnext
    refine ⟨a, ha, ?_⟩
    obtain rfl | ⟨d, rfl, hlen⟩ := ha
    · exact exec_read_ok hu hburst (checkedRead_pending hread)
    · exact exec_read_ok hu hburst (checkedRead_success hread hlen)

/-- Settles O23, by what the counter of the reference handler says and by what is queued at an external
one. -/
theorem handlerPreWriteAnswers : Obligations.HandlerPreWriteAnswers := by
  intro s p t u hu
  refine ⟨fun hburst => by simp only [exec, execPreWrite, onHandler_increment hu hburst],
    fun hburst m ws rem hram => ?ram,
    fun hburst x q k n hext => ?queued, fun hburst k n hext => ?free⟩
  case ram =>
    obtain ⟨n, hwaits⟩ | hready := ram_waits_or_ready ws rem
    · refine ⟨_, _, exec_preWrite hu hburst (handlerPreWrite_ram hram (ramPend_of_waits hwaits)), ?_⟩
      obtain rfl | ⟨rfl, hhead⟩ := hwaits
      · exact .inl ⟨n, rfl, rfl, rfl⟩
      · exact .inr (.inr (.inr ⟨n, rfl, hhead, rfl, rfl⟩))
    · refine ⟨_, _, exec_preWrite hu hburst (handlerPreWrite_ram hram (ramPend_of_ready hready)), ?_⟩
      obtain rfl | ⟨rfl, hhead⟩ := hready
      · exact .inr (.inl ⟨rfl, rfl, rfl⟩)
      · exact .inr (.inr (.inl ⟨rfl, hhead, rfl, rfl⟩))
  case queued => exact exec_preWrite hu hburst (by rw [hext]; rfl)
  case free =>
    obtain ⟨a, hnext, -⟩ := nextAnswer_free k n 0
    exact ⟨a, exec_preWrite hu hburst (by rw [hext]; exact hnext)⟩

/-! ### The obligation on `write` -/

/-- The bytes of a transfer's word stand at the transfer's addresses after it is stored (R130, R10). -/
theorem readByte_memWrite_wordData {m : Memory} {a : Addr} {z : Size} {v : Word} {i : Nat}
    (hm : Memory.wf m = true) (hi : i < z.bytes) :
    readByte (memWrite m a (wordData z v)) ((a.toNat + i) % 2 ^ 32) =
      BitVec.ofNat 8 (v.toNat / 256 ^ i) := by
  have hshort : (wordData z v).length ≤ 4 := by rw [wordData_length]; cases z <;> decide
  rw [← byteAddr_eq]
  exact readByte_memWrite_at hm hshort (bytesOfNat_get _ _ _ hi)

/-- A byte at none of a transfer's addresses reads as before after a store of at most its size (R130). -/
theorem readByte_memWrite_frame {m : Memory} {a : Addr} {d : Data} {k x : Nat} (hm : Memory.wf m = true)
    (hlen : d.length ≤ k) (hx : ∀ i < k, x ≠ (a.toNat + i) % 2 ^ 32) :
    readByte (memWrite m a d) x = readByte m x :=
  readByte_memWrite_other hm fun i hi => byteAddr_eq a i ▸ hx i (hi.trans_le hlen)

/-- Settles O24: a final `write` stores the word's bytes, one that is not final stores nothing. -/
theorem handlerWriteStoresTheBytes : Obligations.HandlerWriteStoresTheBytes := by
  intro s p t v f u hu
  refine ⟨fun hburst => by simp only [exec, execWrite, onHandler_increment hu hburst],
    fun hburst m ws rem hram hwf => ?ram,
    fun hburst x q k n hext => ?queued, fun hburst k n hext => ?free⟩
  case ram =>
    have hwrite : handlerWrite u.handler t (wordData t.size v) f =
        (.success [], .ram (if f then memWrite m t.addr (wordData t.size v) else m) ws rem) := by
      simp only [hram, handlerWrite, xferBytes, take_wordData]
    refine ⟨_, ?_, exec_write hu hburst hwrite, ?_, ?_⟩
    · split
      · exact memWrite_wf hwf
      · exact hwf
    · rintro rfl
      rfl
    · rintro rfl
      exact ⟨fun i hi => readByte_memWrite_wordData hwf hi,
        fun a ha => readByte_memWrite_frame hwf (wordData_length _ _).le ha⟩
  case queued => exact exec_write hu hburst (by rw [hext]; rfl)
  case free =>
    obtain ⟨a, hnext, -⟩ := nextAnswer_free k n 0
    exact ⟨a, exec_write hu hburst (by rw [hext]; exact hnext)⟩

end Sys2Proof.Proofs
end

section
/-! The Slave Driver's cycle (R124 to R133): its response for each kind of transfer in data phase, and the
obligations O25 to O28. -/

namespace Sys2Proof.Proofs

open Sys2Proof Sys2Proof.Machine

/-! ### The cycle for each outcome of the response -/

section Cycle

variable {i : Nat} {u : Slave} {w : M2S} {ds : Option TransferMeta} {p data : Option Data} {h : Handler}
  {calls : List Event}

/-- After a `Success` the address wires are sampled and nothing is in data phase (R132, R133). -/
theorem slaveCycle_of_success (hpromote : slavePromote u.sd w.ready = .ok ds) (hp : w.payload = p)
    (hreq : ∀ x, w.req = some x → x.burst = .single)
    (hresp : slaveRespond i u ds p = .ok ⟨.success, data, h, calls⟩) :
    slaveCycle i u w =
      .ok ⟨⟨.success, data, true⟩, { u with sd := ⟨w.req, none, .success⟩, handler := h }, calls⟩ := by
  simp [slaveCycle, hpromote, hp, hresp, refuseBurst_of_single hreq, slaveNext, readyCode]

/-- After a `Pending` the transfer stays in data phase and the address wires are not looked at (R132,
R133). -/
theorem slaveCycle_of_pending (hpromote : slavePromote u.sd w.ready = .ok ds) (hp : w.payload = p)
    (hreq : ∀ x, w.req = some x → x.burst = .single)
    (hresp : slaveRespond i u ds p = .ok ⟨.pending, data, h, calls⟩) :
    slaveCycle i u w =
      .ok ⟨⟨.pending, data, true⟩, { u with sd := ⟨u.sd.addrSlot, ds, .pending⟩, handler := h },
        calls⟩ := by
  simp [slaveCycle, hpromote, hp, hresp, refuseBurst_of_single hreq, slaveNext, readyCode]

/-- A violation of the response is the cycle's, whatever the address phase (R124, log 12). -/
theorem slaveCycle_of_error {e : Fault} (hpromote : slavePromote u.sd w.ready = .ok ds)
    (hp : w.payload = p) (hresp : slaveRespond i u ds p = .error e) : slaveCycle i u w = .error e := by
  simp only [slaveCycle, hpromote, hp, hresp]

end Cycle

section Respond

variable {i : Nat} {u : Slave} {t : TransferMeta}

theorem slaveRespond_none (hlast : u.sd.lastCode ≠ .error1) :
    slaveRespond i u none none = .ok ⟨.success, none, u.handler, []⟩ := by
  simp [slaveRespond, hlast]

theorem slaveRespond_none_payload (hlast : u.sd.lastCode ≠ .error1) (d : Data) :
    slaveRespond i u none (some d) = .error .payloadWithoutWrite := by
  simp [slaveRespond, hlast]

theorem slaveRespond_read (hlast : u.sd.lastCode ≠ .error1) (hdir : t.dir = .read) (p : Option Data) :
    slaveRespond i u (some t) p = slaveRead i u.handler t p := by
  simp [slaveRespond, hlast, hdir]

theorem slaveRespond_write (hlast : u.sd.lastCode ≠ .error1) (hdir : t.dir = .write) (p : Option Data) :
    slaveRespond i u (some t) p = slaveWrite u.cfg.combWrite i u.handler t p := by
  simp [slaveRespond, hlast, hdir]

end Respond

/-! ### A read in data phase -/

section Read

variable {i : Nat} {h h' : Handler} {t : TransferMeta}

theorem slaveRead_payload {p : Option Data} (hp : p ≠ none) :
    slaveRead i h t p = .error .payloadOnRead :=
  if_pos hp

theorem slaveRead_success {d : Data} (hread : checkedRead h t = .ok (.success d, h')) :
    slaveRead i h t none = .ok ⟨.success, some d, h', [.handlerRead i t (.success d)]⟩ := by
  simp [slaveRead, hread]

theorem slaveRead_pending (hread : checkedRead h t = .ok (.pending, h')) :
    slaveRead i h t none = .ok ⟨.pending, none, h', [.handlerRead i t .pending]⟩ := by
  simp [slaveRead, hread]

theorem slaveRead_error {e : Fault} (hread : checkedRead h t = .error e) :
    slaveRead i h t none = .error e := by
  simp [slaveRead, hread]

end Read

/-! ### A write in data phase -/

section Write

variable {i : Nat} {comb : Bool} {h h1 h2 : Handler} {t : TransferMeta} {d x y : Data} {a : Answer}

theorem slaveWrite_none : slaveWrite comb i h t none = .error .missingWriteData :=
  rfl

theorem slaveWrite_final_success (hpre : handlerPreWrite h t = (.success x, h1))
    (hwrite : handlerWrite h1 t d true = (.success y, h2)) :
    slaveWrite comb i h t (some d) =
      .ok ⟨.success, none, h2,
        [.handlerPreWrite i t (.success x), .handlerWrite i t d true (.success y)]⟩ := by
  simp only [slaveWrite, hpre, slaveWriteFinal, hwrite]

theorem slaveWrite_final_pending (hpre : handlerPreWrite h t = (.success x, h1))
    (hwrite : handlerWrite h1 t d true = (.pending, h2)) :
    slaveWrite comb i h t (some d) =
      .ok ⟨.pending, none, h2,
        [.handlerPreWrite i t (.success x), .handlerWrite i t d true .pending]⟩ := by
  simp only [slaveWrite, hpre, slaveWriteFinal, hwrite]

theorem slaveWrite_wait (hpre : handlerPreWrite h t = (.pending, h1)) (hcomb : comb = false) :
    slaveWrite comb i h t (some d) = .ok ⟨.pending, none, h1, [.handlerPreWrite i t .pending]⟩ := by
  simp [slaveWrite, hpre, slaveWriteWait, hcomb]

theorem slaveWrite_wait_comb (hpre : handlerPreWrite h t = (.pending, h1)) (hcomb : comb = true)
    (hwrite : handlerWrite h1 t d false = (a, h2)) :
    slaveWrite comb i h t (some d) =
      .ok ⟨.pending, none, h2, [.handlerPreWrite i t .pending, .handlerWrite i t d false a]⟩ := by
  simp [slaveWrite, hpre, slaveWriteWait, hcomb, hwrite]

end Write

/-! ### The obligations -/

/-- Settles O25, by the ready flag and the code of the cycle before. -/
theorem slavePromotesOnReady : Obligations.SlavePromotesOnReady := by
  refine fun sd => ⟨rfl, fun hheld => ?held, fun hready => ?ready⟩
  case held => simp [slavePromote, hheld]
  case ready =>
    have hfree : ¬ (sd.lastCode = .pending ∨ sd.lastCode = .error1) := by
      obtain hc | hc := hready <;> simp [hc]
    simp [slavePromote, hfree]

/-- Settles O26, by whether a payload arrives. -/
theorem slaveIdleCycle : Obligations.SlaveIdleCycle := fun _ _ _ hlast hpromote =>
  ⟨fun d hd => slaveCycle_of_error hpromote hd (slaveRespond_none_payload hlast d),
    fun hnone hreq => slaveCycle_of_success hpromote hnone hreq (slaveRespond_none hlast)⟩

/-- Settles O27, by the handler's answer. -/
theorem slaveReadCycle : Obligations.SlaveReadCycle := by
  intro i u w t hlast hpromote hdir
  have hresp := slaveRespond_read (i := i) hlast hdir
  refine ⟨fun hpayload => ?payload, fun hnone hreq =>
    ⟨fun d h hread hlen => ?success, fun d h hread hlen => ?badWidth, fun h hread => ?pending⟩⟩
  case payload =>
    exact slaveCycle_of_error hpromote rfl ((hresp _).trans (slaveRead_payload hpayload))
  case success =>
    have hslave := slaveRead_success (i := i) (checkedRead_success hread hlen)
    exact slaveCycle_of_success hpromote hnone hreq ((hresp none).trans hslave)
  case badWidth =>
    have hslave := slaveRead_error (i := i) (checkedRead_badReadWidth hread hlen)
    exact slaveCycle_of_error hpromote hnone ((hresp none).trans hslave)
  case pending =>
    have hslave := slaveRead_pending (i := i) (checkedRead_pending hread)
    exact slaveCycle_of_pending hpromote hnone hreq ((hresp none).trans hslave)

/-- Settles O28, by the handler's answers to `pre_write` and to the final `write`, and in a wait-state by
`COMB_WRITE`. -/
theorem slaveWriteCycle : Obligations.SlaveWriteCycle := by
  intro i u w t hlast hpromote hdir
  have hresp := slaveRespond_write (i := i) hlast hdir
  refine ⟨fun hnone => ?missing, fun d hd hreq => ⟨fun x h1 y h2 hpre hwrite => ?success,
    fun x h1 h2 hpre hwrite => ?pending, fun h1 hpre hcomb => ?wait,
    fun h1 y h2 hpre hcomb hwrite => ?waitComb⟩⟩
  case missing =>
    exact slaveCycle_of_error hpromote hnone ((hresp none).trans slaveWrite_none)
  case success =>
    exact slaveCycle_of_success hpromote hd hreq ((hresp _).trans (slaveWrite_final_success hpre hwrite))
  case pending =>
    exact slaveCycle_of_pending hpromote hd hreq ((hresp _).trans (slaveWrite_final_pending hpre hwrite))
  case wait =>
    exact slaveCycle_of_pending hpromote hd hreq ((hresp _).trans (slaveWrite_wait hpre hcomb))
  case waitComb =>
    exact slaveCycle_of_pending hpromote hd hreq
      ((hresp _).trans (slaveWrite_wait_comb hpre hcomb hwrite))

end Sys2Proof.Proofs
end

section
/-! What a cycle does to the store of a slave with the reference handler (R127 to R130, R339): the
obligation O55. -/

namespace Sys2Proof.Proofs

open Sys2Proof Sys2Proof.Machine

/-! ### The store through the handler's operations -/

/-- The handler is the reference handler with the store `m`. -/
def HasStore (h : Handler) (m : Memory) : Prop :=
  ∃ ws rem, h = .ram m ws rem

section Operations

variable {h : Handler} {m : Memory} (hm : HasStore h m)

include hm

theorem handlerRead_hasStore (t : TransferMeta) : HasStore (handlerRead h t).2 m := by
  obtain ⟨ws, rem, hram⟩ := hm
  rw [handlerRead_ram hram rfl]
  exact ⟨_, _, rfl⟩

theorem handlerPreWrite_hasStore (t : TransferMeta) : HasStore (handlerPreWrite h t).2 m := by
  obtain ⟨ws, rem, hram⟩ := hm
  rw [handlerPreWrite_ram hram rfl]
  exact ⟨_, _, rfl⟩

theorem handlerWrite_hasStore (t : TransferMeta) (d : Data) (f : Bool) :
    HasStore (handlerWrite h t d f).2 (if f then memWrite m t.addr (d.take (xferBytes t)) else m) := by
  obtain ⟨ws, rem, rfl⟩ := hm
  exact ⟨_, _, rfl⟩

end Operations

/-! ### The calls that a response makes -/

/-- A read makes one `read` call and no other (R128). -/
theorem slaveRead_handler {i : Nat} {h : Handler} {t : TransferMeta} {p : Option Data} {a : SlaveAnswer}
    (ha : slaveRead i h t p = .ok a) : a.handler = (handlerRead h t).2 := by
  unfold slaveRead at ha
  split at ha
  · cases ha
  · cases hread : checkedRead h t with
    | error e => simp [hread] at ha
    | ok x =>
      obtain ⟨ans, g⟩ := x
      obtain ⟨hcall, -⟩ := checkedRead_eq_ok.1 hread
      rw [hcall]
      cases ans <;> (simp only [hread, Except.ok.injEq] at ha; rw [← ha])

/-- A write makes a `pre_write` call, after it at most one `write` call (R129, R130). -/
theorem slaveWrite_handler {comb : Bool} {i : Nat} {h : Handler} {t : TransferMeta} {p : Option Data}
    {a : SlaveAnswer} (ha : slaveWrite comb i h t p = .ok a) :
    a.handler = (handlerPreWrite h t).2 ∨
      ∃ d f, a.handler = (handlerWrite (handlerPreWrite h t).2 t d f).2 := by
  cases p with
  | none => cases ha
  | some d =>
    rcases hpre : handlerPreWrite h t with ⟨pre, g⟩
    cases pre with
    | pending =>
      cases comb with
      | false =>
        rw [slaveWrite_wait hpre rfl] at ha
        cases ha
        exact .inl rfl
      | true =>
        rw [slaveWrite_wait_comb hpre rfl rfl] at ha
        cases ha
        exact .inr ⟨d, false, rfl⟩
    | success x =>
      rcases hwrite : handlerWrite g t d true with ⟨ans, g'⟩
      refine .inr ⟨d, true, ?_⟩
      cases ans with
      | pending =>
        rw [slaveWrite_final_pending hpre hwrite] at ha
        cases ha
        exact (congrArg Prod.snd hwrite).symm
      | success y =>
        rw [slaveWrite_final_success hpre hwrite] at ha
        cases ha
        exact (congrArg Prod.snd hwrite).symm

/-! ### The store through a cycle -/

/-- The store `m'` is `m` but for at most the bytes of the write `ds` (R130). -/
def StoredBy (ds : Option TransferMeta) (m m' : Memory) : Prop :=
  m' = m ∨ ∃ x d, ds = some x ∧ x.dir = .write ∧ d.length ≤ x.size.bytes ∧ m' = memWrite m x.addr d

section Stored

variable {ds : Option TransferMeta} {m m' : Memory}

theorem StoredBy.eq_of_read (h : StoredBy ds m m') (hread : ∀ x, ds = some x → x.dir = .read) :
    m' = m := by
  obtain heq | ⟨x, d, hx, hdir, -, -⟩ := h
  · exact heq
  · cases hdir.symm.trans (hread x hx)

theorem StoredBy.frame {x : TransferMeta} {a : Nat} (h : StoredBy ds m m') (hm : Memory.wf m = true)
    (hx : ds = some x) (ha : ∀ j < x.size.bytes, a ≠ (x.addr.toNat + j) % 2 ^ 32) :
    readByte m' a = readByte m a := by
  obtain rfl | ⟨y, d, hy, -, hlen, rfl⟩ := h
  · rfl
  · obtain rfl : x = y := Option.some.inj (hx.symm.trans hy)
    exact readByte_memWrite_frame hm hlen ha

end Stored

/-- A response stores at most the bytes of the write in data phase (R127 to R131). -/
theorem slaveRespond_stores {i : Nat} {u : Slave} {ds : Option TransferMeta} {p : Option Data}
    {a : SlaveAnswer} {m : Memory} (hm : HasStore u.handler m) (ha : slaveRespond i u ds p = .ok a) :
    ∃ m', HasStore a.handler m' ∧ StoredBy ds m m' := by
  by_cases hlast : u.sd.lastCode = .error1
  · simp only [slaveRespond, hlast, if_true] at ha
    cases ha
    exact ⟨m, hm, .inl rfl⟩
  cases ds with
  | none =>
    cases p with
    | none =>
      rw [slaveRespond_none hlast] at ha
      cases ha
      exact ⟨m, hm, .inl rfl⟩
    | some d =>
      rw [slaveRespond_none_payload hlast] at ha
      cases ha
  | some t =>
    cases hdir : t.dir with
    | read =>
      rw [slaveRespond_read hlast hdir] at ha
      exact ⟨m, slaveRead_handler ha ▸ handlerRead_hasStore hm t, .inl rfl⟩
    | write =>
      rw [slaveRespond_write hlast hdir] at ha
      have hpre := handlerPreWrite_hasStore hm t
      obtain hh | ⟨d, f, hh⟩ := slaveWrite_handler ha
      · exact ⟨m, hh ▸ hpre, .inl rfl⟩
      · refine ⟨_, hh ▸ handlerWrite_hasStore hpre t d f, ?_⟩
        cases f with
        | false => exact .inl rfl
        | true => exact .inr ⟨t, _, rfl, hdir, List.length_take_le _ _, rfl⟩

/-! ### The slave in the cycle of the whole fabric -/

/-- A pass over numbered units gives a result for each. -/
theorem mapE_zipIdx_getElem? {α β : Type} {f : α × Nat → Except Fault β} {l : List α} {l' : List β}
    {k : Nat} {a : α} (h : mapE f l.zipIdx = .ok l') (ha : l[k]? = some a) :
    ∃ b, l'[k]? = some b ∧ f (a, k) = .ok b := by
  have hlen : l.length = l'.length := by simpa using (mapE_eq_ok.1 h).length_eq
  obtain ⟨hk, -⟩ := List.getElem?_eq_some_iff.1 ha
  have hb := List.getElem?_eq_getElem (hlen ▸ hk)
  obtain ⟨x, hx, hfx⟩ := mapE_get h k _ hb
  obtain ⟨hxa, hxk⟩ := zip_get hx
  obtain rfl : x = (a, k) := Prod.ext (Option.some.inj (hxa.symm.trans ha)) hxk
  exact ⟨_, hb, hfx⟩

theorem slaveInput_eq_ok {i : Instr} {s : State} {k : Nat} {w : M2S} :
    s.slaveInput i k = .ok w ↔ ∃ down stages, chainsDown (commandOf i) s.chains = .ok down ∧
      mapE (fun x : Stage × Nat => stageStart down x.2 x.1) s.stages.zipIdx = .ok stages ∧
      w = slaveWires down stages k := by
  simp only [State.slaveInput, except_bind_eq_ok, ok_eq_comm]
  exact ⟨fun ⟨down, hdown, stages, hstages, hw⟩ => ⟨down, stages, hdown, hstages, hw⟩,
    fun ⟨down, stages, hdown, hstages, hw⟩ => ⟨down, hdown, stages, hstages, hw⟩⟩

/-- In a cycle of the fabric a slave takes its own cycle, on the wires that reach it (R110 step 3). -/
theorem cycle_slave {i : Instr} {reply : Option (Nat × Reply)} {s t : State} {k : Nat} {u : Slave}
    {w : M2S} (h : cycle (commandOf i) reply s = .ok t) (hu : s.slaves[k]? = some u)
    (hw : s.slaveInput i k = .ok w) :
    ∃ o, slaveCycle k u w = .ok o ∧ t.slaves[k]? = some o.slave := by
  obtain ⟨down, stages, hdown, hstages, rfl⟩ := slaveInput_eq_ok.1 hw
  obtain ⟨down', stages', outs, _, _, _, _, hdown', hstages', houts, -, -, -, -, rfl⟩ := cycle_eq_ok.1 h
  obtain rfl : down = down' := Except.ok.inj (hdown.symm.trans hdown')
  obtain rfl : stages = stages' := Except.ok.inj (hstages.symm.trans hstages')
  obtain ⟨o, ho, hcycle⟩ := mapE_zipIdx_getElem? houts hu
  exact ⟨o, hcycle, by simp [ho]⟩

/-- Settles O55: at a cycle boundary the instruction's step is a cycle of the whole fabric, in which the
slave's response stores at most the bytes of the write in its data phase. -/
theorem cycleChangesOnlyWrittenBytes : Obligations.CycleChangesOnlyWrittenBytes := by
  intro s t i k u m ws rem w hboundary htakes hexec hu hram hwf hw
  obtain ⟨_, reply, hcycle, rfl, -⟩ | ⟨-, -, hoff⟩ := takes_cycle htakes hexec
  · obtain ⟨o, ho, hslave⟩ := cycle_slave hcycle hu hw
    obtain ⟨ds, a, hpromote, hresp, -, rfl⟩ := slaveCycle_spec ho
    obtain ⟨m', ⟨ws', rem', hram'⟩, hstored⟩ := slaveRespond_stores ⟨ws, rem, hram⟩ hresp
    exact ⟨_, m', ws', rem', ds, hslave, hram', hpromote, hstored.eq_of_read,
      fun x hx a ha => hstored.frame hwf hx ha⟩
  · exact absurd hboundary hoff

end Sys2Proof.Proofs
end

section
/-! The owner's calls on its Master Driver with both outcomes of each (R152, R155 to R157), the two
callbacks (R162, R165), and the obligations O17 to O20. -/

namespace Sys2Proof.Proofs

open Sys2Proof Sys2Proof.Machine

/-! ### The row of a call, from what the call does to the driver -/

theorem exec_tryRequest (p : Nat) (t : TransferMeta) (s : State) :
    exec (.tryRequest p t) s =
      onMaster p (fun c => (mdTryRequest c.md t).map fun a => (.bool a.1, a.2)) s := rfl

theorem exec_tryForceCancel (p : Nat) (s : State) :
    exec (.tryForceCancel p) s =
      onMaster p (fun c => (mdTryForceCancel c.cfg.cancelMode c.md).map fun a => (.bool a.1, a.2)) s :=
  rfl

theorem exec_provideData (p : Nat) (z : Size) (v : Word) (s : State) :
    exec (.provideData p z v) s =
      onMaster p (fun c => (mdProvideData c.md (wordData z v)).map fun md => (.unit, md)) s := rfl

section Rows

variable {α : Type} {s : State} {p : Nat} {c : Chain} {f : Chain → Except Fault α}
  {g : α → Ret × MasterDriver}

theorem onMaster_of_ok {a : α} {r : Ret} {md : MasterDriver} (hc : s.chains[p]? = some c)
    (hf : f c = .ok a) (ha : g a = (r, md)) :
    onMaster p (fun c => (f c).map g) s =
      .next { s with chains := s.chains.set p { c with md := md }, ret := r, out := [] } := by
  simp [onMaster, hc, hf, ha, Except.map]

/-- A call that leaves the driver as it was changes what the step shows only. -/
theorem onMaster_of_kept {a : α} {r : Ret} (hc : s.chains[p]? = some c) (hf : f c = .ok a)
    (ha : g a = (r, c.md)) :
    onMaster p (fun c => (f c).map g) s = .next { s with ret := r, out := [] } := by
  rw [onMaster_of_ok hc hf ha]
  obtain ⟨hlt, rfl⟩ := List.getElem?_eq_some_iff.1 hc
  rw [List.set_getElem_self]

theorem onMaster_of_error {e : Fault} (hc : s.chains[p]? = some c) (hf : f c = .error e) :
    onMaster p (fun c => (f c).map g) s = .fault e := by
  simp [onMaster, hc, hf, Except.map]

end Rows

/-! ### When a call raises, and when a withdrawal is allowed -/

section Outcomes

variable {md : MasterDriver}

theorem mdTryRequest_burst {t : TransferMeta} (hphase : md.phase = .tickExtra)
    (hburst : t.burst = .increment) : mdTryRequest md t = .error .burstNotModelled := by
  simp [mdTryRequest, hphase, hburst]

/-- R157. -/
theorem cancelAllowed_iff {mode : CancelMode} {h : Hold} {code : Code} :
    cancelAllowed mode h code = true ↔
      mode = .cortexM ∨ mode = .ambaStrict ∧ (h = .fresh ∨ code = .error1) := by
  cases mode <;> simp [cancelAllowed]

theorem cancelAllowed_eq_false_iff {mode : CancelMode} {h : Hold} {code : Code} :
    cancelAllowed mode h code = false ↔
      mode = .forbidden ∨ mode = .ambaStrict ∧ h ≠ .fresh ∧ code ≠ .error1 := by
  cases mode <;> simp [cancelAllowed]

/-- Data is taken for a write that has none yet, of that write's length; any other is a violation (R156). -/
theorem mdProvideData_unexpected {d : Data} (hphase : md.phase = .tickExtra)
    (h : ∀ t, md.dataSlot = some t → md.wdata = none → ¬ (t.dir = .write ∧ dataFits t d = true)) :
    mdProvideData md d = .error .unexpectedData := by
  unfold mdProvideData
  rw [if_neg (not_not.2 hphase)]
  split
  next t hslot hdata => exact if_neg (h t hslot hdata)
  next => rfl

/-- A value spelt at size `z` is a payload for transfers of that size (R78). -/
theorem dataFits_wordData_iff {t : TransferMeta} {z : Size} {v : Word} :
    dataFits t (wordData z v) = true ↔ t.size = z := by
  rw [dataFits, wordData_length, xferBytes, beq_iff_eq]
  cases z <;> cases t.size <;> simp [Size.bytes]

end Outcomes

theorem notify_of_burst {s : State} {p : Nat} {l : List TransferMeta} {e : Event}
    (hp : p < s.chains.length) (hl : ¬ ∀ t ∈ l, t.burst = .single) :
    notify p l e s = .fault .burstNotModelled := by
  simp [notify, hp, mapE_refuseBurst_error hl]

/-! ### The obligations -/

/-- Settles O17. -/
theorem tryRequestFillsTheAddressSlot : Obligations.TryRequestFillsTheAddressSlot := by
  intro s p t c hc
  rw [exec_tryRequest]
  refine ⟨fun hphase => onMaster_of_error hc (if_pos hphase),
    fun hphase hburst => onMaster_of_error hc (mdTryRequest_burst hphase hburst),
    fun hphase hburst => ⟨fun hempty => ?taken, fun hfull => ?notTaken⟩⟩
  case taken =>
    exact onMaster_of_ok hc (mdTryRequest_eq_ok.2 ⟨hphase, hburst, .inr ⟨rfl, hempty, rfl⟩⟩) rfl
  case notTaken =>
    exact onMaster_of_kept hc (mdTryRequest_eq_ok.2 ⟨hphase, hburst, .inl ⟨rfl, hfull, rfl⟩⟩) rfl

/-- Settles O18. -/
theorem tryForceCancelObeysTheMode : Obligations.TryForceCancelObeysTheMode := by
  intro s p c hc
  rw [exec_tryForceCancel]
  refine ⟨fun hphase => onMaster_of_error hc (if_pos hphase), fun hphase hempty => ?nothing,
    fun t h hphase hslot => ⟨fun hmode => ?withdrawn, fun hmode => ?refused⟩⟩
  case nothing =>
    refine onMaster_of_kept hc (mdTryForceCancel_eq_ok.2 ⟨hphase, .inr ⟨rfl, rfl, ?_⟩⟩) rfl
    simp [hempty]
  case withdrawn =>
    exact onMaster_of_ok hc (mdTryForceCancel_eq_ok.2
      ⟨hphase, .inl ⟨t, h, rfl, hslot, cancelAllowed_iff.2 hmode, rfl⟩⟩) rfl
  case refused =>
    refine onMaster_of_kept hc (mdTryForceCancel_eq_ok.2 ⟨hphase, .inr ⟨rfl, rfl, ?_⟩⟩) rfl
    intro t' h' hslot'
    cases hslot.symm.trans hslot'
    exact cancelAllowed_eq_false_iff.2 hmode

/-- Settles O19: the operand's size stands for its length, so it fits the write exactly when the sizes
agree. -/
theorem provideDataIsTakenOnce : Obligations.ProvideDataIsTakenOnce := by
  intro s p z v c hc
  rw [exec_provideData]
  refine ⟨fun hphase => onMaster_of_error hc (if_pos hphase),
    fun t hphase hslot hdir hsize hnone => ?taken, fun hphase hwrong => ?unexpected⟩
  case taken =>
    exact onMaster_of_ok hc (mdProvideData_eq_ok.2
      ⟨hphase, hnone, ⟨t, hslot, hdir, dataFits_wordData_iff.2 hsize⟩, rfl⟩) rfl
  case unexpected =>
    refine onMaster_of_error hc (mdProvideData_unexpected hphase ?_)
    rintro t hslot hnone ⟨hdir, hfits⟩
    obtain hempty | hdata | ⟨t', hslot', hread | hsize⟩ := hwrong
    · cases hempty.symm.trans hslot
    · exact hdata hnone
    · cases hslot.symm.trans hslot'
      cases hdir.symm.trans hread
    · cases hslot.symm.trans hslot'
      exact hsize (dataFits_wordData_iff.1 hfits)

/-- Settles O20: both rows are notifications, of one transfer and of the list that is told. -/
theorem callbacksTellTheOwner : Obligations.CallbacksTellTheOwner := by
  intro s p t v u hp
  refine ⟨fun hsingle => ⟨fun hdir => ?read, fun hdir => ?write, fun hu => ?aborted⟩,
    fun hburst => notify_of_burst hp (by simp [hburst]), fun hburst => notify_of_burst hp ?increment⟩
  case read =>
    exact notify_eq_next.2 ⟨hp, by simpa using hsingle, by rw [if_pos hdir]⟩
  case write =>
    exact notify_eq_next.2 ⟨hp, by simpa using hsingle, by rw [if_neg (by simp [hdir])]⟩
  case aborted =>
    refine notify_eq_next.2 ⟨hp, ?_, rfl⟩
    simpa [hsingle] using hu
  case increment =>
    intro hall
    obtain hburst | ⟨x, rfl, hburst⟩ := hburst
    · cases (hall t (by simp)).symm.trans hburst
    · cases (hall x (by simp)).symm.trans hburst

end Sys2Proof.Proofs
end

section
/-! The Master Driver's part of a cycle: its dispatch (R158), the checks on the response that arrives
(R152, R159), what each code does by the end of the cycle (R160 to R165), and the obligations O42 to O45. -/

namespace Sys2Proof.Proofs

open Sys2Proof Sys2Proof.Machine

/-! ### Dispatch -/

section Dispatch

variable {md : MasterDriver}

theorem mdPayload_of_reads (h : ∀ t, md.dataSlot = some t → t.dir = .read) : mdPayload md = .ok none := by
  unfold mdPayload
  split
  next => rfl
  next t hslot => simp [h t hslot]

theorem mdPayload_write {t : TransferMeta} {d : Data} (hslot : md.dataSlot = some t)
    (hdir : t.dir = .write) (hdata : md.wdata = some d) : mdPayload md = .ok (some d) := by
  simp [mdPayload, hslot, hdir, hdata]

theorem mdPayload_missing {t : TransferMeta} (hslot : md.dataSlot = some t) (hdir : t.dir = .write)
    (hdata : md.wdata = none) : mdPayload md = .error .missingWriteData := by
  simp [mdPayload, hslot, hdir, hdata]

/-- The ready codes, as the rules name them (R76). -/
theorem readyCode_eq (code : Code) : readyCode code = (code == .success || code == .error2) := by
  cases code <;> rfl

theorem mdDispatch_of_payload {pl : Option Data} (h : mdPayload md = .ok pl) :
    mdDispatch md = .ok ({ md with phase := phaseSent md.phase },
      ⟨md.addrSlot.map Prod.fst,
        (md.lastCode == .success || md.lastCode == .error2) && md.lastGrant, pl⟩) := by
  simp [mdDispatch, h, readyFlag, readyCode_eq]

end Dispatch

/-- Settles O42. -/
theorem dispatchEmitsTheSlots : Obligations.DispatchEmitsTheSlots := by
  refine fun md => ⟨fun t hslot hdir hdata => ?missing, fun pl hpl => ?emitted⟩
  case missing => simp [mdDispatch, mdPayload_missing hslot hdir hdata]
  case emitted =>
    have hpayload : mdPayload md = .ok pl := by
      obtain ⟨t, d, hslot, hdir, hdata, rfl⟩ | ⟨rfl, hreads⟩ := hpl
      · exact mdPayload_write hslot hdir hdata
      · exact mdPayload_of_reads hreads
    exact ⟨_, mdDispatch_of_payload hpayload, rfl, fun hphase => by rw [hphase]; rfl⟩

/-! ### The checks on a response -/

section Checks

variable {b : Bool} {p : Nat} {md : MasterDriver} {r : S2M} {code : Code}

/-- A response that passes every check: a driver that waits for one, `Error2` exactly after `Error1`, and
`Success` where nothing is in data phase (R152, R159). -/
theorem mdCheck_ok (hphase : md.phase = .sentMessages)
    (hpair : code = .error2 ↔ md.lastCode = .error1)
    (hslot : md.dataSlot = none → code = .success) : mdCheck md code = .ok () := by
  unfold mdCheck
  rw [if_neg (not_not.2 hphase), if_neg fun h => h.2 (hpair.2 h.1), if_neg fun h => h.2 (hpair.1 h.1),
    if_neg fun h => h.2 (hslot h.1)]

theorem mdReceive_of_check {e : Fault} (h : mdCheck md r.code = .error e) :
    mdReceive b p md r = .error e := by
  simp [mdReceive, h]

/-- Read data that is absent or of another length than the transfer's (R162). -/
theorem mdCode_badReadWidth {t : TransferMeta} {d : Option Data} (hslot : md.dataSlot = some t)
    (hdir : t.dir = .read) (hd : ∀ x, d = some x → x.length ≠ t.size.bytes) :
    mdCode p md .success d = .error .badReadWidth := by
  cases d with
  | none => simp [mdCode, hslot, mdDone, hdir]
  | some x => simp [mdCode, hslot, mdDone, hdir, dataFits, xferBytes, hd x rfl]

end Checks

/-- Settles O43: the first four violations are those of the checks, in their order; the last is that of
the code's rule. -/
theorem responseIsChecked : Obligations.ResponseIsChecked := by
  refine fun b p md r => ⟨fun hphase => ?phase, fun hphase hlast hcode => ?notFollowed,
    fun hphase hcode hlast => ?notAfter, fun hphase hpair hslot hcode => ?noTransfer,
    fun hphase hlast hcode ⟨t, hslot, hdir, hdata⟩ => ?width⟩
  case phase => exact mdReceive_of_check (if_pos hphase)
  case notFollowed => exact mdReceive_of_check (by simp [mdCheck, hphase, hlast, hcode])
  case notAfter => exact mdReceive_of_check (by simp [mdCheck, hphase, hlast, hcode])
  case noTransfer =>
    refine mdReceive_of_check ?_
    unfold mdCheck
    rw [if_neg (not_not.2 hphase), if_neg fun h => h.2 (hpair.2 h.1),
      if_neg fun h => h.2 (hpair.1 h.1), if_pos ⟨hslot, hcode⟩]
  case width =>
    have hcheck : mdCheck md r.code = .ok () :=
      mdCheck_ok hphase (by simp [hcode, hlast]) fun _ => hcode
    rw [mdReceive, hcheck, hcode, mdCode_badReadWidth hslot hdir hdata]

/-! ### What a response comes to by the end of the cycle -/

theorem mdCommit_eq_ok {m md : MasterDriver} :
    mdCommit m = .ok md ↔ m.phase = .gotMessages ∧ md = { m with phase := .tickExtra } := by
  unfold mdCommit
  split
  next h => simp [h, ok_eq_comm, -Except.ok.injEq]
  next h => simp [h]

/-- The response `r` raises nothing at the driver `md`: the owner is told `ev`, and `md'` is the driver
after its commit (R152, R159 to R165). -/
def Receives (b : Bool) (p : Nat) (md : MasterDriver) (r : S2M) (ev : List Event) (md' : MasterDriver) :
    Prop :=
  ∃ m, mdReceive b p md r = .ok (m, ev) ∧ mdCommit m = .ok md'

section Receives

variable {b : Bool} {p : Nat} {md : MasterDriver} {t : TransferMeta} {d : Option Data} {g : Bool}

/-- The rule of the code leaves the data phase as `m` has it; the address phase follows R160, where it is
not withdrawn. -/
theorem receives_of_mdCode {m : MasterDriver} {r : S2M} {ev : List Event}
    (hcheck : mdCheck md r.code = .ok ()) (hcode : mdCode p md r.code r.data = .ok (m, ev))
    (haddr : m.addrSlot = md.addrSlot) (hkeep : b = false ∨ md.addrSlot = none ∨ r.code ≠ .error1) :
    Receives b p md r ev (md.answered m.dataSlot m.wdata m.cancelled r.code r.grant) :=
  ⟨_, mdReceive_eq_ok.2 ⟨hcheck, m, hcode, rfl⟩, answered_eq b haddr rfl rfl rfl hkeep⟩

theorem mdCheck_success (hphase : md.phase = .sentMessages) (hlast : md.lastCode ≠ .error1) :
    mdCheck md .success = .ok () :=
  mdCheck_ok hphase (by simp [hlast]) fun _ => rfl

theorem mdCheck_of_busy {code : Code} (hphase : md.phase = .sentMessages)
    (hpair : code = .error2 ↔ md.lastCode = .error1) (hslot : md.dataSlot = some t) :
    mdCheck md code = .ok () :=
  mdCheck_ok hphase hpair fun h => by cases h.symm.trans hslot

/-- A code that is not ready leaves the data phase as it is (R163, R164). -/
theorem mdCode_waits {code : Code} (h : readyCode code = false) : mdCode p md code d = .ok (md, []) := by
  unfold mdCode
  cases md.dataSlot with
  | none => rfl
  | some t =>
    match code, h with
    | .pending, _ => rfl
    | .error1, _ => rfl

theorem mdCode_success (hslot : md.dataSlot = some t) : mdCode p md .success d = mdDone p md t d := by
  simp only [mdCode, hslot]

/-- `Success` where nothing is in data phase (R162). -/
theorem receives_idle (hphase : md.phase = .sentMessages) (hlast : md.lastCode ≠ .error1)
    (hslot : md.dataSlot = none) :
    Receives b p md ⟨.success, d, g⟩ [] (md.answered none md.wdata md.cancelled .success g) := by
  have hcode : mdCode p md .success d = .ok (md, []) := by simp [mdCode, hslot]
  exact hslot ▸ receives_of_mdCode (r := ⟨.success, d, g⟩) (mdCheck_success hphase hlast) hcode rfl
    (.inr (.inr nofun))

/-- `Success` ends the transfer in data phase (R162). -/
theorem receives_done {ev : List Event} (hphase : md.phase = .sentMessages)
    (hlast : md.lastCode ≠ .error1) (hslot : md.dataSlot = some t)
    (hdone : mdDone p md t d = .ok ({ md with dataSlot := none, wdata := none }, ev)) :
    Receives b p md ⟨.success, d, g⟩ ev (md.answered none none md.cancelled .success g) :=
  receives_of_mdCode (r := ⟨.success, d, g⟩) (mdCheck_success hphase hlast)
    ((mdCode_success hslot).trans hdone) rfl (.inr (.inr nofun))

theorem mdDone_read {x : Data} (hdir : t.dir = .read) (hlen : x.length = t.size.bytes) :
    mdDone p md t (some x) =
      .ok ({ md with dataSlot := none, wdata := none }, [.transferDone p t (some x)]) := by
  simp [mdDone, hdir, dataFits, xferBytes, hlen]

theorem mdDone_write (hdir : t.dir = .write) :
    mdDone p md t d = .ok ({ md with dataSlot := none, wdata := none }, [.transferDone p t none]) := by
  simp [mdDone, hdir]

/-- `Pending` and `Error1` keep the transfer, and the address phase where it is not withdrawn (R163,
R164). -/
theorem receives_waits {code : Code} (hphase : md.phase = .sentMessages)
    (hlast : md.lastCode ≠ .error1) (hslot : md.dataSlot = some t) (hready : readyCode code = false)
    (hkeep : b = false ∨ md.addrSlot = none ∨ code ≠ .error1) :
    Receives b p md ⟨code, d, g⟩ [] (md.answered md.dataSlot md.wdata md.cancelled code g) := by
  have hcode : code ≠ .error2 := by
    rintro rfl
    cases hready
  exact receives_of_mdCode (r := ⟨code, d, g⟩)
    (mdCheck_of_busy hphase (iff_of_false hcode hlast) hslot) (mdCode_waits hready) rfl hkeep

/-- `Error1` under `CANCEL_ADDR_ON_ERROR` withdraws the address phase (R164). -/
theorem receives_cancel {a : TransferMeta} {h : Hold} (hphase : md.phase = .sentMessages)
    (hlast : md.lastCode ≠ .error1) (hslot : md.dataSlot = some t) (haddr : md.addrSlot = some (a, h)) :
    Receives true p md ⟨.error1, d, g⟩ []
      ⟨none, md.dataSlot, md.wdata, some a, .error1, g, .tickExtra⟩ := by
  have hcheck := mdCheck_of_busy (code := .error1) hphase (by simp [hlast]) hslot
  exact ⟨_, mdReceive_eq_ok.2 ⟨hcheck, md, mdCode_waits rfl, rfl⟩,
    by simp [mdCommit, mdAdvance, haddr, acceptedBy]⟩

/-- `Error2` aborts the transfer, and the owner is told of it and of the withdrawn one (R165, R313). -/
theorem receives_error2 (hphase : md.phase = .sentMessages) (hlast : md.lastCode = .error1)
    (hslot : md.dataSlot = some t) :
    Receives b p md ⟨.error2, d, g⟩ [.transfersAborted p (t :: md.cancelled.toList)]
      (md.answered none none none .error2 g) := by
  have hcode : mdCode p md .error2 d = .ok (takeBusError p md t) := by simp only [mdCode, hslot]
  exact receives_of_mdCode (r := ⟨.error2, d, g⟩) (mdCheck_of_busy hphase (by simp [hlast]) hslot) hcode
    rfl (.inr (.inr nofun))

end Receives

/-! ### The obligations on the codes -/

/-- Settles O44. -/
theorem successAndPendingAreReceived : Obligations.SuccessAndPendingAreReceived := by
  rintro b p md ⟨code, data, g⟩ hphase hlast
  dsimp only
  refine ⟨fun hcode hslot => ?idle, fun t d hcode hslot hdir hdata hlen => ?read,
    fun t hcode hslot hdir => ?write, fun hcode hslot => ?pending⟩ <;> subst hcode
  case idle => exact receives_idle hphase hlast hslot
  case read =>
    subst hdata
    exact receives_done hphase hlast hslot (mdDone_read hdir hlen)
  case write => exact receives_done hphase hlast hslot (mdDone_write hdir)
  case pending =>
    obtain ⟨t, hslot⟩ := Option.ne_none_iff_exists'.1 hslot
    exact receives_waits hphase hlast hslot rfl (.inr (.inr nofun))

/-- Settles O45. -/
theorem busErrorIsTaken : Obligations.BusErrorIsTaken := by
  rintro b p md ⟨code, data, g⟩ t hphase hslot
  dsimp only
  refine ⟨fun hlast hcode hkeep => ?kept, fun a h hlast hcode hb haddr => ?withdrawn,
    fun hlast hcode => ?aborted⟩ <;> subst hcode
  case kept =>
    rw [← hslot]
    exact receives_waits hphase hlast hslot rfl (hkeep.imp_right .inl)
  case withdrawn =>
    subst hb
    rw [← hslot]
    exact receives_cancel hphase hlast hslot haddr
  case aborted => exact receives_error2 hphase hlast hslot

end Sys2Proof.Proofs
end

section
/-! The bus commands on a quiet fabric (R153, R155, R158, R160, R167): what each port emits and what
becomes of its chain, and the obligations O46 and O47. -/

namespace Sys2Proof.Proofs

open Sys2Proof Sys2Proof.Machine

/-! ### `IDLE` -/

/-- Under `IDLE` on port `p` every quiet driver emits nothing; the port carries the word's ready flag (R153,
log 4). -/
theorem emit_idle {p q : Nat} {ready : Bool} {v : Word} {md : MasterDriver} (h : md.quiet = true) :
    mdEmit (some (p, ⟨none, ready, ⟨false, v⟩⟩)) q md =
      .ok ({ md with phase := .sentMessages }, ⟨none, if q = p then ready else true, none⟩) := by
  by_cases hq : q = p
  · subst hq
    rw [emit_drive (req := none) h nofun, if_pos rfl]
    obtain ⟨wd, cn, rfl⟩ := mdQuiet_iff.1 h
    rfl
  · rw [if_neg hq]
    exact emit_quiet h fun p' d' hd => by cases hd; exact fun hp => hq hp.symm

/-- Settles O46: every driver emits `IDLE`, so the cycle is the idle one. -/
theorem idleOnQuietFabric : Obligations.IdleOnQuietFabric := by
  intro s p ready v hs hp
  have hcycle : cycle (some (p, ⟨none, ready, ⟨false, v⟩⟩)) none s = _ :=
    cycle_idle hs fun x hx => emit_idle (hs.2 _ (List.fst_mem_of_mem_zipIdx hx))
  exact present_eq_next.2 ⟨_, List.getElem?_eq_getElem hp, rfl, hcycle⟩

/-! ### A transfer -/

/-- What each port emits under a command that puts the transfer `x` on port `p` (R158, log 4). -/
def commandEmits (p : Nat) (x : TransferMeta) (ready : Bool) (y : Chain × Nat) : MasterDriver × M2S :=
  if y.2 = p then
    ({ y.1.md with addrSlot := some (x, .fresh), phase := .sentMessages }, ⟨some x, ready, none⟩)
  else ({ y.1.md with phase := .sentMessages }, ⟨none, true, none⟩)

/-- Each driver once it has received: the one at port `p` has its transfer in data phase (R160). -/
def commandAccepted (p : Nat) (x : TransferMeta) (y : Chain × Nat) : MasterDriver :=
  { y.1.md with
    dataSlot := if y.2 = p then some x else y.1.md.dataSlot
    phase := .gotMessages }

section Command

variable {p : Nat} {x : TransferMeta} {ready : Bool} {v : Word} {y : Chain × Nat}

theorem mdEmit_command_quiet (hx : x.burst = .single) (h : y.1.md.quiet = true) :
    mdEmit (some (p, ⟨some x, ready, ⟨false, v⟩⟩)) y.2 y.1.md = .ok (commandEmits p x ready y) := by
  unfold commandEmits
  by_cases hy : y.2 = p
  · rw [if_pos hy, ← hy]
    exact emit_drive h fun z hz => by cases hz; exact hx
  · rw [if_neg hy]
    exact emit_quiet h fun p' d' hd => by cases hd; exact fun hp => hy hp.symm

theorem mdReceive_command {b : Bool} (h : y.1.md.quiet = true) :
    mdReceive b y.2 (commandEmits p x ready y).1 ⟨.success, none, true⟩ =
      .ok (commandAccepted p x y, []) := by
  unfold commandEmits commandAccepted
  by_cases hy : y.2 = p
  · rw [if_pos hy, if_pos hy]
    exact recv_drive h
  · rw [if_neg hy, if_neg hy]
    exact recv_quiet h

end Command

/-- A quiet chain whose port carried nothing is as it was. -/
theorem quietChain_of_quiet {c : Chain} {w : M2S} (hbelow : c.quietBelow = true)
    (hmd : c.md.quiet = true) (hw : Presentable c w) (hreq : w.req = none) :
    quietChain c w { c.md with phase := .tickExtra } = c := by
  obtain ⟨wd, cn, heq⟩ := mdQuiet_iff.1 hmd
  rw [quietChain_idle hbelow hw hreq]
  simp only [heq]
  rw [← heq]

/-- The chain of a command after its cycle: the transfer is in its driver's data slot, and what left the
Aligner and the Translator is remembered and routed by its decoder (R160, R167, R185). -/
theorem quietChain_command {c : Chain} {x : TransferMeta} {ready : Bool}
    (hw : Presentable c ⟨some x, ready, none⟩) (md : MasterDriver) :
    ∃ low, bandReq (c.cfg.bitband.getD []) (some (c.presented x)) = some low ∧
      (quietChain c ⟨some x, ready, none⟩ md).dec.addrMeta = some low ∧
      (quietChain c ⟨some x, ready, none⟩ md).dec.addrRoute = some (decodeTag c.cfg.ports low.addr) := by
  obtain ⟨low, hlow⟩ : ∃ low, bandReq (c.cfg.bitband.getD []) (some (c.presented x)) = some low := by
    unfold bandReq
    dsimp only
    split <;> exact ⟨_, rfl⟩
  have hreq : (quietLow c ⟨some x, ready, none⟩).req = some low := (quietLow_spec hw).2.2.trans hlow
  exact ⟨low, hlow, hreq, by simp only [quietChain, quietDec, quietRoute, hreq, Option.map_some]⟩

/-- Settles O47: only port `p` presents anything, so the quiet cycle grants it, and every other chain is as
it was. -/
theorem commandIsAcceptedOnQuietFabric : Obligations.CommandIsAcceptedOnQuietFabric := by
  intro s p i x ready v c hs hc hi hburst halias
  have hquiet : ∀ y ∈ s.chains.zipIdx, y.1.md.quiet = true := fun y hy =>
    hs.2 _ (List.fst_mem_of_mem_zipIdx hy)
  have hother : ∀ y ∈ s.chains.zipIdx, y.2 ≠ p → (commandEmits p x ready y).2 = ⟨none, true, none⟩ :=
    fun y _ hne => by simp [commandEmits, hne]
  have hport : Presentable c ⟨some x, ready, none⟩ :=
    ⟨rfl, fun z hz => by cases hz; exact ⟨hburst, halias⟩⟩
  have hpresentable : ∀ y ∈ s.chains.zipIdx, Presentable y.1 (commandEmits p x ready y).2 := by
    intro y hy
    obtain rfl | ⟨hne, -⟩ := port_or_quiet hc (fun q c' _ hq => hs.2 c' (List.mem_of_getElem? hq)) y hy
    · simpa [commandEmits] using hport
    · rw [hother y hy hne]
      exact ⟨rfl, nofun⟩
  obtain ⟨stages, outs, hcycle, hhandlers, hslaves, hstages, -⟩ := quiet_cycle (reply := none)
    (r := fun y => (commandAccepted p x y, []))
    hs.1 (fun y hy => mdEmit_command_quiet (v := v) hburst (hquiet y hy)) hpresentable
    ⟨p, fun y hy hne => by rw [hother y hy hne]⟩ (fun y hy => mdReceive_command (hquiet y hy))
  obtain ⟨low, hlow, hmeta, hroute⟩ := quietChain_command hport { c.md with dataSlot := some x }
  refine ⟨_, low, quietChain c ⟨some x, ready, none⟩ { c.md with dataSlot := some x },
    (exec_of_commandOf hi s).trans (present_eq_next.2 ⟨c, hc, rfl, hcycle⟩),
    (bbTranslateReq_presented rfl halias).trans (by rw [hlow]), ?chains, rfl, rfl, hmeta, hroute, rfl,
    hhandlers, hslaves, hstages, rfl, rfl, rfl, by simp⟩
  case chains =>
    refine (getElem?_zipIdx_set hc _ fun y hy hne => ?other).trans ?port
    case other =>
      have hmem := List.fst_mem_of_mem_zipIdx hy
      have hmd : commandAccepted p x y = { y.1.md with phase := .gotMessages } := by
        simp [commandAccepted, hne]
      rw [hother y hy hne, hmd]
      exact quietChain_of_quiet (hs.1.1 _ hmem) (hquiet y hy) ⟨rfl, nofun⟩ rfl
    case port =>
      obtain ⟨wd, cn, heq⟩ := mdQuiet_iff.1 (hs.2 c (List.mem_of_getElem? hc))
      simp [commandEmits, commandAccepted, heq]

end Sys2Proof.Proofs
end

section
/-! A response word at a master port of a fabric that is quiet below it (R84, log 5): one cycle in which
that driver receives it and nothing else happens, and the obligation O50. -/

namespace Sys2Proof.Proofs

open Sys2Proof Sys2Proof.Machine

/-- The callbacks of one port alone are the callbacks of all ports. -/
theorem flatMap_zipIdx_port {α β : Type} {l : List α} {p k : Nat} {a : α} (h : l[p]? = some a)
    (ev : List β) : ((l.zipIdx k).flatMap fun x => if x.2 = k + p then ev else []) = ev := by
  induction l generalizing p k with
  | nil => cases h
  | cons b l ih =>
    rw [List.zipIdx_cons, List.flatMap_cons]
    cases p with
    | zero =>
      have htail : ∀ x ∈ l.zipIdx (k + 1), (if x.2 = k + 0 then ev else []) = [] := by
        intro x hx
        have hle := List.le_snd_of_mem_zipIdx hx
        exact if_neg (by omega)
      rw [List.flatMap_eq_nil_iff.2 htail]
      simp
    | succ p =>
      have htail := ih (k := k + 1) (p := p) (by simpa using h)
      rw [Nat.add_assoc, Nat.add_comm 1 p] at htail
      simp [htail]

/-- Master port `p`, with the chain `c`, is the only one of the fabric where something is in flight: at a
cycle boundary its driver has at most a read in data phase, and presents at most a single transfer that
the Translator does not reject. -/
structure OnlyPort (s : State) (p : Nat) (c : Chain) : Prop where
  below : s.QuietBelow
  chain : s.chains[p]? = some c
  others : ∀ q c', q ≠ p → s.chains[q]? = some c' → c'.md.quiet = true
  phase : c.md.phase = .tickExtra
  presents : ∀ a h, c.md.addrSlot = some (a, h) → a.burst = .single ∧ c.aliasOk a = true
  reads : ∀ t, c.md.dataSlot = some t → t.dir = .read

/-- A driver without a write in data phase emits its address phase (R158). -/
theorem mdEmit_of_reads {q : Nat} {md : MasterDriver} (hphase : md.phase = .tickExtra)
    (hreads : ∀ t, md.dataSlot = some t → t.dir = .read) : mdEmit none q md = .ok (emits md) := by
  simp [mdEmit, mdDispatch, mdPayload_of_reads hreads, hphase, phaseSent, emits]

/-- Each driver once it has received: `m` is the one at port `p`, the others have received the idle
response. -/
def receivedAt (p : Nat) (m : MasterDriver) (x : Chain × Nat) : MasterDriver :=
  if x.2 = p then m else { x.1.md with phase := .gotMessages }

/-- A quiet driver away from the port ends the cycle as it began it. -/
theorem receivedAt_other {p : Nat} {m : MasterDriver} {x : Chain × Nat} (hne : x.2 ≠ p)
    (hq : x.1.md.quiet = true) : { receivedAt p m x with phase := .tickExtra } = x.1.md := by
  obtain ⟨wd, cn, heq⟩ := mdQuiet_iff.1 hq
  simp [receivedAt, hne, heq]

section OnlyPort

variable {s : State} {p : Nat} {c : Chain}

theorem OnlyPort.emit (h : OnlyPort s p c) :
    ∀ x ∈ s.chains.zipIdx, mdEmit none x.2 x.1.md = .ok (emits x.1.md) := by
  intro x hx
  obtain rfl | ⟨-, hq⟩ := port_or_quiet h.chain h.others x hx
  · exact mdEmit_of_reads h.phase h.reads
  · exact mdEmit_awaitsGrant (awaitsGrant_of_quiet hq)

theorem OnlyPort.req_none (h : OnlyPort s p c) :
    ∀ x ∈ s.chains.zipIdx, x.2 ≠ p → (emits x.1.md).2.req = none := by
  intro x hx hne
  obtain rfl | ⟨-, hq⟩ := port_or_quiet h.chain h.others x hx
  · exact absurd rfl hne
  · obtain ⟨wd, cn, heq⟩ := mdQuiet_iff.1 hq
    simp [emits, heq]

theorem OnlyPort.presentable (h : OnlyPort s p c) :
    ∀ x ∈ s.chains.zipIdx, Presentable x.1 (emits x.1.md).2 := by
  refine fun x hx => ⟨rfl, fun t ht => ?_⟩
  obtain rfl | ⟨hne, -⟩ := port_or_quiet h.chain h.others x hx
  · obtain ⟨⟨a, hold⟩, haddr, rfl⟩ := Option.map_eq_some_iff.1 ht
    exact h.presents a hold haddr
  · rw [h.req_none x hx hne] at ht
    cases ht

/-- A word that arrives at the port does there what it does to the driver, and nothing else happens. -/
theorem OnlyPort.respond {code : Code} {g : Bool} {data : DataWord} {ev : List Event}
    {md' : MasterDriver} (h : OnlyPort s p c) (hfits : data.fits c.md.dataSlot = true)
    (hreceives : Receives c.cfg.cancelAddrOnError p (emits c.md).1
      ⟨code, portData c.md.dataSlot data, g || !c.cfg.grantWire⟩ ev md') :
    ∃ t, respond p ⟨code, g, data⟩ s = .next t ∧ t.out = ev ∧
      t.chains.map Chain.md = (s.chains.map Chain.md).set p md' ∧
      t.slaves.map Slave.handler = s.slaves.map Slave.handler := by
  obtain ⟨m, hm, hcommit⟩ := hreceives
  obtain ⟨-, rfl⟩ := mdCommit_eq_ok.1 hcommit
  obtain ⟨stages, outs, hcycle, hhandlers, -⟩ := quiet_cycle (drive := none)
    (reply := some (p, ⟨code, g, data⟩)) (e := fun x => emits x.1.md)
    (r := fun x => (receivedAt p m x, if x.2 = p then ev else []))
    h.below h.emit h.presentable ⟨p, h.req_none⟩ <| by
      intro x hx
      obtain rfl | ⟨hne, hq⟩ := port_or_quiet h.chain h.others x hx
      · simpa [replyAt, onPort, emits, receivedAt] using hm
      · simpa [replyAt, hne, hne.symm, emits, receivedAt] using recv_quiet hq
  refine ⟨_, respond_eq_next.2 ⟨c, h.chain, hfits, hcycle⟩, ?out, ?drivers, hhandlers⟩
  case out => simpa using flatMap_zipIdx_port (k := 0) h.chain ev
  case drivers =>
    have hset : s.chains.zipIdx.map
        (fun x => { x.1 with md := { receivedAt p m x with phase := .tickExtra } }) = _ :=
      getElem?_zipIdx_set h.chain _ fun x hx hne => by
        obtain rfl | ⟨-, hq⟩ := port_or_quiet h.chain h.others x hx
        · exact absurd rfl hne
        · rw [receivedAt_other hne hq]
    simpa [quietChain, receivedAt, Function.comp_def, List.map_set] using
      congrArg (List.map Chain.md) hset

end OnlyPort

/-- Settles O50: each code's rule at the driver (`Receives`), in the cycle of `OnlyPort.respond`. -/
theorem responseCodesAreReceived : Obligations.ResponseCodesAreReceived := by
  intro s p c grant data hbelow hc hothers hphase hpresents hreads hfits g hg
  subst hg
  have honly : OnlyPort s p c := ⟨hbelow, hc, hothers, hphase, hpresents, hreads⟩
  refine ⟨fun hlast hslot => ?idle, fun x hlast hslot hpresent => ?read, fun hlast hslot => ?pending,
    fun hlast hslot hkeep => ?error1, fun a h hlast hslot hcancel haddr => ?withdrawn,
    fun x hlast hslot => ?error2⟩
  case idle => exact honly.respond hfits (receives_idle rfl hlast hslot)
  case read =>
    have hdata : portData c.md.dataSlot data = some (wordData x.size data.value) := by
      simp [portData, hpresent, hslot]
    refine honly.respond hfits ?_
    rw [hdata]
    exact receives_done rfl hlast hslot (mdDone_read (hreads x hslot) (wordData_length _ _))
  case pending =>
    obtain ⟨x, hslot⟩ := Option.ne_none_iff_exists'.1 hslot
    exact honly.respond hfits (receives_waits rfl hlast hslot rfl (.inr (.inr nofun)))
  case error1 =>
    obtain ⟨x, hslot⟩ := Option.ne_none_iff_exists'.1 hslot
    exact honly.respond hfits (receives_waits rfl hlast hslot rfl (hkeep.imp_right .inl))
  case withdrawn =>
    obtain ⟨x, hslot⟩ := Option.ne_none_iff_exists'.1 hslot
    refine honly.respond hfits ?_
    rw [hcancel]
    exact receives_cancel rfl hlast hslot haddr
  case error2 => exact honly.respond hfits (receives_error2 rfl hlast hslot)

end Sys2Proof.Proofs
end

section
/-! The ranges of a decoder (R181, R333): an address lies in one of them at most, which `decode` finds; the
obligation O7. -/

namespace Sys2Proof.Proofs

open Sys2Proof Sys2Proof.Machine

/-- Two ranges that no point can be in together, as the check of R333 has it. -/
def Apart (r q : Nat × Nat) : Prop :=
  r.2 ≤ q.1 ∨ q.2 ≤ r.1 ∨ r.2 ≤ r.1 ∨ q.2 ≤ q.1

theorem disjointRanges_iff_pairwise {l : List (Nat × Nat)} :
    disjointRanges l = true ↔ l.Pairwise Apart := by
  induction l with
  | nil => simp [disjointRanges]
  | cons r l ih => simp [disjointRanges, ih, Apart, or_assoc]

/-- Of two places of a list of disjoint ranges the earlier does not hold an address that the later holds. -/
theorem not_mem_earlier_range {ports : List PortCfg} {j k : Nat} {r q : PortCfg} {a : Nat}
    (hports : rangesOk ports = true) (hjk : j < k) (hq : ports[j]? = some q) (hr : ports[k]? = some r)
    (hlo : r.lo ≤ a) (hhi : a < r.hi) : ¬ (q.lo ≤ a ∧ a < q.hi) := by
  rintro ⟨hqlo, hqhi⟩
  have hpairwise : (ports.map fun r => (r.lo, r.hi)).Pairwise Apart :=
    disjointRanges_iff_pairwise.1 (Bool.and_eq_true_iff.1 hports).2
  obtain ⟨hj, rfl⟩ := List.getElem?_eq_some_iff.1 hq
  obtain ⟨hk, rfl⟩ := List.getElem?_eq_some_iff.1 hr
  have hapart : ports[j].hi ≤ ports[k].lo ∨ ports[k].hi ≤ ports[j].lo ∨ ports[j].hi ≤ ports[j].lo ∨
      ports[k].hi ≤ ports[k].lo :=
    List.pairwise_iff_getElem.1 (List.pairwise_map.1 hpairwise) j k hj hk hjk
  omega

/-- The port whose range holds the address is the one that `decode` gives (R181). -/
theorem decodeAddr_of_mem {ports : List PortCfg} {k : Nat} {r : PortCfg} {a : Addr}
    (hports : rangesOk ports = true) (hr : ports[k]? = some r) (hlo : r.lo ≤ a.toNat)
    (hhi : a.toNat < r.hi) : decodeAddr ports a = some (.port k) := by
  suffices (ports.findIdx? fun r => r.lo ≤ a.toNat && a.toNat < r.hi) = some k by simp [decodeAddr, this]
  obtain ⟨hk, hget⟩ := List.getElem?_eq_some_iff.1 hr
  refine List.findIdx?_eq_some_iff_getElem.2 ⟨hk, by simp [hget, hlo, hhi], fun j hjk => ?_⟩
  have hearlier := not_mem_earlier_range hports hjk
    (List.getElem?_eq_getElem (hjk.trans hk)) hr hlo hhi
  simpa using hearlier

/-- No port is given for an address outside every range (R181). -/
theorem decodeAddr_of_not_mem {ports : List PortCfg} {a : Addr}
    (h : ∀ r ∈ ports, ¬ (r.lo ≤ a.toNat ∧ a.toNat < r.hi)) : decodeAddr ports a = none := by
  simpa [decodeAddr, List.findIdx?_eq_none_iff] using h

/-- Settles O7. -/
theorem decodeFindsTheRange : Obligations.DecodeFindsTheRange := by
  intro s p a c hc hports
  have hrow : exec (.decode p a) s = .next (returned (.tag (decodeAddr c.cfg.ports a)) s) :=
    execDecode_eq_next.2 ⟨c, hc, rfl⟩
  refine ⟨fun k r hr hlo hhi => ?inside, fun houtside => ?outside⟩
  case inside =>
    rw [hrow, decodeAddr_of_mem hports hr hlo hhi]
    rfl
  case outside =>
    rw [hrow, decodeAddr_of_not_mem houtside]
    rfl

end Sys2Proof.Proofs
end

section
/-! The Decoder's cycle (R182 to R185): when the hold of an address phase is broken, the two routes, what
goes to each port and what comes back, and the obligations O30 and O31. -/

namespace Sys2Proof.Proofs

open Sys2Proof Sys2Proof.Machine

section Routes

variable {c : MasterCfg} {ports : List PortCfg} {dec : Decoder} {w : M2S} {t : TransferMeta}

/-- When `STRICT_HOLD` finds a held address phase withdrawn or replaced (R183). -/
theorem strictHold_and_addressChanged_iff :
    (strictHold c.cancelMode && addressChanged dec w) = true ↔
      c.cancelMode ≠ .cortexM ∧ w.ready = false ∧ dec.lastCode ≠ .error1 ∧ dec.addrMeta ≠ none ∧
        w.req ≠ dec.addrMeta := by
  simp [strictHold, addressChanged, Option.isSome_iff_ne_none, and_assoc]

theorem decDown_of_changed (hreq : ∀ x, w.req = some x → x.burst = .single)
    (h : (strictHold c.cancelMode && addressChanged dec w) = true) :
    decDown c dec w = .error .addressChangedDuringHold := by
  simp only [decDown, refuseBurst_of_single hreq, if_pos h]

theorem decDown_of_kept (hreq : ∀ x, w.req = some x → x.burst = .single)
    (h : ¬ (strictHold c.cancelMode && addressChanged dec w) = true) :
    decDown c dec w = .ok ⟨decAddrRoute c.ports dec w, decDataRoute dec w.ready⟩ := by
  simp only [decDown, refuseBurst_of_single hreq, if_neg h]

theorem decAddrRoute_idle (h : w.req = none) : decAddrRoute ports dec w = none := by
  simp only [decAddrRoute, h]

theorem decAddrRoute_held (hreq : w.req = some t) (hready : w.ready = false)
    (hmeta : dec.addrMeta = some t) : decAddrRoute ports dec w = dec.addrRoute := by
  simp [decAddrRoute, hreq, hready, hmeta]

theorem decAddrRoute_fresh (hreq : w.req = some t) (hfresh : w.ready = true ∨ dec.addrMeta ≠ some t) :
    decAddrRoute ports dec w = some (decodeTag ports t.addr) := by
  have hnotHeld : ¬ (w.ready = false ∧ dec.addrMeta = some t) := by
    rintro ⟨hready, hmeta⟩
    simp [hready, hmeta] at hfresh
  simp only [decAddrRoute, hreq, if_neg hnotHeld]

theorem decDataRoute_moves {g : Tag} (h : dec.addrRoute = some g) : decDataRoute dec true = g := by
  simp only [decDataRoute, h]

theorem decDataRoute_stays {ready : Bool} (h : ready = false ∨ dec.addrRoute = none) :
    decDataRoute dec ready = dec.dataRoute := by
  obtain rfl | h := h
  · rfl
  · cases ready
    · rfl
    · simp only [decDataRoute, h]

end Routes

/-- Settles O30, by whether the hold is broken, and then by the equations of the two routes. -/
theorem decoderRoutesAnAddressPhase : Obligations.DecoderRoutesAnAddressPhase := by
  intro c dec w hsingle
  refine ⟨fun hmode hready hlast hmeta hchanged => ?changed, fun hkept => ?kept⟩
  case changed =>
    exact decDown_of_changed hsingle
      (strictHold_and_addressChanged_iff.2 ⟨hmode, hready, hlast, hmeta, hchanged⟩)
  case kept =>
    have hnot : ¬ (strictHold c.cancelMode && addressChanged dec w) = true := by
      rw [strictHold_and_addressChanged_iff]
      rintro ⟨hmode, hready, hlast, hmeta, hchanged⟩
      simp [hmode, hready, hlast, hmeta, hchanged] at hkept
    refine ⟨_, decDown_of_kept hsingle hnot, decAddrRoute_idle,
      fun t hreq hready hmeta => decAddrRoute_held hreq hready hmeta,
      fun t hreq hfresh => decAddrRoute_fresh hreq hfresh, fun g hready hroute => ?_,
      decDataRoute_stays⟩
    rw [hready]
    exact decDataRoute_moves hroute

section Ports

variable {r : Route} {w : M2S} {g : Tag} {port : Tag → S2M}

theorem decFan_req_on (h : r.ar = some g) : (decFan r w g).req = w.req := if_pos h

theorem decFan_req_off (h : r.ar ≠ some g) : (decFan r w g).req = none := if_neg h

theorem decFan_payload_on (h : r.dr = g) : (decFan r w g).payload = w.payload := if_pos h

theorem decFan_payload_off (h : r.dr ≠ g) : (decFan r w g).payload = none := if_neg h

theorem decReply_grant_routed {a : Tag} (h : r.ar = some a) :
    (decReply r port).grant = (port a).grant := by
  simp only [decReply, h]

theorem decReply_grant_idle (h : r.ar = none) : (decReply r port).grant = true := by
  simp only [decReply, h]

end Ports

/-- Settles O31. -/
theorem decoderSteersTheWires : Obligations.DecoderSteersTheWires := fun _ _ _ _ =>
  ⟨decFan_req_on, decFan_req_off, decFan_payload_on, decFan_payload_off, rfl, rfl, rfl,
    fun _ => decReply_grant_routed, decReply_grant_idle⟩

end Sys2Proof.Proofs
end

section
/-! The default slave's cycle (R186, R187, R131): its answer to each transfer in data phase, with and
without a mock, and the obligation O29. -/

namespace Sys2Proof.Proofs

open Sys2Proof Sys2Proof.Machine

section Cycle

variable {rows : List MockRow} {sd : SlaveDriver} {w : M2S} {ds : Option TransferMeta}

theorem defaultCycle_of_ok {code : Code} {data : Option Data}
    (hpromote : slavePromote sd w.ready = .ok ds) (hreq : ∀ x, w.req = some x → x.burst = .single)
    (hresp : defaultRespond rows sd ds w.payload = .ok (code, data)) :
    defaultCycle rows sd w = .ok (⟨code, data, true⟩, slaveNext sd w.req ds code) := by
  simp only [defaultCycle, hpromote, hresp, refuseBurst_of_single hreq]

/-- A violation of the response is the cycle's, whatever the address phase (log 12). -/
theorem defaultCycle_of_error {e : Fault} (hpromote : slavePromote sd w.ready = .ok ds)
    (hresp : defaultRespond rows sd ds w.payload = .error e) : defaultCycle rows sd w = .error e := by
  simp only [defaultCycle, hpromote, hresp]

end Cycle

section Answer

variable {rows : List MockRow} {sd : SlaveDriver} {t : TransferMeta} {p : Option Data} {r : MockRow}

theorem defaultRespond_none (hlast : sd.lastCode ≠ .error1) :
    defaultRespond rows sd none none = .ok (.success, none) := by
  simp [defaultRespond, hlast]

theorem defaultRespond_none_payload (hlast : sd.lastCode ≠ .error1) (hp : p ≠ none) :
    defaultRespond rows sd none p = .error .payloadWithoutWrite := by
  simp [defaultRespond, hlast, hp]

theorem defaultRespond_some (hlast : sd.lastCode ≠ .error1) :
    defaultRespond rows sd (some t) p = defaultAnswer rows t p :=
  if_neg hlast

/-- After `Error1` comes `Error2`, whatever is in data phase (R131). -/
theorem defaultRespond_after_error1 {ds : Option TransferMeta} (hlast : sd.lastCode = .error1) :
    defaultRespond rows sd ds p = .ok (.error2, none) :=
  if_pos hlast

theorem defaultAnswer_missing (hdir : t.dir = .write) :
    defaultAnswer rows t none = .error .missingWriteData :=
  if_pos ⟨hdir, rfl⟩

theorem defaultAnswer_unmocked (hp : t.dir = .write → p ≠ none) (hmock : mockFor rows t = none) :
    defaultAnswer rows t p = .ok (.error1, none) := by
  simp only [defaultAnswer, if_neg fun h : t.dir = .write ∧ p = none => hp h.1 h.2, hmock]

theorem defaultAnswer_mocked (hp : t.dir = .write → p ≠ none) (hmock : mockFor rows t = some r)
    (hfits : mockFits t r.data = true) : defaultAnswer rows t p = .ok (.success, r.data) := by
  simp only [defaultAnswer, if_neg fun h : t.dir = .write ∧ p = none => hp h.1 h.2, hmock, if_pos hfits]

theorem defaultAnswer_badMock (hp : t.dir = .write → p ≠ none) (hmock : mockFor rows t = some r)
    (hfits : ¬ mockFits t r.data = true) : defaultAnswer rows t p = .error .badMock := by
  simp only [defaultAnswer, if_neg fun h : t.dir = .write ∧ p = none => hp h.1 h.2, hmock, if_neg hfits]

theorem mockFits_read_iff {d : Option Data} (hdir : t.dir = .read) :
    mockFits t d = true ↔ ∃ x, d = some x ∧ x.length = t.size.bytes := by
  cases d <;> simp [mockFits, hdir, dataFits, xferBytes]

theorem mockFits_write_iff {d : Option Data} (hdir : t.dir = .write) :
    mockFits t d = true ↔ d = none := by
  cases d <;> simp [mockFits, hdir]

end Answer

section Outcomes

variable {rows : List MockRow} {sd : SlaveDriver} {w : M2S} {t : TransferMeta} {r : MockRow}

/-- A transfer without a mock gets `Error1` and stays in data phase (R186, R133). -/
theorem defaultCycle_error1 (hlast : sd.lastCode ≠ .error1)
    (hpromote : slavePromote sd w.ready = .ok (some t)) (hp : t.dir = .write → w.payload ≠ none)
    (hreq : ∀ x, w.req = some x → x.burst = .single) (hmock : mockFor rows t = none) :
    defaultCycle rows sd w = .ok (⟨.error1, none, true⟩, ⟨w.req, some t, .error1⟩) :=
  defaultCycle_of_ok hpromote hreq ((defaultRespond_some hlast).trans (defaultAnswer_unmocked hp hmock))

/-- After `Error1` comes `Error2`, whatever address phase and payload the cycle carries (R131). -/
theorem defaultCycle_error2 (hlast : sd.lastCode = .error1) (hready : w.ready = false)
    (hreq : ∀ x, w.req = some x → x.burst = .single) :
    defaultCycle rows sd w = .ok (⟨.error2, none, true⟩, ⟨w.req, none, .error2⟩) :=
  defaultCycle_of_ok (ds := sd.dataSlot) (by rw [hready]; rfl) hreq (defaultRespond_after_error1 hlast)

theorem defaultCycle_mocked {d : Option Data} (hlast : sd.lastCode ≠ .error1)
    (hpromote : slavePromote sd w.ready = .ok (some t)) (hp : t.dir = .write → w.payload ≠ none)
    (hreq : ∀ x, w.req = some x → x.burst = .single) (hmock : mockFor rows t = some r)
    (hdata : r.data = d) (hfits : mockFits t d = true) :
    defaultCycle rows sd w = .ok (⟨.success, d, true⟩, ⟨w.req, none, .success⟩) := by
  subst hdata
  exact defaultCycle_of_ok hpromote hreq
    ((defaultRespond_some hlast).trans (defaultAnswer_mocked hp hmock hfits))

theorem defaultCycle_badMock (hlast : sd.lastCode ≠ .error1)
    (hpromote : slavePromote sd w.ready = .ok (some t)) (hp : t.dir = .write → w.payload ≠ none)
    (hmock : mockFor rows t = some r) (hfits : ¬ mockFits t r.data = true) :
    defaultCycle rows sd w = .error .badMock :=
  defaultCycle_of_error hpromote ((defaultRespond_some hlast).trans (defaultAnswer_badMock hp hmock hfits))

end Outcomes

/-- Settles O29, by what is in data phase and, for a transfer, by its mock. -/
theorem defaultSlaveErrorPair : Obligations.DefaultSlaveErrorPair := by
  intro rows sd w hlast
  refine ⟨fun hpromote => ⟨fun hp => ?strayPayload, fun hp hreq => ?idle⟩, fun t hpromote =>
    ⟨fun hdir hp => ?missing, fun hp hreq => ⟨fun hmock => ?errorPair, fun r hmock =>
      ⟨fun hdir d hdata hlen => ?readMocked, fun hdir hdata => ?writeMocked,
        fun hdir hlen => ?readBadMock, fun hdir hdata => ?writeBadMock⟩⟩⟩⟩
  case strayPayload => exact defaultCycle_of_error hpromote (defaultRespond_none_payload hlast hp)
  case idle =>
    exact defaultCycle_of_ok hpromote hreq ((congrArg _ hp).trans (defaultRespond_none hlast))
  case missing =>
    exact defaultCycle_of_error hpromote
      ((defaultRespond_some hlast).trans ((congrArg _ hp).trans (defaultAnswer_missing hdir)))
  case errorPair =>
    exact ⟨_, defaultCycle_error1 hlast hpromote hp hreq hmock,
      fun w' hready hreq' => defaultCycle_error2 rfl hready hreq'⟩
  case readMocked =>
    exact defaultCycle_mocked hlast hpromote hp hreq hmock hdata
      ((mockFits_read_iff hdir).2 ⟨d, rfl, hlen⟩)
  case writeMocked =>
    exact defaultCycle_mocked hlast hpromote hp hreq hmock hdata ((mockFits_write_iff hdir).2 rfl)
  case readBadMock =>
    refine defaultCycle_badMock hlast hpromote hp hmock ?_
    rw [mockFits_read_iff hdir]
    rintro ⟨d, hdata, hd⟩
    exact hlen d hdata hd
  case writeBadMock =>
    exact defaultCycle_badMock hlast hpromote hp hmock (mt (mockFits_write_iff hdir).1 hdata)

end Sys2Proof.Proofs
end

section
/-! A transfer outside the range of a direct fabric (R188): the cycle of such a fabric while its slave has
nothing to do, the three cycles from the command to the abort, and the obligation O53. -/

namespace Sys2Proof.Proofs

open Sys2Proof Sys2Proof.Machine

/-! ### The driver with a transfer in data phase -/

/-- A driver that presents nothing and has `x` in data phase, `wd` being its write data. -/
def busyDriver (x : TransferMeta) (wd : Option Data) (code : Code) (phase : Phase) : MasterDriver :=
  ⟨none, some x, wd, none, code, true, phase⟩

/-- Under `IDLE` the driver presents the payload of a write in data phase: the one beside the command, or
the one it has already (R158, log 4). -/
theorem mdEmit_idle_busy {x : TransferMeta} {wd : Option Data} {code : Code} {ready : Bool} {dp : DataWord}
    (hdata : x.dir = .write → dp.present = true ∨ wd ≠ none) :
    ∃ wd' pl, mdEmit (some (0, ⟨none, ready, dp⟩)) 0 (busyDriver x wd code .tickExtra) =
        .ok (busyDriver x wd' code .sentMessages, ⟨none, ready, pl⟩) ∧
      (x.dir = .write → wd' ≠ none ∧ pl ≠ none) := by
  have hemit : ∀ wd' pl, adoptData (busyDriver x wd code .tickExtra) dp = wd' →
      mdPayload (busyDriver x wd' code .tickExtra) = .ok pl →
      mdEmit (some (0, ⟨none, ready, dp⟩)) 0 (busyDriver x wd code .tickExtra) =
        .ok (busyDriver x wd' code .sentMessages,
          ⟨none, ready, if dp.present then portData (some x) dp else pl⟩) := by
    rintro wd' pl rfl hpl
    have hdispatch := mdDispatch_of_payload hpl
    simp only [busyDriver] at hdispatch
    simp [mdEmit, mdDrive, adoptAddr, busyDriver, hdispatch, phaseSent]
  cases hdir : x.dir with
  | read => exact ⟨_, _, hemit _ _ rfl (mdPayload_of_reads fun t ht => by cases ht; exact hdir), nofun⟩
  | write =>
    obtain ⟨d, hd⟩ : ∃ d, adoptData (busyDriver x wd code .tickExtra) dp = some d := by
      cases hpresent : dp.present with
      | true => simp [adoptData, busyDriver, hpresent, hdir]
      | false => simpa [adoptData, busyDriver, hpresent, hdir, Option.ne_none_iff_exists'] using hdata
    refine ⟨_, _, hemit _ _ hd (mdPayload_write rfl hdir rfl), fun _ => ⟨nofun, ?_⟩⟩
    cases hpresent : dp.present <;> simp [portData, hpresent]

/-! ### The cycle while the slave is idle -/

/-- The parameters of a direct fabric's master without a mock. -/
structure DirectCfg (cfg : MasterCfg) (lo hi : Nat) : Prop where
  aligner : cfg.aligner = none
  bitband : cfg.bitband = none
  mock : cfg.mock = []
  ports : ∃ g, cfg.ports = [⟨lo, hi, .slave 0, g⟩]

/-- A direct fabric at a cycle boundary: its slave has nothing in flight, its driver is `md` and its decoder
`dec`. -/
def IdleSlaveAt (s : State) (cfg : MasterCfg) (md : MasterDriver) (dec : Decoder) : Prop :=
  ∃ al bb ucfg h cells inbox ret out wires,
    s = direct cfg md al bb dec ucfg ⟨none, none, .success⟩ h cells inbox ret out wires ∧
    ∀ f ∈ cells, f.cur = none ∧ f.next = none

/-- The direct fabric of the statements is one, and its driver and decoder are quiet. -/
theorem idleSlaveAt_of_direct {s : State} {lo hi : Nat} {mem : Memory} (h : s.Direct lo hi mem) :
    ∃ cfg wd dr, DirectCfg cfg lo hi ∧
      IdleSlaveAt s cfg ⟨none, none, wd, none, .success, true, .tickExtra⟩
        ⟨none, none, dr, .success, ⟨none, none, .success⟩⟩ := by
  obtain ⟨⟨cfg, md, al, bb, ⟨ar, am, dr, lc, ds⟩⟩, ⟨ucfg, sd, hand⟩, g, hchains, hstages, hslaves, hquiet,
    hsd, hcancelled, halign, hband, hmock, hports, -, hcells⟩ := h
  obtain ⟨hmd, hbelow⟩ : md.quiet = true ∧ _ := by simpa [Chain.quiet] using hquiet
  obtain ⟨wd, cn, rfl⟩ := mdQuiet_iff.1 hmd
  obtain ⟨-, -, har, ham, hlc, hds⟩ := Chain.quietBelow_iff.1 hbelow
  obtain rfl : sd = _ := SlaveDriver.quiet_iff.1 hsd
  obtain ⟨chains, stages, slaves, cells, inbox, ret, out, wires⟩ := s
  simp only at har ham hlc hds hcancelled hchains hstages hslaves
  subst har ham hlc hds hcancelled hchains hstages hslaves
  exact ⟨cfg, wd, dr, ⟨halign, hband, hmock, g, hports⟩,
    al, bb, ucfg, hand, cells, inbox, ret, out, wires, rfl, hcells⟩

/-- The routes when whatever is presented goes to the default slave. -/
def unmappedRoute (req : Option TransferMeta) (dr : Tag) : Route :=
  ⟨req.map fun _ => .dflt, dr⟩

section Steer

variable {w : M2S} {dr : Tag}

theorem decFan_unmapped_slave (h : w.payload = none ∨ dr = .dflt) :
    decFan (unmappedRoute w.req dr) w (.port 0) = ⟨none, w.ready, none⟩ := by
  have hreq : (decFan (unmappedRoute w.req dr) w (.port 0)).req = none :=
    decFan_req_off (by cases w.req <;> simp [unmappedRoute])
  have hpayload : (decFan (unmappedRoute w.req dr) w (.port 0)).payload = none := by
    by_cases hdr : dr = .port 0
    · exact (decFan_payload_on hdr).trans (h.resolve_right (by simp [hdr]))
    · exact decFan_payload_off hdr
  exact congrArg₂ (fun req p => (⟨req, w.ready, p⟩ : M2S)) hreq hpayload

theorem decFan_unmapped_default (h : w.payload = none ∨ dr = .dflt) :
    decFan (unmappedRoute w.req dr) w .dflt = w := by
  have hreq : (decFan (unmappedRoute w.req dr) w .dflt).req = w.req := by
    cases hw : w.req with
    | none => simp [decFan, unmappedRoute]
    | some t => exact (decFan_req_on rfl).trans hw
  have hpayload : (decFan (unmappedRoute w.req dr) w .dflt).payload = w.payload := by
    by_cases hdr : dr = .dflt
    · exact decFan_payload_on hdr
    · exact (decFan_payload_off hdr).trans (h.resolve_right hdr).symm
  exact congrArg₂ (fun req p => (⟨req, w.ready, p⟩ : M2S)) hreq hpayload

end Steer

/-- A single transfer at an address outside the range. -/
structure Outside (lo hi : Nat) (t : TransferMeta) : Prop where
  single : t.burst = .single
  not_mem : ¬ (lo ≤ t.addr.toNat ∧ t.addr.toNat < hi)

/-- An address phase outside the only range goes to the default slave, where it is not one that is held
(R181, R183). -/
theorem DirectCfg.decDown_outside {cfg : MasterCfg} {lo hi : Nat} {dec : Decoder} {w : M2S}
    (hcfg : DirectCfg cfg lo hi) (hreq : ∀ t, w.req = some t → Outside lo hi t)
    (hfresh : w.ready = true ∨ dec.addrMeta = none) :
    decDown cfg dec w = .ok (unmappedRoute w.req (decDataRoute dec w.ready)) := by
  have hkept : ¬ (strictHold cfg.cancelMode && addressChanged dec w) = true := by
    rw [strictHold_and_addressChanged_iff]
    rintro ⟨-, hready, -, hmeta, -⟩
    simp [hready, hmeta] at hfresh
  have haddr : decAddrRoute cfg.ports dec w = w.req.map fun _ => .dflt := by
    cases hw : w.req with
    | none => exact decAddrRoute_idle hw
    | some t =>
      obtain ⟨g, hports⟩ := hcfg.ports
      have hnone : decodeAddr cfg.ports t.addr = none :=
        decodeAddr_of_not_mem (by simpa [hports] using (hreq t hw).not_mem)
      rw [decAddrRoute_fresh hw (hfresh.imp_right fun hmeta => by simp [hmeta]), decodeTag, hnone]
      rfl
  rw [decDown_of_kept (fun t ht => (hreq t ht).single) hkept, haddr]
  rfl

/-- One cycle of it, from what its driver, its decoder and its default slave do. -/
theorem IdleSlaveAt.cycle {s : State} {cfg : MasterCfg} {lo hi : Nat} {md md1 md' : MasterDriver}
    {dec : Decoder} {d : Drive} {w : M2S} {dr : Tag} {code : Code} {ds : SlaveDriver} {ev : List Event}
    (h : IdleSlaveAt s cfg md dec) (hcfg : DirectCfg cfg lo hi)
    (hfits : d.dp.fits md.dataSlot = true) (hemit : mdEmit (some (0, d)) 0 md = .ok (md1, w))
    (hroute : decDown cfg dec w = .ok (unmappedRoute w.req dr))
    (hsteer : w.payload = none ∨ dr = .dflt)
    (hdflt : defaultCycle [] dec.ds w = .ok (⟨code, none, true⟩, ds))
    (hcode : code = .success ∨ dr = .dflt)
    (hrecv : Receives cfg.cancelAddrOnError 0 md1 ⟨code, none, true⟩ ev md') :
    ∃ t, present 0 d s = .next t ∧
      IdleSlaveAt t cfg md' (decNext dec (unmappedRoute w.req dr) w code ds) ∧
      t.out = ev ∧ t.wires.map (fun w => w.up.code) = [code] := by
  obtain ⟨al, bb, ucfg, hand, cells, inbox, ret, out, wires, rfl, hcells⟩ := h
  obtain ⟨g, hports⟩ := hcfg.ports
  obtain ⟨m, hm, hcommit⟩ := hrecv
  obtain ⟨-, rfl⟩ := mdCommit_eq_ok.1 hcommit
  have hslave : slaveCycle 0 ⟨ucfg, ⟨none, none, .success⟩, hand⟩
      (decFan (unmappedRoute w.req dr) w (.port 0)) =
        .ok ⟨⟨.success, none, true⟩, ⟨ucfg, ⟨none, none, .success⟩, hand⟩, []⟩ := by
    rw [decFan_unmapped_slave hsteer]
    exact slaveCycle_quiet rfl ⟨rfl, nofun⟩
  rw [← hcfg.mock, ← decFan_unmapped_default hsteer] at hdflt
  have hresp : (⟨code, none, true⟩ : S2M) = match (unmappedRoute w.req dr).dr with
      | .dflt => ⟨code, none, true⟩
      | .port 0 => ⟨.success, none, true⟩
      | .port _ => idleReply := by
    obtain rfl | rfl := hcode
    · rcases dr with _ | _ | k <;> rfl
    · rfl
  have hport : ∀ k, (unmappedRoute w.req dr).ar = some (.port k) → k = 0 := by
    cases hreq : w.req <;> simp [unmappedRoute]
  have hcycle := direct_cycle (some (0, d)) (al := al) (bb := bb) (inbox := inbox) (ret := ret)
    (out := out) (wires := wires) hcfg.aligner hcfg.bitband hports hemit hroute hslave hdflt rfl rfl
    hresp hport hm hcells
  refine ⟨_, present_eq_next.2 ⟨_, rfl, hfits, hcycle⟩,
    ⟨al, bb, ucfg, hand, _, _, _, _, _, rfl, ?_⟩, rfl, rfl⟩
  simp +contextual [hcells]

/-! ### The three cycles -/

section Cycles

variable {s : State} {cfg : MasterCfg} {lo hi : Nat} {x : TransferMeta} {wd : Option Data} {dr : Tag}

/-- The command's cycle: the transfer is accepted and goes to the default slave. -/
theorem IdleSlaveAt.request {v : Word}
    (h : IdleSlaveAt s cfg ⟨none, none, wd, none, .success, true, .tickExtra⟩
      ⟨none, none, dr, .success, ⟨none, none, .success⟩⟩)
    (hcfg : DirectCfg cfg lo hi) (hx : Outside lo hi x) :
    ∃ t, present 0 ⟨some x, true, ⟨false, v⟩⟩ s = .next t ∧
      IdleSlaveAt t cfg (busyDriver x wd .success .tickExtra)
        ⟨some .dflt, some x, dr, .success, ⟨some x, none, .success⟩⟩ ∧
      t.out = [] := by
  have hout : ∀ t, some x = some t → Outside lo hi t := by
    rintro t ⟨⟩
    exact hx
  have hsingle : ∀ t, some x = some t → t.burst = .single := fun t ht => (hout t ht).single
  obtain ⟨t, ht, hstate, hev, -⟩ := h.cycle hcfg rfl (emit_drive rfl hsingle)
    (hcfg.decDown_outside hout (.inl rfl)) (.inl rfl) (defaultCycle_quiet rfl ⟨rfl, hsingle⟩) (.inl rfl)
    (receives_idle rfl nofun rfl)
  exact ⟨t, ht, hstate, hev⟩

/-- The first cycle of the data phase: `Error1` (R186, R164). -/
theorem IdleSlaveAt.error1 {dp : DataWord} {am : Option TransferMeta}
    (h : IdleSlaveAt s cfg (busyDriver x wd .success .tickExtra)
      ⟨some .dflt, am, dr, .success, ⟨some x, none, .success⟩⟩)
    (hcfg : DirectCfg cfg lo hi) (hfits : dp.fits (some x) = true)
    (hdata : x.dir = .write → dp.present = true) :
    ∃ t wd', present 0 ⟨none, true, dp⟩ s = .next t ∧
      IdleSlaveAt t cfg (busyDriver x wd' .error1 .tickExtra)
        ⟨none, none, .dflt, .error1, ⟨none, some x, .error1⟩⟩ ∧
      (x.dir = .write → wd' ≠ none) ∧
      t.out = [] ∧ t.wires.map (fun w => w.up.code) = [.error1] := by
  obtain ⟨wd', pl, hemit, hpayload⟩ := mdEmit_idle_busy (wd := wd) (code := .success) (ready := true)
    fun hdir => .inl (hdata hdir)
  have hdflt : defaultCycle [] ⟨some x, none, .success⟩ ⟨none, true, pl⟩ =
      .ok (⟨.error1, none, true⟩, ⟨none, some x, .error1⟩) :=
    defaultCycle_error1 nofun rfl (fun hdir => (hpayload hdir).2) nofun rfl
  obtain ⟨t, ht, hstate, hev, hcode⟩ := h.cycle hcfg hfits hemit (hcfg.decDown_outside nofun (.inl rfl))
    (.inr rfl) hdflt (.inr rfl) (receives_waits rfl nofun rfl rfl (.inr (.inl rfl)))
  exact ⟨t, wd', ht, hstate, fun hdir => (hpayload hdir).1, hev, hcode⟩

/-- The second cycle of the data phase: `Error2`, and the owner is told of the abort (R131, R165). -/
theorem IdleSlaveAt.error2
    (h : IdleSlaveAt s cfg (busyDriver x wd .error1 .tickExtra)
      ⟨none, none, .dflt, .error1, ⟨none, some x, .error1⟩⟩)
    (hcfg : DirectCfg cfg lo hi) (hdata : x.dir = .write → wd ≠ none) :
    ∃ t, present 0 ⟨none, false, ⟨false, 0⟩⟩ s = .next t ∧
      t.wires.map (fun w => w.up.code) = [.error2] ∧ t.out = [.transfersAborted 0 [x]] := by
  obtain ⟨wd', pl, hemit, -⟩ := mdEmit_idle_busy (wd := wd) (code := .error1) (ready := false)
    (dp := ⟨false, 0⟩) fun hdir => .inr (hdata hdir)
  obtain ⟨t, ht, -, hev, hcode⟩ := h.cycle hcfg rfl hemit (hcfg.decDown_outside nofun (.inr rfl))
    (.inr rfl) (defaultCycle_error2 rfl rfl nofun) (.inr rfl) (receives_error2 rfl rfl rfl)
  exact ⟨t, ht, hcode, hev⟩

end Cycles

/-! ### The obligation -/

/-- Settles O53: the three cycles one after the other. -/
theorem unmappedReadGetsABusError : Obligations.UnmappedReadGetsABusError := by
  intro s lo hi m i x v dp hs hi hburst hout hdp
  obtain ⟨cfg, wd, dr, hcfg, h0⟩ := idleSlaveAt_of_direct hs
  have hfits : dp.fits (some x) = true := by
    obtain ⟨-, rfl⟩ | ⟨-, -, hvalue⟩ := hdp
    · rfl
    · simp [DataWord.fits, Size.fits, hvalue]
  have hdata : x.dir = .write → dp.present = true := by
    obtain ⟨hread, -⟩ | ⟨-, hpresent, -⟩ := hdp
    · simp [hread]
    · exact fun _ => hpresent
  obtain ⟨s1, hs1, h1, hout1⟩ := h0.request (v := v) hcfg ⟨hburst, by omega⟩
  obtain ⟨s2, wd', hs2, h2, hwd, hout2, hcode2⟩ := h1.error1 hcfg hfits hdata
  obtain ⟨s3, hs3, hcode3, hout3⟩ := h2.error2 hcfg hwd
  exact ⟨s1, s2, s3, (exec_of_commandOf hi s).trans hs1, (exec_of_commandOf rfl s1).trans hs2,
    (exec_of_commandOf rfl s2).trans hs3, hout1, hcode2, hout2, hcode3, hout3⟩

end Sys2Proof.Proofs
end

section
/-! The Output Stage and its arbiter (R200 to R215): who contends and who wins, what the stage forwards in
a cycle, what it answers its ports and which state it goes to. -/

namespace Sys2Proof.Proofs

open Sys2Proof Sys2Proof.Machine

/-! ### The arbiter -/

section Arbiter

variable {n head x : Nat} {c : List Nat}

theorem maskMembers_contains (hx : x < n) (m : Nat) : (maskMembers n m).contains x = m.testBit x := by
  simp [maskMembers, hx]

/-- The winner under `FixedPriority` is the least contender (R206). -/
theorem arbitrateFixed_eq_some (hx : x < n) (hc : c.contains x = true)
    (hleast : ∀ y < x, c.contains y = false) : arbitrateFixed n c = some x :=
  find?_range_eq hx hc hleast

/-- Neither policy finds a winner where nobody contends (R206, R207). -/
theorem arbitrate_eq_none {a : Arbiter} (h : ∀ y < n, c.contains y = false) :
    arbitrate a n head c = none := by
  cases a with
  | fixedPriority => simpa [arbitrate, arbitrateFixed] using h
  | roundRobin =>
    have hall : ∀ k < n, c.contains ((head + k) % n) = false :=
      fun k hk => h _ (Nat.mod_lt _ (Nat.zero_lt_of_lt hk))
    simpa [arbitrate, arbitrateRr] using hall

/-- Both policies choose among the contenders only (R205). -/
theorem contains_of_arbitrate {a : Arbiter} (h : arbitrate a n head c = some x) :
    c.contains x = true := by
  cases a with
  | fixedPriority => exact List.find?_some h
  | roundRobin => exact List.find?_some (p := fun y => c.contains y) h

/-- The master at the head wins when all contend (R207, R215). -/
theorem arbitrateRr_range (hhead : head < n) : arbitrateRr n head (List.range n) = some head := by
  have h := rr_some (head := head) (c := List.range n) (k := 0) (Nat.zero_lt_of_lt hhead)
    (by simp [Nat.mod_lt _ (Nat.zero_lt_of_lt hhead)]) nofun
  simpa [Nat.mod_eq_of_lt hhead] using h

/-- Some rotation of the head below a whole turn reaches each master. -/
theorem exists_add_mod_eq (head : Nat) (hx : x < n) : ∃ k < n, (head + k) % n = x := by
  have hn : 0 < n := Nat.zero_lt_of_lt hx
  have hhead : head % n < n := Nat.mod_lt _ hn
  refine ⟨(x + (n - head % n)) % n, Nat.mod_lt _ hn, ?_⟩
  calc (head + (x + (n - head % n)) % n) % n
      = (head % n + (x + (n - head % n))) % n := by rw [Nat.add_mod_mod, Nat.mod_add_mod]
    _ = (x + n) % n := by congr 1; omega
    _ = x := by rw [Nat.add_mod_right, Nat.mod_eq_of_lt hx]

/-- No two rotations of the head below a whole turn agree. -/
theorem eq_of_add_mod_eq {j k : Nat} (hj : j < n) (hk : k < n) (h : (head + j) % n = (head + k) % n) :
    j = k :=
  (Nat.ModEq.add_left_cancel' head h).eq_of_lt_of_lt hj hk

end Arbiter

/-- Settles O10: the row runs the arbiter on the masters that the mask names. -/
theorem fixedPriorityPicksTheLeast : Obligations.FixedPriorityPicksTheLeast := by
  intro s p m st hst
  have hrow : exec (.arbitrateFixed p m) s = .next (returned
      (.master (arbitrateFixed st.cfg.inputs (maskMembers st.cfg.inputs m))) s) :=
    execArbitrateFixed_eq_next.2 ⟨st, hst, rfl⟩
  refine ⟨fun x hx hbit hleast => ?_, fun hnone => ?_⟩
  · have hwin : arbitrateFixed st.cfg.inputs (maskMembers st.cfg.inputs m) = some x :=
      arbitrateFixed_eq_some hx ((maskMembers_contains hx m).trans hbit) fun y hy =>
        (maskMembers_contains (hy.trans hx) m).trans (hleast y hy)
    rw [hrow, hwin, returned]
  · have hwin : arbitrateFixed st.cfg.inputs (maskMembers st.cfg.inputs m) = none :=
      arbitrate_eq_none (a := .fixedPriority) (head := st.rrHead) fun y hy =>
        (maskMembers_contains hy m).trans (hnone y hy)
    rw [hrow, hwin, returned]

/-- Settles O11: the row runs the arbiter from the stage's head on the masters that the mask names. -/
theorem roundRobinPicksFromTheHead : Obligations.RoundRobinPicksFromTheHead := by
  intro s p m st hst
  have hrow : exec (.arbitrateRr p m) s = .next (returned
      (.master (arbitrateRr st.cfg.inputs st.rrHead (maskMembers st.cfg.inputs m))) s) :=
    execArbitrateRr_eq_next.2 ⟨st, hst, rfl⟩
  refine ⟨fun k hk hbit hfirst => ?_, fun hnone => ?_⟩
  · have hmask : ∀ j, (maskMembers st.cfg.inputs m).contains ((st.rrHead + j) % st.cfg.inputs) =
        m.testBit ((st.rrHead + j) % st.cfg.inputs) :=
      fun j => maskMembers_contains (Nat.mod_lt _ (Nat.zero_lt_of_lt hk)) m
    have hwin : arbitrateRr st.cfg.inputs st.rrHead (maskMembers st.cfg.inputs m) =
        some ((st.rrHead + k) % st.cfg.inputs) :=
      rr_some hk ((hmask k).trans hbit) fun j hj => (hmask j).trans (hfirst j hj)
    rw [hrow, hwin, returned]
  · have hwin : arbitrateRr st.cfg.inputs st.rrHead (maskMembers st.cfg.inputs m) = none :=
      arbitrate_eq_none (a := .roundRobin) fun y hy =>
        (maskMembers_contains hy m).trans (hnone y hy)
    rw [hrow, hwin, returned]

/-- Settles O12: the winner is the head, which takes each value once in `n` rotations. -/
theorem roundRobinServesEveryMaster : Obligations.RoundRobinServesEveryMaster := by
  intro n head x hx
  have hwin : ∀ j, arbitrateRr n ((head + j) % n) (List.range n) = some ((head + j) % n) :=
    fun j => arbitrateRr_range (Nat.mod_lt _ (Nat.zero_lt_of_lt hx))
  obtain ⟨k, hk, hkx⟩ := exists_add_mod_eq head hx
  refine ⟨k, hk, by rw [hwin, hkx], fun j hj hjx => ?_⟩
  have hjx' : (head + j) % n = x := Option.some.inj ((hwin j).symm.trans hjx)
  exact eq_of_add_mod_eq hj hk (hjx'.trans hkx.symm)

/-! ### The inputs of a stage and its contenders -/

section Inputs

variable {inputs : List M2S} {x : Nat} {w : M2S}

theorem stageInput_of_getElem? (h : inputs[x]? = some w) : stageInput inputs x = w := by
  simp [stageInput, h]

/-- A port presents an address phase only where an input is connected. -/
theorem getElem?_of_stageInput_req (h : (stageInput inputs x).req ≠ none) :
    inputs[x]? = some (stageInput inputs x) := by
  cases hx : inputs[x]? with
  | none => simp [stageInput, hx, idleWires] at h
  | some w => rw [stageInput_of_getElem? hx]

theorem stageInput_req_eq_none (h : ∀ v, inputs[x]? = some v → v.req = none) :
    (stageInput inputs x).req = none := by
  by_contra hne
  exact hne (h _ (getElem?_of_stageInput_req hne))

/-- The contenders are the ports that present an address phase (R204). -/
theorem contenders_contains (inputs : List M2S) (x : Nat) :
    (contenders inputs.length inputs).contains x = (stageInput inputs x).req.isSome := by
  by_cases hx : x < inputs.length
  · simp [contenders, hx]
  · simp [contenders, hx, stageInput, idleWires]

theorem contenders_contains_of_req (hx : inputs[x]? = some w) (hw : w.req ≠ none) :
    (contenders inputs.length inputs).contains x = true := by
  rw [contenders_contains, stageInput_of_getElem? hx]
  exact Option.isSome_iff_ne_none.2 hw

theorem contenders_not_contains (h : ∀ v, inputs[x]? = some v → v.req = none) :
    (contenders inputs.length inputs).contains x = false := by
  rw [contenders_contains, stageInput_req_eq_none h, Option.isSome_none]

end Inputs

/-! ### The winner of a cycle -/

section Winner

variable {st : Stage} {inputs : List M2S} {x : Nat} {w : M2S}

/-- The winner's own check changes nothing for these two arbiters (R205). -/
theorem stageWinner_eq_arbitrate (st : Stage) (inputs : List M2S) :
    stageWinner st inputs = arbitrate st.cfg.arbiter st.cfg.inputs st.rrHead
      (contenders st.cfg.inputs inputs) := by
  simp only [stageWinner]
  cases hwin : arbitrate st.cfg.arbiter st.cfg.inputs st.rrHead (contenders st.cfg.inputs inputs) with
  | none => rfl
  | some x => rw [Option.filter_some, if_pos (contains_of_arbitrate hwin)]

/-- The least port that presents an address phase wins under `FixedPriority` (R206). -/
theorem stageWinner_fixedPriority (hlen : inputs.length = st.cfg.inputs)
    (ha : st.cfg.arbiter = .fixedPriority) (hx : inputs[x]? = some w) (hw : w.req ≠ none)
    (hleast : ∀ y v, y < x → inputs[y]? = some v → v.req = none) :
    stageWinner st inputs = some x := by
  obtain ⟨hlt, -⟩ := List.getElem?_eq_some_iff.1 hx
  rw [stageWinner_eq_arbitrate, ha, ← hlen]
  exact arbitrateFixed_eq_some hlt (contenders_contains_of_req hx hw)
    fun y hy => contenders_not_contains fun v => hleast y v hy

/-- The first port from the head on that presents an address phase wins under `RoundRobin` (R207). The
first one comes before the priority order repeats. -/
theorem stageWinner_roundRobin {k : Nat} (hlen : inputs.length = st.cfg.inputs)
    (ha : st.cfg.arbiter = .roundRobin) (hk : x = (st.rrHead + k) % st.cfg.inputs)
    (hx : inputs[x]? = some w) (hw : w.req ≠ none)
    (hfirst : ∀ j v, j < k → inputs[(st.rrHead + j) % st.cfg.inputs]? = some v → v.req = none) :
    stageWinner st inputs = some x := by
  obtain ⟨hlt, -⟩ := List.getElem?_eq_some_iff.1 hx
  rw [← hlen] at hk hfirst
  have hturn : k < inputs.length := by
    by_contra hge
    have hsame : (st.rrHead + (k - inputs.length)) % inputs.length = x := by
      rw [hk, ← Nat.add_mod_right (st.rrHead + (k - inputs.length))]
      congr 1
      omega
    exact hw (hfirst (k - inputs.length) w (by omega) (hsame ▸ hx))
  rw [stageWinner_eq_arbitrate, ha, ← hlen]
  subst hk
  exact rr_some hturn (contenders_contains_of_req hx hw)
    fun j hj => contenders_not_contains fun v => hfirst j v hj

theorem stageWinner_eq_none (hlen : inputs.length = st.cfg.inputs) (h : ∀ i ∈ inputs, i.req = none) :
    stageWinner st inputs = none := by
  rw [stageWinner_eq_arbitrate, ← hlen]
  exact arbitrate_eq_none fun y _ => contenders_not_contains fun v hv => h v (List.mem_of_getElem? hv)

/-- A winner presents an address phase (R205). -/
theorem req_of_stageWinner (hlen : inputs.length = st.cfg.inputs) (h : stageWinner st inputs = some x) :
    (stageInput inputs x).req ≠ none := by
  rw [stageWinner_eq_arbitrate, ← hlen] at h
  rw [← Option.isSome_iff_ne_none, ← contenders_contains]
  exact contains_of_arbitrate h

end Winner

/-! ### What the stage forwards -/

section Forwards

variable {st : Stage} {inputs : List M2S} {x : Nat} {w : M2S}

theorem stageDown_eq_ok (h : ∀ i ∈ inputs, ∀ t, i.req = some t → t.burst = .single) :
    stageDown st inputs = .ok (stageRoute st inputs) := by
  simp only [stageDown, mapE_of_ok (g := fun _ => ()) fun i hi => refuseBurst_of_single (h i hi)]

/-- The winner is forwarded, or after a wait-state denied if it does not own the data route (R208). -/
theorem stageRoute_of_winner (h : stageWinner st inputs = some x) :
    (stageRoute st inputs).w =
        (if st.lastCode = .pending ∧ (stageRoute st inputs).dr ≠ some x then none else some x) ∧
      (stageRoute st inputs).down.req =
        (if st.lastCode = .pending ∧ (stageRoute st inputs).dr ≠ some x then none
          else (stageInput inputs x).req) := by
  simp only [stageRoute, h, pipelineRule]
  split_ifs <;> simp

theorem stageRoute_of_no_winner (h : stageWinner st inputs = none) :
    (stageRoute st inputs).w = none ∧ (stageRoute st inputs).down.req = none := by
  simp [stageRoute, h, pipelineRule]

/-- Only the arbiter's winner is forwarded (R208). -/
theorem stageWinner_of_forwarded (h : (stageRoute st inputs).w = some x) :
    stageWinner st inputs = some x := by
  cases hwin : stageWinner st inputs with
  | none => simp [stageRoute_of_no_winner hwin] at h
  | some y =>
    rw [(stageRoute_of_winner hwin).1] at h
    split_ifs at h
    exact h

/-- The address phase on the slave's wires is the forwarded master's (R209). -/
theorem stageRoute_req_of_forwarded (h : (stageRoute st inputs).w = some x) :
    (stageRoute st inputs).down.req = (stageInput inputs x).req := by
  change (stageRoute st inputs).w.bind _ = _
  rw [h, Option.bind_some]

/-- A master granted before is committed, and takes the data route, when it is ready (R203, R209). -/
theorem stageRoute_of_addrRoute (ha : st.addrRoute = some x) (hx : inputs[x]? = some w) :
    (stageRoute st inputs).down.ready = w.ready ∧
      (stageRoute st inputs).dr = if w.ready then some x else st.dataRoute := by
  simp [stageRoute, stageReady, stageDataRoute, ha, stageInput_of_getElem? hx]

/-- With nobody granted before the data route stays, and `R` is the slave's own (R203, R209). -/
theorem stageRoute_of_no_addrRoute (ha : st.addrRoute = none) :
    (stageRoute st inputs).dr = st.dataRoute ∧
      (stageRoute st inputs).down.ready = readyCode st.lastCode := by
  simp [stageRoute, stageReady, stageDataRoute, ha]

/-- The data phase on the slave's wires is the data route owner's (R209). -/
theorem stageRoute_payload (st : Stage) (inputs : List M2S) :
    (stageRoute st inputs).down.payload =
      (stageRoute st inputs).dr.bind fun d => (stageInput inputs d).payload := rfl

end Forwards

/-- The two codes that end a data phase (R76). -/
theorem readyCode_eq_true_iff {c : Code} : readyCode c = true ↔ c = .success ∨ c = .error2 := by
  cases c <;> decide

/-- The two codes that hold a data phase (R76). -/
theorem readyCode_eq_false_iff {c : Code} : readyCode c = false ↔ c = .pending ∨ c = .error1 := by
  cases c <;> decide

/-- Settles O32: the winner under each policy, then the slave's wires field by field. -/
theorem stageForwardsTheWinner : Obligations.StageForwardsTheWinner := by
  intro st inputs hburst hlen
  refine ⟨stageRoute st inputs, stageDown_eq_ok hburst, ?fixed, ?rr, ?nobody, ?forwarded, ?committed,
    ?noGrant, ?payload, ?noPayload⟩
  case fixed =>
    intro ha x w t hx hw hleast
    have hwin := stageWinner_fixedPriority hlen ha hx (by simp [hw]) hleast
    have hreq : (stageInput inputs x).req = some t := by rw [stageInput_of_getElem? hx, hw]
    exact hreq ▸ stageRoute_of_winner hwin
  case rr =>
    intro ha k x w t hk hx hw hfirst
    have hwin := stageWinner_roundRobin hlen ha hk hx (by simp [hw]) hfirst
    have hreq : (stageInput inputs x).req = some t := by rw [stageInput_of_getElem? hx, hw]
    exact hreq ▸ stageRoute_of_winner hwin
  case nobody => exact fun h => stageRoute_of_no_winner (stageWinner_eq_none hlen h)
  case forwarded =>
    intro x h
    have hreq := req_of_stageWinner hlen (stageWinner_of_forwarded h)
    exact ⟨_, getElem?_of_stageInput_req hreq, hreq, stageRoute_req_of_forwarded h⟩
  case committed => exact fun x w ha hx => stageRoute_of_addrRoute ha hx
  case noGrant =>
    intro ha
    obtain ⟨hdr, hready⟩ := stageRoute_of_no_addrRoute (inputs := inputs) ha
    exact ⟨hdr, by rw [hready, readyCode_eq_true_iff]⟩
  case payload =>
    intro x w hdr hx
    rw [stageRoute_payload, hdr, Option.bind_some, stageInput_of_getElem? hx]
  case noPayload =>
    intro hdr
    rw [stageRoute_payload, hdr, Option.bind_none]

/-! ### What the stage answers its ports -/

section Reply

variable {r : StageRoute} {inputs : List M2S} {resp : S2M} {x : Nat}

theorem stageReply_grant (r : StageRoute) (inputs : List M2S) (resp : S2M) (x : Nat) :
    (stageReply r inputs resp x).grant =
      grantWireOf (stageInput inputs x).req.isSome (r.w == some x) resp.code := by
  unfold stageReply
  split <;> rfl

theorem stageReply_of_owner (h : r.dr = some x) :
    (stageReply r inputs resp x).code = resp.code ∧ (stageReply r inputs resp x).data = resp.data := by
  simp [stageReply, h]

theorem stageReply_of_not_owner (h : r.dr ≠ some x) :
    (stageReply r inputs resp x).code = .success ∧ (stageReply r inputs resp x).data = none := by
  simp [stageReply, h]

end Reply

/-- Settles O33: the grant wire of the port, then the routing of the response. -/
theorem stageAnswersItsPorts : Obligations.StageAnswersItsPorts := by
  intro r inputs resp x w hx
  have hgrant := stageReply_grant r inputs resp x
  rw [stageInput_of_getElem? hx] at hgrant
  refine ⟨fun hw => ?_, fun hw => ?_, stageReply_of_owner, stageReply_of_not_owner⟩
  · simp [hgrant, grantWireOf, hw]
  · simp [hgrant, grantWireOf, Option.isSome_iff_ne_none.2 hw, readyCode_eq_true_iff]

/-! ### The next state -/

section Next

variable {st : Stage} {r : StageRoute} {code : Code}

theorem stageGranted_iff : stageGranted r code = true ↔ r.w ≠ none ∧ readyCode code = true := by
  simp [stageGranted, Option.isSome_iff_ne_none]

/-- The address route of the next cycle: the forwarded master where the slave is ready (R212). -/
theorem stageNext_addrRoute (st : Stage) (r : StageRoute) (code : Code) :
    (stageNext st r code).addrRoute = if readyCode code then r.w else none := by
  cases hw : r.w <;> simp [stageNext, stageGranted, hw]

theorem stageNext_rrHead_of_grant (ha : st.cfg.arbiter = .roundRobin) (hg : stageGranted r code = true) :
    (stageNext st r code).rrHead = (st.rrHead + 1) % st.cfg.inputs :=
  if_pos ⟨ha, hg⟩

theorem stageNext_rrHead_of_not (h : ¬ (st.cfg.arbiter = .roundRobin ∧ stageGranted r code = true)) :
    (stageNext st r code).rrHead = st.rrHead :=
  if_neg h

end Next

/-- Settles O34, flop by flop: the head moves exactly where `granted` holds under `RoundRobin`. -/
theorem stageNextState : Obligations.StageNextState := by
  intro st r code
  refine ⟨rfl, rfl, rfl, fun hready => ?_, fun hwait => ?_, fun ha hw hready => ?_, fun h => ?_⟩
  · rw [stageNext_addrRoute, if_pos (readyCode_eq_true_iff.2 hready)]
  · simp [stageNext_addrRoute, readyCode_eq_false_iff.2 hwait]
  · exact stageNext_rrHead_of_grant ha (stageGranted_iff.2 ⟨hw, readyCode_eq_true_iff.2 hready⟩)
  · refine stageNext_rrHead_of_not fun ⟨ha, hg⟩ => ?_
    obtain ⟨hw, hready⟩ := stageGranted_iff.1 hg
    obtain hfixed | hnone | hwait := h
    · simp [hfixed] at ha
    · exact hw hnone
    · simp [readyCode_eq_false_iff.2 hwait] at hready

end Sys2Proof.Proofs
end

section
/-! The greedy rule of the chunk list (R232) and what it gives of the slices of a payload (R234, R242). The
obligations O8 and O35. -/

namespace Sys2Proof.Proofs

open Sys2Proof Sys2Proof.Machine

/-! ### The greedy rule -/

/-- The three sizes of a chunk, each with what rules out the larger ones (R232). -/
theorem chunkAt_cases (a left : Nat) :
    (chunkAt a left = 4 ∧ 4 ≤ left ∧ a % 4 = 0) ∨
    (chunkAt a left = 2 ∧ 2 ≤ left ∧ a % 2 = 0 ∧ ¬ (4 ≤ left ∧ a % 4 = 0)) ∨
    (chunkAt a left = 1 ∧ ¬ (2 ≤ left ∧ a % 2 = 0)) := by
  unfold chunkAt
  split_ifs with h4 h2
  · exact .inl ⟨rfl, h4⟩
  · exact .inr (.inl ⟨rfl, h2.1, h2.2, h4⟩)
  · exact .inr (.inr ⟨rfl, h2⟩)

/-- The chunks from an offset on are greedy up to the end of what remains (R232). -/
theorem greedy_chunksFrom {fuel a o left : Nat} (h : left ≤ fuel) :
    Greedy a (o + left) o (chunksFrom fuel a o left) := by
  induction fuel generalizing o left with
  | zero =>
    obtain rfl : left = 0 := Nat.le_zero.1 h
    rfl
  | succ fuel ih =>
    rw [chunksFrom]
    split_ifs with hleft
    · exact hleft ▸ rfl
    · have hcases := chunkAt_cases (a + o) left
      generalize chunkAt (a + o) left = k at hcases ⊢
      have hrest := ih (o := o + k) (left := left - k) (by omega)
      rw [show o + k + (left - k) = o + left by omega] at hrest
      refine ⟨rfl, by omega, ?aligned, by omega, ?largest, hrest⟩
      case aligned =>
        obtain ⟨rfl, -, ha⟩ | ⟨rfl, -, ha, -⟩ | ⟨rfl, -⟩ := hcases
        · exact ha
        · exact ha
        · exact Nat.mod_one _
      case largest =>
        intro j hj hfits haligned
        fin_cases hj <;> omega

theorem greedy_splitChunks (t : TransferMeta) :
    Greedy t.addr.toNat t.size.bytes 0 (splitChunks t) := by
  have h := greedy_chunksFrom (a := t.addr.toNat) (o := 0) (Nat.le_refl t.size.bytes)
  rwa [Nat.zero_add] at h

/-- A transfer needs the aligner when its address is not a multiple of its size (R231). -/
theorem needsAligner_iff {t : TransferMeta} :
    needsAligner t = true ↔ t.addr.toNat % t.size.bytes ≠ 0 := by
  simp [needsAligner, xferBytes]

theorem exec_split (t : TransferMeta) (s : State) :
    exec (.split t) s = .next (returned (.chunks (splitChunks t)) s) := rfl

/-- Settles O8: the model's list is greedy by induction on its fuel, and of an unaligned transfer it is one
of three lists. -/
theorem splitTilesTheTransfer : Obligations.SplitTilesTheTransfer := by
  refine fun s t => ⟨splitChunks t, exec_split t s, greedy_splitChunks t, fun h => ?_⟩
  obtain ⟨-, hl⟩ | ⟨-, hl⟩ | ⟨-, hl⟩ := splitChunks_cases t (needsAligner_iff.2 h) <;> simp [hl]

/-! ### What a greedy list is like -/

section Greedy

variable {a n o : Nat} {l : List (Nat × Nat)}

/-- A chunk lies between the ends of the list. -/
theorem greedy_mem_bounds (h : Greedy a n o l) {c : Nat × Nat} (hc : c ∈ l) :
    o ≤ c.1 ∧ c.1 + c.2 ≤ n := by
  induction l generalizing o with
  | nil => cases hc
  | cons b l ih =>
    obtain ⟨rfl, hfits, -, -, -, hl⟩ := h
    obtain rfl | hc := List.mem_cons.1 hc
    · exact ⟨Nat.le_refl _, hfits⟩
    · have := ih hl hc
      omega

/-- A chunk has the size of a transfer. -/
theorem greedy_mem_size (h : Greedy a n o l) {c : Nat × Nat} (hc : c ∈ l) :
    c.2 = 1 ∨ c.2 = 2 ∨ c.2 = 4 := by
  induction l generalizing o with
  | nil => cases hc
  | cons b l ih =>
    obtain ⟨-, -, -, hsize, -, hl⟩ := h
    obtain rfl | hc := List.mem_cons.1 hc
    · exact hsize
    · exact ih hl hc

/-- A chunk ends before the later ones begin. -/
theorem greedy_pairwise (h : Greedy a n o l) : l.Pairwise fun c c' => c.1 + c.2 ≤ c'.1 := by
  induction l generalizing o with
  | nil => exact .nil
  | cons b l ih =>
    obtain ⟨rfl, -, -, -, -, hl⟩ := h
    exact .cons (fun c hc => (greedy_mem_bounds hl hc).1) (ih hl)

end Greedy

/-! ### Slices -/

theorem length_sliceData {d : Data} {c : Nat × Nat} (h : c.1 + c.2 ≤ d.length) :
    (sliceData d c).length = c.2 := by
  simp [sliceData]; omega

/-- A slice of everything. -/
theorem sliceData_all {d : Data} {n : Nat} (h : d.length ≤ n) : sliceData d (0, n) = d := by
  simp [sliceData, h]

/-- Putting everything leaves nothing of the composite. -/
theorem putData_all {acc x : Data} {n : Nat} (h : acc.length ≤ n) : putData acc (0, n) x = x := by
  simp [putData, h]

/-- The slice that was put. -/
theorem sliceData_putData_same {acc x : Data} {c : Nat × Nat} (h : c.1 ≤ acc.length)
    (hx : x.length = c.2) : sliceData (putData acc c x) c = x := by
  have hlen : (acc.take c.1).length = c.1 := List.length_take_of_le h
  rw [sliceData, putData, List.append_assoc, List.drop_left' hlen, List.take_left' hx]

theorem take_putData {acc x : Data} {c : Nat × Nat} {k : Nat} (h : c.1 ≤ acc.length) (hk : k ≤ c.1) :
    (putData acc c x).take k = acc.take k := by
  have hlen : (acc.take c.1).length = c.1 := List.length_take_of_le h
  rw [putData, List.append_assoc, List.take_append_of_le_length (hlen.symm ▸ hk), List.take_take,
    Nat.min_eq_left hk]

theorem sliceData_eq_drop_take (d : Data) (c : Nat × Nat) :
    sliceData d c = (d.take (c.1 + c.2)).drop c.1 := by
  simp [sliceData, List.drop_take]

/-- A slice before the one that was put. -/
theorem sliceData_putData_before {acc x : Data} {c c' : Nat × Nat} (h : c.1 ≤ acc.length)
    (hc : c'.1 + c'.2 ≤ c.1) : sliceData (putData acc c x) c' = sliceData acc c' := by
  rw [sliceData_eq_drop_take, sliceData_eq_drop_take, take_putData h hc]

/-- Slices put back from offset `o` on give the payload, if the composite agrees with it up to `o`. -/
theorem foldl_putData_slices {a n o : Nat} {l : List (Nat × Nat)} (hl : Greedy a n o l) {d acc : Data}
    (hd : d.length = n) (hacc : acc.length = n) (h : acc.take o = d.take o) :
    l.foldl (fun x c => putData x c (sliceData d c)) acc = d := by
  induction l generalizing o acc with
  | nil =>
    obtain rfl : o = n := hl
    rwa [← hd, List.take_length, hd, ← hacc, List.take_length] at h
  | cons c l ih =>
    obtain ⟨rfl, hfits, -, -, -, hl⟩ := hl
    have hslice : (sliceData d c).length = c.2 := length_sliceData (hd ▸ hfits)
    refine ih hl ((putData_length (hacc ▸ hfits) hslice).trans hacc) ?_
    have htake : (acc.take c.1 ++ sliceData d c).length = c.1 + c.2 := by simp [hslice]; omega
    simp only [putData]
    rw [List.take_left' htake, h, sliceData, List.take_add]

/-- Settles O35: the chunks are greedy from offset 0, where nothing has to agree yet. -/
theorem slicesReassemble : Obligations.SlicesReassemble := by
  intro t d acc hd hacc
  have hl := greedy_splitChunks t
  exact ⟨foldl_putData_slices hl hd hacc (by simp), fun c hc =>
    length_sliceData (hd ▸ (greedy_mem_bounds hl hc).2)⟩

end Sys2Proof.Proofs
end

section
/-! The cycle of an Aligner under either policy (R235 to R239): what it presents downstream, what it answers
upstream, and its record after it. The obligation O37. -/

namespace Sys2Proof.Proofs

open Sys2Proof Sys2Proof.Machine

/-! ### The pieces of a cycle -/

section Pieces

variable {pol : AlignPolicy} {al : Aligner} {s : Split} {dc : Code} {dg : Bool} {up : M2S}

theorem needsAligner_eq_false_iff {t : TransferMeta} :
    needsAligner t = false ↔ t.addr.toNat % t.size.bytes = 0 := by
  rw [← Bool.not_eq_true, needsAligner_iff, not_not]

theorem alOwn_some :
    alOwn pol ⟨some s, dc, dg⟩ = decide (s.next < subCount pol s.xfer) := rfl

theorem alReq_own (h : s.next < subCount pol s.xfer) :
    alReq pol ⟨some s, dc, dg⟩ up = some (subAt pol s.xfer s.next) := by
  simp [alReq, alOwn_some, h]

theorem alReq_front (h : subCount pol s.xfer ≤ s.next) :
    alReq pol ⟨some s, dc, dg⟩ up = alFront pol up.req := by
  simp [alReq, alOwn_some, h]

theorem alPayload_silent (h : s.cur = none ∨ s.xfer.dir = .read) :
    alPayload pol ⟨some s, dc, dg⟩ up = .ok none := by
  cases hcur : s.cur <;> cases hdir : s.xfer.dir <;> simp_all [alPayload]

theorem alPayload_write {i : Nat} {p : Data} (hcur : s.cur = some i) (hdir : s.xfer.dir = .write)
    (hp : up.payload = some p) :
    alPayload pol ⟨some s, dc, dg⟩ up =
      .ok (some (sliceData (wireWrite pol s.xfer p) (chunkOf pol s.xfer i))) := by
  simp [alPayload, hcur, hdir, hp]

theorem alPayload_missing (hcur : s.cur ≠ none) (hdir : s.xfer.dir = .write) (hp : up.payload = none) :
    alPayload pol ⟨some s, dc, dg⟩ up = .error .missingWriteData := by
  obtain ⟨i, hi⟩ := Option.ne_none_iff_exists'.1 hcur
  simp [alPayload, hi, hdir, hp]

/-- The downstream pass sends what the pieces give, if the request is no burst (R235, R80). -/
theorem alDown_of_single (h : ∀ x, up.req = some x → x.burst = .single) :
    alDown pol al up = (alPayload pol al up).map fun p =>
      ⟨alReq pol al up, (al.dnCode == .success || al.dnCode == .error2) && al.dnGrant, p⟩ := by
  rw [alDown, refuseBurst_of_single h, readyFlag, readyCode_eq]
  cases alPayload pol al up <;> rfl

/-- The record of a new split is made when the address phase is accepted and no sub-transfer of the
Aligner's own stood in its place (R238). -/
theorem alFresh_eq (pol : AlignPolicy) (al : Aligner) (up : M2S) (code : Code) (g : Bool) :
    alFresh pol al up code g =
      if (!alOwn pol al && readyCode code) = true then splitBegun up.req g else none := by
  unfold alFresh splitBegun
  cases up.req with
  | none => simp
  | some t => simp [acceptedBy, needsAligner_iff, xferBytes, ite_and, and_assoc]

end Pieces

/-! ### The answer upstream -/

section Answer

variable {pol : AlignPolicy} {s : Split} {i : Nat} {dc : Code} {dg g : Bool} {d : Option Data}

/-- A wait and both error cycles go up as they come, without data (R237). -/
theorem alAnswer_of_ne_success {code : Code} (hcur : s.cur = some i) (hcode : code ≠ .success) :
    alAnswer pol ⟨some s, dc, dg⟩ ⟨code, d, g⟩ = .ok ⟨code, none, s.acc⟩ := by
  cases code with
  | success => exact absurd rfl hcode
  | _ => simp [alAnswer, hcur]

/-- `Success` for a sub-transfer: what it adds to the composite decides (R237). -/
theorem alAnswer_success (hcur : s.cur = some i) :
    alAnswer pol ⟨some s, dc, dg⟩ ⟨.success, d, g⟩ =
      (alAccumulate pol s i d).map (alChunkDone pol s i) := by
  simp only [alAnswer, hcur]
  cases alAccumulate pol s i d <;> rfl

/-- With no sub-transfer in data phase the master waits (R237). -/
theorem alAnswer_untaken (hcur : s.cur = none) :
    alAnswer pol ⟨some s, dc, dg⟩ ⟨.success, d, g⟩ = .ok ⟨.pending, none, s.acc⟩ := by
  simp [alAnswer, hcur]

theorem alAccumulate_write (h : s.xfer.dir = .write) : alAccumulate pol s i d = .ok s.acc := by
  simp [alAccumulate, h]

theorem alAccumulate_read {x : Data} (h : s.xfer.dir = .read)
    (hx : x.length = (chunkOf pol s.xfer i).2) :
    alAccumulate pol s i (some x) = .ok (putData s.acc (chunkOf pol s.xfer i) x) := by
  simp [alAccumulate, h, hx]

theorem alAccumulate_badWidth (h : s.xfer.dir = .read)
    (hd : ∀ x, d = some x → x.length ≠ (chunkOf pol s.xfer i).2) :
    alAccumulate pol s i d = .error .badReadWidth := by
  cases d with
  | none => simp [alAccumulate, h]
  | some x => simp [alAccumulate, h, hd x rfl]

theorem alChunkDone_of_more {acc : Data} (h : i + 1 < subCount pol s.xfer) :
    alChunkDone pol s i acc = ⟨.pending, none, acc⟩ :=
  if_neg (Nat.ne_of_lt h)

theorem alChunkDone_of_last {acc : Data} (h : i + 1 = subCount pol s.xfer) :
    alChunkDone pol s i acc =
      ⟨.success, if s.xfer.dir = .read then some (splitResult pol s.xfer acc) else none, acc⟩ :=
  if_pos h

end Answer

/-! ### The record after the cycle -/

section Record

variable {pol : AlignPolicy} {al : Aligner} {s : Split} {dc : Code} {dg : Bool} {up : M2S} {dn : S2M}
  {a : AlignAnswer} {acc : Data}

/-- What is not ready takes nothing; after `Error1` there is nothing left to present (R238, R239). -/
theorem alContinue_of_not_ready (h : readyCode dn.code = false) :
    alContinue pol ⟨some s, dc, dg⟩ s dn acc =
      { s with acc := acc, next := if dn.code = .error1 then subCount pol s.xfer else s.next } := by
  simp [alContinue, acceptedBy, h]

/-- After `Success` the next sub-transfer is in data phase, or nothing is (R238). -/
theorem alContinue_of_success (h : dn.code = .success) :
    alContinue pol ⟨some s, dc, dg⟩ s dn acc =
      if (decide (s.next < subCount pol s.xfer) && dn.grant) = true then
        { s with acc := acc, cur := some s.next, next := s.next + 1 }
      else { s with acc := acc, cur := none } := by
  have htaken : acceptedBy (alOwn pol ⟨some s, dc, dg⟩) .success dn.grant =
      (decide (s.next < subCount pol s.xfer) && dn.grant) := by
    simp [acceptedBy, alOwn_some]
  simp only [alContinue, h, htaken]
  cases decide (s.next < subCount pol s.xfer) && dn.grant <;> rfl

/-- A ready answer upstream ends the split, and the next one begins unless a sub-transfer of the
Aligner's own stood in its place (R238). -/
theorem alUp_of_ready (ha : alAnswer pol al dn = .ok a) (h : readyCode a.code = true) :
    alUp pol al up dn = .ok (⟨a.code, a.data, alOwn pol al || dn.grant⟩,
      ⟨if alOwn pol al = true then none else splitBegun up.req dn.grant, dn.code, dn.grant⟩) := by
  have hnext : alNext pol al up dn a = alFresh pol al up a.code dn.grant := by
    cases hal : al.split <;> simp [alNext, hal, h]
  simp only [alUp, ha, hnext, alFresh_eq, h]
  cases alOwn pol al <;> rfl

/-- Any other answer keeps the split (R238). -/
theorem alUp_of_not_ready (ha : alAnswer pol ⟨some s, dc, dg⟩ dn = .ok a)
    (h : readyCode a.code = false) :
    alUp pol ⟨some s, dc, dg⟩ up dn =
      .ok (⟨a.code, a.data, decide (s.next < subCount pol s.xfer) || dn.grant⟩,
        ⟨some (alContinue pol ⟨some s, dc, dg⟩ s dn a.acc), dn.code, dn.grant⟩) := by
  simp [alUp, ha, alNext, h, alOwn_some]

theorem alUp_of_fault {e : Fault} (ha : alAnswer pol al dn = .error e) :
    alUp pol al up dn = .error e := by
  rw [alUp, ha]

end Record

/-! ### The upstream pass -/

section Upstream

variable {pol : AlignPolicy} {s : Split} {t : TransferMeta} {i : Nat} {acc acc' : Data} {dc : Code}
  {dg g : Bool} {up : M2S} {d : Option Data}

/-- With no split in progress the response passes (R237, R243). -/
theorem alUp_none {al : Aligner} (h : al.split = none) (dn : S2M) :
    alUp pol al up dn =
      .ok (dn, ⟨if readyCode dn.code = true then splitBegun up.req dn.grant else none,
        dn.code, dn.grant⟩) := by
  simp [alUp, alAnswer, alNext, alFresh_eq, alOwn, h]

/-- A wait keeps the record (R238). -/
theorem alUp_pending (hcur : s.cur = some i) :
    alUp pol ⟨some s, dc, dg⟩ up ⟨.pending, d, g⟩ =
      .ok (⟨.pending, none, decide (s.next < subCount pol s.xfer) || g⟩, ⟨some s, .pending, g⟩) := by
  rw [alUp_of_not_ready (alAnswer_of_ne_success hcur (by decide)) rfl, alContinue_of_not_ready rfl]
  rfl

/-- After `Error1` no sub-transfer is left to present (R239). -/
theorem alUp_error1 (hcur : s.cur = some i) :
    alUp pol ⟨some s, dc, dg⟩ up ⟨.error1, d, g⟩ =
      .ok (⟨.error1, none, decide (s.next < subCount pol s.xfer) || g⟩,
        ⟨some { s with next := subCount pol s.xfer }, .error1, g⟩) := by
  rw [alUp_of_not_ready (alAnswer_of_ne_success hcur (by decide)) rfl, alContinue_of_not_ready rfl]
  rfl

/-- `Error2` ends the split (R239). -/
theorem alUp_error2 (hcur : s.cur = some i) :
    alUp pol ⟨some s, dc, dg⟩ up ⟨.error2, d, g⟩ =
      .ok (⟨.error2, none, decide (s.next < subCount pol s.xfer) || g⟩,
        ⟨if decide (s.next < subCount pol s.xfer) = true then none else splitBegun up.req g,
          .error2, g⟩) := by
  rw [alUp_of_ready (alAnswer_of_ne_success hcur (by decide)) rfl, alOwn_some]

/-- With no sub-transfer in data phase the next one is taken when it is granted (R238). -/
theorem alUp_untaken (hcur : s.cur = none) :
    alUp pol ⟨some s, dc, dg⟩ up ⟨.success, d, g⟩ =
      .ok (⟨.pending, none, decide (s.next < subCount pol s.xfer) || g⟩,
        ⟨some (if (decide (s.next < subCount pol s.xfer) && g) = true then
          { s with cur := some s.next, next := s.next + 1 } else s), .success, g⟩) := by
  rw [alUp_of_not_ready (alAnswer_untaken hcur) rfl, alContinue_of_success rfl, ← hcur]

/-- With no sub-transfer in data phase nothing but `Success` may arrive (R237). -/
theorem alUp_untaken_fault {code : Code} (hcur : s.cur = none) (hcode : code ≠ .success) :
    alUp pol ⟨some s, dc, dg⟩ up ⟨code, d, g⟩ = .error .responseWithoutTransfer :=
  alUp_of_fault (by simp [alAnswer, hcur, hcode])

/-- `Success` for a sub-transfer that is not the last (R237, R238). -/
theorem alUp_chunk (hi : i + 1 < subCount pol t)
    (hacc : alAccumulate pol ⟨t, i + 1, some i, acc⟩ i d = .ok acc') :
    alUp pol ⟨some ⟨t, i + 1, some i, acc⟩, dc, dg⟩ up ⟨.success, d, g⟩ =
      .ok (⟨.pending, none, true⟩,
        ⟨some (if g then ⟨t, i + 2, some (i + 1), acc'⟩ else ⟨t, i + 1, none, acc'⟩), .success, g⟩) := by
  have ha : alAnswer pol ⟨some ⟨t, i + 1, some i, acc⟩, dc, dg⟩ ⟨.success, d, g⟩ =
      .ok ⟨.pending, none, acc'⟩ := by
    rw [alAnswer_success rfl, hacc, ← alChunkDone_of_more (s := ⟨t, i + 1, some i, acc⟩) hi]
    rfl
  rw [alUp_of_not_ready ha rfl, alContinue_of_success rfl, decide_eq_true hi]
  simp

/-- `Success` for the last sub-transfer (R237, R238). -/
theorem alUp_last (hi : i + 1 = subCount pol t)
    (hacc : alAccumulate pol ⟨t, i + 1, some i, acc⟩ i d = .ok acc') :
    alUp pol ⟨some ⟨t, i + 1, some i, acc⟩, dc, dg⟩ up ⟨.success, d, g⟩ =
      .ok (⟨.success, if t.dir = .read then some (splitResult pol t acc') else none, g⟩,
        ⟨splitBegun up.req g, .success, g⟩) := by
  have ha := alAnswer_success (dc := dc) (dg := dg) (g := g) (pol := pol)
    (s := ⟨t, i + 1, some i, acc⟩) (d := d) rfl
  rw [hacc, Except.map, alChunkDone_of_last hi] at ha
  have hown : alOwn pol ⟨some ⟨t, i + 1, some i, acc⟩, dc, dg⟩ = false := by simp [alOwn_some, hi]
  rw [alUp_of_ready ha rfl, hown]
  rfl

/-- Read data of another length than the sub-transfer's (R237). -/
theorem alUp_badWidth (hcur : s.cur = some i) (hdir : s.xfer.dir = .read)
    (hd : ∀ x, d = some x → x.length ≠ (chunkOf pol s.xfer i).2) :
    alUp pol ⟨some s, dc, dg⟩ up ⟨.success, d, g⟩ = .error .badReadWidth :=
  alUp_of_fault (by rw [alAnswer_success hcur, alAccumulate_badWidth hdir hd]; rfl)

end Upstream

/-! ### What passes unchanged -/

/-- An idle or aligned address phase stands downstream for itself (R235, R241). -/
theorem alFront_of_aligned {pol : AlignPolicy} {req : Option TransferMeta}
    (h : ∀ t, req = some t → t.addr.toNat % t.size.bytes = 0) : alFront pol req = req := by
  cases req with
  | none => rfl
  | some t => simp [alFront, needsAligner_eq_false_iff.2 (h t rfl)]

theorem splitBegun_of_aligned {req : Option TransferMeta} {g : Bool}
    (h : ∀ t, req = some t → t.addr.toNat % t.size.bytes = 0) : splitBegun req g = none := by
  cases req with
  | none => rfl
  | some t => simp [splitBegun, h t rfl]

/-- With no split in progress the front of the Aligner stands downstream, and the data phase passes
(R235, R243). -/
theorem alDown_none {pol : AlignPolicy} {al : Aligner} {up : M2S} (hal : al.split = none)
    (h : ∀ x, up.req = some x → x.burst = .single) :
    alDown pol al up = .ok ⟨alFront pol up.req,
      (al.dnCode == .success || al.dnCode == .error2) && al.dnGrant, up.payload⟩ := by
  rw [alDown_of_single h]
  simp [alPayload, alReq, hal, Except.map]

/-- Settles O37: the front of an aligned address phase is itself, and it begins no split. -/
theorem alignedPassesTheAligner : Obligations.AlignedPassesTheAligner := by
  intro pol al up dn hal hreq hready
  have haligned : ∀ t, up.req = some t → t.addr.toNat % t.size.bytes = 0 := fun t ht => (hreq t ht).2
  constructor
  · rw [alDown_none hal fun t ht => (hreq t ht).1, alFront_of_aligned haligned, ← readyCode_eq, ← hready]
  · rw [alUp_none hal, splitBegun_of_aligned haligned, ite_self]

end Sys2Proof.Proofs
end

section
/-! The Aligner under `Split` (R235 to R240): the sub-transfers it presents, and the composite that the
slices of a read add up to. The obligation O36. -/

namespace Sys2Proof.Proofs

open Sys2Proof Sys2Proof.Machine

/-! ### What stands downstream -/

section Downstream

variable {t : TransferMeta} {i : Nat} {c : Nat × Nat}

theorem chunkOf_split (h : (splitChunks t)[i]? = some c) : chunkOf .split t i = c := by
  simp [chunkOf, policyChunks, h]

theorem sizeOf_bytes {n : Nat} (h : n = 1 ∨ n = 2 ∨ n = 4) : (Machine.sizeOf n).bytes = n := by
  obtain rfl | rfl | rfl := h <;> rfl

/-- A sub-transfer is that of its chunk (R233). -/
theorem isChunkOf_subAt (h : (splitChunks t)[i]? = some c) : IsChunkOf t c (subAt .split t i) := by
  have hsize := greedy_mem_size (greedy_splitChunks t) (List.mem_of_getElem? h)
  rw [subAt, chunkOf_split h]
  exact ⟨rfl, rfl, sizeOf_bytes hsize, rfl, rfl⟩

/-- The front of the Aligner stands for the address phase (R235). -/
theorem standsFor_alFront (req : Option TransferMeta) : StandsFor req (alFront .split req) := by
  cases req with
  | none => rfl
  | some t =>
    simp only [StandsFor, alFront, Option.map_some]
    split_ifs with haligned hneeds hneeds
    · exact absurd haligned (needsAligner_iff.1 hneeds)
    · rfl
    · have hfirst := List.getElem?_eq_getElem (subCount_pos .split t)
      exact ⟨_, _, hfirst, isChunkOf_subAt hfirst, rfl⟩
    · exact absurd (needsAligner_iff.2 haligned) hneeds

end Downstream

/-! ### The composite -/

section Composite

variable {t : TransferMeta} {acc d : Data} {i : Nat} {c : Nat × Nat}

/-- A composite with every slice of the payload is the payload (R234, R242). -/
theorem eq_of_slices_eq (hacc : acc.length = t.size.bytes) (hd : d.length = t.size.bytes)
    (h : ∀ c ∈ splitChunks t, sliceData acc c = sliceData d c) : acc = d :=
  calc acc
    _ = (splitChunks t).foldl (fun x c => putData x c (sliceData acc c)) acc :=
        (slicesReassemble t acc acc hacc hacc).1.symm
    _ = (splitChunks t).foldl (fun x c => putData x c (sliceData d c)) acc :=
        List.foldl_ext _ _ _ fun x c hc => by rw [h c hc]
    _ = d := (slicesReassemble t d acc hd hacc).1

/-- Putting a chunk's slice keeps the slices before it and adds its own (R234). -/
theorem slices_putData (hacc : acc.length = t.size.bytes) (hd : d.length = t.size.bytes)
    (hc : (splitChunks t)[i]? = some c)
    (h : ∀ j < i, ∀ c', (splitChunks t)[j]? = some c' → sliceData acc c' = sliceData d c') :
    ∀ j ≤ i, ∀ c', (splitChunks t)[j]? = some c' →
      sliceData (putData acc c (sliceData d c)) c' = sliceData d c' := by
  intro j hj c' hc'
  have hl := greedy_splitChunks t
  have hfits := (greedy_mem_bounds hl (List.mem_of_getElem? hc)).2
  have hin : c.1 ≤ acc.length := by omega
  obtain hlt | rfl := Nat.lt_or_eq_of_le hj
  · have hbefore : c'.1 + c'.2 ≤ c.1 := by
      obtain ⟨hj', rfl⟩ := List.getElem?_eq_some_iff.1 hc'
      obtain ⟨hi', rfl⟩ := List.getElem?_eq_some_iff.1 hc
      exact List.pairwise_iff_getElem.1 (greedy_pairwise hl) _ _ hj' hi' hlt
    rw [sliceData_putData_before hin hbefore, h j hlt c' hc']
  · obtain rfl : c = c' := Option.some.inj (hc.symm.trans hc')
    exact sliceData_putData_same hin (length_sliceData (hd ▸ hfits))

end Composite

/-! ### From the first chunk to the last -/

/-- Settles O36: reads chunk by chunk, writes chunk by chunk, the downstream pass with and without a
split in progress, and the responses other than a chunk's `Success`. -/
theorem splitReadReassembles : Obligations.SplitReadReassembles := by
  refine ⟨?reads, ?writes, ?down, ?idle, ?others⟩
  case reads =>
    intro t d acc i up dc dg g hdir hd hacc _ hbefore c hc
    have hfits := (greedy_mem_bounds (greedy_splitChunks t) (List.mem_of_getElem? hc)).2
    have hlen : (sliceData d c).length = c.2 := length_sliceData (hd ▸ hfits)
    have hput : alAccumulate .split ⟨t, i + 1, some i, acc⟩ i (some (sliceData d c)) =
        .ok (putData acc c (sliceData d c)) := by
      have hchunk := chunkOf_split hc
      rw [alAccumulate_read hdir (by rw [hchunk, hlen]), hchunk]
    have hacc' := (putData_length (hacc ▸ hfits) hlen).trans hacc
    have hslices := slices_putData hacc hd hc hbefore
    have hwidth : ∀ y : Option Data, (∀ x, y = some x → x.length ≠ c.2) →
        alUp .split ⟨some ⟨t, i + 1, some i, acc⟩, dc, dg⟩ up ⟨.success, y, g⟩ =
          .error .badReadWidth :=
      fun y hy => alUp_badWidth rfl hdir (by rwa [chunkOf_split hc])
    obtain hmore | hlast := Nat.lt_or_eq_of_le (List.getElem?_eq_some_iff.1 hc).1
    · exact ⟨_, alUp_chunk hmore hput,
        fun _ => ⟨rfl, _, hacc', hslices, rfl⟩, fun h => absurd h (Nat.ne_of_lt hmore), hwidth⟩
    · have hall : putData acc c (sliceData d c) = d := eq_of_slices_eq hacc' hd fun c' hc' => by
        obtain ⟨j, hj⟩ := List.getElem?_of_mem hc'
        have := (List.getElem?_eq_some_iff.1 hj).1
        exact hslices j (by omega) c' hj
      refine ⟨_, alUp_last hlast hput, fun h => absurd hlast (Nat.ne_of_lt h), fun _ => ?_, hwidth⟩
      rw [if_pos hdir, hall]
      rfl
  case writes =>
    intro t acc i up dc dg g d hdir
    have hkeep : alAccumulate .split ⟨t, i + 1, some i, acc⟩ i d = .ok acc := alAccumulate_write hdir
    refine ⟨fun hmore => alUp_chunk hmore hkeep, fun hlast => ?_⟩
    rw [alUp_last hlast hkeep, hdir]
    rfl
  case down =>
    intro s dc dg up hreq
    refine ⟨alReq .split ⟨some s, dc, dg⟩ up, fun c hc => ?own, fun hdone => ?front,
      fun h => ?silent, fun i c p hcur hdir hc hp => ?sliced, fun hcur hdir hp => ?missing⟩
    case own =>
      exact ⟨_, isChunkOf_subAt hc, alReq_own (List.getElem?_eq_some_iff.1 hc).1⟩
    case front =>
      rw [alReq_front (pol := .split) hdone]
      exact standsFor_alFront up.req
    case silent =>
      rw [alDown_of_single hreq, alPayload_silent h]
      rfl
    case sliced =>
      rw [alDown_of_single hreq, alPayload_write hcur hdir hp, chunkOf_split hc]
      rfl
    case missing =>
      rw [alDown_of_single hreq, alPayload_missing hcur hdir hp]
      rfl
  case idle =>
    intro dc dg up dn hreq
    refine ⟨_, standsFor_alFront up.req, alDown_none rfl hreq, ?_⟩
    simp only [alUp_none, readyCode_eq_true_iff]
  case others =>
    intro s i dc dg g up d own
    exact ⟨fun hcur => ⟨alUp_pending hcur, alUp_error1 hcur, alUp_error2 hcur⟩,
      fun hcur => ⟨alUp_untaken hcur, fun code hcode => alUp_untaken_fault hcur hcode⟩⟩

end Sys2Proof.Proofs
end

section
/-! The Aligner under `TruncateReinterpret` (R246): the one access at the address aligned down. The
obligation O38. -/

namespace Sys2Proof.Proofs

open Sys2Proof Sys2Proof.Machine

/-! ### The address aligned down -/

theorem toNat_alignDown (t : TransferMeta) :
    (alignDown t).addr.toNat = t.addr.toNat - t.addr.toNat % t.size.bytes := by
  have hle : t.addr.toNat % t.size.bytes ≤ t.addr.toNat := Nat.mod_le _ _
  have hlt : t.addr.toNat < 2 ^ 32 := t.addr.isLt
  have hoff : (BitVec.ofNat 32 (t.addr.toNat % t.size.bytes)).toNat = t.addr.toNat % t.size.bytes := by
    rw [BitVec.toNat_ofNat, Nat.mod_eq_of_lt (hle.trans_lt hlt)]
  have hsub : BitVec.ofNat 32 (t.addr.toNat % t.size.bytes) ≤ t.addr := by rwa [BitVec.le_def, hoff]
  rw [alignDown, xferBytes, BitVec.toNat_sub_of_le hsub, hoff]

/-- Aligning down rounds the address to a multiple of the size (R246). -/
theorem alignDown_eq (t : TransferMeta) :
    alignDown t = { t with addr := BitVec.ofNat 32 (t.addr.toNat / t.size.bytes * t.size.bytes) } := by
  have haddr : (alignDown t).addr = BitVec.ofNat 32 (t.addr.toNat / t.size.bytes * t.size.bytes) := by
    apply BitVec.eq_of_toNat_eq
    have hlt : t.addr.toNat / t.size.bytes * t.size.bytes < 2 ^ 32 :=
      (Nat.div_mul_le_self _ _).trans_lt t.addr.isLt
    rw [toNat_alignDown, BitVec.toNat_ofNat, Nat.mod_eq_of_lt hlt, Nat.div_mul_self_eq_mod_sub_self]
  rw [← haddr]
  rfl

theorem alignDown_of_aligned {t : TransferMeta} (h : t.addr.toNat % t.size.bytes = 0) :
    alignDown t = t := by
  simp [alignDown, xferBytes, h]

/-- The front of the Aligner is every address phase aligned down (R235, R246). -/
theorem alFront_truncate (map : Reinterpret) (req : Option TransferMeta) :
    alFront (.truncateReinterpret map) req = truncReq req := by
  cases req with
  | none => rfl
  | some t =>
    simp only [alFront, truncReq, Option.map_some, ← alignDown_eq]
    split_ifs with hneeds
    · rfl
    · rw [alignDown_of_aligned (needsAligner_eq_false_iff.1 (Bool.eq_false_of_not_eq_true hneeds))]

theorem splitBegun_of_unaligned {t : TransferMeta} (h : t.addr.toNat % t.size.bytes ≠ 0) :
    splitBegun (some t) true = some ⟨t, 1, some 0, List.replicate t.size.bytes 0⟩ :=
  if_pos ⟨rfl, h⟩

/-! ### The data reinterpreted -/

theorem length_reinterpretData {rows : List ReinterpretRow}
    (h : ∀ r ∈ rows, r.src.length = r.dst.length) (t : TransferMeta) (d : Data) :
    (reinterpretData rows t d).length = d.length := by
  unfold reinterpretData
  split
  · rename_i r hr
    obtain ⟨-, hsrc⟩ : r.xfer = t ∧ r.src = d := by simpa using List.find?_some hr
    rw [← h r (List.mem_of_find?_eq_some hr), hsrc]
  · rfl

/-- The write data that goes down is the whole payload, reinterpreted (R235, R246). -/
theorem slice_wireWrite_truncate {map : Reinterpret} {t : TransferMeta} {d : Data}
    (h : ∀ r ∈ map.write, r.src.length = r.dst.length) (hd : d.length = t.size.bytes) :
    sliceData (wireWrite (.truncateReinterpret map) t d) (chunkOf (.truncateReinterpret map) t 0) =
      reinterpretData map.write t d :=
  sliceData_all ((length_reinterpretData h t d).trans hd).le

/-! ### The one access -/

/-- With nothing in data phase every address phase stands downstream aligned down, and an unaligned one
that is accepted is remembered (R235, R238, R246). -/
theorem truncate_idle (map : Reinterpret) (dc : Code) (dg : Bool) {up : M2S} (dn : S2M)
    (hreq : ∀ x, up.req = some x → x.burst = .single) :
    alDown (.truncateReinterpret map) ⟨none, dc, dg⟩ up =
      .ok ⟨truncReq up.req, (dc == .success || dc == .error2) && dg, up.payload⟩ ∧
    alUp (.truncateReinterpret map) ⟨none, dc, dg⟩ up dn =
      .ok (dn, ⟨if dn.code = .success ∨ dn.code = .error2 then splitBegun up.req dn.grant else none,
        dn.code, dn.grant⟩) := by
  rw [alDown_none rfl hreq, alFront_truncate, alUp_none rfl]
  simp only [readyCode_eq_true_iff, and_self]

/-- Settles O38: the cycle that accepts the transfer, one with nothing in data phase, and the data phase
of the one access. -/
theorem truncateMakesOneAccess : Obligations.TruncateMakesOneAccess := by
  refine ⟨?accepted, fun map dc dg up dn hreq => truncate_idle map dc dg dn hreq, ?access⟩
  case accepted =>
    intro map t pay hburst hunaligned
    obtain ⟨hdown, hup⟩ := truncate_idle map .success true (up := ⟨some t, true, pay⟩)
      ⟨.success, none, true⟩ fun x hx => Option.some.inj hx ▸ hburst
    rw [splitBegun_of_unaligned hunaligned] at hup
    rw [truncReq, Option.map_some, ← alignDown_eq] at hdown
    exact ⟨alignDown t, _, toNat_alignDown t, rfl, rfl, hburst, rfl, List.length_replicate, hdown, hup⟩
  case access =>
    intro map t acc d x dc dg g up _ hacc hd hrows hreq al
    have hfront : alReq (.truncateReinterpret map) al up = truncReq up.req :=
      (alReq_front (pol := .truncateReinterpret map) (s := ⟨t, 1, some 0, acc⟩) (Nat.le_refl 1)).trans
        (alFront_truncate map up.req)
    have hdown := alDown_of_single (pol := .truncateReinterpret map) (al := al) hreq
    rw [hfront] at hdown
    refine ⟨fun hdir => ⟨?readDown, ?readUp, fun hx => alUp_badWidth rfl hdir hx⟩,
      fun hdir => ⟨fun hp => ?writeDown, fun hp => ?missing, ?writeUp⟩, ?held, alUp_error2 rfl⟩
    case readDown =>
      rw [hdown, alPayload_silent (.inr hdir)]
      rfl
    case readUp =>
      have hput : alAccumulate (.truncateReinterpret map) ⟨t, 1, some 0, acc⟩ 0 (some d) = .ok d := by
        rw [alAccumulate_read hdir hd]
        exact congrArg _ (putData_all hacc.le)
      rw [alUp_last rfl hput, if_pos hdir]
      rfl
    case writeDown =>
      rw [hdown, alPayload_write rfl hdir hp, slice_wireWrite_truncate hrows hd]
      rfl
    case missing =>
      rw [hdown, alPayload_missing (Option.some_ne_none 0) hdir hp]
      rfl
    case writeUp =>
      rw [alUp_last rfl (alAccumulate_write hdir), hdir]
      rfl
    case held =>
      rintro c (rfl | rfl)
      · exact alUp_pending rfl
      · exact alUp_error1 rfl

end Sys2Proof.Proofs
end

section
/-! The bits of a data word (R266, R270): the bit that a bitband read gives, and the word that a bitband
write puts in the place of the one it read. The obligation O39. -/

namespace Sys2Proof.Proofs

open Sys2Proof Sys2Proof.Machine

theorem dataVal_dataOf (k v : Nat) : dataVal (dataOf k v) = v % 256 ^ k :=
  natOfBytes_bytesOfNat k v

/-- The extracted bit as a number (R266). -/
theorem extractBit_eq (x : Data) (b : Fin 32) :
    extractBit x b = if (dataVal x).testBit b then 1 else 0 := by
  rw [extractBit, ← Nat.toNat_testBit]
  cases (dataVal x).testBit b <;> rfl

/-- A bit keeps its value in the data of a bitband access of any size (R266). -/
theorem dataVal_extracted (x : Data) (b : Fin 32) (z : Size) :
    dataVal (dataOf z.bytes (extractBit x b)) = if (dataVal x).testBit b then 1 else 0 := by
  have hbit : extractBit x b < 256 := (Nat.mod_lt _ Nat.two_pos).trans (by decide)
  have hwide : 256 ≤ 256 ^ z.bytes := Nat.le_self_pow (by cases z <;> decide) 256
  rw [dataVal_dataOf, Nat.mod_eq_of_lt (hbit.trans_le hwide), extractBit_eq]

/-- The number that the modified word spells is the mask-and-or of R270: it fits in the word. -/
theorem dataVal_insertBit (x p : Data) (b : Fin 32) :
    dataVal (insertBit x b p) =
      ((BitVec.ofNat 32 (dataVal x) &&& ~~~(BitVec.ofNat 32 (2 ^ b.val))) |||
        BitVec.ofNat 32 (dataVal p % 2 * 2 ^ b.val)).toNat := by
  rw [insertBit, dataVal_dataOf]
  exact Nat.mod_eq_of_lt (BitVec.isLt _)

/-- A single bit moved to place `b` stands there and nowhere else. -/
theorem testBit_bit_mul_two_pow (v b k : Nat) :
    (v % 2 * 2 ^ b).testBit k = (decide (k = b) && v.testBit 0) := by
  have hplace : b ≤ k → ((v % 2).testBit (k - b) = (decide (k = b) && v.testBit 0)) := by
    intro hle
    have hzero : decide (k - b < 1) = decide (k = b) := by simp; omega
    rw [← Nat.pow_one 2, Nat.testBit_mod_two_pow, hzero]
    by_cases hk : k = b <;> simp [hk]
  rw [Nat.testBit_mul_two_pow]
  by_cases hle : b ≤ k
  · simp [hle, hplace hle]
  · have hne : k ≠ b := by omega
    simp [hle, hne]

/-- Settles O39: the mask keeps every bit but `b`, and the payload's bit 0 is moved there. -/
theorem insertChangesOneBit : Obligations.InsertChangesOneBit := by
  intro x p b k _
  refine ⟨dataOf_length _ _, ?_⟩
  rw [dataVal_insertBit, BitVec.testBit_toNat, BitVec.getLsbD_or, BitVec.getLsbD_and, BitVec.getLsbD_not,
    BitVec.getLsbD_ofNat, BitVec.getLsbD_ofNat, BitVec.getLsbD_ofNat, testBit_bit_mul_two_pow,
    Nat.testBit_two_pow]
  by_cases hk : k = b
  · simp [hk]
  · have hval : ¬ k.val = b.val := fun h => hk (Fin.ext h)
    simp [hk, hval, Ne.symm hval]

end Sys2Proof.Proofs
end

section
/-! The bitband ranges of a Translator (R261, R262): an address lies in one of them at most, which
`bb_translate` finds. The obligation O9. -/

namespace Sys2Proof.Proofs

open Sys2Proof Sys2Proof.Machine

/-- The address is in the region's range, half open (R261). -/
def InRegion (r : BandRegion) (a : Addr) : Prop :=
  r.aliasLo ≤ a.toNat ∧ a.toNat < r.aliasHi

/-- What an address in a region's range stands for (R262). -/
def aliasTarget (r : BandRegion) (a : Addr) : Addr × Fin 32 :=
  (r.targetBase + BitVec.ofNat 32 (4 * ((a.toNat - r.aliasLo) / 128)),
    Fin.ofNat 32 ((a.toNat - r.aliasLo) / 4))

/-- The translation is that of some region whose range holds the address (R262). -/
theorem bandTranslate_mem {rs : List BandRegion} {r : BandRegion} {a : Addr} (hr : r ∈ rs)
    (ha : InRegion r a) : ∃ q ∈ rs, InRegion q a ∧ bandTranslate rs a = some (aliasTarget q a) := by
  obtain ⟨q, hq⟩ : ∃ q, (rs.find? fun q => q.aliasLo ≤ a.toNat && a.toNat < q.aliasHi) = some q :=
    Option.isSome_iff_exists.1 (List.find?_isSome.2 ⟨r, hr, by simpa [InRegion] using ha⟩)
  refine ⟨q, List.mem_of_find?_eq_some hq, by simpa [InRegion] using List.find?_some hq, ?_⟩
  simp only [bandTranslate, hq]
  rfl

/-- Of the regions of one translator at most one holds an address (R261). -/
theorem region_unique {rs : List BandRegion} {r q : BandRegion} {a : Addr}
    (hrs : bandRegionsOk rs = true) (hr : r ∈ rs) (hq : q ∈ rs) (hra : InRegion r a)
    (hqa : InRegion q a) : q = r := by
  have hpairwise : (rs.map fun r => (r.aliasLo, r.aliasHi)).Pairwise Apart :=
    disjointRanges_iff_pairwise.1 (Bool.and_eq_true_iff.1 hrs).2
  have hnever : rs.Pairwise fun r q => ¬ (InRegion r a ∧ InRegion q a) :=
    (List.pairwise_map.1 hpairwise).imp fun hapart => by
      simp only [Apart] at hapart
      simp only [InRegion]
      omega
  exact List.Pairwise.forall_of_forall_of_flip (R := fun r q => InRegion r a → InRegion q a → q = r)
    (fun _ _ _ _ => rfl) (hnever.imp fun h hr hq => absurd ⟨hr, hq⟩ h)
    (hnever.imp fun h hq hr => absurd ⟨hr, hq⟩ h) hr hq hra hqa

/-- No target is given for an address outside every bitband range (R262). -/
theorem bandTranslate_of_not_mem {rs : List BandRegion} {a : Addr} (h : ∀ r ∈ rs, ¬ InRegion r a) :
    bandTranslate rs a = none := by
  have hfind : (rs.find? fun q => q.aliasLo ≤ a.toNat && a.toNat < q.aliasHi) = none := by
    simpa [List.find?_eq_none, InRegion] using h
  simp [bandTranslate, hfind]

/-- The target word's address wraps modulo `2^32` (R262). -/
theorem toNat_aliasTarget (r : BandRegion) (a : Addr) :
    (aliasTarget r a).1.toNat = (r.targetBase.toNat + 4 * ((a.toNat - r.aliasLo) / 128)) % 2 ^ 32 := by
  simp [aliasTarget, BitVec.toNat_add]

/-- Settles O9. -/
theorem bbTranslateFindsTheBit : Obligations.BbTranslateFindsTheBit := by
  intro s p a c hc hrs
  have hrow : exec (.bbTranslate p a) s =
      .next (returned (.bit (bandTranslate (c.cfg.bitband.getD []) a)) s) :=
    execBbTranslate_eq_next.2 ⟨c, hc, rfl⟩
  refine ⟨fun r hr hlo hhi => ?inside, fun houtside => ?outside⟩
  case inside =>
    obtain ⟨q, hq, hqa, htranslate⟩ := bandTranslate_mem hr ⟨hlo, hhi⟩
    obtain rfl := region_unique hrs hr hq ⟨hlo, hhi⟩ hqa
    rw [hrow, htranslate]
    exact ⟨_, _, rfl, toNat_aliasTarget q a, rfl⟩
  case outside =>
    rw [hrow, bandTranslate_of_not_mem houtside]
    rfl

end Sys2Proof.Proofs
end

section
/-! An unaligned bitband access (R263, R304): below a quiet chain's Aligner the Translator rejects it,
while every other chain of a quiet fabric gets as far. The obligation O49. -/

namespace Sys2Proof.Proofs

open Sys2Proof Sys2Proof.Machine

/-- The lane of a chain whose driver has emitted (R110 step 2). -/
def startedLane (c : Chain) (e : MasterDriver × M2S) : Lane :=
  { chain := { c with md := e.1 }, up := e.2, mid := e.2, low := e.2, route := ⟨none, .dflt⟩,
    dsReply := idleReply, ds := c.dec.ds, resp := idleReply, calls := [] }

/-- The same lane below a quiet Aligner (R235). -/
def alignedLane (c : Chain) (e : MasterDriver × M2S) : Lane :=
  { startedLane c e with mid := quietMid c e.2, low := quietMid c e.2 }

section Lanes

variable {c : Chain} {e : MasterDriver × M2S} {x : TransferMeta} {rs : List BandRegion} {r : BandRegion}

theorem laneStart_of_emit {drive : Option (Nat × Drive)} {q : Nat} (h : mdEmit drive q c.md = .ok e) :
    laneStart drive q c = .ok (startedLane c e) := by
  simp [laneStart, h, startedLane, Except.map]

/-- A quiet Aligner lets bare wires through, whatever the Translator below it will say (R235). -/
theorem laneAlign_startedLane (hquiet : c.quietBelow = true) (hbare : Bare e.2) :
    laneAlign (startedLane c e) = .ok (alignedLane c e) := by
  obtain ⟨hal, -⟩ := Chain.quietBelow_iff.1 hquiet
  obtain ⟨hpayload, hburst⟩ := hbare
  cases hpol : c.cfg.aligner with
  | none => simp [laneAlign, startedLane, alignedLane, quietMid, alignerDown, hpol, Except.map]
  | some pol =>
    simp [laneAlign, startedLane, alignedLane, quietMid, alignerDown, hpol, alDown,
      refuseBurst_of_single hburst, alPayload, hal, Aligner.reset, hpayload, alReq, Except.map]

/-- What is presented below the Aligner (R235). -/
theorem quietMid_req (w : M2S) : (quietMid c w).req = w.req.map c.presented := by
  unfold quietMid
  cases hpol : c.cfg.aligner <;> cases w.req <;> simp [alFront, Chain.presented, hpol]

theorem presented_burst (h : x.burst = .single) : (c.presented x).burst = .single := by
  unfold Chain.presented
  split
  · split
    · exact subAt_burst _ _ _ h
    · exact h
  · exact h

/-- An access inside a bitband range whose address is not a multiple of 4 is a violation (R263). -/
theorem bbTranslateReq_unaligned (hr : r ∈ rs) (hx : InRegion r x.addr) (hoff : x.addr.toNat % 4 ≠ 0) :
    bbTranslateReq rs (some x) = .error .unalignedBitband := by
  obtain ⟨q, -, -, htranslate⟩ := bandTranslate_mem hr hx
  simp [bbTranslateReq, htranslate, hoff]

/-- So the Translator's pass faults at the chain that presents it, also behind an Aligner (R263). -/
theorem laneBand_unaligned (hquiet : c.quietBelow = true) (hreq : e.2.req = some x)
    (hburst : x.burst = .single) (hband : c.cfg.bitband = some rs) (hr : r ∈ rs)
    (hx : InRegion r (c.presented x).addr) (hoff : (c.presented x).addr.toNat % 4 ≠ 0) :
    laneBand (alignedLane c e) = .error .unalignedBitband := by
  obtain ⟨-, hbb, -⟩ := Chain.quietBelow_iff.1 hquiet
  have hmid : (quietMid c e.2).req = some (c.presented x) := by rw [quietMid_req, hreq]; rfl
  simp [laneBand, alignedLane, startedLane, bitbandDown, hband, bbDown, hmid,
    refuseBurst_ok (presented_burst hburst), bbReq, hbb, Translator.reset, bbFwd,
    bbTranslateReq_unaligned hr hx hoff, Except.map]

end Lanes

/-- So the cycle of a quiet fabric faults (R303): up to the Aligners every chain gets, and below them only
the one at port `p` fails. -/
theorem cycle_unalignedAlias {s : State} {p : Nat} {c : Chain} {x : TransferMeta} {ready : Bool}
    {v : Word} {rs : List BandRegion} {r : BandRegion} {reply : Option (Nat × Reply)} (hs : s.Quiet)
    (hc : s.chains[p]? = some c) (hburst : x.burst = .single) (hband : c.cfg.bitband = some rs)
    (hr : r ∈ rs) (hx : InRegion r (c.presented x).addr) (hoff : (c.presented x).addr.toNat % 4 ≠ 0) :
    cycle (some (p, ⟨some x, ready, ⟨false, v⟩⟩)) reply s = .error .unalignedBitband := by
  have hbelow : ∀ y ∈ s.chains.zipIdx, y.1.quietBelow = true := fun y hy =>
    hs.1.1 _ (List.fst_mem_of_mem_zipIdx hy)
  have hport : commandEmits p x ready (c, p) = (_, ⟨some x, ready, none⟩) := if_pos rfl
  have hother : ∀ y : Chain × Nat, y.2 ≠ p → (commandEmits p x ready y).2 = ⟨none, true, none⟩ :=
    fun y hne => by simp [commandEmits, hne]
  have hcases := port_or_quiet hc fun q c' _ hq => hs.2 c' (List.mem_of_getElem? hq)
  have hstart : mapE (fun y : Chain × Nat => laneStart (some (p, ⟨some x, ready, ⟨false, v⟩⟩)) y.2 y.1)
      s.chains.zipIdx = .ok (s.chains.zipIdx.map fun y => startedLane y.1 (commandEmits p x ready y)) :=
    mapE_of_ok fun y hy => laneStart_of_emit
      (mdEmit_command_quiet hburst (hs.2 _ (List.fst_mem_of_mem_zipIdx hy)))
  have halign : mapE laneAlign
      (s.chains.zipIdx.map fun y => startedLane y.1 (commandEmits p x ready y)) =
        .ok (s.chains.zipIdx.map fun y => alignedLane y.1 (commandEmits p x ready y)) := by
    rw [mapE_map]
    refine mapE_of_ok fun y hy => laneAlign_startedLane (hbelow y hy) ?_
    obtain rfl | ⟨hne, -⟩ := hcases y hy
    · rw [hport]
      exact ⟨rfl, fun z hz => Option.some.inj hz ▸ hburst⟩
    · rw [hother y hne]
      exact ⟨rfl, nofun⟩
  have hfault : laneBand (alignedLane c (commandEmits p x ready (c, p))) = .error .unalignedBitband :=
    laneBand_unaligned (hs.1.1 c (List.mem_of_getElem? hc)) (by rw [hport]) hburst hband hr hx
      hoff
  have hbandpass : mapE laneBand
      (s.chains.zipIdx.map fun y => alignedLane y.1 (commandEmits p x ready y)) =
        .error .unalignedBitband := by
    rw [mapE_map]
    refine mapE_error (a := (c, p)) (List.mem_zipIdx_iff_getElem?.2 hc) hfault fun y hy => ?_
    obtain rfl | ⟨hne, -⟩ := hcases y hy
    · exact .inr hfault
    · have hw : Presentable y.1 (commandEmits p x ready y).2 := by
        rw [hother y hne]
        exact ⟨rfl, nofun⟩
      exact .inl ⟨_, quiet_band (hbelow y hy) hw rfl rfl rfl⟩
  simp only [cycle, chainsDown, hstart, halign, hbandpass, bind, Except.bind]

/-- Settles O49: a word without payload fits every transfer, so the cycle runs, and faults. -/
theorem unalignedAliasFaults : Obligations.UnalignedAliasFaults := by
  intro s p i x ready v c rs r hs hc hi hburst hband hr hlo hhi hoff
  rw [exec_of_commandOf hi, present, withWord_of_fits hc rfl,
    cycle_unalignedAlias hs hc hburst hband hr ⟨hlo, hhi⟩ hoff]
  rfl

end Sys2Proof.Proofs
end

section
/-! The cycle of a Translator (R263 to R277): what stands downstream of it, what it answers upstream, and
where it goes next, state by state. -/

namespace Sys2Proof.Proofs

open Sys2Proof Sys2Proof.Machine

/-! ### The address phase -/

section AddressPhase

variable {rs : List BandRegion} {req : Option TransferMeta} {bb : Translator} {up : M2S}

theorem bandOk_none : BandOk rs none :=
  nofun

/-- An access at a multiple of 4 is not rejected, inside a bitband range or outside (R263). -/
theorem bandOk_some {t : TransferMeta} (hburst : t.burst = .single) (haligned : t.addr.toNat % 4 = 0) :
    BandOk rs (some t) := by
  intro x hx
  obtain rfl := Option.some.inj hx
  exact ⟨hburst, fun _ => haligned⟩

/-- Nor is an access outside every bitband range. -/
theorem bandOk_of_outside
    (h : ∀ t, req = some t → t.burst = .single ∧ bandTranslate rs t.addr = none) : BandOk rs req :=
  fun t ht => ⟨(h t ht).1, fun halias => absurd (h t ht).2 halias⟩

theorem bbTranslateReq_of_bandOk (h : BandOk rs req) : bbTranslateReq rs req = .ok (bandReq rs req) := by
  cases req with
  | none => rfl
  | some t =>
    obtain ⟨-, haligned⟩ := h t rfl
    cases halias : bandTranslate rs t.addr with
    | none => simp [bbTranslateReq, bandReq, halias]
    | some y => simp [bbTranslateReq, bandReq, halias, haligned]

theorem bandReq_alias {t : TransferMeta} {w : Addr} {b : Fin 32}
    (h : bandTranslate rs t.addr = some (w, b)) :
    bandReq rs (some t) = some ⟨.read, w, .word, .single, t.prot⟩ := by
  simp [bandReq, h]

/-- Outside every bitband range the translation is the identity (R263, R278). -/
theorem bandReq_outside (h : ∀ t, req = some t → bandTranslate rs t.addr = none) :
    bandReq rs req = req := by
  cases req with
  | none => rfl
  | some t => simp [bandReq, h t rfl]

theorem bandBegun_read {t : TransferMeta} {w : Addr} {b : Fin 32}
    (h : bandTranslate rs t.addr = some (w, b)) (hdir : t.dir = .read) :
    bandBegun rs (some t) true = .bitbandRead b t.size := by
  simp [bandBegun, h, hdir]

theorem bandBegun_write {t : TransferMeta} {w : Addr} {b : Fin 32}
    (h : bandTranslate rs t.addr = some (w, b)) (hdir : t.dir = .write) :
    bandBegun rs (some t) true = .bitbandWriteReading ⟨w, b, t.prot⟩ := by
  simp [bandBegun, h, hdir]

/-- No bitband access is entered outside every bitband range (R278). -/
theorem bandBegun_outside (h : ∀ t, req = some t → bandTranslate rs t.addr = none) (g : Bool) :
    bandBegun rs req g = .normal := by
  cases req with
  | none => rfl
  | some t => simp [bandBegun, h t rfl]

/-- `entry` is the bitband access that begins, if its address phase is forwarded in a cycle of a ready code
(R277). -/
theorem bbEntry_eq (rs : List BandRegion) (bb : Translator) (up : M2S) (code : Code) (g : Bool) :
    bbEntry rs bb up code g =
      if (bbFwd bb && readyCode code) = true then bandBegun rs up.req g else .normal := by
  unfold bbEntry bandBegun
  cases up.req with
  | none => simp
  | some t =>
    cases halias : bandTranslate rs t.addr with
    | none => simp [halias]
    | some y => cases g <;> cases hdir : t.dir <;> simp [acceptedBy, halias, hdir]

/-- A state that forwards translates the address phase (R264). -/
theorem bbReq_forwarded (hfwd : bbFwd bb = true) (h : BandOk rs up.req) :
    bbReq rs bb up = .ok (bandReq rs up.req) := by
  cases hst : bb.state with
  | bitbandWriteRequestWriting r x => simp [bbFwd, hst] at hfwd
  | _ => simp [bbReq, hst, hfwd, bbTranslateReq_of_bandOk h]

end AddressPhase

/-! ### The two passes -/

section Passes

variable {rs : List BandRegion} {bb : Translator} {up : M2S} {dn : S2M}

/-- The downstream pass sends what its two parts give, if no rule rejects the address phase (R264). -/
theorem bbDown_of_parts {req : Option TransferMeta} (hok : BandOk rs up.req)
    (hreq : bbReq rs bb up = .ok req) :
    bbDown rs bb up = (bbPayload bb up).map fun pl =>
      ⟨req, (bb.dnCode == .success || bb.dnCode == .error2) && bb.dnGrant, pl⟩ := by
  rw [bbDown, refuseBurst_of_single fun t ht => (hok t ht).1, hreq, readyFlag, readyCode_eq]
  cases bbPayload bb up <;> rfl

/-- The same for a state that forwards. -/
theorem bbDown_forwarded (hfwd : bbFwd bb = true) (hok : BandOk rs up.req) :
    bbDown rs bb up = (bbPayload bb up).map fun pl =>
      ⟨bandReq rs up.req, (bb.dnCode == .success || bb.dnCode == .error2) && bb.dnGrant, pl⟩ :=
  bbDown_of_parts hok (bbReq_forwarded hfwd hok)

theorem bbUp_of_answer {a : BandAnswer} (h : bbAnswer bb dn = .ok a) :
    bbUp rs bb up dn = .ok (⟨a.code, a.data, if bbFwd bb then dn.grant else true⟩,
      ⟨bbNext rs bb up dn a, dn.code, dn.grant⟩) := by
  rw [bbUp, h]

theorem bbUp_of_fault {e : Fault} (h : bbAnswer bb dn = .error e) : bbUp rs bb up dn = .error e := by
  rw [bbUp, h]

/-- A word of 4 bytes is taken (R265). -/
theorem bbWord_of_length {code : Code} {g : Bool} {x : Data} (hx : x.length = 4) :
    bbWord ⟨code, some x, g⟩ = .ok x :=
  if_pos hx

/-- Nothing else is (R265). -/
theorem bbWord_badWidth {code : Code} {g : Bool} {d : Option Data}
    (h : ∀ x, d = some x → x.length ≠ 4) : bbWord ⟨code, d, g⟩ = .error .badReadWidth := by
  cases d with
  | none => rfl
  | some x => exact if_neg (h x rfl)

end Passes

/-! ### `Normal` -/

section Normal

variable {rs : List BandRegion} {dc : Code} {dg : Bool} {up : M2S}

theorem bbDown_normal (hok : BandOk rs up.req) :
    bbDown rs ⟨.normal, dc, dg⟩ up =
      .ok ⟨bandReq rs up.req, (dc == .success || dc == .error2) && dg, up.payload⟩ :=
  bbDown_forwarded rfl hok

/-- The response passes, and a bitband access that is accepted beside it is entered (R265, R277). -/
theorem bbUp_normal (rs : List BandRegion) (dc : Code) (dg : Bool) (up : M2S) (dn : S2M) :
    bbUp rs ⟨.normal, dc, dg⟩ up dn =
      .ok (dn, ⟨if dn.code = .success ∨ dn.code = .error2 then bandBegun rs up.req dn.grant else .normal,
        dn.code, dn.grant⟩) := by
  rw [bbUp_of_answer rfl]
  simp only [bbNext, bbEntry_eq, bbFwd, Bool.true_and, readyCode_eq_true_iff, if_true]

end Normal

/-! ### A bitband read -/

section Read

variable {rs : List BandRegion} {b : Fin 32} {z : Size} {dc code : Code} {dg g : Bool} {up : M2S}

theorem bbDown_read (hok : BandOk rs up.req) :
    bbDown rs ⟨.bitbandRead b z, dc, dg⟩ up =
      .ok ⟨bandReq rs up.req, (dc == .success || dc == .error2) && dg, none⟩ :=
  bbDown_forwarded rfl hok

/-- A word read goes up as its bit (R265, R266). -/
theorem bbAnswer_read {x : Data} (hx : x.length = 4) :
    bbAnswer ⟨.bitbandRead b z, dc, dg⟩ ⟨.success, some x, g⟩ =
      .ok ⟨.success, some (dataOf z.bytes (extractBit x b)), x⟩ := by
  simp [bbAnswer, bbWord_of_length hx, Except.map]

/-- Every other code goes up as it comes (R265, R276). -/
theorem bbAnswer_read_of_ne_success (hcode : code ≠ .success) :
    bbAnswer ⟨.bitbandRead b z, dc, dg⟩ ⟨code, none, g⟩ = .ok ⟨code, none, []⟩ := by
  simp [bbAnswer, hcode]

/-- A wait and the first error cycle leave the translator in the read (R267, R277). -/
theorem bbUp_read_held (h : readyCode code = false) :
    bbUp rs ⟨.bitbandRead b z, dc, dg⟩ up ⟨code, none, g⟩ =
      .ok (⟨code, none, g⟩, ⟨.bitbandRead b z, code, g⟩) := by
  have hcode : code ≠ .success := by rintro rfl; cases h
  rw [bbUp_of_answer (bbAnswer_read_of_ne_success hcode)]
  simp [bbNext, bbFwd, h]

/-- The second error cycle ends the read (R276, R277). -/
theorem bbUp_read_error2 :
    bbUp rs ⟨.bitbandRead b z, dc, dg⟩ up ⟨.error2, none, g⟩ =
      .ok (⟨.error2, none, g⟩, ⟨bandBegun rs up.req g, .error2, g⟩) := by
  rw [bbUp_of_answer (bbAnswer_read_of_ne_success (by decide))]
  simp [bbNext, bbEntry_eq, bbFwd]

/-- So does the word (R267, R277). -/
theorem bbUp_read_success {x : Data} (hx : x.length = 4) :
    bbUp rs ⟨.bitbandRead b z, dc, dg⟩ up ⟨.success, some x, g⟩ =
      .ok (⟨.success, some (dataOf z.bytes (extractBit x b)), g⟩,
        ⟨bandBegun rs up.req g, .success, g⟩) := by
  rw [bbUp_of_answer (bbAnswer_read hx)]
  simp [bbNext, bbEntry_eq, bbFwd]

theorem bbUp_read_badWidth {d : Option Data} (h : ∀ x, d = some x → x.length ≠ 4) :
    bbUp rs ⟨.bitbandRead b z, dc, dg⟩ up ⟨.success, d, g⟩ = .error .badReadWidth :=
  bbUp_of_fault (by simp [bbAnswer, bbWord_badWidth h, Except.map])

end Read

/-! ### The read of a bitband write -/

section WriteReading

variable {rs : List BandRegion} {r : BandWrite} {dc code : Code} {dg g : Bool} {up : M2S}

/-- The master's address phase is not forwarded (R264, R269). -/
theorem bbDown_writeReading (hdc : dc ≠ .error1) (hok : BandOk rs up.req) :
    bbDown rs ⟨.bitbandWriteReading r, dc, dg⟩ up =
      .ok ⟨none, (dc == .success || dc == .error2) && dg, none⟩ :=
  bbDown_of_parts hok (by simp [bbReq, bbFwd, hdc])

/-- But it is in the second error cycle (R276). -/
theorem bbDown_writeReading_error2 (hok : BandOk rs up.req) :
    bbDown rs ⟨.bitbandWriteReading r, .error1, dg⟩ up = .ok ⟨bandReq rs up.req, false, none⟩ :=
  bbDown_forwarded rfl hok

/-- A wait and the first error cycle go up and leave the translator in the read (R269, R276). -/
theorem bbUp_writeReading_held (hdc : dc ≠ .error1) (h : readyCode code = false) :
    bbUp rs ⟨.bitbandWriteReading r, dc, dg⟩ up ⟨code, none, g⟩ =
      .ok (⟨code, none, true⟩, ⟨.bitbandWriteReading r, code, g⟩) := by
  obtain rfl | rfl := readyCode_eq_false_iff.1 h
  all_goals
    rw [bbUp_of_answer rfl]
    simp [bbNext, bbFwd, hdc]

/-- The word leads to the write, and the master waits (R269). -/
theorem bbUp_writeReading_success {x : Data} (hdc : dc ≠ .error1) (hx : x.length = 4) :
    bbUp rs ⟨.bitbandWriteReading r, dc, dg⟩ up ⟨.success, some x, g⟩ =
      .ok (⟨.pending, none, true⟩, ⟨.bitbandWriteRequestWriting r x, .success, g⟩) := by
  have ha : bbAnswer ⟨.bitbandWriteReading r, dc, dg⟩ ⟨.success, some x, g⟩ = .ok ⟨.pending, none, x⟩ := by
    simp [bbAnswer, bbWord_of_length hx, Except.map]
  rw [bbUp_of_answer ha]
  simp [bbNext, bbFwd, hdc]

theorem bbUp_writeReading_badWidth {d : Option Data} (h : ∀ x, d = some x → x.length ≠ 4) :
    bbUp rs ⟨.bitbandWriteReading r, dc, dg⟩ up ⟨.success, d, g⟩ = .error .badReadWidth :=
  bbUp_of_fault (by simp [bbAnswer, bbWord_badWidth h, Except.map])

/-- After the second error cycle no write is issued (R276). -/
theorem bbUp_writeReading_error2 :
    bbUp rs ⟨.bitbandWriteReading r, .error1, dg⟩ up ⟨.error2, none, g⟩ =
      .ok (⟨.error2, none, g⟩, ⟨bandBegun rs up.req g, .error2, g⟩) := by
  rw [bbUp_of_answer rfl]
  simp [bbNext, bbEntry_eq, bbFwd]

end WriteReading

/-! ### The write of a bitband write -/

section Writing

variable {rs : List BandRegion} {r : BandWrite} {x : Data} {dc code : Code} {dg g : Bool} {up : M2S}
  {st : BandState}

/-- The address phase of the write stands in place of the master's (R271). -/
theorem bbDown_requestWriting (hok : BandOk rs up.req) :
    bbDown rs ⟨.bitbandWriteRequestWriting r x, dc, dg⟩ up =
      .ok ⟨some ⟨.write, r.addr, .word, .single, r.prot⟩,
        (dc == .success || dc == .error2) && dg, none⟩ :=
  bbDown_of_parts hok rfl

/-- It is presented until it is granted, and the master waits (R271). -/
theorem bbUp_requestWriting :
    bbUp rs ⟨.bitbandWriteRequestWriting r x, dc, dg⟩ up ⟨.success, none, g⟩ =
      .ok (⟨.pending, none, true⟩,
        ⟨if g then .bitbandWriteWritingFirstCycle r x else .bitbandWriteRequestWriting r x,
          .success, g⟩) := by
  rw [bbUp_of_answer rfl]
  rfl

/-- Nothing is in data phase beside it, so nothing but `Success` may arrive (R265, R271). -/
theorem bbUp_requestWriting_fault (hcode : code ≠ .success) :
    bbUp rs ⟨.bitbandWriteRequestWriting r x, dc, dg⟩ up ⟨code, none, g⟩ =
      .error .responseWithoutTransfer :=
  bbUp_of_fault (if_neg hcode)

/-- The two states in which the write is in data phase (R272, R273). -/
def WriteInData (st : BandState) (r : BandWrite) (x : Data) : Prop :=
  st = .bitbandWriteWritingFirstCycle r x ∨ st = .bitbandWriteWriting r x

theorem WriteInData.fwd (h : WriteInData st r x) : bbFwd ⟨st, dc, dg⟩ = true := by
  obtain rfl | rfl := h <;> rfl

theorem WriteInData.payload (h : WriteInData st r x) :
    bbPayload ⟨st, dc, dg⟩ up = bbWriteBack r x up := by
  obtain rfl | rfl := h <;> rfl

/-- The word with the one bit inserted goes down, beside the master's next address phase (R272). -/
theorem WriteInData.downstream {p : Data} (h : WriteInData st r x) (hok : BandOk rs up.req)
    (hp : up.payload = some p) :
    bbDown rs ⟨st, dc, dg⟩ up =
      .ok ⟨bandReq rs up.req, (dc == .success || dc == .error2) && dg, some (insertBit x r.bit p)⟩ := by
  rw [bbDown_forwarded h.fwd hok, h.payload, bbWriteBack, hp]
  rfl

theorem WriteInData.downstream_missing (h : WriteInData st r x) (hok : BandOk rs up.req)
    (hp : up.payload = none) : bbDown rs ⟨st, dc, dg⟩ up = .error .missingWriteData := by
  rw [bbDown_forwarded h.fwd hok, h.payload, bbWriteBack, hp]
  rfl

/-- The response goes up; a code that is not ready keeps the write in data phase, any other ends it
(R272, R273, R276, R277). -/
theorem WriteInData.upstream (h : WriteInData st r x) :
    bbUp rs ⟨st, dc, dg⟩ up ⟨code, none, g⟩ =
      .ok (⟨code, none, g⟩,
        ⟨if readyCode code = true then bandBegun rs up.req g else .bitbandWriteWriting r x, code, g⟩) := by
  have ha : bbAnswer ⟨st, dc, dg⟩ ⟨code, none, g⟩ = .ok ⟨code, none, []⟩ := by
    obtain rfl | rfl := h <;> rfl
  have hnext : bbNext rs ⟨st, dc, dg⟩ up ⟨code, none, g⟩ ⟨code, none, []⟩ =
      if readyCode code = true then bbEntry rs ⟨st, dc, dg⟩ up code g else .bitbandWriteWriting r x := by
    obtain rfl | rfl := h <;> rfl
  rw [bbUp_of_answer ha, hnext, bbEntry_eq, h.fwd]
  cases readyCode code <;> rfl

end Writing

end Sys2Proof.Proofs
end

section
/-! The accesses to a bitband word: a read is a word read of which one bit goes up, a write is a word read
and a word write. The obligations O40 and O41. -/

namespace Sys2Proof.Proofs

open Sys2Proof Sys2Proof.Machine

/-- Outside every bitband range the translator is a wire (R278). -/
theorem band_outside {rs : List BandRegion} {dc : Code} {dg : Bool} {up : M2S} {dn : S2M}
    (hreq : ∀ t, up.req = some t → t.burst = .single ∧ bandTranslate rs t.addr = none)
    (hready : up.ready = ((dc == .success || dc == .error2) && dg)) :
    bbDown rs ⟨.normal, dc, dg⟩ up = .ok up ∧
      bbUp rs ⟨.normal, dc, dg⟩ up dn = .ok (dn, ⟨.normal, dn.code, dn.grant⟩) := by
  have houtside : ∀ t, up.req = some t → bandTranslate rs t.addr = none := fun t ht => (hreq t ht).2
  rw [bbDown_normal (bandOk_of_outside hreq), bandReq_outside houtside, ← hready, bbUp_normal,
    bandBegun_outside houtside, ite_self]
  exact ⟨rfl, rfl⟩

/-- The cycle in which a translator after reset accepts a bitband access (R263, R277). -/
theorem band_accepts {rs : List BandRegion} {t : TransferMeta} {w : Addr} {b : Fin 32}
    (halias : bandTranslate rs t.addr = some (w, b)) (haligned : t.addr.toNat % 4 = 0)
    (hburst : t.burst = .single) :
    bbDown rs .reset ⟨some t, true, none⟩ = .ok ⟨some ⟨.read, w, .word, .single, t.prot⟩, true, none⟩ ∧
    bbUp rs .reset ⟨some t, true, none⟩ ⟨.success, none, true⟩ =
      .ok (⟨.success, none, true⟩, ⟨bandBegun rs (some t) true, .success, true⟩) := by
  rw [← bandReq_alias halias]
  exact ⟨bbDown_normal (up := ⟨some t, true, none⟩) (bandOk_some hburst haligned), bbUp_normal ..⟩

/-- Settles O40: the answer with the bit, a bitband read from its address phase on, the wire, and one cycle
of `Normal` and of `BitbandRead`. -/
theorem extractGivesTheBit : Obligations.ExtractGivesTheBit := by
  refine ⟨?answer, ?path, fun rs dc dg up dn => band_outside, ?cycle⟩
  case answer =>
    intro x b z dc g hx
    exact ⟨_, bbAnswer_read hx, dataOf_length _ _, dataVal_extracted x b z⟩
  case path =>
    intro rs t w b x up g halias haligned hburst hdir hx hreq
    obtain ⟨hdown, hup⟩ := band_accepts halias haligned hburst
    rw [bandBegun_read halias hdir] at hup
    have hok : BandOk rs up.req := hreq ▸ bandOk_none
    have hidle : ∀ g, bandBegun rs up.req g = .normal := fun g => by rw [hreq]; rfl
    refine ⟨_, _, hdown, hup, (bbDown_read hok).trans ?_, bbUp_read_held rfl, bbUp_read_held rfl,
      bbUp_read_error2.trans (by rw [hidle]), (bbUp_read_success hx).trans (by rw [hidle]; rfl),
      dataOf_length _ _, dataVal_extracted x b t.size⟩
    rw [hreq]
    rfl
  case cycle =>
    intro rs b z dc dg g up dn hok
    exact ⟨bbDown_normal hok, bbUp_normal .., bbDown_read hok,
      fun c hc => bbUp_read_held (readyCode_eq_false_iff.2 hc), bbUp_read_error2,
      fun y hy => bbUp_read_badWidth hy,
      fun x hx => ⟨_, bbUp_read_success hx, dataOf_length _ _, dataVal_extracted x b z⟩⟩

/-- Settles O41: the four cycles of a write one after the other, then each state's cycle. -/
theorem bandWriteIsReadThenWrite : Obligations.BandWriteIsReadThenWrite := by
  refine ⟨?path, ?cycle⟩
  case path =>
    intro rs t w b p x up1 up2 up3 halias haligned hburst hdir hx hreq1 hreq2 hreq3 hp
    obtain ⟨hdown, hup⟩ := band_accepts halias haligned hburst
    rw [bandBegun_write halias hdir] at hup
    have hwrite : WriteInData (.bitbandWriteWritingFirstCycle ⟨w, b, t.prot⟩ x) ⟨w, b, t.prot⟩ x :=
      .inl rfl
    exact ⟨_, _, _, _, hdown, hup,
      bbDown_writeReading nofun (hreq1 ▸ bandOk_none), bbUp_writeReading_success nofun hx,
      bbDown_requestWriting (hreq2 ▸ bandOk_none), bbUp_requestWriting,
      (hwrite.downstream (hreq3 ▸ bandOk_none) hp).trans (by rw [hreq3]; rfl),
      hwrite.upstream.trans (by rw [hreq3]; rfl), rfl⟩
  case cycle =>
    intro rs r x dc dg g up hok
    refine ⟨fun hdc => ⟨bbDown_writeReading hdc hok, bbUp_writeReading_held hdc rfl,
        bbUp_writeReading_held hdc rfl, bbUp_writeReading_success hdc,
        fun d hd => bbUp_writeReading_badWidth hd⟩,
      bbDown_writeReading_error2 hok, bbUp_writeReading_error2, bbDown_requestWriting hok,
      bbUp_requestWriting, fun c hc => bbUp_requestWriting_fault hc, fun st hst => ?writing⟩
    have hwrite : WriteInData st r x := hst
    refine ⟨fun p hp => hwrite.downstream hok hp, hwrite.downstream_missing hok,
      fun c hc => ?held, fun c hc => ?ended⟩
    case held =>
      rw [hwrite.upstream, readyCode_eq_false_iff.2 hc]
      rfl
    case ended =>
      rw [hwrite.upstream, readyCode_eq_true_iff.2 hc]
      rfl

end Sys2Proof.Proofs
end

section
/-! The two-cycle error pair (R159, R307), followed from one Master Driver through a whole cycle to every
instruction that takes one: the obligation O54. -/

namespace Sys2Proof.Proofs

open Sys2Proof Sys2Proof.Machine

/-- A driver that dispatches and then takes a response ends with `Error2` exactly when it began after
`Error1`: dispatch keeps the last code, and the check of the response compares the two (R158, R159). -/
theorem mdReceive_error2_iff_of_emit {drive : Option (Nat × Drive)} {p q : Nat} {b : Bool}
    {md sent md' : MasterDriver} {w : M2S} {r : S2M} {ev : List Event}
    (hemit : mdEmit drive p md = .ok (sent, w)) (hreceive : mdReceive b q sent r = .ok (md', ev)) :
    md'.lastCode = .error2 ↔ md.lastCode = .error1 := by
  obtain ⟨-, hkept, -⟩ := md_emit_spec hemit
  obtain ⟨hcode, -⟩ := mdReceive_lastCode hreceive
  rw [hcode, ← hkept]
  exact mdReceive_err hreceive

/-- In a whole cycle, whatever an instruction puts on a port, a chain's Master Driver receives `Error2`
exactly after `Error1` (R307). -/
theorem cycle_error2_iff {drive : Option (Nat × Drive)} {reply : Option (Nat × Reply)} {s t : State}
    {p : Nat} {c c' : Chain} (h : cycle drive reply s = .ok t) (hc : s.chains[p]? = some c)
    (hc' : t.chains[p]? = some c') : c'.md.lastCode = .error2 ↔ c.md.lastCode = .error1 := by
  obtain ⟨before, sent, w, received, resp, ev, al, bb, hbefore, hemit, hreceive,
    _, _, _, _, _, _, _, _, _, -, -, -, -, -, -, -, rfl⟩ := cycle_chain h hc'
  obtain rfl : before = c := Option.some.inj (hbefore.symm.trans hc)
  have hpair : received.lastCode = .error2 ↔ before.md.lastCode = .error1 :=
    mdReceive_error2_iff_of_emit hemit hreceive
  exact hpair

/-- Settles O54: from a cycle boundary an instruction that takes a cycle runs a whole one, never the
clock's commit alone. -/
theorem error2FollowsError1 : Obligations.Error2FollowsError1 := by
  intro s t i p c c' hboundary htakes hexec hc hc'
  obtain ⟨_, _, hcycle, -, -⟩ | ⟨-, -, hoff⟩ := takes_cycle htakes hexec
  · exact cycle_error2_iff hcycle hc hc'
  · exact absurd hboundary hoff

end Sys2Proof.Proofs
end
